-- ==== Sys2Proof/Word.lean ====
section
/-! DEFINITION. The word types of the engine (spec/00_scope.md R11): bits are numbered from the least
significant end, command words are 64 bits, parameter words and CSRs 32 bits, data memory bytes 8 bits. -/

namespace Sys2Proof

/-- One byte of data memory (R11). -/
abbrev Byte := BitVec 8

/-- One parameter word, or one control and status register (R11). -/
abbrev Word := BitVec 32

/-- A command index, or the number of commands (R26). `CP` counts up to `CMD_WORDS`, which R8 lets be 2^32: one bit more
than the 32 of the register (log entry 5). -/
abbrev CmdIndex := BitVec 33

/-- One command word (R11, R90). -/
abbrev CmdWord := BitVec 64

end Sys2Proof
end

