-- ==== Sys2Proof/Machine/Tables.lean ====
section
/-! DEFINITION. The read-only tables of the engine (R32), with the values the spec prints: `RANGE_TAB_LPS` (R163),
`TRANS_TBL` (R164), `CTX_OFFSET` and `CTX_SIZE` (R30), `INIT_VALUE` (R352). The spec marks the values of the first,
second and last as general knowledge; see log entry 22. -/

namespace Sys2Proof.Machine

/-- `RANGE_TAB_LPS`, states 0 to 15 (R163). -/
def rangeTabLpsRows0 : List (List Nat) := [
  [128, 176, 208, 240], [128, 167, 197, 227], [128, 158, 187, 216], [123, 150, 178, 205],
  [116, 142, 169, 195], [111, 135, 160, 185], [105, 128, 152, 175], [100, 122, 144, 166],
  [95, 116, 137, 158], [90, 110, 130, 150], [85, 104, 123, 142], [81, 99, 117, 135],
  [77, 94, 111, 128], [73, 89, 105, 122], [69, 85, 100, 116], [66, 80, 95, 110]]

/-- `RANGE_TAB_LPS`, states 16 to 31 (R163). -/
def rangeTabLpsRows1 : List (List Nat) := [
  [62, 76, 90, 104], [59, 72, 86, 99], [56, 69, 81, 94], [53, 65, 77, 89],
  [51, 62, 73, 85], [48, 59, 69, 80], [46, 56, 66, 76], [43, 53, 63, 72],
  [41, 50, 59, 69], [39, 48, 56, 65], [37, 45, 54, 62], [35, 43, 51, 59],
  [33, 41, 48, 56], [32, 39, 46, 53], [30, 37, 43, 50], [29, 35, 41, 48]]

/-- `RANGE_TAB_LPS`, states 32 to 47 (R163). -/
def rangeTabLpsRows2 : List (List Nat) := [
  [27, 33, 39, 45], [26, 31, 37, 43], [24, 30, 35, 41], [23, 28, 33, 39],
  [22, 27, 32, 37], [21, 26, 30, 35], [20, 24, 29, 33], [19, 23, 27, 31],
  [18, 22, 26, 30], [17, 21, 25, 28], [16, 20, 23, 27], [15, 19, 22, 25],
  [14, 18, 21, 24], [14, 17, 20, 23], [13, 16, 19, 22], [12, 15, 18, 21]]

/-- `RANGE_TAB_LPS`, states 48 to 63 (R163). -/
def rangeTabLpsRows3 : List (List Nat) := [
  [12, 14, 17, 20], [11, 14, 16, 19], [11, 13, 15, 18], [10, 12, 15, 17],
  [10, 12, 14, 16], [9, 11, 13, 15], [9, 11, 12, 14], [8, 10, 12, 14],
  [8, 9, 11, 13], [7, 9, 11, 12], [7, 9, 10, 12], [7, 8, 10, 11],
  [6, 8, 9, 11], [6, 7, 9, 10], [6, 7, 8, 9], [2, 2, 2, 2]]

/-- `RANGE_TAB_LPS[state][q]` (R163): the width given to the least probable symbol. -/
def rangeTabLps (state : BitVec 6) (q : BitVec 2) : BitVec 8 :=
  BitVec.ofNat 8 (((rangeTabLpsRows0 ++ rangeTabLpsRows1 ++ rangeTabLpsRows2 ++ rangeTabLpsRows3).getD state.toNat []).getD
    q.toNat 0)

/-- `TRANS_TBL[1]` (R164): the next state after a least probable symbol. -/
def transTableLps : List Nat :=
  [0, 0, 1, 2, 2, 4, 4, 5, 6, 7, 8, 9, 9, 11, 11, 12] ++
  [13, 13, 15, 15, 16, 16, 18, 18, 19, 19, 21, 21, 22, 22, 23, 24] ++
  [24, 25, 26, 26, 27, 27, 28, 29, 29, 30, 30, 30, 31, 32, 32, 33] ++
  [33, 33, 34, 34, 35, 35, 35, 36, 36, 36, 37, 37, 37, 38, 38, 63]

/-- `TRANS_TBL[0]` (R164): the next state after a most probable symbol. -/
def transTableMps : List Nat :=
  [1, 2, 3, 4, 5, 6, 7, 8, 9, 10, 11, 12, 13, 14, 15, 16] ++
  [17, 18, 19, 20, 21, 22, 23, 24, 25, 26, 27, 28, 29, 30, 31, 32] ++
  [33, 34, 35, 36, 37, 38, 39, 40, 41, 42, 43, 44, 45, 46, 47, 48] ++
  [49, 50, 51, 52, 53, 54, 55, 56, 57, 58, 59, 60, 61, 62, 62, 63]

/-- `TRANS_TBL[1][state]`. -/
def transLps (state : BitVec 6) : BitVec 6 := BitVec.ofNat 6 (transTableLps.getD state.toNat 0)

/-- `TRANS_TBL[0][state]`. -/
def transMps (state : BitVec 6) : BitVec 6 := BitVec.ofNat 6 (transTableMps.getD state.toNat 0)

/-- The five syntax elements that own contexts (R30). -/
inductive CtxElement where
  | cuTransquantBypassFlag
  | splitCodingUnitFlag
  | skipFlag
  | mergeIdx
  | endOfSliceFlag
deriving DecidableEq, Repr

/-- `CTX_OFFSET` (R30). -/
def ctxOffset : CtxElement → Nat
  | .cuTransquantBypassFlag => 0
  | .splitCodingUnitFlag => 1
  | .skipFlag => 4
  | .mergeIdx => 7
  | .endOfSliceFlag => 8

/-- `CTX_SIZE` (R30). -/
def ctxSize : CtxElement → Nat
  | .cuTransquantBypassFlag => 1
  | .splitCodingUnitFlag => 3
  | .skipFlag => 3
  | .mergeIdx => 1
  | .endOfSliceFlag => 1

/-- `INIT_VALUE` (R352): the row is the slice type (0 = B, 1 = P, 2 = I), the column the context index 0..7. -/
def initValueRows : List (List Nat) := [
  [154, 107, 139, 126, 197, 185, 201, 137],
  [154, 107, 139, 126, 197, 185, 201, 122],
  [154, 139, 141, 157, 154, 154, 154, 154]]

/-- `INIT_VALUE[type][i]` (R352). -/
def initValue (sliceType i : Nat) : BitVec 8 := BitVec.ofNat 8 ((initValueRows.getD sliceType []).getD i 0)

end Sys2Proof.Machine
end

