-- ==== Sys2Proof/Config.lean ====
section
/-! DEFINITION. What the spec leaves to the implementation (spec/00_scope.md R8, spec/93_implementation_defined.md),
and the model's free values. -/

namespace Sys2Proof

/-- `SPLIT_CTX_MODE` (R346): how the context increment of `split_coding_unit_flag` is formed. -/
inductive SplitCtxMode where
  /-- The default, the source's words: the number of available neighbours. -/
  | availabilityCount
  /-- What H.265 specifies; always 0 in a skip slice. -/
  | depthCompare
deriving DecidableEq, Repr

/-- The parameters R8 marks OPEN, with `MERGE_IDX`, which U10 treats as a parameter too. A machine never changes
them; `State` carries them so that a claim about every state is a claim about every configuration. -/
structure Config where
  /-- `DMEM_SIZE`, in bytes (R8). -/
  dmemSize : Nat
  /-- `CMD_WORDS`, in 64-bit words (R8). -/
  cmdWords : Nat
  /-- `SPLIT_CTX_MODE` (R346). -/
  splitCtxMode : SplitCtxMode
  /-- `MERGE_IDX` (R344). -/
  mergeIdx : Nat
deriving DecidableEq, Repr

namespace Config

/-- The configuration the spec's own rules and test vectors use (R8, the column "value"). -/
def vectors : Config where
  dmemSize := 65536
  cmdWords := 1024
  splitCtxMode := .availabilityCount
  mergeIdx := 0

/-- The bounds R8 puts on the two memory sizes. -/
abbrev legal (c : Config) : Prop := c.dmemSize ≤ 2 ^ 29 ∧ c.cmdWords ≤ 2 ^ 32

/-- What a cell of `w` bits holds after power-up, by its index in its memory, until something writes it (R421, U20: any
value, and a model must not assume zero). The three memories have three widths. A FREE VALUE: no body, so nothing can be
proved of it (log entry 1). -/
opaque powerUpCell : (w : Nat) → Nat → BitVec w

/-- What the 32-bit registers show of the command index 2^32, which R386 stores in them where `CMD_WORDS` is 2^32 and
which they cannot hold. A FREE VALUE: no body, so nothing can be proved of it (log entry 5). -/
opaque pastLastIndex : Word

/-- The byte at an address that a `CTRL.RESET` leaves behind when it interrupts a command that could write there
(R421, U21: any value). The first argument is the state's counter of such events, the second the address.
A FREE VALUE: no body, so nothing can be proved of it. -/
opaque interruptedByte : Nat → Nat → Byte

end Config

end Sys2Proof
end

