-- ==== Sys2Proof/Machine/Memory.lean ====
section
/-! DEFINITION. The three memories (R33): sparse lists of (index, cell) pairs in one canonical form. `CMD` and `PARAM`
are indexed by word, `DMEM` by byte (R61: no multi-byte access exists). A listed cell has been written since power-up, an
unlisted one has not (R421). -/

namespace Sys2Proof.Machine

/-- A memory of cells of `w` bits. `Memory 8` is a list of `Host.Cell`. -/
abbrev Memory (w : Nat) := List (Nat × BitVec w)

/-- What cell `a` reads as when nothing has written it: the free value of power-up (R421, U20; log entry 1). -/
def Memory.unlisted (w a : Nat) : BitVec w := Config.powerUpCell w a

/-- What has been written to a cell, if anything has. The list rises by index, so the search stops at the first larger
one. -/
def Memory.written {w : Nat} : Memory w → Nat → Option (BitVec w)
  | [], _ => none
  | (b, v) :: m, a => if a < b then none else if a = b then some v else Memory.written m a

/-- Reading one cell (R62, R63, R64). -/
def Memory.read {w : Nat} (m : Memory w) (a : Nat) : BitVec w := (Memory.written m a).getD (Memory.unlisted w a)

/-- Writing one cell (R62, R63). -/
def Memory.write {w : Nat} : Memory w → Nat → BitVec w → Memory w
  | [], a, v => [(a, v)]
  | (b, u) :: m, a, v =>
    if b < a then (b, u) :: Memory.write m a v
    else if b = a then (a, v) :: m
    else (a, v) :: (b, u) :: m

/-- Writing consecutive cells, the first at index `a`, one after another (R62). -/
def Memory.writeList {w : Nat} : Memory w → Nat → List (BitVec w) → Memory w
  | m, _, [] => m
  | m, a, v :: vs => Memory.writeList (Memory.write m a v) (a + 1) vs

/-- Reading `n` consecutive cells from index `a` on. -/
def Memory.readList {w : Nat} (m : Memory w) (a n : Nat) : List (BitVec w) :=
  (List.range n).map fun k => Memory.read m (a + k)

/-- The canonical form: indices strictly rising. An unlisted cell has no written value, so no entry can say what an unlisted
cell says: memories in which the same has been written are the same list. -/
abbrev Memory.wf {w : Nat} (m : Memory w) : Prop := m.Pairwise (fun x y => x.1 < y.1)

/-- Every listed index is below `size`. -/
abbrev Memory.within {w : Nat} (size : Nat) (m : Memory w) : Prop := ∀ e ∈ m, e.1 < size

end Sys2Proof.Machine
end

