-- ==== Sys2Proof/Machine/State.lean ====
section
/-! DEFINITION. The state of the machine: everything spec/10_state.md gives the engine (R20 to R36), the parameters of
R8, and the model's own record of what the host still has to do (R73). Plain data throughout. -/

namespace Sys2Proof.Machine

/-- The writer's construction arguments and its cursor (R21). -/
structure Writer where
  /-- `W_BUF_START`. -/
  bufStart : Word
  /-- `W_BUF_SIZE`. -/
  bufSize : Word
  /-- `W_CUR_START`. -/
  curStart : Word
  /-- `W_CUR_END`. -/
  curEnd : Word
  /-- `W_BYTE_POS`. -/
  bytePos : Word
  /-- `W_BIT_OFFSET`. -/
  bitOffset : BitVec 3
deriving DecidableEq, Repr

/-- The CABAC registers (R22). -/
structure Cabac where
  /-- `COD_I_LOW`. -/
  low : Word
  /-- `COD_I_RANGE`. -/
  range : Word
  /-- `BITS_OUTSTANDING`. -/
  outstanding : Word
  /-- `FIRST_BIT_FLAG`. -/
  firstBit : Bool
  /-- `BIN_COUNT`. -/
  binCount : Word
deriving DecidableEq, Repr

/-- One entry of the context bank: the byte `CTX[i]` (R29: bits 5:0 `state`, bit 6 `valMPS`, bit 7 zero) and its valid
bit `CTX_VALID[i]` (R31). -/
structure Context where
  byte : Byte
  valid : Bool
deriving DecidableEq, Repr

/-- The output region (R25). -/
structure Output where
  /-- `OUT_START`. -/
  start : Word
  /-- `OUT_SIZE`. -/
  size : Word
  /-- `OUT_LEN`. -/
  len : Word
deriving DecidableEq, Repr

/-- The five report registers (R25, R330). -/
structure Report where
  /-- `QPD_OFFSET`. -/
  qpd : Word
  /-- `SAO_OFFSET`. -/
  sao : Word
  /-- `PWT_OFFSET`. -/
  pwt : Word
  /-- `SSH_START_LEN`. -/
  sshStartLen : Word
  /-- `SSH_OFFSET`. -/
  sshOffset : Word
deriving DecidableEq, Repr

/-- `STATUS` (R35), field by field. -/
structure Status where
  /-- `RUN`. -/
  run : Bool
  /-- `DONE`. -/
  done : Bool
  /-- `FAULT`. -/
  fault : Bool
  /-- `FAULT_CODE`. -/
  faultCode : BitVec 8
deriving DecidableEq, Repr

/-- One access of the host, the second agent (R28, R60, R73): the register port and the three memory ports. -/
inductive HostAccess where
  | readCsr (number : BitVec 8)
  | writeCsr (number : BitVec 8) (value : Word)
  | readCmd (index : Nat)
  | writeCmd (index : Nat) (value : CmdWord)
  | readParam (index : Nat)
  | writeParam (index : Nat) (value : Word)
  | readDmem (address : Nat)
  | writeDmem (address : Nat) (value : Byte)
deriving DecidableEq, Repr

/-- When the host makes an access: once it has seen `STATUS.RUN = 0` (R75), or after a number of engine cycles,
whatever the engine is doing then (a poll of `STATUS`, a `CTRL.RESET`: R430). -/
inductive HostWait where
  | untilIdle
  | cycles (n : Nat)
deriving DecidableEq, Repr

/-- An access the host will make (log entry 6). -/
structure HostRequest where
  wait : HostWait
  access : HostAccess
deriving DecidableEq, Repr

/-- The complete architectural state (R20), after the parameters of R8. -/
structure State where
  /-- The implementation parameters (R8); never changed. -/
  cfg : Config
  /-- R21. -/
  writer : Writer
  /-- R22. -/
  cabac : Cabac
  /-- `CTX[0..8]` and `CTX_VALID[0..8]` (R29, R31). -/
  ctx : Vector Context 9
  /-- `SRC_BIT_ADDR` (R25). -/
  srcBitAddr : Word
  /-- R25. -/
  out : Output
  /-- R25. -/
  report : Report
  /-- `CP`, the program counter (R26), as the index it counts; the register shows `indexWord` of it. -/
  cp : CmdIndex
  /-- `STATUS` (R35). -/
  status : Status
  /-- `FAULT_CP` (R36). -/
  faultCp : Word
  /-- `FAULT_INFO` (R36). -/
  faultInfo : Word
  /-- `CMD` (R33). -/
  cmd : Memory 64
  /-- `PARAM` (R33). -/
  param : Memory 32
  /-- `DMEM` (R33). -/
  dmem : Memory 8
  /-- The model's own: the accesses the host has yet to make, in order (log entry 6). -/
  hostPending : List HostRequest
  /-- The model's own: the values the host has read, latest first (log entry 6). -/
  hostReplies : List CmdWord
  /-- The model's own: how many interrupted commands have left free bytes behind (log entry 8). -/
  freeCount : Nat
deriving DecidableEq, Repr

/-- The stops of the model that are no fault of the engine. The engine's nine faults (R380) are no constructors here:
raising one is a next state, `takeFault`, as R381 describes it. -/
inductive Fault where
  /-- Raised by the byte primitives for an address that `DMEM` does not have (R62: it requires `a < DMEM_SIZE` and says
  that no rule's access can fail it). Safe: it cannot arise in a state that satisfies R21. -/
  | dmemRange
  /-- Raised by `RenormE` for `COD_I_RANGE = 0`, where the loop of R167 would not end (R167: it terminates because the
  range is at least 2 on every entry). Safe: it cannot arise in a state that satisfies R172. -/
  | renormStuck
deriving DecidableEq, Repr

/-- Situations the spec gives no meaning and asks a model to refuse. -/
inductive Refusal where
  /-- A command whose meaning this model does not give yet, by its mnemonic. Safe. -/
  | notModelled (mnemonic : String)
  /-- Raised by `RenormE` and `EncodeBinEP` when `BITS_OUTSTANDING` would reach 2^32 (R24). Safe. -/
  | bitsOutstandingOverflow
  /-- Raised by a host access, other than a read of `STATUS` or a reset, while `STATUS.RUN = 1` (R73, R430, U5). Safe. -/
  | hostAccessWhileRunning
  /-- Raised by a host write of `CTRL.START` while `STATUS.RUN = 1` (R34, U4). Safe. -/
  | startWhileRunning
  /-- Raised by a host access to a CSR number that R28 leaves unassigned (U6). Safe. -/
  | hostUnassignedCsr
  /-- Raised by a host write to `CTRL` with a bit of 31:2 set (U33). Safe. -/
  | hostCtrlReservedBits
  /-- Raised by a host access to a memory index that the memory does not have (R33, R60). Safe. -/
  | hostIndexOutOfRange
deriving DecidableEq, Repr

/-- `PARAM_WORDS` (R8, R33). -/
def paramWords : Nat := 0x2300

namespace Writer

/-- R420: all six registers 0. -/
def reset : Writer := ⟨0, 0, 0, 0, 0, 0⟩

end Writer

namespace Cabac

/-- R22, R420: the values `cabacInit` gives, and `BIN_COUNT = 0`. -/
def reset : Cabac where
  low := 0
  range := 510
  outstanding := 0
  firstBit := true
  binCount := 0

end Cabac

/-- R420: the valid bit is 0; the byte is unspecified and not observable, 0 here (log entry 2: DESIGN CHOICE). -/
def Context.reset : Context := ⟨0, false⟩

/-- The machine right after power-up (R420, R421, R53): every register at the value R420 gives, nothing written in any
memory, no host access pending. The parameters are those of the spec's vectors (log entry 3). -/
def State.reset : State where
  cfg := Config.vectors
  writer := Writer.reset
  cabac := Cabac.reset
  ctx := Vector.replicate 9 Context.reset
  srcBitAddr := 0
  out := ⟨0, 0, 0⟩
  report := ⟨0, 0, 0, 0, 0⟩
  cp := 0
  status := ⟨false, false, false, 0⟩
  faultCp := 0
  faultInfo := 0
  cmd := []
  param := []
  dmem := []
  hostPending := []
  hostReplies := []
  freeCount := 0

end Sys2Proof.Machine
end

