-- ==== Sys2Proof/Machine/Flags.lean ====
section
/-! DEFINITION. The four one-bit flags (R27): `FIRST_BIT_FLAG`, and `RUN`, `DONE`, `FAULT` of `STATUS` with the fault
code beside them. The engine has no condition codes. -/

namespace Sys2Proof.Machine

/-- The fault codes (R380). -/
inductive FaultCode where
  /-- R382. -/
  | illegalCmd
  /-- R383. -/
  | writerOverrun
  /-- R388. -/
  | notEnoughBuffer
  /-- R384. -/
  | unsupported
  /-- R385. -/
  | badParam
  /-- R386. -/
  | cmdFetch
  /-- R387. -/
  | memRange
  /-- R389. -/
  | ctxUninit
  /-- R390. -/
  | unaligned
deriving DecidableEq, Repr

/-- `STATUS.FAULT_CODE` of each fault (R380). -/
def FaultCode.number : FaultCode → BitVec 8
  | .illegalCmd => 1
  | .writerOverrun => 2
  | .notEnoughBuffer => 3
  | .unsupported => 4
  | .badParam => 5
  | .cmdFetch => 6
  | .memRange => 7
  | .ctxUninit => 8
  | .unaligned => 9

/-- `STATUS` right after a fault (R381): `FAULT` and its code set, `RUN` cleared, `DONE` as it was (it "stays 0"). -/
def Status.faulted (st : Status) (code : FaultCode) : Status :=
  { st with run := false, fault := true, faultCode := code.number }

/-- `STATUS` right after a start (R34). -/
def Status.started (st : Status) : Status := { st with run := true, done := false }

/-- `STATUS` right after `END` (R120). -/
def Status.ended (st : Status) : Status := { st with run := false, done := true }

/-- `STATUS` right after reset (R420). -/
def Status.idle : Status := ⟨false, false, false, 0⟩

/-- The word the host reads at CSR 0x01 (R28): bit 0 `RUN`, bit 1 `DONE`, bit 2 `FAULT`, bits 15:8 `FAULT_CODE`. -/
def Status.word (st : Status) : Word :=
  BitVec.ofNat 32 (st.run.toNat + 2 * st.done.toNat + 4 * st.fault.toNat + 256 * st.faultCode.toNat)

/-- `FIRST_BIT_FLAG` as the host reads it at CSR 0x13 (R28). -/
def Cabac.firstBitWord (c : Cabac) : Word := BitVec.ofNat 32 c.firstBit.toNat

end Sys2Proof.Machine
end

