-- ==== Sys2Proof/Machine/Operands.lean ====
section
/-! DEFINITION. Operand forms: how a command's operand or a `PARAM` word becomes a number (R40, R91), and how a number
becomes bits of the stream (R61, R133, R136, R137). -/

namespace Sys2Proof.Machine

/-- `sext_32` (R13, R91). -/
def sext32 (v : Word) : Int := v.toInt

/-- `clip3(lo, hi, v)` (R13). -/
def clip3 (lo hi v : Int) : Int := if v < lo then lo else if hi < v then hi else v

/-- `bitlen(x)` for `x ≥ 1` (R13). -/
def bitLen (x : Nat) : Nat := Nat.log2 x + 1

/-- `ceil_log2(x)` for `x ≥ 1` (R13): the least `n` with `2^n ≥ x`. -/
def ceilLog2 (x : Nat) : Nat := if x ≤ 1 then 0 else bitLen (x - 1)

/-- The low `n` bits of `v`, most significant first (R61, R133). -/
def bitsMsb : Nat → Nat → List Bool
  | 0, _ => []
  | n + 1, v => v.testBit n :: bitsMsb n v

/-- The unsigned Exp-Golomb code of a natural number (R136): with `x = v + 1` and `n = bitlen(x)`, `n - 1` zeros and
then the `n` bits of `x`. No wrap-around. -/
def ueBits (v : Nat) : List Bool := List.replicate (bitLen (v + 1) - 1) false ++ bitsMsb (bitLen (v + 1)) (v + 1)

/-- The mapping of R137: `2v - 1` for positive `v`, `-2v` for the others. -/
def seCode (v : Int) : Nat := if 0 < v then (2 * v - 1).toNat else (-2 * v).toNat

/-- The signed Exp-Golomb code (R137). -/
def seBits (v : Int) : List Bool := ueBits (seCode v)

/-- The parameter words as a packer sees them: `PARAM[i]` for every index (R64). -/
abbrev Params := Nat → Word

/-- The coding `flag`: `word[0]` (R40). -/
def Params.flag (p : Params) (a : Nat) : Bool := (p a).getLsbD 0

/-- The coding `u<n>`: `word[n-1:0]` (R40). -/
def Params.u (p : Params) (n a : Nat) : Nat := (p a).toNat % 2 ^ n

/-- The coding `u32`: the whole word (R40). -/
def Params.u32 (p : Params) (a : Nat) : Nat := (p a).toNat

/-- The coding `i32`: `sext_32(word)` (R40). -/
def Params.i32 (p : Params) (a : Nat) : Int := (p a).toInt

/-- The coding `i16`: `sext_16(word)` (R40). -/
def Params.i16 (p : Params) (a : Nat) : Int := ((p a).setWidth 16).toInt

/-- A context index operand (R92: `A < 9`); `none` where the value constraint fails. -/
def ctxOperand (ctx : BitVec 8) : Option (Fin 9) := if h : ctx.toNat < 9 then some ⟨ctx.toNat, h⟩ else none

/-- The registers `SETR` writes (R121). -/
inductive SetrTarget where
  | bufStart
  | bufSize
  | srcBitAddr
  | outStart
  | outSize
deriving DecidableEq, Repr

/-- The CSR number operand of `SETR` (R28, R121); `none` for every other number. -/
def setrOperand (csr : BitVec 8) : Option SetrTarget :=
  match csr.toNat with
  | 0x08 => some .bufStart
  | 0x09 => some .bufSize
  | 0x0C => some .srcBitAddr
  | 0x18 => some .outStart
  | 0x19 => some .outSize
  | _ => none

end Sys2Proof.Machine
end

