-- ==== Sys2Proof/Machine/Ops.lean ====
section
/-! DEFINITION. The named operations over the state: register and memory updates, raising a fault, and the one place a
bit enters `DMEM` (R132). -/

namespace Sys2Proof.Machine

/-! ## Register and memory updates -/

/-- A new value for one byte of `DMEM` (R62). -/
def State.setByte (s : State) (a : Nat) (v : Byte) : State := { s with dmem := s.dmem.write a v }

/-- Consecutive bytes of `DMEM`, the first at address `a` (R62). -/
def State.setBytes (s : State) (a : Nat) (vs : List Byte) : State := { s with dmem := s.dmem.writeList a vs }

/-- `MemRead(a, 1)` (R62). -/
def State.byteAt (s : State) (a : Nat) : Byte := s.dmem.read a

/-- `PARAM[i]` (R64). -/
def State.params (s : State) : Params := fun i => s.param.read i

/-- The writer's registers (R21). -/
def State.setWriter (s : State) (w : Writer) : State := { s with writer := w }

/-- The cursor alone: `W_BYTE_POS` and `W_BIT_OFFSET` (R21). -/
def State.setCursor (s : State) (pos : Word) (off : BitVec 3) : State :=
  { s with writer := { s.writer with bytePos := pos, bitOffset := off } }

/-- The CABAC registers (R22). -/
def State.setCabac (s : State) (c : Cabac) : State := { s with cabac := c }

/-- `BIN_COUNT <- (BIN_COUNT + 1) mod 2^32` (R165, R168). -/
def State.countBin (s : State) : State := s.setCabac { s.cabac with binCount := s.cabac.binCount + 1 }

/-- `CTX[i] <- v; CTX_VALID[i] <- 1` (R29, R31, R171). -/
def State.setContext (s : State) (i : Fin 9) (v : Byte) : State := { s with ctx := s.ctx.set i ⟨v, true⟩ }

/-- `SRC_BIT_ADDR` (R25). -/
def State.setSrcBitAddr (s : State) (v : Word) : State := { s with srcBitAddr := v }

/-- `OUT_START`, `OUT_SIZE` and `OUT_LEN` (R25). -/
def State.setOut (s : State) (o : Output) : State := { s with out := o }

/-- `OUT_LEN` alone (R201). -/
def State.setOutLen (s : State) (v : Word) : State := s.setOut { s.out with len := v }

/-- The five report registers (R25). -/
def State.setReport (s : State) (r : Report) : State := { s with report := r }

/-- `CP <- CP + 1` (R93). -/
def State.advance (s : State) : State := { s with cp := s.cp + 1 }

/-- `END` (R120): `RUN` and `DONE`; `CP` keeps its value. -/
def State.endRun (s : State) : State := { s with status := s.status.ended }

/-! ## Faults -/

/-- A command index as the 32-bit registers `CP`, `FAULT_CP` and `FAULT_INFO` show it (R26, R36, R386). Every index of a
command fits; the number 2^32 does not, and shows as a free value (log entry 5). -/
def indexWord (i : CmdIndex) : Word := if i.toNat < 2 ^ 32 then i.setWidth 32 else Config.pastLastIndex

/-- Taking a fault (R381), the engine's one exception: the status, `FAULT_CP <- CP`, `FAULT_INFO <- info`. `CP` keeps
pointing at the faulting command and no other register changes. -/
def State.takeFault (s : State) (code : FaultCode) (info : Word) : State :=
  { s with status := s.status.faulted code, faultCp := indexWord s.cp, faultInfo := info }

/-- How a procedure can end early. -/
inductive Halt where
  /-- It raised an engine fault (R381): `s` is the state after it. -/
  | raised (s : State)
  /-- It reached a stop of the model. -/
  | fault (f : Fault)
  /-- It reached a situation the spec gives no meaning. -/
  | refused (r : Refusal)
deriving DecidableEq, Repr

/-- What a procedure answers. -/
abbrev Res := Except Halt State

/-- `raise Fault(code, info)` (R381) in state `s`, which holds every effect made so far (R392). -/
def raise (code : FaultCode) (info : Word) (s : State) : Res := .error (.raised (s.takeFault code info))

/-- A command that completes adds 1 to `CP`; one that raised a fault does not (R26, R93). -/
def finish : Res → Host.Outcome State Fault Refusal
  | .ok s => .next s.advance
  | .error (.raised s) => .next s
  | .error (.fault f) => .fault f
  | .error (.refused r) => .refused r

/-- Return from a fault: there is none but reset (R394), which gives every register the value of R420 and leaves the
memories alone (R421). The parameters and the host's own record stay. -/
def State.resetRegisters (s : State) : State :=
  { State.reset with
    cfg := s.cfg, cmd := s.cmd, param := s.param, dmem := s.dmem,
    hostPending := s.hostPending, hostReplies := s.hostReplies, freeCount := s.freeCount }

/-! ## Bits into memory -/

/-- `bitpos()` (R130). -/
def State.bitpos (s : State) : Nat :=
  8 * (s.writer.bytePos.toNat - s.writer.curStart.toNat) + s.writer.bitOffset.toNat

/-- `room()` (R130). -/
def State.room (s : State) : Nat := 8 * (s.writer.curEnd.toNat - s.writer.curStart.toNat)

/-- `NeedBits(k)` (R130): over the naturals, before the first bit is written. -/
def needBits (k : Nat) (s : State) : Res :=
  if s.bitpos + k > s.room then raise .writerOverrun (BitVec.ofNat 32 s.bitpos) s else .ok s

/-- The byte `PutBitRaw` stores (R132): a byte entered at offset 0 is overwritten, one entered in the middle has the
new bit OR-ed in. -/
def rawByte (old : Byte) (off : BitVec 3) (b : Bool) : Byte :=
  if off = 0 then (BitVec.ofBool b).setWidth 8 <<< 7
  else old ||| (BitVec.ofBool b).setWidth 8 <<< (7 - off.toNat)

/-- `W_BYTE_POS` after one bit (R132). -/
def nextBytePos (pos : Word) (off : BitVec 3) : Word := if off = 7 then pos + 1 else pos

/-- One bit enters the stream (R132): the byte at the cursor, then the cursor. -/
def enterBit (b : Bool) (s : State) : State :=
  (s.setByte s.writer.bytePos.toNat
      (rawByte (s.byteAt s.writer.bytePos.toNat) s.writer.bitOffset b)).setCursor
    (nextBytePos s.writer.bytePos s.writer.bitOffset) (s.writer.bitOffset + 1)

/-- Bits enter the stream one after another, where nothing stops them. -/
def enter : List Bool → State → State
  | [], s => s
  | b :: bs, s => enter bs (enterBit b s)

/-- `PutBitRaw(b)` (R132): the one place a bit enters `DMEM`. The guard on the address is R62's precondition; it holds
in every state that satisfies R21 (log entry 11). -/
def putBitRaw (b : Bool) (s : State) : Res :=
  if s.writer.bytePos.toNat < s.cfg.dmemSize then .ok (enterBit b s)
  else .error (.fault .dmemRange)

/-- Bits one after another through `PutBitRaw`. -/
def putRaw : List Bool → State → Res
  | [], s => .ok s
  | b :: bs, s => do
    let s ← putBitRaw b s
    putRaw bs s

/-- One writing primitive: `NeedBits` for all its bits, then the bits (R130, R383): it writes all of them or none. -/
def emit (bits : List Bool) (s : State) : Res := do
  let s ← needBits bits.length s
  putRaw bits s

end Sys2Proof.Machine
end

