-- ==== Sys2Proof/Machine/Writer.lean ====
section
/-! DEFINITION. The bit writer (spec/41_bitwriter.md): the procedures, then the seven commands. Every write is an `emit`:
all of a primitive's bits or none (R130, R383). -/

namespace Sys2Proof.Machine

/-! ## Procedures -/

/-- `cabacInit()` (R161): the four CABAC registers; `BIN_COUNT` keeps its value. -/
def cabacInit (s : State) : State :=
  s.setCabac { s.cabac with low := 0, range := 510, outstanding := 0, firstBit := true }

/-- The mask of `W_INIT` (R131): the top `off` bits of a byte. -/
def initMask (off : BitVec 3) : Byte := (0xFF : BitVec 16).shiftLeft (8 - off.toNat) |>.setWidth 8

/-- The cursor of a writer just constructed (R131). -/
def Writer.opened (w : Writer) (off : BitVec 3) : Writer :=
  { w with curStart := w.bufStart, curEnd := w.bufStart + w.bufSize, bytePos := w.bufStart, bitOffset := off }

/-- The first byte masked, when the buffer has one (R131). -/
def maskFirstByte (off : BitVec 3) (s : State) : State :=
  if s.writer.bufSize = 0 then s
  else s.setByte s.writer.bufStart.toNat (s.byteAt s.writer.bufStart.toNat &&& initMask off)

/-- `BIN_COUNT <- 0` (R131, R173). -/
def clearBinCount (s : State) : State := s.setCabac { s.cabac with binCount := 0 }

/-- Everything `W_INIT off` changes once its two checks have passed (R131). -/
def openWriter (off : BitVec 3) (s : State) : State :=
  clearBinCount (cabacInit (maskFirstByte off (s.setWriter (s.writer.opened off))))

/-- `W_INIT off` as a procedure (R131), the `WriterInit` of R350. -/
def writerInit (off : BitVec 3) (s : State) : Res :=
  if s.writer.bufStart.toNat + s.writer.bufSize.toNat > s.cfg.dmemSize then raise .memRange 1 s
  else if s.writer.bufSize = 0 ∧ off ≠ 0 then raise .writerOverrun 0 s
  else .ok (openWriter off s)

/-- `PutBits(n, value)` (R133), `n ≤ 32`. -/
def putBits (n value : Nat) (s : State) : Res := emit (bitsMsb n value) s

/-- `PutBit(b)` (R134). -/
def putBit (b : Bool) (s : State) : Res := emit [b] s

/-- `PutUE(v)` (R136). -/
def putUe (v : Nat) (s : State) : Res := emit (ueBits v) s

/-- `PutSE(v)` (R137). -/
def putSe (v : Int) (s : State) : Res := emit (seBits v) s

/-- The bits of the RBSP trailing pattern from a bit offset on (R138): a 1, then zeros to the byte boundary. -/
def trailingBits (off : BitVec 3) : List Bool := true :: List.replicate (7 - off.toNat) false

/-- `PutTrailingBits(c)` (R138). -/
def putTrailing (c : Bool) (s : State) : Res :=
  if c ∧ s.writer.bitOffset = 0 then .ok s else emit (trailingBits s.writer.bitOffset) s

/-- Bit `p` of `DMEM` (R12, R135): bit `7 - p mod 8` of byte `p div 8`. -/
def State.bitAt (s : State) (p : Nat) : Bool := (s.byteAt (p / 8)).getLsbD (7 - p % 8)

/-- The copying loop of `PutBitsBuffer` (R135): `k` bits from bit address `p` on. -/
def copyBits (p : Nat) : Nat → State → Res
  | 0, s => .ok s
  | k + 1, s => do
    let s ← putBitRaw (s.bitAt p) s
    copyBits (p + 1) k s

/-- `PutBitsBuffer(n)` (R135, R67). -/
def putBitsBuffer (n : Nat) (s : State) : Res :=
  if s.srcBitAddr.toNat + n > 8 * s.cfg.dmemSize then raise .memRange 2 s
  else if 0 < n ∧ s.srcBitAddr.toNat < 8 * s.writer.curEnd.toNat ∧
      8 * s.writer.curStart.toNat < s.srcBitAddr.toNat + n then raise .memRange 5 s
  else do
    let s ← needBits n s
    let t ← copyBits s.srcBitAddr.toNat n s
    .ok (t.setSrcBitAddr (BitVec.ofNat 32 (s.srcBitAddr.toNat + n)))

/-! ## Commands -/

/-- `W_INIT off` (R131). -/
def execWInit (off : BitVec 3) (s : State) : Host.Outcome State Fault Refusal := finish (writerInit off s)

/-- `PUT_BITS n, value` (R133). `n > 32` is an illegal command (R95), `OPC` 0x11. -/
def execPutBits (n : BitVec 8) (value : Word) (s : State) : Host.Outcome State Fault Refusal :=
  finish (if n.toNat ≤ 32 then putBits n.toNat value.toNat s else raise .illegalCmd 0x11 s)

/-- `PUT_BIT b` (R134). -/
def execPutBit (b : Bool) (s : State) : Host.Outcome State Fault Refusal := finish (putBit b s)

/-- `PUT_BITS_BUFFER n` (R135). -/
def execPutBitsBuffer (n : Word) (s : State) : Host.Outcome State Fault Refusal := finish (putBitsBuffer n.toNat s)

/-- `PUT_UE v` (R136). -/
def execPutUe (v : Word) (s : State) : Host.Outcome State Fault Refusal := finish (putUe v.toNat s)

/-- `PUT_SE v` (R137). -/
def execPutSe (v : Word) (s : State) : Host.Outcome State Fault Refusal := finish (putSe (sext32 v) s)

/-- `PUT_TRAILING c` (R138). -/
def execPutTrailing (c : Bool) (s : State) : Host.Outcome State Fault Refusal := finish (putTrailing c s)

end Sys2Proof.Machine
end

