-- ==== Sys2Proof/Machine/Cabac.lean ====
section
/-! DEFINITION. The CABAC arithmetic encoder (spec/42_cabac.md), statement by statement: a fault in the middle leaves the
registers as the pseudocode had them at that point (R392 c). -/

namespace Sys2Proof.Machine

/-! ## Contexts -/

/-- `state` of a context byte (R29). -/
def ctxState (c : Byte) : BitVec 6 := c.extractLsb' 0 6

/-- `valMPS` of a context byte (R29). -/
def ctxMps (c : Byte) : Bool := c.getLsbD 6

/-- `state | (valMPS << 6)` (R29, R162). -/
def ctxByte (state : BitVec 6) (mps : Bool) : Byte := (BitVec.ofBool false ++ BitVec.ofBool mps) ++ state

/-- `initState` of `InitializeContext` (R162), over the integers; `/` by 16 is the arithmetic shift. -/
def initState (initVal : Nat) (qp : Int) : Int :=
  clip3 1 126 (((initVal / 16 : Nat) * 5 - 45) * clip3 0 51 qp / 16 + (((initVal % 16 * 8 : Nat) : Int) - 16))

/-- The byte `InitializeContext` stores (R162). -/
def initContextByte (initVal : Nat) (qp : Int) : Byte :=
  if 64 ≤ initState initVal qp then ctxByte (BitVec.ofInt 6 (initState initVal qp - 64)) true
  else ctxByte (BitVec.ofInt 6 (63 - initState initVal qp)) false

/-- `InitializeContext(i, initVal, qp)` (R162). -/
def initContext (i : Fin 9) (initVal : Byte) (qp : Int) (s : State) : State :=
  s.setContext i (initContextByte initVal.toNat qp)

/-! ## Bits out -/

/-- `outstanding <- outstanding + 1` (R167, R168); the value 2^32 has no meaning (R24). -/
def incOutstanding (s : State) : Res :=
  if s.cabac.outstanding.toNat + 1 < 2 ^ 32 then
    .ok (s.setCabac { s.cabac with outstanding := s.cabac.outstanding + 1 })
  else .error (.refused .bitsOutstandingOverflow)

/-- The loop of `PutBitC` (R166): `n` carry bits, each decrementing `BITS_OUTSTANDING` once it is written. -/
def putOutstanding (b : Bool) : Nat → State → Res
  | 0, s => .ok s
  | n + 1, s => do
    let s ← putBit b s
    putOutstanding b n (s.setCabac { s.cabac with outstanding := s.cabac.outstanding - 1 })

/-- `PutBitC(b)` (R166): the first call since `cabacInit` writes no `b`; then the outstanding bits as `1 - b`. -/
def putBitC (b : Bool) (s : State) : Res := do
  let s ← if s.cabac.firstBit then .ok (s.setCabac { s.cabac with firstBit := false }) else putBit b s
  putOutstanding (!b) s.cabac.outstanding.toNat s

/-- `COD_I_LOW <- v`. -/
def State.setLow (s : State) (v : Word) : State := s.setCabac { s.cabac with low := v }

/-- The band decision of one turn of `RenormE` (R167). -/
def renormBand (s : State) : Res :=
  if s.cabac.low.toNat < 256 then putBitC false s
  else if 512 ≤ s.cabac.low.toNat then putBitC true (s.setLow (s.cabac.low - 512))
  else incOutstanding (s.setLow (s.cabac.low - 256))

/-- The doubling that ends a turn (R167). -/
def doubleInterval (s : State) : State :=
  s.setCabac { s.cabac with range := s.cabac.range <<< 1, low := s.cabac.low <<< 1 }

/-- The loop of `RenormE` (R167), with a bound on its turns. -/
def renormLoop : Nat → State → Res
  | 0, s => if s.cabac.range.toNat < 256 then .error (.fault .renormStuck) else .ok s
  | n + 1, s =>
    if s.cabac.range.toNat < 256 then do
      let s ← renormBand s
      renormLoop n (doubleInterval s)
    else .ok s

/-- `RenormE()` (R167). Eight doublings bring every range but 0 to 256, so the bound stops the range 0 only
(log entry 12). -/
def renormE (s : State) : Res := renormLoop 8 s

/-! ## Bins -/

/-- `q` of `EncodeBin` (R165): `(range >> 6) & 3`. -/
def rangeQuarter (range : Word) : BitVec 2 := range.extractLsb' 6 2

/-- `lps` of `EncodeBin` (R165). -/
def lpsWidth (c : Byte) (range : Word) : Word := (rangeTabLps (ctxState c) (rangeQuarter range)).setWidth 32

/-- The context byte after a bin (R165): the LPS path flips `valMPS` in state 0 and moves by `TRANS_TBL[1]`, the MPS path
moves by `TRANS_TBL[0]`. -/
def nextContext (c : Byte) (binVal : Bool) : Byte :=
  if binVal ≠ ctxMps c then
    ctxByte (transLps (ctxState c)) (if ctxState c = 0 then !ctxMps c else ctxMps c)
  else ctxByte (transMps (ctxState c)) (ctxMps c)

/-- `COD_I_LOW` and `COD_I_RANGE` after a bin, before renormalisation (R165). -/
def nextInterval (c : Byte) (binVal : Bool) (cb : Cabac) : Cabac :=
  if binVal ≠ ctxMps c then
    { cb with low := cb.low + (cb.range - lpsWidth c cb.range), range := lpsWidth c cb.range }
  else { cb with range := cb.range - lpsWidth c cb.range }

/-- `EncodeBin(i, binVal)` (R165). -/
def encodeBin (i : Fin 9) (binVal : Bool) (s : State) : Res :=
  if s.ctx[i].valid then do
    let t ← renormE ((s.setCabac (nextInterval s.ctx[i].byte binVal s.cabac)).setContext i
      (nextContext s.ctx[i].byte binVal))
    .ok t.countBin
  else raise .ctxUninit (BitVec.ofNat 32 i) s

/-- The doubled `low` of `EncodeBinEP` (R168). -/
def bypassLow (c : Cabac) (binVal : Bool) : Word := c.low + c.low + if binVal then c.range else 0

/-- The decision of `EncodeBinEP` on the doubled `low` (R168). -/
def bypassBand (s : State) : Res :=
  if 1024 ≤ s.cabac.low.toNat then putBitC true (s.setLow (s.cabac.low - 1024))
  else if s.cabac.low.toNat < 512 then putBitC false s
  else incOutstanding (s.setLow (s.cabac.low - 512))

/-- `EncodeBinEP(binVal)` (R168). -/
def encodeBinEp (binVal : Bool) (s : State) : Res := do
  let t ← bypassBand (s.setLow (bypassLow s.cabac binVal))
  .ok t.countBin

/-- The interval of the terminating bin 1 (R169): `range - 2`, `low + range`, then `range = 2`. -/
def terminateInterval (c : Cabac) : Cabac := { c with low := c.low + (c.range - 2), range := 2 }

/-- `SliceFinish()` (R169). -/
def sliceFinish (s : State) : Res := do
  let s ← renormE (s.setCabac (terminateInterval s.cabac))
  let t ← putBitC (s.cabac.low.getLsbD 9) s
  let t ← putBit (s.cabac.low.getLsbD 8) t
  putTrailing false t

/-! ## Commands -/

/-- `CABAC_INIT` (R161). -/
def execCabacInit (s : State) : Host.Outcome State Fault Refusal := finish (.ok (cabacInit s))

/-- `CTX_INIT i, initVal, qp` (R162). `i ≥ 9` is an illegal command (R95), `OPC` 0x21. -/
def execCtxInit (ctx initVal : BitVec 8) (qp : Word) (s : State) : Host.Outcome State Fault Refusal :=
  match ctxOperand ctx with
  | some i => finish (.ok (initContext i initVal (sext32 qp) s))
  | none => finish (raise .illegalCmd 0x21 s)

/-- `CTX_SET i, raw` (R171). `i ≥ 9` is an illegal command (R95), `OPC` 0x22. -/
def execCtxSet (ctx : BitVec 8) (raw : BitVec 7) (s : State) : Host.Outcome State Fault Refusal :=
  match ctxOperand ctx with
  | some i => finish (.ok (s.setContext i (raw.setWidth 8)))
  | none => finish (raise .illegalCmd 0x22 s)

/-- `ENC_BIN i, binVal` (R165). `i ≥ 9` is an illegal command (R95), `OPC` 0x23. -/
def execEncBin (ctx : BitVec 8) (binVal : Bool) (s : State) : Host.Outcome State Fault Refusal :=
  match ctxOperand ctx with
  | some i => finish (encodeBin i binVal s)
  | none => finish (raise .illegalCmd 0x23 s)

/-- `ENC_BIN_EP binVal` (R168). -/
def execEncBinEp (binVal : Bool) (s : State) : Host.Outcome State Fault Refusal := finish (encodeBinEp binVal s)

/-- `SLICE_FINISH` (R169). -/
def execSliceFinish (s : State) : Host.Outcome State Fault Refusal := finish (sliceFinish s)

end Sys2Proof.Machine
end

