-- ==== Sys2Proof/Machine/Epb.lean ====
section
/-! DEFINITION. The emulation-prevention byte inserter (spec/43_epb.md): `PACK_RBSP`. -/

namespace Sys2Proof.Machine

/-- The run of zero bytes after the byte `b` (R201). -/
def zerosAfter (zeros : Nat) (b : Byte) : Nat := if b = 0 then zeros + 1 else 0

/-- The scanned part (R201): an inserted `0x03` before a byte of value 0 to 3 that follows two zeros; the count
restarts at the insertion and the triggering byte is counted. -/
def escapeFrom : Nat → List Byte → List Byte
  | _, [] => []
  | zeros, b :: bs =>
    if 2 ≤ zeros ∧ b.toNat ≤ 3 then 0x03 :: b :: escapeFrom (zerosAfter 0 b) bs
    else b :: escapeFrom (zerosAfter zeros b) bs

/-- The protected unit (R201): `pfx` bytes verbatim, the rest scanned from a zero count of 0. -/
def escape (pfx : Nat) (bytes : List Byte) : List Byte := bytes.take pfx ++ escapeFrom 0 (bytes.drop pfx)

/-- The writer's bytes `DMEM[W_CUR_START .. W_BYTE_POS - 1]` (R201). -/
def State.writerBytes (s : State) : List Byte :=
  s.dmem.readList s.writer.curStart.toNat (s.writer.bytePos.toNat - s.writer.curStart.toNat)

/-- The source is non-empty and meets the output region (R68, R387; an empty source meets nothing: log entry 14). -/
abbrev sourceMeetsOutput (s : State) : Prop :=
  s.writer.curStart.toNat < s.writer.bytePos.toNat ∧
    s.writer.curStart.toNat < s.out.start.toNat + s.out.size.toNat ∧ s.out.start.toNat < s.writer.bytePos.toNat

/-- `OUT_LEN` as `PackRBSP` starts from it (R201, R202). -/
def outLenBefore (append : Bool) (s : State) : Nat := if append then s.out.len.toNat else 0

/-- The copy of `PackRBSP` (R201) once every check has passed. -/
def storeUnit (append : Bool) (unit : List Byte) (s : State) : State :=
  (s.setBytes (s.out.start.toNat + outLenBefore append s) unit).setOutLen
    (BitVec.ofNat 32 (outLenBefore append s + unit.length))

/-- The size test of `PackRBSP` (R201, R388): the two-pass form, in which no byte changes when the unit does not fit. -/
def packUnit (append : Bool) (unit : List Byte) (s : State) : Res :=
  if outLenBefore append s + unit.length > s.out.size.toNat then
    raise .notEnoughBuffer (BitVec.ofNat 32 unit.length) (s.setOutLen 0)
  else .ok (storeUnit append unit s)

/-- `PackRBSP(prefix, append)` (R201). The guard on the source is R62's precondition (log entry 11). -/
def packRbsp (append : Bool) (pfx : Nat) (s : State) : Res :=
  if s.writer.bitOffset ≠ 0 then raise .unaligned (s.writer.bitOffset.setWidth 32) s
  else if s.out.start.toNat + s.out.size.toNat > s.cfg.dmemSize then raise .memRange 3 s
  else if sourceMeetsOutput s then raise .memRange 4 s
  else if s.cfg.dmemSize < s.writer.bytePos.toNat then .error (.fault .dmemRange)
  else packUnit append (escape pfx s.writerBytes) s

/-- `PACK_RBSP append, prefix` (R201). -/
def execPackRbsp (append : Bool) (pfx : BitVec 8) (s : State) : Host.Outcome State Fault Refusal :=
  finish (packRbsp append pfx.toNat s)

end Sys2Proof.Machine
end

