-- ==== Sys2Proof/Machine/Records.lean ====
section
/-! DEFINITION. The record layouts of `PARAM` (R40 to R51): for each field of the tables, the reader that applies the
field's coding at the field's word. The readers of the five top-level records (`NALU`, `VPS`, `SPS`, `PPS`, `SLICE`)
use the absolute words of the tables; those of a nested record take the address `b` of its first word; an array takes
the index of the element. Field names are the spec's. -/

namespace Sys2Proof.Machine.Rec

/-! Record `NALU` (R42). -/

def NALU.long_start_code (p : Params) : Bool := p.flag 0x0000
def NALU.nal_unit_type (p : Params) : Nat := p.u 6 0x0001
def NALU.nuh_layer_id (p : Params) : Nat := p.u 6 0x0002
def NALU.nuh_temporal_id_plus1 (p : Params) : Nat := p.u 3 0x0003

/-! Record `PTL` (R43). -/

def PTLCORE.profile_space (p : Params) (b : Nat) : Nat := p.u 2 (b + 0x0000)
def PTLCORE.tier_flag (p : Params) (b : Nat) : Bool := p.flag (b + 0x0001)
def PTLCORE.profile_idc (p : Params) (b : Nat) : Nat := p.u 5 (b + 0x0002)
def PTLCORE.profile_compatibility_flags (p : Params) (b : Nat) : Nat := p.u32 (b + 0x0003)
def PTLCORE.progressive_source_flag (p : Params) (b : Nat) : Bool := p.flag (b + 0x0004)
def PTLCORE.interlaced_source_flag (p : Params) (b : Nat) : Bool := p.flag (b + 0x0005)
def PTLCORE.non_packed_constraint_flag (p : Params) (b : Nat) : Bool := p.flag (b + 0x0006)
def PTLCORE.frame_only_constraint_flag (p : Params) (b : Nat) : Bool := p.flag (b + 0x0007)
def PTLCORE.reserved_44bits_hi (p : Params) (b : Nat) : Nat := p.u 12 (b + 0x0008)
def PTLCORE.reserved_44bits_lo (p : Params) (b : Nat) : Nat := p.u32 (b + 0x0009)
def PTL.general_level_idc (p : Params) (b : Nat) : Nat := p.u 8 (b + 0x000A)
def PTL.sub_layer (b : Nat) (i : Nat) : Nat := b + 0x000B + i * 13

/-- The ten words `PackPTLCore` (R214) sends, of the general part: words 0 to 9 of `PTL`. -/
def PTL.general (b : Nat) : Nat := b + 0x0000

/-! Record `PTLSUB` (R43). -/

def PTLSUB.profile_present_flag (p : Params) (b : Nat) : Bool := p.flag (b + 0x0000)
def PTLSUB.level_present_flag (p : Params) (b : Nat) : Bool := p.flag (b + 0x0001)
def PTLSUB.level_idc (p : Params) (b : Nat) : Nat := p.u 8 (b + 0x000C)

/-- The ten words `PackPTLCore` (R214) sends, of a sub-layer part: words 2 to 11 of `PTLSUB`, in the same order and with
the same codings as the general part. -/
def PTLSUB.core (b : Nat) : Nat := b + 0x0002

/-! Record `SLO` (R44). -/

def SLO.sub_layer_ordering_info_present_flag (p : Params) (b : Nat) : Bool := p.flag (b + 0x0000)
def SLO.sub_layer (b : Nat) (i : Nat) : Nat := b + 0x0001 + i * 3

/-! Record `SLOSUB` (R44). -/

def SLOSUB.max_dec_pic_buffering_minus1 (p : Params) (b : Nat) : Nat := p.u32 (b + 0x0000)
def SLOSUB.max_num_reorder_pics (p : Params) (b : Nat) : Nat := p.u32 (b + 0x0001)
def SLOSUB.max_latency_increase_plus1 (p : Params) (b : Nat) : Nat := p.u32 (b + 0x0002)

/-! Record `HRD` (R45). -/

def HRD.nal_hrd_parameters_present_flag (p : Params) (b : Nat) : Bool := p.flag (b + 0x0000)
def HRD.vcl_hrd_parameters_present_flag (p : Params) (b : Nat) : Bool := p.flag (b + 0x0001)
def HRD.sub_pic_hrd_params_present_flag (p : Params) (b : Nat) : Bool := p.flag (b + 0x0002)
def HRD.tick_divisor_minus2 (p : Params) (b : Nat) : Nat := p.u 8 (b + 0x0003)
def HRD.du_cpb_removal_delay_increment_length_minus1 (p : Params) (b : Nat) : Nat := p.u 5 (b + 0x0004)
def HRD.sub_pic_cpb_params_in_pic_timing_sei_flag (p : Params) (b : Nat) : Bool := p.flag (b + 0x0005)
def HRD.dpb_output_delay_du_length_minus1 (p : Params) (b : Nat) : Nat := p.u 5 (b + 0x0006)
def HRD.bit_rate_scale (p : Params) (b : Nat) : Nat := p.u 4 (b + 0x0007)
def HRD.cpb_size_scale (p : Params) (b : Nat) : Nat := p.u 4 (b + 0x0008)
def HRD.cpb_size_du_scale (p : Params) (b : Nat) : Nat := p.u 4 (b + 0x0009)
def HRD.initial_cpb_removal_delay_length_minus1 (p : Params) (b : Nat) : Nat := p.u 5 (b + 0x000A)
def HRD.au_cpb_removal_delay_length_minus1 (p : Params) (b : Nat) : Nat := p.u 5 (b + 0x000B)
def HRD.dpb_output_delay_length_minus1 (p : Params) (b : Nat) : Nat := p.u 5 (b + 0x000C)
def HRD.sl (b : Nat) (i : Nat) : Nat := b + 0x000D + i * 165

/-! Record `HRDSUB` (R45). -/

def HRDSUB.fixed_pic_rate_general_flag (p : Params) (b : Nat) : Bool := p.flag (b + 0x0000)
def HRDSUB.fixed_pic_rate_within_cvs_flag (p : Params) (b : Nat) : Bool := p.flag (b + 0x0001)
def HRDSUB.elemental_duration_in_tc_minus1 (p : Params) (b : Nat) : Nat := p.u32 (b + 0x0002)
def HRDSUB.low_delay_hrd_flag (p : Params) (b : Nat) : Bool := p.flag (b + 0x0003)
def HRDSUB.cpb_cnt_minus1 (p : Params) (b : Nat) : Nat := p.u32 (b + 0x0004)
def HRDSUB.cpb (b : Nat) (i : Nat) : Nat := b + 0x0005 + i * 5

/-! Record `CPB` (R45). -/

def CPB.bit_rate_value_minus1 (p : Params) (b : Nat) : Nat := p.u32 (b + 0x0000)
def CPB.cpb_size_value_minus1 (p : Params) (b : Nat) : Nat := p.u32 (b + 0x0001)
def CPB.cpb_size_du_value_minus1 (p : Params) (b : Nat) : Nat := p.u32 (b + 0x0002)
def CPB.bit_rate_du_value_minus1 (p : Params) (b : Nat) : Nat := p.u32 (b + 0x0003)
def CPB.cbr_flag (p : Params) (b : Nat) : Bool := p.flag (b + 0x0004)

/-! Record `VUI` (R46). -/

def VUI.aspect_ratio_info_present_flag (p : Params) (b : Nat) : Bool := p.flag (b + 0x0000)
def VUI.aspect_ratio_idc (p : Params) (b : Nat) : Nat := p.u 8 (b + 0x0001)
def VUI.sar_width (p : Params) (b : Nat) : Nat := p.u 16 (b + 0x0002)
def VUI.sar_height (p : Params) (b : Nat) : Nat := p.u 16 (b + 0x0003)
def VUI.overscan_info_present_flag (p : Params) (b : Nat) : Bool := p.flag (b + 0x0004)
def VUI.overscan_appropriate_flag (p : Params) (b : Nat) : Bool := p.flag (b + 0x0005)
def VUI.video_signal_type_present_flag (p : Params) (b : Nat) : Bool := p.flag (b + 0x0006)
def VUI.video_format (p : Params) (b : Nat) : Nat := p.u 3 (b + 0x0007)
def VUI.video_full_range_flag (p : Params) (b : Nat) : Bool := p.flag (b + 0x0008)
def VUI.colour_description_present_flag (p : Params) (b : Nat) : Bool := p.flag (b + 0x0009)
def VUI.colour_primaries (p : Params) (b : Nat) : Nat := p.u 8 (b + 0x000A)
def VUI.transfer_characteristics (p : Params) (b : Nat) : Nat := p.u 8 (b + 0x000B)
def VUI.matrix_coeffs (p : Params) (b : Nat) : Nat := p.u 8 (b + 0x000C)
def VUI.chroma_loc_info_present_flag (p : Params) (b : Nat) : Bool := p.flag (b + 0x000D)
def VUI.chroma_sample_loc_type_top_field (p : Params) (b : Nat) : Nat := p.u32 (b + 0x000E)
def VUI.chroma_sample_loc_type_bottom_field (p : Params) (b : Nat) : Nat := p.u32 (b + 0x000F)
def VUI.neutral_chroma_indication_flag (p : Params) (b : Nat) : Bool := p.flag (b + 0x0010)
def VUI.field_seq_flag (p : Params) (b : Nat) : Bool := p.flag (b + 0x0011)
def VUI.frame_field_info_present_flag (p : Params) (b : Nat) : Bool := p.flag (b + 0x0012)
def VUI.default_display_window_flag (p : Params) (b : Nat) : Bool := p.flag (b + 0x0013)
def VUI.def_disp_win_left_offset (p : Params) (b : Nat) : Nat := p.u32 (b + 0x0014)
def VUI.def_disp_win_right_offset (p : Params) (b : Nat) : Nat := p.u32 (b + 0x0015)
def VUI.def_disp_win_top_offset (p : Params) (b : Nat) : Nat := p.u32 (b + 0x0016)
def VUI.def_disp_win_bottom_offset (p : Params) (b : Nat) : Nat := p.u32 (b + 0x0017)
def VUI.timing_info_present_flag (p : Params) (b : Nat) : Bool := p.flag (b + 0x0018)
def VUI.num_units_in_tick (p : Params) (b : Nat) : Nat := p.u32 (b + 0x0019)
def VUI.time_scale (p : Params) (b : Nat) : Nat := p.u32 (b + 0x001A)
def VUI.poc_proportional_to_timing_flag (p : Params) (b : Nat) : Bool := p.flag (b + 0x001B)
def VUI.num_ticks_poc_diff_one_minus1 (p : Params) (b : Nat) : Nat := p.u32 (b + 0x001C)
def VUI.hrd_parameters_present_flag (p : Params) (b : Nat) : Bool := p.flag (b + 0x001D)
def VUI.hrd (b : Nat) : Nat := b + 0x001E
def VUI.bitstream_restriction_flag (p : Params) (b : Nat) : Bool := p.flag (b + 0x04AE)
def VUI.tiles_fixed_structure_flag (p : Params) (b : Nat) : Bool := p.flag (b + 0x04AF)
def VUI.motion_vectors_over_pic_boundaries_flag (p : Params) (b : Nat) : Bool := p.flag (b + 0x04B0)
def VUI.restricted_ref_pic_lists_flag (p : Params) (b : Nat) : Bool := p.flag (b + 0x04B1)
def VUI.min_spatial_segmentation_idc (p : Params) (b : Nat) : Nat := p.u32 (b + 0x04B2)
def VUI.max_bytes_per_pic_denom (p : Params) (b : Nat) : Nat := p.u32 (b + 0x04B3)
def VUI.max_bits_per_min_cu_denom (p : Params) (b : Nat) : Nat := p.u32 (b + 0x04B4)
def VUI.log2_max_mv_length_horizontal (p : Params) (b : Nat) : Nat := p.u32 (b + 0x04B5)
def VUI.log2_max_mv_length_vertical (p : Params) (b : Nat) : Nat := p.u32 (b + 0x04B6)

/-! Record `STRPS` (R47). -/

def STRPS.inter_ref_pic_set_prediction_flag (p : Params) (b : Nat) : Bool := p.flag (b + 0x0000)
def STRPS.delta_idx_minus1 (p : Params) (b : Nat) : Nat := p.u32 (b + 0x0001)
def STRPS.delta_rps_sign (p : Params) (b : Nat) : Bool := p.flag (b + 0x0002)
def STRPS.abs_delta_rps_minus1 (p : Params) (b : Nat) : Nat := p.u32 (b + 0x0003)
def STRPS.num_negative_pics (p : Params) (b : Nat) : Nat := p.u32 (b + 0x0004)
def STRPS.num_positive_pics (p : Params) (b : Nat) : Nat := p.u32 (b + 0x0005)
def STRPS.pic (b : Nat) (i : Nat) : Nat := b + 0x0006 + i * 5

/-! Record `STRPSPIC` (R47). -/

def STRPSPIC.DeltaPocSX (p : Params) (b : Nat) : Int := p.i16 (b + 0x0000)
def STRPSPIC.used_by_curr_pic_sx_flag (p : Params) (b : Nat) : Bool := p.flag (b + 0x0001)
def STRPSPIC.delta_poc_sx_minus1 (p : Params) (b : Nat) : Nat := p.u32 (b + 0x0002)
def STRPSPIC.used_by_curr_pic_flag (p : Params) (b : Nat) : Bool := p.flag (b + 0x0003)
def STRPSPIC.use_delta_flag (p : Params) (b : Nat) : Bool := p.flag (b + 0x0004)

/-! Record `VPS` (R48). -/

def VPS.video_parameter_set_id (p : Params) : Nat := p.u 4 0x0100
def VPS.reserved_three_2bits (p : Params) : Nat := p.u 2 0x0101
def VPS.max_layers_minus1 (p : Params) : Nat := p.u 6 0x0102
def VPS.max_sub_layers_minus1 (p : Params) : Nat := p.u 3 0x0103
def VPS.temporal_id_nesting_flag (p : Params) : Bool := p.flag 0x0104
def VPS.reserved_0xffff_16bits (p : Params) : Nat := p.u 16 0x0105
def VPS.ptl : Nat := 0x0106
def VPS.slo : Nat := 0x016C
def VPS.max_layer_id (p : Params) : Nat := p.u 6 0x0182
def VPS.num_layer_sets_minus1 (p : Params) : Nat := p.u32 0x0183
def VPS.timing_info_present_flag (p : Params) : Bool := p.flag 0x0184
def VPS.num_units_in_tick (p : Params) : Nat := p.u32 0x0185
def VPS.time_scale (p : Params) : Nat := p.u32 0x0186
def VPS.poc_proportional_to_timing_flag (p : Params) : Bool := p.flag 0x0187
def VPS.num_ticks_poc_diff_one_minus1 (p : Params) : Nat := p.u32 0x0188
def VPS.num_hrd_parameters (p : Params) : Nat := p.u32 0x0189
def VPS.extension_flag (p : Params) : Bool := p.flag 0x018A

/-! Record `SPS` (R49). -/

def SPS.video_parameter_set_id (p : Params) : Nat := p.u 4 0x0200
def SPS.max_sub_layers_minus1 (p : Params) : Nat := p.u 3 0x0201
def SPS.temporal_id_nesting_flag (p : Params) : Bool := p.flag 0x0202
def SPS.ptl : Nat := 0x0203
def SPS.seq_parameter_set_id (p : Params) : Nat := p.u32 0x0269
def SPS.chroma_format_idc (p : Params) : Nat := p.u32 0x026A
def SPS.separate_colour_plane_flag (p : Params) : Bool := p.flag 0x026B
def SPS.pic_width_in_luma_samples (p : Params) : Nat := p.u32 0x026C
def SPS.pic_height_in_luma_samples (p : Params) : Nat := p.u32 0x026D
def SPS.conformance_window_flag (p : Params) : Bool := p.flag 0x026E
def SPS.conf_win_left_offset (p : Params) : Nat := p.u32 0x026F
def SPS.conf_win_right_offset (p : Params) : Nat := p.u32 0x0270
def SPS.conf_win_top_offset (p : Params) : Nat := p.u32 0x0271
def SPS.conf_win_bottom_offset (p : Params) : Nat := p.u32 0x0272
def SPS.bit_depth_luma_minus8 (p : Params) : Nat := p.u32 0x0273
def SPS.bit_depth_chroma_minus8 (p : Params) : Nat := p.u32 0x0274
def SPS.log2_max_pic_order_cnt_lsb_minus4 (p : Params) : Nat := p.u32 0x0275
def SPS.slo : Nat := 0x0276
def SPS.log2_min_luma_coding_block_size_minus3 (p : Params) : Nat := p.u32 0x028C
def SPS.log2_diff_max_min_luma_coding_block_size (p : Params) : Nat := p.u32 0x028D
def SPS.log2_min_transform_block_size_minus2 (p : Params) : Nat := p.u32 0x028E
def SPS.log2_diff_max_min_transform_block_size (p : Params) : Nat := p.u32 0x028F
def SPS.max_transform_hierarchy_depth_inter (p : Params) : Nat := p.u32 0x0290
def SPS.max_transform_hierarchy_depth_intra (p : Params) : Nat := p.u32 0x0291
def SPS.scaling_list_enabled_flag (p : Params) : Bool := p.flag 0x0292
def SPS.amp_enabled_flag (p : Params) : Bool := p.flag 0x0293
def SPS.sample_adaptive_offset_enabled_flag (p : Params) : Bool := p.flag 0x0294
def SPS.pcm_enabled_flag (p : Params) : Bool := p.flag 0x0295
def SPS.num_short_term_ref_pic_sets (p : Params) : Nat := p.u32 0x0296
def SPS.strps (i : Nat) : Nat := 0x0297 + i * 91
def SPS.long_term_ref_pics_present_flag (p : Params) : Bool := p.flag 0x19B2
def SPS.num_long_term_ref_pics_sps (p : Params) : Nat := p.u32 0x19B3
def SPS.lt_ref_pic_poc_lsb_sps (p : Params) (i : Nat) : Nat := p.u 16 (0x19B4 + i)
def SPS.used_by_curr_pic_lt_sps_flag (p : Params) (i : Nat) : Bool := p.flag (0x19D4 + i)
def SPS.temporal_mvp_enabled_flag (p : Params) : Bool := p.flag 0x19F4
def SPS.strong_intra_smoothing_enabled_flag (p : Params) : Bool := p.flag 0x19F5
def SPS.vui_parameters_present_flag (p : Params) : Bool := p.flag 0x19F6
def SPS.vui : Nat := 0x19F7
def SPS.extension_flag (p : Params) : Bool := p.flag 0x1EAE

/-! Record `PPS` (R50). -/

def PPS.pic_parameter_set_id (p : Params) : Nat := p.u32 0x1F00
def PPS.seq_parameter_set_id (p : Params) : Nat := p.u32 0x1F01
def PPS.dependent_slice_segments_enabled_flag (p : Params) : Bool := p.flag 0x1F02
def PPS.output_flag_present_flag (p : Params) : Bool := p.flag 0x1F03
def PPS.num_extra_slice_header_bits (p : Params) : Nat := p.u 3 0x1F04
def PPS.sign_data_hiding_enabled_flag (p : Params) : Bool := p.flag 0x1F05
def PPS.cabac_init_present_flag (p : Params) : Bool := p.flag 0x1F06
def PPS.num_ref_idx_l0_default_active_minus1 (p : Params) : Nat := p.u32 0x1F07
def PPS.num_ref_idx_l1_default_active_minus1 (p : Params) : Nat := p.u32 0x1F08
def PPS.init_qp_minus26 (p : Params) : Int := p.i32 0x1F09
def PPS.constrained_intra_pred_flag (p : Params) : Bool := p.flag 0x1F0A
def PPS.transform_skip_enabled_flag (p : Params) : Bool := p.flag 0x1F0B
def PPS.cu_qp_delta_enabled_flag (p : Params) : Bool := p.flag 0x1F0C
def PPS.diff_cu_qp_delta_depth (p : Params) : Nat := p.u32 0x1F0D
def PPS.cb_qp_offset (p : Params) : Int := p.i32 0x1F0E
def PPS.cr_qp_offset (p : Params) : Int := p.i32 0x1F0F
def PPS.slice_chroma_qp_offsets_present_flag (p : Params) : Bool := p.flag 0x1F10
def PPS.weighted_pred_flag (p : Params) : Bool := p.flag 0x1F11
def PPS.weighted_bipred_flag (p : Params) : Bool := p.flag 0x1F12
def PPS.transquant_bypass_enabled_flag (p : Params) : Bool := p.flag 0x1F13
def PPS.tiles_enabled_flag (p : Params) : Bool := p.flag 0x1F14
def PPS.entropy_coding_sync_enabled_flag (p : Params) : Bool := p.flag 0x1F15
def PPS.num_tile_columns_minus1 (p : Params) : Nat := p.u32 0x1F16
def PPS.num_tile_rows_minus1 (p : Params) : Nat := p.u32 0x1F17
def PPS.uniform_spacing_flag (p : Params) : Bool := p.flag 0x1F18
def PPS.column_width_minus1 (p : Params) (i : Nat) : Nat := p.u32 (0x1F19 + i)
def PPS.row_height_minus1 (p : Params) (i : Nat) : Nat := p.u32 (0x1F2C + i)
def PPS.loop_filter_across_tiles_enabled_flag (p : Params) : Bool := p.flag 0x1F41
def PPS.loop_filter_across_slices_enabled_flag (p : Params) : Bool := p.flag 0x1F42
def PPS.deblocking_filter_control_present_flag (p : Params) : Bool := p.flag 0x1F43
def PPS.deblocking_filter_override_enabled_flag (p : Params) : Bool := p.flag 0x1F44
def PPS.deblocking_filter_disabled_flag (p : Params) : Bool := p.flag 0x1F45
def PPS.beta_offset_div2 (p : Params) : Int := p.i32 0x1F46
def PPS.tc_offset_div2 (p : Params) : Int := p.i32 0x1F47
def PPS.scaling_list_data_present_flag (p : Params) : Bool := p.flag 0x1F48
def PPS.lists_modification_present_flag (p : Params) : Bool := p.flag 0x1F49
def PPS.log2_parallel_merge_level_minus2 (p : Params) : Nat := p.u32 0x1F4A
def PPS.slice_segment_header_extension_present_flag (p : Params) : Bool := p.flag 0x1F4B
def PPS.extension_flag (p : Params) : Bool := p.flag 0x1F4C

/-! Record `SLICE` (R51). -/

def SLICE.first_slice_segment_in_pic_flag (p : Params) : Bool := p.flag 0x2000
def SLICE.no_output_of_prior_pics_flag (p : Params) : Bool := p.flag 0x2001
def SLICE.pic_parameter_set_id (p : Params) : Nat := p.u32 0x2002
def SLICE.dependent_slice_segment_flag (p : Params) : Bool := p.flag 0x2003
def SLICE.segment_address (p : Params) : Nat := p.u32 0x2004
def SLICE.reserved_flags (p : Params) : Nat := p.u 7 0x2005
def SLICE.type (p : Params) : Nat := p.u32 0x2006
def SLICE.pic_output_flag (p : Params) : Bool := p.flag 0x2007
def SLICE.colour_plane_id (p : Params) : Nat := p.u 2 0x2008
def SLICE.pic_order_cnt_lsb (p : Params) : Nat := p.u 16 0x2009
def SLICE.short_term_ref_pic_set_sps_flag (p : Params) : Bool := p.flag 0x200A
def SLICE.short_term_ref_pic_set_idx (p : Params) : Nat := p.u 6 0x200B
def SLICE.strps : Nat := 0x200C
def SLICE.num_long_term_sps (p : Params) : Nat := p.u32 0x2067
def SLICE.num_long_term_pics (p : Params) : Nat := p.u32 0x2068
def SLICE.lt (i : Nat) : Nat := 0x2069 + i * 5
def SLICE.temporal_mvp_enabled_flag (p : Params) : Bool := p.flag 0x210E
def SLICE.sao_luma_flag (p : Params) : Bool := p.flag 0x210F
def SLICE.sao_chroma_flag (p : Params) : Bool := p.flag 0x2110
def SLICE.num_ref_idx_active_override_flag (p : Params) : Bool := p.flag 0x2111
def SLICE.num_ref_idx_l0_active_minus1 (p : Params) : Nat := p.u32 0x2112
def SLICE.num_ref_idx_l1_active_minus1 (p : Params) : Nat := p.u32 0x2113
def SLICE.NumPocTotalCurr (p : Params) : Nat := p.u 5 0x2114
def SLICE.ref_pic_list_modification_flag_l0 (p : Params) : Bool := p.flag 0x2115
def SLICE.ref_pic_list_modification_flag_l1 (p : Params) : Bool := p.flag 0x2116
def SLICE.list_entry_l0 (p : Params) (i : Nat) : Nat := p.u 5 (0x2117 + i)
def SLICE.list_entry_l1 (p : Params) (i : Nat) : Nat := p.u 5 (0x2127 + i)
def SLICE.mvd_l1_zero_flag (p : Params) : Bool := p.flag 0x2137
def SLICE.cabac_init_flag (p : Params) : Bool := p.flag 0x2138
def SLICE.collocated_from_l0_flag (p : Params) : Bool := p.flag 0x2139
def SLICE.collocated_ref_idx (p : Params) : Nat := p.u32 0x213A
def SLICE.luma_log2_weight_denom (p : Params) : Nat := p.u32 0x213B
def SLICE.delta_chroma_log2_weight_denom (p : Params) : Int := p.i32 0x213C
def SLICE.pwt_l0 (i : Nat) : Nat := 0x213D + i * 8
def SLICE.pwt_l1 (i : Nat) : Nat := 0x21BD + i * 8
def SLICE.five_minus_max_num_merge_cand (p : Params) : Nat := p.u32 0x223D
def SLICE.slice_qp_delta (p : Params) : Int := p.i32 0x223E
def SLICE.slice_cb_qp_offset (p : Params) : Int := p.i32 0x223F
def SLICE.slice_cr_qp_offset (p : Params) : Int := p.i32 0x2240
def SLICE.deblocking_filter_override_flag (p : Params) : Bool := p.flag 0x2241
def SLICE.deblocking_filter_disabled_flag (p : Params) : Bool := p.flag 0x2242
def SLICE.beta_offset_div2 (p : Params) : Int := p.i32 0x2243
def SLICE.tc_offset_div2 (p : Params) : Int := p.i32 0x2244
def SLICE.loop_filter_across_slices_enabled_flag (p : Params) : Bool := p.flag 0x2245
def SLICE.num_entry_point_offsets (p : Params) : Nat := p.u32 0x2246

/-! Record `LT` (R51). -/

def LT.lt_idx_sps (p : Params) (b : Nat) : Nat := p.u 5 (b + 0x0000)
def LT.poc_lsb_lt (p : Params) (b : Nat) : Nat := p.u 16 (b + 0x0001)
def LT.used_by_curr_pic_lt_flag (p : Params) (b : Nat) : Bool := p.flag (b + 0x0002)
def LT.delta_poc_msb_present_flag (p : Params) (b : Nat) : Bool := p.flag (b + 0x0003)
def LT.delta_poc_msb_cycle_lt (p : Params) (b : Nat) : Nat := p.u32 (b + 0x0004)

/-! Record `PWTE` (R51). -/

def PWTE.luma_weight_flag (p : Params) (b : Nat) : Bool := p.flag (b + 0x0000)
def PWTE.chroma_weight_flag (p : Params) (b : Nat) : Bool := p.flag (b + 0x0001)
def PWTE.delta_luma_weight (p : Params) (b : Nat) : Int := p.i32 (b + 0x0002)
def PWTE.luma_offset (p : Params) (b : Nat) : Int := p.i32 (b + 0x0003)
def PWTE.delta_chroma_weight (p : Params) (b : Nat) (i : Nat) : Int := p.i32 (b + 0x0004 + i)
def PWTE.delta_chroma_offset (p : Params) (b : Nat) (i : Nat) : Int := p.i32 (b + 0x0006 + i)

end Sys2Proof.Machine.Rec
end

