-- ==== Sys2Proof/Machine/Header.lean ====
section
/-! DEFINITION. The header packer's shared procedures (spec/44_header_common.md). A listing of the spec becomes a list of
actions, a pure function of the parameter words; `runActs` performs the actions in order and stops at the first fault,
so a packer that faults midway has written what it had written (R210, R392). -/

namespace Sys2Proof.Machine

/-- The report registers as targets of an assignment (R300, R330). -/
inductive ReportReg where
  | qpd
  | sao
  | pwt
  | sshStartLen
  | sshOffset
deriving DecidableEq, Repr

/-- One line of a listing. -/
inductive Act where
  /-- One writing primitive: `u`, `flag`, `ue` or `se` (R210). -/
  | put (bits : List Bool)
  /-- `PutTrailingBits(0)` (R138). -/
  | trailing
  /-- `REG <- bitpos() - base` (R300). -/
  | mark (r : ReportReg)
  /-- `REG <- v` (R300). -/
  | assign (r : ReportReg) (v : Nat)
  /-- `raise Fault(code, info)` (R381). -/
  | fail (code : FaultCode) (info : Nat)
deriving DecidableEq, Repr

/-- One report register takes a value. -/
def Report.write (r : Report) (reg : ReportReg) (v : Word) : Report :=
  match reg with
  | .qpd => { r with qpd := v }
  | .sao => { r with sao := v }
  | .pwt => { r with pwt := v }
  | .sshStartLen => { r with sshStartLen := v }
  | .sshOffset => { r with sshOffset := v }

/-- One action. `base` is the bit position at which the header began (R330). -/
def runAct (base : Nat) (a : Act) (s : State) : Res :=
  match a with
  | .put bits => emit bits s
  | .trailing => putTrailing false s
  | .mark r => .ok (s.setReport (s.report.write r (BitVec.ofNat 32 (s.bitpos - base))))
  | .assign r v => .ok (s.setReport (s.report.write r (BitVec.ofNat 32 v)))
  | .fail code info => raise code (BitVec.ofNat 32 info) s

/-- The actions in order. -/
def runActs (base : Nat) : List Act → State → Res
  | [], s => .ok s
  | a :: as, s => do
    let s ← runAct base a s
    runActs base as s

/-! ## The shorthand of R210 -/

/-- `u(n, x)`. -/
def u (n x : Nat) : List Act := [.put (bitsMsb n x)]

/-- `flag(x)`. -/
def flag (x : Bool) : List Act := [.put [x]]

/-- `ue(x)`. -/
def ue (x : Nat) : List Act := [.put (ueBits x)]

/-- `se(x)`. -/
def se (x : Int) : List Act := [.put (seBits x)]

/-- `for i in 0 .. n-1`. -/
def forN (n : Nat) (body : Nat → List Act) : List Act := (List.range n).flatMap body

/-- `if c: body`. -/
def onlyIf (c : Bool) (body : List Act) : List Act := if c then body else []

/-- `raise Fault(code, info)` as the last line of a listing. -/
def failWith (code : FaultCode) (info : Nat) : List Act := [.fail code info]

/-! ## NAL unit header -/

/-- Whether the leading zero byte is sent (R211): VPS, SPS, PPS, AUD, prefix SEI, or a long start code. -/
def leadingZero (long : Bool) (type : Nat) : Bool := long || [32, 33, 34, 35, 39].contains type

/-- `PackNALU(long, type, layer, tid1)` (R211). -/
def naluActs (long : Bool) (type layer tid1 : Nat) : List Act :=
  onlyIf (leadingZero long type) (u 8 0) ++ u 24 0x000001 ++ flag false ++ u 6 type ++ u 6 layer ++ u 3 tid1

/-- What `PackNALU` returns (R211): the start code length in bytes. -/
def startCodeLength (long : Bool) (type : Nat) : Nat := if leadingZero long type then 4 else 3

/-- `PackNALU` on the `NALU` record (R211, R212). -/
def naluRecordActs (p : Params) : List Act :=
  naluActs (Rec.NALU.long_start_code p) (Rec.NALU.nal_unit_type p) (Rec.NALU.nuh_layer_id p)
    (Rec.NALU.nuh_temporal_id_plus1 p)

/-! ## Profile, tier, level; sub-layer ordering -/

/-- `PackPTLCore` (R214), on the ten words from `b` on. -/
def ptlCoreActs (p : Params) (b : Nat) : List Act :=
  u 2 (Rec.PTLCORE.profile_space p b) ++
  flag (Rec.PTLCORE.tier_flag p b) ++
  u 5 (Rec.PTLCORE.profile_idc p b) ++
  u 32 (Rec.PTLCORE.profile_compatibility_flags p b) ++
  flag (Rec.PTLCORE.progressive_source_flag p b) ++
  flag (Rec.PTLCORE.interlaced_source_flag p b) ++
  flag (Rec.PTLCORE.non_packed_constraint_flag p b) ++
  flag (Rec.PTLCORE.frame_only_constraint_flag p b) ++
  u 12 (Rec.PTLCORE.reserved_44bits_hi p b) ++
  u 32 (Rec.PTLCORE.reserved_44bits_lo p b)

/-- `PackPTL(R, msl)` (R215), on the `PTL` record at `b`. -/
def ptlActs (p : Params) (b msl : Nat) : List Act :=
  ptlCoreActs p (Rec.PTL.general b) ++
  u 8 (Rec.PTL.general_level_idc p b) ++
  (forN msl fun i =>
    flag (Rec.PTLSUB.profile_present_flag p (Rec.PTL.sub_layer b i)) ++
    flag (Rec.PTLSUB.level_present_flag p (Rec.PTL.sub_layer b i))) ++
  onlyIf (0 < msl) (forN (8 - msl) fun _ => u 2 0) ++
  (forN msl fun i =>
    onlyIf (Rec.PTLSUB.profile_present_flag p (Rec.PTL.sub_layer b i))
      (ptlCoreActs p (Rec.PTLSUB.core (Rec.PTL.sub_layer b i))) ++
    onlyIf (Rec.PTLSUB.level_present_flag p (Rec.PTL.sub_layer b i))
      (u 8 (Rec.PTLSUB.level_idc p (Rec.PTL.sub_layer b i))))

/-- One entry of `PackSLO` (R216). -/
def sloEntryActs (p : Params) (b : Nat) : List Act :=
  ue (Rec.SLOSUB.max_dec_pic_buffering_minus1 p b) ++
  ue (Rec.SLOSUB.max_num_reorder_pics p b) ++
  ue (Rec.SLOSUB.max_latency_increase_plus1 p b)

/-- `PackSLO(R, msl)` (R216), on the `SLO` record at `b`. -/
def sloActs (p : Params) (b msl : Nat) : List Act :=
  flag (Rec.SLO.sub_layer_ordering_info_present_flag p b) ++
  if Rec.SLO.sub_layer_ordering_info_present_flag p b then
    forN (msl + 1) fun i => sloEntryActs p (Rec.SLO.sub_layer b i)
  else sloEntryActs p (Rec.SLO.sub_layer b msl)

/-! ## HRD -/

/-- The common block of `PackHRD` (R217). -/
def hrdCommonActs (p : Params) (h : Nat) : List Act :=
  flag (Rec.HRD.nal_hrd_parameters_present_flag p h) ++
  flag (Rec.HRD.vcl_hrd_parameters_present_flag p h) ++
  onlyIf (Rec.HRD.nal_hrd_parameters_present_flag p h || Rec.HRD.vcl_hrd_parameters_present_flag p h)
    (flag (Rec.HRD.sub_pic_hrd_params_present_flag p h) ++
     onlyIf (Rec.HRD.sub_pic_hrd_params_present_flag p h)
      (u 8 (Rec.HRD.tick_divisor_minus2 p h) ++
       u 5 (Rec.HRD.du_cpb_removal_delay_increment_length_minus1 p h) ++
       flag (Rec.HRD.sub_pic_cpb_params_in_pic_timing_sei_flag p h) ++
       u 5 (Rec.HRD.dpb_output_delay_du_length_minus1 p h)) ++
     u 4 (Rec.HRD.bit_rate_scale p h) ++
     u 4 (Rec.HRD.cpb_size_scale p h) ++
     onlyIf (Rec.HRD.sub_pic_hrd_params_present_flag p h) (u 4 (Rec.HRD.cpb_size_du_scale p h)) ++
     u 5 (Rec.HRD.initial_cpb_removal_delay_length_minus1 p h) ++
     u 5 (Rec.HRD.au_cpb_removal_delay_length_minus1 p h) ++
     u 5 (Rec.HRD.dpb_output_delay_length_minus1 p h))

/-- One CPB entry (R217). -/
def cpbActs (p : Params) (sub : Bool) (c : Nat) : List Act :=
  ue (Rec.CPB.bit_rate_value_minus1 p c) ++
  ue (Rec.CPB.cpb_size_value_minus1 p c) ++
  onlyIf sub
    (ue (Rec.CPB.cpb_size_du_value_minus1 p c) ++
     ue (Rec.CPB.bit_rate_du_value_minus1 p c)) ++
  flag (Rec.CPB.cbr_flag p c)

/-- `fw` of R217: 1 when the general flag is set, else the flag within the CVS. -/
def hrdFixedWithin (p : Params) (l : Nat) : Bool :=
  Rec.HRDSUB.fixed_pic_rate_general_flag p l || Rec.HRDSUB.fixed_pic_rate_within_cvs_flag p l

/-- `ld` of R217: the low-delay flag, 0 when `fw` is set. -/
def hrdLowDelay (p : Params) (l : Nat) : Bool := !hrdFixedWithin p l && Rec.HRDSUB.low_delay_hrd_flag p l

/-- `cnt` of R217: the CPB count less one, 0 when it is not sent. -/
def hrdCpbCount (p : Params) (l : Nat) : Nat := if hrdLowDelay p l then 0 else Rec.HRDSUB.cpb_cnt_minus1 p l

/-- One sub-layer of `PackHRD` (R217). -/
def hrdSubActs (p : Params) (nal sub : Bool) (l : Nat) : List Act :=
  flag (Rec.HRDSUB.fixed_pic_rate_general_flag p l) ++
  onlyIf (!Rec.HRDSUB.fixed_pic_rate_general_flag p l) (flag (Rec.HRDSUB.fixed_pic_rate_within_cvs_flag p l)) ++
  (if hrdFixedWithin p l then ue (Rec.HRDSUB.elemental_duration_in_tc_minus1 p l)
   else flag (Rec.HRDSUB.low_delay_hrd_flag p l)) ++
  if 31 < hrdCpbCount p l then failWith .badParam 20
  else
    onlyIf (!hrdLowDelay p l) (ue (hrdCpbCount p l)) ++
    onlyIf nal (forN (hrdCpbCount p l + 1) fun j => cpbActs p sub (Rec.HRDSUB.cpb l j))

/-- `PackHRD(common, msl)` (R217), on the `HRD` record at `h`. -/
def hrdActs (p : Params) (h : Nat) (common : Bool) (msl : Nat) : List Act :=
  if Rec.HRD.vcl_hrd_parameters_present_flag p h then failWith .unsupported 3
  else
    onlyIf common (hrdCommonActs p h) ++
    forN (msl + 1) fun i =>
      hrdSubActs p (Rec.HRD.nal_hrd_parameters_present_flag p h) (Rec.HRD.sub_pic_hrd_params_present_flag p h)
        (Rec.HRD.sl h i)

/-! ## VUI -/

/-- `PackVUI(msl)` (R218), on the `VUI` record at `v`. -/
def vuiActs (p : Params) (v msl : Nat) : List Act :=
  flag (Rec.VUI.aspect_ratio_info_present_flag p v) ++
  onlyIf (Rec.VUI.aspect_ratio_info_present_flag p v)
    (u 8 (Rec.VUI.aspect_ratio_idc p v) ++
     onlyIf (Rec.VUI.aspect_ratio_idc p v == 255) (u 16 (Rec.VUI.sar_width p v) ++ u 16 (Rec.VUI.sar_height p v))) ++
  flag (Rec.VUI.overscan_info_present_flag p v) ++
  onlyIf (Rec.VUI.overscan_info_present_flag p v) (flag (Rec.VUI.overscan_appropriate_flag p v)) ++
  flag (Rec.VUI.video_signal_type_present_flag p v) ++
  onlyIf (Rec.VUI.video_signal_type_present_flag p v)
    (u 3 (Rec.VUI.video_format p v) ++
     flag (Rec.VUI.video_full_range_flag p v) ++
     flag (Rec.VUI.colour_description_present_flag p v) ++
     onlyIf (Rec.VUI.colour_description_present_flag p v)
      (u 8 (Rec.VUI.colour_primaries p v) ++
       u 8 (Rec.VUI.transfer_characteristics p v) ++
       u 8 (Rec.VUI.matrix_coeffs p v))) ++
  flag (Rec.VUI.chroma_loc_info_present_flag p v) ++
  onlyIf (Rec.VUI.chroma_loc_info_present_flag p v)
    (ue (Rec.VUI.chroma_sample_loc_type_top_field p v) ++ ue (Rec.VUI.chroma_sample_loc_type_bottom_field p v)) ++
  flag (Rec.VUI.neutral_chroma_indication_flag p v) ++
  flag (Rec.VUI.field_seq_flag p v) ++
  flag (Rec.VUI.frame_field_info_present_flag p v) ++
  flag (Rec.VUI.default_display_window_flag p v) ++
  onlyIf (Rec.VUI.default_display_window_flag p v)
    (ue (Rec.VUI.def_disp_win_left_offset p v) ++ ue (Rec.VUI.def_disp_win_right_offset p v) ++
     ue (Rec.VUI.def_disp_win_top_offset p v) ++ ue (Rec.VUI.def_disp_win_bottom_offset p v)) ++
  flag (Rec.VUI.timing_info_present_flag p v) ++
  onlyIf (Rec.VUI.timing_info_present_flag p v)
    (u 32 (Rec.VUI.num_units_in_tick p v) ++
     u 32 (Rec.VUI.time_scale p v) ++
     flag (Rec.VUI.poc_proportional_to_timing_flag p v) ++
     onlyIf (Rec.VUI.poc_proportional_to_timing_flag p v) (ue (Rec.VUI.num_ticks_poc_diff_one_minus1 p v)) ++
     flag (Rec.VUI.hrd_parameters_present_flag p v) ++
     onlyIf (Rec.VUI.hrd_parameters_present_flag p v) (hrdActs p (Rec.VUI.hrd v) true msl)) ++
  flag (Rec.VUI.bitstream_restriction_flag p v) ++
  onlyIf (Rec.VUI.bitstream_restriction_flag p v)
    (flag (Rec.VUI.tiles_fixed_structure_flag p v) ++
     flag (Rec.VUI.motion_vectors_over_pic_boundaries_flag p v) ++
     flag (Rec.VUI.restricted_ref_pic_lists_flag p v) ++
     ue (Rec.VUI.min_spatial_segmentation_idc p v) ++
     ue (Rec.VUI.max_bytes_per_pic_denom p v) ++
     ue (Rec.VUI.max_bits_per_min_cu_denom p v) ++
     ue (Rec.VUI.log2_max_mv_length_horizontal p v) ++
     ue (Rec.VUI.log2_max_mv_length_vertical p v))

/-! ## Short-term reference picture sets -/

/-- `SET(k)` (R225): the address of the `STRPS` record at index `k` of the logical list. -/
def strpsAt (num k : Nat) : Nat := if k < num then Rec.SPS.strps k else Rec.SLICE.strps

/-- The picture count of a set as its record gives it (R225, point c). -/
def strpsPics (p : Params) (t : Nat) : Nat := Rec.STRPS.num_negative_pics p t + Rec.STRPS.num_positive_pics p t

/-- The inter-predicted form after its reference has been found (R225): `r` is the reference record. -/
def strpsInterActs (p : Params) (t r : Nat) : List Act :=
  flag (Rec.STRPS.delta_rps_sign p t) ++
  ue (Rec.STRPS.abs_delta_rps_minus1 p t) ++
  if 16 < strpsPics p r then failWith .badParam 33
  else
    forN (strpsPics p r + 1) fun j =>
      flag (Rec.STRPSPIC.used_by_curr_pic_flag p (Rec.STRPS.pic t j)) ++
      onlyIf (!Rec.STRPSPIC.used_by_curr_pic_flag p (Rec.STRPS.pic t j))
        (flag (Rec.STRPSPIC.use_delta_flag p (Rec.STRPS.pic t j)))

/-- The explicit form (R225). -/
def strpsExplicitActs (p : Params) (t : Nat) : List Act :=
  if 16 < strpsPics p t then failWith .badParam 34
  else
    ue (Rec.STRPS.num_negative_pics p t) ++ ue (Rec.STRPS.num_positive_pics p t) ++
    forN (strpsPics p t) fun i =>
      ue (Rec.STRPSPIC.delta_poc_sx_minus1 p (Rec.STRPS.pic t i)) ++
      flag (Rec.STRPSPIC.used_by_curr_pic_sx_flag p (Rec.STRPS.pic t i))

/-- `PackSTRPS(num, idx)` (R225). -/
def strpsActs (p : Params) (num idx : Nat) : List Act :=
  let t := strpsAt num idx
  let inter := Rec.STRPS.inter_ref_pic_set_prediction_flag p t
  let d := Rec.STRPS.delta_idx_minus1 p t
  if idx = 0 then
    if inter then failWith .badParam 30 else strpsExplicitActs p t
  else
    flag inter ++
    if inter then
      if idx = num then
        ue d ++ if idx < d + 1 then failWith .badParam 32 else strpsInterActs p t (strpsAt num (idx - (d + 1)))
      else if d ≠ 0 then failWith .badParam 31
      else strpsInterActs p t (strpsAt num (idx - 1))
    else strpsExplicitActs p t

/-! ## Command -/

/-- `PACK_NALU` (R211). It assigns no report register, so the base plays no part. -/
def execPackNalu (s : State) : Host.Outcome State Fault Refusal := finish (runActs 0 (naluRecordActs s.params) s)

end Sys2Proof.Machine
end

