-- ==== Sys2Proof/Machine/ParamSets.lean ====
section
/-! DEFINITION. The parameter-set packers (spec/45_parameter_sets.md): `PACK_VPS`, `PACK_SPS`, `PACK_PPS`. Each is its
pre-checks, raised before any bit is written, and then its listing. -/

namespace Sys2Proof.Machine

/-- The first check that applies, in order: a fault and its information word. -/
abbrev PreCheck := Option (FaultCode × Nat)

/-- `if c: raise Fault(code, info)`, then the later checks. -/
def check (c : Bool) (code : FaultCode) (info : Nat) (rest : PreCheck) : PreCheck := if c then some (code, info) else rest

/-- A packer: the pre-checks on the parameter words, then the listing. -/
def packListing (pre : Params → PreCheck) (acts : Params → List Act) (s : State) : Res :=
  match pre s.params with
  | some (code, info) => raise code (BitVec.ofNat 32 info) s
  | none => runActs 0 (acts s.params) s

/-! ## Video parameter set -/

/-- The pre-checks of `PACK_VPS` (R260). -/
def vpsChecks (p : Params) : PreCheck :=
  check (Rec.VPS.num_layer_sets_minus1 p != 0 || Rec.VPS.num_hrd_parameters p != 0 || Rec.VPS.extension_flag p)
    .unsupported 10 <|
  check (6 < Rec.VPS.max_sub_layers_minus1 p) .badParam 11 none

/-- The listing of `PACK_VPS` (R260). -/
def vpsActs (p : Params) : List Act :=
  naluActs true 32 0 1 ++
  u 4 (Rec.VPS.video_parameter_set_id p) ++
  u 2 (Rec.VPS.reserved_three_2bits p) ++
  u 6 (Rec.VPS.max_layers_minus1 p) ++
  u 3 (Rec.VPS.max_sub_layers_minus1 p) ++
  flag (Rec.VPS.temporal_id_nesting_flag p) ++
  u 16 (Rec.VPS.reserved_0xffff_16bits p) ++
  ptlActs p Rec.VPS.ptl (Rec.VPS.max_sub_layers_minus1 p) ++
  sloActs p Rec.VPS.slo (Rec.VPS.max_sub_layers_minus1 p) ++
  u 6 (Rec.VPS.max_layer_id p) ++
  ue (Rec.VPS.num_layer_sets_minus1 p) ++
  flag (Rec.VPS.timing_info_present_flag p) ++
  onlyIf (Rec.VPS.timing_info_present_flag p)
    (u 32 (Rec.VPS.num_units_in_tick p) ++
     u 32 (Rec.VPS.time_scale p) ++
     flag (Rec.VPS.poc_proportional_to_timing_flag p) ++
     onlyIf (Rec.VPS.poc_proportional_to_timing_flag p) (ue (Rec.VPS.num_ticks_poc_diff_one_minus1 p)) ++
     ue (Rec.VPS.num_hrd_parameters p)) ++
  flag (Rec.VPS.extension_flag p) ++
  [.trailing]

/-- `PackVPS()` (R260). -/
def packVps (s : State) : Res := packListing vpsChecks vpsActs s

/-! ## Sequence parameter set -/

/-- The three bounds `PACK_SPS` and `PACK_SSH` share (R262, R300). -/
def spsBoundChecks (p : Params) : PreCheck :=
  check (64 < Rec.SPS.num_short_term_ref_pic_sets p) .badParam 12 <|
  check (32 < Rec.SPS.num_long_term_ref_pics_sps p) .badParam 13 <|
  check (12 < Rec.SPS.log2_max_pic_order_cnt_lsb_minus4 p) .badParam 14 none

/-- The pre-checks of `PACK_SPS` (R262). -/
def spsChecks (p : Params) : PreCheck :=
  check (Rec.SPS.scaling_list_enabled_flag p) .unsupported 1 <|
  check (Rec.SPS.pcm_enabled_flag p) .unsupported 2 <|
  check (Rec.SPS.extension_flag p) .unsupported 4 <|
  check (6 < Rec.SPS.max_sub_layers_minus1 p) .badParam 11 (spsBoundChecks p)

/-- The width of a POC LSB field (R262, R300). -/
def pocBits (p : Params) : Nat := Rec.SPS.log2_max_pic_order_cnt_lsb_minus4 p + 4

/-- The listing of `PACK_SPS` (R262). -/
def spsActs (p : Params) : List Act :=
  naluActs true 33 0 1 ++
  u 4 (Rec.SPS.video_parameter_set_id p) ++
  u 3 (Rec.SPS.max_sub_layers_minus1 p) ++
  flag (Rec.SPS.temporal_id_nesting_flag p) ++
  ptlActs p Rec.SPS.ptl (Rec.SPS.max_sub_layers_minus1 p) ++
  ue (Rec.SPS.seq_parameter_set_id p) ++
  ue (Rec.SPS.chroma_format_idc p) ++
  onlyIf (Rec.SPS.chroma_format_idc p == 3) (flag (Rec.SPS.separate_colour_plane_flag p)) ++
  ue (Rec.SPS.pic_width_in_luma_samples p) ++
  ue (Rec.SPS.pic_height_in_luma_samples p) ++
  flag (Rec.SPS.conformance_window_flag p) ++
  onlyIf (Rec.SPS.conformance_window_flag p)
    (ue (Rec.SPS.conf_win_left_offset p) ++ ue (Rec.SPS.conf_win_right_offset p) ++
     ue (Rec.SPS.conf_win_top_offset p) ++ ue (Rec.SPS.conf_win_bottom_offset p)) ++
  ue (Rec.SPS.bit_depth_luma_minus8 p) ++
  ue (Rec.SPS.bit_depth_chroma_minus8 p) ++
  ue (Rec.SPS.log2_max_pic_order_cnt_lsb_minus4 p) ++
  sloActs p Rec.SPS.slo (Rec.SPS.max_sub_layers_minus1 p) ++
  ue (Rec.SPS.log2_min_luma_coding_block_size_minus3 p) ++
  ue (Rec.SPS.log2_diff_max_min_luma_coding_block_size p) ++
  ue (Rec.SPS.log2_min_transform_block_size_minus2 p) ++
  ue (Rec.SPS.log2_diff_max_min_transform_block_size p) ++
  ue (Rec.SPS.max_transform_hierarchy_depth_inter p) ++
  ue (Rec.SPS.max_transform_hierarchy_depth_intra p) ++
  flag (Rec.SPS.scaling_list_enabled_flag p) ++
  flag (Rec.SPS.amp_enabled_flag p) ++
  flag (Rec.SPS.sample_adaptive_offset_enabled_flag p) ++
  flag (Rec.SPS.pcm_enabled_flag p) ++
  ue (Rec.SPS.num_short_term_ref_pic_sets p) ++
  (forN (Rec.SPS.num_short_term_ref_pic_sets p) fun i => strpsActs p (Rec.SPS.num_short_term_ref_pic_sets p) i) ++
  flag (Rec.SPS.long_term_ref_pics_present_flag p) ++
  onlyIf (Rec.SPS.long_term_ref_pics_present_flag p)
    (ue (Rec.SPS.num_long_term_ref_pics_sps p) ++
     forN (Rec.SPS.num_long_term_ref_pics_sps p) fun i =>
      u (pocBits p) (Rec.SPS.lt_ref_pic_poc_lsb_sps p i) ++ flag (Rec.SPS.used_by_curr_pic_lt_sps_flag p i)) ++
  flag (Rec.SPS.temporal_mvp_enabled_flag p) ++
  flag (Rec.SPS.strong_intra_smoothing_enabled_flag p) ++
  flag (Rec.SPS.vui_parameters_present_flag p) ++
  onlyIf (Rec.SPS.vui_parameters_present_flag p) (vuiActs p Rec.SPS.vui (Rec.SPS.max_sub_layers_minus1 p)) ++
  flag (Rec.SPS.extension_flag p) ++
  [.trailing]

/-- `PackSPS()` (R262). -/
def packSps (s : State) : Res := packListing spsChecks spsActs s

/-! ## Picture parameter set -/

/-- The pre-checks of `PACK_PPS` (R264). -/
def ppsChecks (p : Params) : PreCheck :=
  check (Rec.PPS.scaling_list_data_present_flag p) .unsupported 5 <|
  check (Rec.PPS.extension_flag p) .unsupported 6 <|
  check (19 < Rec.PPS.num_tile_columns_minus1 p || 21 < Rec.PPS.num_tile_rows_minus1 p) .badParam 15 none

/-- The tile block (R264). -/
def ppsTileActs (p : Params) : List Act :=
  ue (Rec.PPS.num_tile_columns_minus1 p) ++
  ue (Rec.PPS.num_tile_rows_minus1 p) ++
  flag (Rec.PPS.uniform_spacing_flag p) ++
  onlyIf (!Rec.PPS.uniform_spacing_flag p)
    ((forN (Rec.PPS.num_tile_columns_minus1 p) fun i => ue (Rec.PPS.column_width_minus1 p i)) ++
     (forN (Rec.PPS.num_tile_rows_minus1 p) fun i => ue (Rec.PPS.row_height_minus1 p i))) ++
  flag (Rec.PPS.loop_filter_across_tiles_enabled_flag p)

/-- The listing of `PACK_PPS` (R264). -/
def ppsActs (p : Params) : List Act :=
  naluActs true 34 0 1 ++
  ue (Rec.PPS.pic_parameter_set_id p) ++
  ue (Rec.PPS.seq_parameter_set_id p) ++
  flag (Rec.PPS.dependent_slice_segments_enabled_flag p) ++
  flag (Rec.PPS.output_flag_present_flag p) ++
  u 3 (Rec.PPS.num_extra_slice_header_bits p) ++
  flag (Rec.PPS.sign_data_hiding_enabled_flag p) ++
  flag (Rec.PPS.cabac_init_present_flag p) ++
  ue (Rec.PPS.num_ref_idx_l0_default_active_minus1 p) ++
  ue (Rec.PPS.num_ref_idx_l1_default_active_minus1 p) ++
  se (Rec.PPS.init_qp_minus26 p) ++
  flag (Rec.PPS.constrained_intra_pred_flag p) ++
  flag (Rec.PPS.transform_skip_enabled_flag p) ++
  flag (Rec.PPS.cu_qp_delta_enabled_flag p) ++
  onlyIf (Rec.PPS.cu_qp_delta_enabled_flag p) (ue (Rec.PPS.diff_cu_qp_delta_depth p)) ++
  se (Rec.PPS.cb_qp_offset p) ++
  se (Rec.PPS.cr_qp_offset p) ++
  flag (Rec.PPS.slice_chroma_qp_offsets_present_flag p) ++
  flag (Rec.PPS.weighted_pred_flag p) ++
  flag (Rec.PPS.weighted_bipred_flag p) ++
  flag (Rec.PPS.transquant_bypass_enabled_flag p) ++
  flag (Rec.PPS.tiles_enabled_flag p) ++
  flag (Rec.PPS.entropy_coding_sync_enabled_flag p) ++
  onlyIf (Rec.PPS.tiles_enabled_flag p) (ppsTileActs p) ++
  flag (Rec.PPS.loop_filter_across_slices_enabled_flag p) ++
  flag (Rec.PPS.deblocking_filter_control_present_flag p) ++
  onlyIf (Rec.PPS.deblocking_filter_control_present_flag p)
    (flag (Rec.PPS.deblocking_filter_override_enabled_flag p) ++
     flag (Rec.PPS.deblocking_filter_disabled_flag p) ++
     onlyIf (!Rec.PPS.deblocking_filter_disabled_flag p)
      (se (Rec.PPS.beta_offset_div2 p) ++ se (Rec.PPS.tc_offset_div2 p))) ++
  flag (Rec.PPS.scaling_list_data_present_flag p) ++
  flag (Rec.PPS.lists_modification_present_flag p) ++
  ue (Rec.PPS.log2_parallel_merge_level_minus2 p) ++
  flag (Rec.PPS.slice_segment_header_extension_present_flag p) ++
  flag (Rec.PPS.extension_flag p) ++
  [.trailing]

/-- `PackPPS()` (R264). -/
def packPps (s : State) : Res := packListing ppsChecks ppsActs s

/-! ## Commands -/

/-- `PACK_VPS` (R260). -/
def execPackVps (s : State) : Host.Outcome State Fault Refusal := finish (packVps s)

/-- `PACK_SPS` (R262). -/
def execPackSps (s : State) : Host.Outcome State Fault Refusal := finish (packSps s)

/-- `PACK_PPS` (R264). -/
def execPackPps (s : State) : Host.Outcome State Fault Refusal := finish (packPps s)

end Sys2Proof.Machine
end

