-- ==== Sys2Proof/Machine/SliceHeader.lean ====
section
/-! DEFINITION. The slice segment header packer (spec/46_slice_header.md): picture geometry (R340), the listing of
`PackSSH` (R300) with the weighted-prediction tables (R310), and `PACK_SSH`. -/

namespace Sys2Proof.Machine

/-! ## Picture geometry -/

/-- What `Geometry()` returns (R340). -/
structure Geometry where
  minCbLog2 : Nat
  ctbLog2 : Nat
  width : Nat
  height : Nat
  /-- `Wc`. -/
  widthInCtbs : Nat
  /-- `Hc`. -/
  heightInCtbs : Nat
deriving DecidableEq, Repr

/-- `PicSizeInCtbs = Wc * Hc` (R340). -/
def picSizeInCtbs (g : Geometry) : Nat := g.widthInCtbs * g.heightInCtbs

/-- `ceil(x / 2^k)` (R340). -/
def ceilDiv (x k : Nat) : Nat := (x + 2 ^ k - 1) / 2 ^ k

/-- The condition under which `Geometry()` raises `BAD_PARAM` 40 (R340). The order of the disjuncts keeps the powers of two
small. -/
def badGeometry (minCbLog2 ctbLog2 w h : Nat) : Bool :=
  decide (6 < ctbLog2) || decide (ctbLog2 < minCbLog2) || w == 0 || h == 0 || decide (65535 < w) || decide (65535 < h) ||
    w % 2 ^ minCbLog2 != 0 || h % 2 ^ minCbLog2 != 0

/-- `Geometry()` (R340); `none` where it raises `BAD_PARAM` 40. -/
def geometry (p : Params) : Option Geometry :=
  let minCb := Rec.SPS.log2_min_luma_coding_block_size_minus3 p + 3
  let ctb := minCb + Rec.SPS.log2_diff_max_min_luma_coding_block_size p
  let w := Rec.SPS.pic_width_in_luma_samples p
  let h := Rec.SPS.pic_height_in_luma_samples p
  if badGeometry minCb ctb w h then none
  else some ⟨minCb, ctb, w, h, ceilDiv w ctb, ceilDiv h ctb⟩

/-! ## Weighted prediction -/

/-- One entry of a weight table (R310), on the `PWTE` record at `e`. -/
def pwtEntryActs (p : Params) (hasChroma : Bool) (e : Nat) : List Act :=
  onlyIf (Rec.PWTE.luma_weight_flag p e) (se (Rec.PWTE.delta_luma_weight p e) ++ se (Rec.PWTE.luma_offset p e)) ++
  onlyIf (hasChroma && Rec.PWTE.chroma_weight_flag p e)
    (forN 2 fun j =>
      se (Rec.PWTE.delta_chroma_weight p e j) ++ se (clip3 (-512) 511 (Rec.PWTE.delta_chroma_offset p e j)))

/-- The table of one list (R310): `n` entries, entry `i` at address `entry i`. -/
def pwtListActs (p : Params) (hasChroma : Bool) (n : Nat) (entry : Nat → Nat) : List Act :=
  (forN n fun i => flag (Rec.PWTE.luma_weight_flag p (entry i))) ++
  onlyIf hasChroma (forN n fun i => flag (Rec.PWTE.chroma_weight_flag p (entry i))) ++
  forN n fun i => pwtEntryActs p hasChroma (entry i)

/-- `PackPWT(isB, hasChroma)` (R310). -/
def pwtActs (p : Params) (isB hasChroma : Bool) : List Act :=
  ue (Rec.SLICE.luma_log2_weight_denom p) ++
  onlyIf hasChroma (se (Rec.SLICE.delta_chroma_log2_weight_denom p)) ++
  pwtListActs p hasChroma (Rec.SLICE.num_ref_idx_l0_active_minus1 p + 1) Rec.SLICE.pwt_l0 ++
  if isB then pwtListActs p hasChroma (Rec.SLICE.num_ref_idx_l1_active_minus1 p + 1) Rec.SLICE.pwt_l1 else []

/-! ## The values the listing of R300 computes on its way -/

/-- `t` is not an IDR type (R300). -/
def notIdr (p : Params) : Bool := Rec.NALU.nal_unit_type p != 19 && Rec.NALU.nal_unit_type p != 20

/-- `dep` (R300). -/
def sliceDependent (p : Params) : Bool :=
  !Rec.SLICE.first_slice_segment_in_pic_flag p && Rec.PPS.dependent_slice_segments_enabled_flag p &&
    Rec.SLICE.dependent_slice_segment_flag p

/-- `isB` (R300). -/
def sliceIsB (p : Params) : Bool := Rec.SLICE.type p == 0

/-- `isP` (R300). -/
def sliceIsP (p : Params) : Bool := Rec.SLICE.type p == 1

/-- `tmvp` (R300): 0 unless the flag is sent. -/
def sliceTmvp (p : Params) : Bool :=
  notIdr p && Rec.SPS.temporal_mvp_enabled_flag p && Rec.SLICE.temporal_mvp_enabled_flag p

/-- `chroma`, the chroma array type, is not 0 (R300). -/
def sliceHasChroma (p : Params) : Bool := !Rec.SPS.separate_colour_plane_flag p && Rec.SPS.chroma_format_idc p != 0

/-- `sl` (R300). -/
def sliceSaoLuma (p : Params) : Bool := Rec.SPS.sample_adaptive_offset_enabled_flag p && Rec.SLICE.sao_luma_flag p

/-- `sc2` (R300). -/
def sliceSaoChroma (p : Params) : Bool :=
  Rec.SPS.sample_adaptive_offset_enabled_flag p && sliceHasChroma p && Rec.SLICE.sao_chroma_flag p

/-- `dov` (R300). -/
def sliceDeblockOverride (p : Params) : Bool :=
  Rec.PPS.deblocking_filter_override_enabled_flag p && Rec.SLICE.deblocking_filter_override_flag p

/-- `dis` (R300). -/
def sliceDeblockDisabled (p : Params) : Bool :=
  if sliceDeblockOverride p then Rec.SLICE.deblocking_filter_disabled_flag p
  else Rec.PPS.deblocking_filter_disabled_flag p

/-- `nsps` (R300). -/
def sliceLongTermSps (p : Params) : Nat :=
  if 0 < Rec.SPS.num_long_term_ref_pics_sps p then Rec.SLICE.num_long_term_sps p else 0

/-- `c0` (R300). -/
def sliceCollocatedL0 (p : Params) : Bool := !sliceIsB p || Rec.SLICE.collocated_from_l0_flag p

/-! ## The listing -/

/-- One long-term entry (R300): entry `i` of `nsps` SPS-indexed ones and the explicit ones after them. -/
def longTermEntryActs (p : Params) (i : Nat) : List Act :=
  (if i < sliceLongTermSps p then
    onlyIf (1 < Rec.SPS.num_long_term_ref_pics_sps p)
      (u (ceilLog2 (Rec.SPS.num_long_term_ref_pics_sps p)) (Rec.LT.lt_idx_sps p (Rec.SLICE.lt i)))
   else
    u (pocBits p) (Rec.LT.poc_lsb_lt p (Rec.SLICE.lt i)) ++
    flag (Rec.LT.used_by_curr_pic_lt_flag p (Rec.SLICE.lt i))) ++
  flag (Rec.LT.delta_poc_msb_present_flag p (Rec.SLICE.lt i)) ++
  onlyIf (Rec.LT.delta_poc_msb_present_flag p (Rec.SLICE.lt i))
    (ue (Rec.LT.delta_poc_msb_cycle_lt p (Rec.SLICE.lt i)))

/-- Long-term reference signalling (R300). -/
def longTermActs (p : Params) : List Act :=
  onlyIf (0 < Rec.SPS.num_long_term_ref_pics_sps p) (ue (Rec.SLICE.num_long_term_sps p)) ++
  ue (Rec.SLICE.num_long_term_pics p) ++
  if 33 < sliceLongTermSps p + Rec.SLICE.num_long_term_pics p then failWith .badParam 51
  else forN (sliceLongTermSps p + Rec.SLICE.num_long_term_pics p) (longTermEntryActs p)

/-- The block of the pictures that are not IDR (R300): POC LSB, reference picture sets, temporal MVP. -/
def slicePocActs (p : Params) : List Act :=
  u (pocBits p) (Rec.SLICE.pic_order_cnt_lsb p) ++
  flag (Rec.SLICE.short_term_ref_pic_set_sps_flag p) ++
  (if Rec.SLICE.short_term_ref_pic_set_sps_flag p then
    onlyIf (1 < Rec.SPS.num_short_term_ref_pic_sets p)
      (u (ceilLog2 (Rec.SPS.num_short_term_ref_pic_sets p)) (Rec.SLICE.short_term_ref_pic_set_idx p))
   else strpsActs p (Rec.SPS.num_short_term_ref_pic_sets p) (Rec.SPS.num_short_term_ref_pic_sets p)) ++
  (if Rec.SPS.long_term_ref_pics_present_flag p then longTermActs p else []) ++
  onlyIf (Rec.SPS.temporal_mvp_enabled_flag p) (flag (Rec.SLICE.temporal_mvp_enabled_flag p))

/-- The SAO flags (R300). -/
def sliceSaoActs (p : Params) : List Act :=
  onlyIf (Rec.SPS.sample_adaptive_offset_enabled_flag p)
    ([.mark .sao] ++ flag (Rec.SLICE.sao_luma_flag p) ++
     onlyIf (sliceHasChroma p) (flag (Rec.SLICE.sao_chroma_flag p)))

/-- Reference list modification (R300). -/
def listModificationActs (p : Params) : List Act :=
  flag (Rec.SLICE.ref_pic_list_modification_flag_l0 p) ++
  onlyIf (Rec.SLICE.ref_pic_list_modification_flag_l0 p)
    (forN (Rec.SLICE.num_ref_idx_l0_active_minus1 p + 1) fun i =>
      u (ceilLog2 (Rec.SLICE.NumPocTotalCurr p)) (Rec.SLICE.list_entry_l0 p i)) ++
  onlyIf (sliceIsB p)
    (flag (Rec.SLICE.ref_pic_list_modification_flag_l1 p) ++
     onlyIf (Rec.SLICE.ref_pic_list_modification_flag_l1 p)
      (forN (Rec.SLICE.num_ref_idx_l1_active_minus1 p + 1) fun i =>
        u (ceilLog2 (Rec.SLICE.NumPocTotalCurr p)) (Rec.SLICE.list_entry_l1 p i)))

/-- The block of the P and B slices after the bound on the reference counts (R300). -/
def sliceInterActs (p : Params) : List Act :=
  onlyIf (Rec.SLICE.num_ref_idx_active_override_flag p)
    (ue (Rec.SLICE.num_ref_idx_l0_active_minus1 p) ++
     onlyIf (sliceIsB p) (ue (Rec.SLICE.num_ref_idx_l1_active_minus1 p))) ++
  onlyIf (Rec.PPS.lists_modification_present_flag p && decide (1 < Rec.SLICE.NumPocTotalCurr p))
    (listModificationActs p) ++
  onlyIf (sliceIsB p) (flag (Rec.SLICE.mvd_l1_zero_flag p)) ++
  onlyIf (Rec.PPS.cabac_init_present_flag p) (flag (Rec.SLICE.cabac_init_flag p)) ++
  onlyIf (sliceTmvp p)
    (onlyIf (sliceIsB p) (flag (Rec.SLICE.collocated_from_l0_flag p)) ++
     onlyIf ((sliceCollocatedL0 p && decide (0 < Rec.SLICE.num_ref_idx_l0_active_minus1 p)) ||
        (!sliceCollocatedL0 p && decide (0 < Rec.SLICE.num_ref_idx_l1_active_minus1 p)))
      (ue (Rec.SLICE.collocated_ref_idx p))) ++
  onlyIf ((Rec.PPS.weighted_pred_flag p && sliceIsP p) || (Rec.PPS.weighted_bipred_flag p && sliceIsB p))
    ([.mark .pwt] ++ pwtActs p (sliceIsB p) (sliceHasChroma p)) ++
  ue (Rec.SLICE.five_minus_max_num_merge_cand p)

/-- The block of the P and B slices (R300). -/
def slicePBActs (p : Params) : List Act :=
  flag (Rec.SLICE.num_ref_idx_active_override_flag p) ++
  if 15 < Rec.SLICE.num_ref_idx_l0_active_minus1 p ∨ 15 < Rec.SLICE.num_ref_idx_l1_active_minus1 p then
    failWith .badParam 52
  else sliceInterActs p

/-- From the QP delta to the end of an independent segment's own syntax (R300). -/
def sliceQpActs (p : Params) : List Act :=
  [.mark .qpd] ++ se (Rec.SLICE.slice_qp_delta p) ++
  onlyIf (Rec.PPS.slice_chroma_qp_offsets_present_flag p)
    (se (Rec.SLICE.slice_cb_qp_offset p) ++ se (Rec.SLICE.slice_cr_qp_offset p)) ++
  onlyIf (Rec.PPS.deblocking_filter_override_enabled_flag p) (flag (Rec.SLICE.deblocking_filter_override_flag p)) ++
  onlyIf (sliceDeblockOverride p)
    (flag (Rec.SLICE.deblocking_filter_disabled_flag p) ++
     onlyIf (!Rec.SLICE.deblocking_filter_disabled_flag p)
      (se (Rec.SLICE.beta_offset_div2 p) ++ se (Rec.SLICE.tc_offset_div2 p))) ++
  onlyIf (Rec.PPS.loop_filter_across_slices_enabled_flag p &&
      (sliceSaoLuma p || sliceSaoChroma p || !sliceDeblockDisabled p))
    (flag (Rec.SLICE.loop_filter_across_slices_enabled_flag p))

/-- The block of an independent segment (R300, `dep = 0`) once the type has passed. -/
def sliceIndependentActs (p : Params) : List Act :=
  onlyIf (0 < Rec.PPS.num_extra_slice_header_bits p)
    (u (Rec.PPS.num_extra_slice_header_bits p) (Rec.SLICE.reserved_flags p)) ++
  ue (Rec.SLICE.type p) ++
  onlyIf (Rec.PPS.output_flag_present_flag p) (flag (Rec.SLICE.pic_output_flag p)) ++
  onlyIf (Rec.SPS.separate_colour_plane_flag p) (u 2 (Rec.SLICE.colour_plane_id p)) ++
  (if notIdr p then slicePocActs p else []) ++
  sliceSaoActs p ++
  (if sliceIsP p || sliceIsB p then slicePBActs p else []) ++
  sliceQpActs p

/-- The lines before the type (R300): NAL unit header, first-slice flag, PPS id, dependence and address. -/
def sliceStartActs (p : Params) (g : Geometry) : List Act :=
  naluRecordActs p ++
  flag (Rec.SLICE.first_slice_segment_in_pic_flag p) ++
  onlyIf (decide (16 ≤ Rec.NALU.nal_unit_type p) && decide (Rec.NALU.nal_unit_type p ≤ 23))
    (flag (Rec.SLICE.no_output_of_prior_pics_flag p)) ++
  ue (Rec.SLICE.pic_parameter_set_id p) ++
  onlyIf (!Rec.SLICE.first_slice_segment_in_pic_flag p)
    (onlyIf (Rec.PPS.dependent_slice_segments_enabled_flag p) (flag (Rec.SLICE.dependent_slice_segment_flag p)) ++
     u (ceilLog2 (picSizeInCtbs g)) (Rec.SLICE.segment_address p))

/-- The start code length `PackNALU` returns inside `PackSSH` (R211, R300). -/
def sliceStartCode (p : Params) : Nat := startCodeLength (Rec.NALU.long_start_code p) (Rec.NALU.nal_unit_type p)

/-- The lines after the independent block (R300): entry points, extension, end. -/
def sliceEndActs (p : Params) (dyn : Bool) : List Act :=
  (if Rec.PPS.tiles_enabled_flag p || Rec.PPS.entropy_coding_sync_enabled_flag p then
    if Rec.SLICE.num_entry_point_offsets p ≠ 0 then failWith .unsupported 7 else ue 0
   else []) ++
  onlyIf (Rec.PPS.slice_segment_header_extension_present_flag p) (ue 0) ++
  if dyn then [.assign .sshStartLen (sliceStartCode p), .mark .sshOffset] else [.trailing]

/-- The listing of `PackSSH(dyn)` after the pre-checks (R300). -/
def sshActs (p : Params) (g : Geometry) (dyn : Bool) : List Act :=
  sliceStartActs p g ++
  (if sliceDependent p then []
   else if 2 < Rec.SLICE.type p then failWith .badParam 50
   else sliceIndependentActs p) ++
  sliceEndActs p dyn

/-- The listing from its base (R330): the five report registers cleared, then the actions. -/
def runSsh (g : Geometry) (dyn : Bool) (s : State) : Res :=
  runActs s.bitpos (sshActs s.params g dyn) (s.setReport ⟨0, 0, 0, 0, 0⟩)

/-- `PackSSH(dyn)` (R300): the pre-checks 40, 12, 13, 14, then the listing. -/
def packSsh (dyn : Bool) (s : State) : Res :=
  match geometry s.params with
  | none => raise .badParam 40 s
  | some g =>
    match spsBoundChecks s.params with
    | some (code, info) => raise code (BitVec.ofNat 32 info) s
    | none => runSsh g dyn s

/-- `PACK_SSH dyn_slice_size` (R300). -/
def execPackSsh (dyn : Bool) (s : State) : Host.Outcome State Fault Refusal := finish (packSsh dyn s)

end Sys2Proof.Machine
end

