-- ==== Sys2Proof/Machine/SkipSlice.lean ====
section
/-! DEFINITION. The skip-slice walker and encoder (spec/47_skip_slice.md): the bins of a coding tree as a pure function
(R342 to R346), `CODING_TREE` (R341) and `GET_SKIP_SLICE` (R350). -/

namespace Sys2Proof.Machine

/-! ## The bins of a coding tree -/

/-- One bin of the walk. -/
inductive Bin where
  /-- `EncodeBin(CTX[i], b)`. -/
  | ctx (i : Fin 9) (b : Bool)
  /-- `EncodeBinEP(b)`. -/
  | bypass (b : Bool)
deriving DecidableEq, Repr

/-- What the walk reads (R353): the geometry, the slice's first CTU address, two record fields, two parameters. -/
structure WalkEnv where
  geom : Geometry
  /-- `SliceAddr` (R342). -/
  sliceAddr : Nat
  /-- `PPS.transquant_bypass_enabled_flag`. -/
  bypassEnabled : Bool
  /-- `SLICE.five_minus_max_num_merge_cand`. -/
  fiveMinus : Nat
  mode : SplitCtxMode
  mergeIdx : Nat
deriving DecidableEq, Repr

/-- The context `CTX_OFFSET[e] + inc` (R30). -/
def ctxIndex (e : CtxElement) (inc : Nat) : Fin 9 := Fin.ofNat 9 (ctxOffset e + inc)

/-- `Avail(xn, yn, SliceAddr)` (R342), on signed coordinates; 1 or 0. -/
def avail (e : WalkEnv) (xn yn : Int) : Nat :=
  if xn < 0 ∨ yn < 0 ∨ (e.geom.width : Int) ≤ xn ∨ (e.geom.height : Int) ≤ yn then 0
  else if e.sliceAddr ≤
      yn.toNat / 2 ^ e.geom.ctbLog2 * e.geom.widthInCtbs + xn.toNat / 2 ^ e.geom.ctbLog2 then 1
  else 0

/-- How many of the left and the above neighbour of the block at `(x, y)` are available (R344, R346). -/
def availCount (e : WalkEnv) (x y : Nat) : Nat := avail e (x - 1) y + avail e x (y - 1)

/-- `SplitCtxInc(x, y, SliceAddr)` (R346). -/
def splitCtxInc (e : WalkEnv) (x y : Nat) : Nat :=
  match e.mode with
  | .availabilityCount => availCount e x y
  | .depthCompare => 0

/-- The truncated unary code of `MERGE_IDX` (R344): bins `i`, `i + 1`, ... of the `n` that are left. -/
def mergeBins (mergeIdx : Nat) : Nat → Nat → List Bin
  | _, 0 => []
  | i, n + 1 =>
    (if i = 0 then Bin.ctx (ctxIndex .mergeIdx 0) (decide (i < mergeIdx)) else Bin.bypass (decide (i < mergeIdx))) ::
      if i < mergeIdx then mergeBins mergeIdx (i + 1) n else []

/-- `codingUnit(x, y, SliceAddr)` (R344). -/
def codingUnitBins (e : WalkEnv) (x y : Nat) : List Bin :=
  (if e.bypassEnabled then [Bin.ctx (ctxIndex .cuTransquantBypassFlag 0) false] else []) ++
  [Bin.ctx (ctxIndex .skipFlag (availCount e x y)) true] ++
  mergeBins e.mergeIdx 0 (4 - e.fiveMinus)

/-- `crosses` (R343). -/
def crosses (e : WalkEnv) (x y size : Nat) : Bool := decide (e.geom.width < x + size) || decide (e.geom.height < y + size)

/-- `codingTree(x, y, log2Size, SliceAddr)` (R343), by recursion on `log2Size - MinCbLog2`, the number of splits that are
left: `canSplit` is that it is not 0. -/
def codingTreeBins (e : WalkEnv) : Nat → Nat → Nat → List Bin
  | 0, x, y => codingUnitBins e x y
  | d + 1, x, y =>
    let size := 2 ^ (e.geom.minCbLog2 + d + 1)
    let h := 2 ^ (e.geom.minCbLog2 + d)
    if crosses e x y size then
      [(x, y), (x + h, y), (x, y + h), (x + h, y + h)].flatMap fun q =>
        if q.1 < e.geom.width ∧ q.2 < e.geom.height then codingTreeBins e d q.1 q.2 else []
    else Bin.ctx (ctxIndex .splitCodingUnitFlag (splitCtxInc e x y)) false :: codingUnitBins e x y

/-- The root call for CTU address `a` (R340, R341). -/
def ctuBins (e : WalkEnv) (a : Nat) : List Bin :=
  codingTreeBins e (e.geom.ctbLog2 - e.geom.minCbLog2) (a % e.geom.widthInCtbs * 2 ^ e.geom.ctbLog2)
    (a / e.geom.widthInCtbs * 2 ^ e.geom.ctbLog2)

/-! ## Coding them -/

/-- One bin through the coder. -/
def runBin (b : Bin) (s : State) : Res :=
  match b with
  | .ctx i v => encodeBin i v s
  | .bypass v => encodeBinEp v s

/-- The bins in order. -/
def runBins : List Bin → State → Res
  | [], s => .ok s
  | b :: bs, s => do
    let s ← runBin b s
    runBins bs s

/-- `SliceAddr`, the `first` of R350: the CTU address of the slice's first CTU (R342). -/
def sliceAddress (p : Params) : Nat :=
  if Rec.SLICE.first_slice_segment_in_pic_flag p then 0 else Rec.SLICE.segment_address p

/-- The environment of a walk in state `s` (R341, R350). -/
def walkEnv (g : Geometry) (s : State) : WalkEnv where
  geom := g
  sliceAddr := sliceAddress s.params
  bypassEnabled := Rec.PPS.transquant_bypass_enabled_flag s.params
  fiveMinus := Rec.SLICE.five_minus_max_num_merge_cand s.params
  mode := s.cfg.splitCtxMode
  mergeIdx := s.cfg.mergeIdx

/-- `CODING_TREE ctu` as a procedure (R341): the checks 40, 41, 53, then the bins. -/
def codingTree (a : Nat) (s : State) : Res :=
  match geometry s.params with
  | none => raise .badParam 40 s
  | some g =>
    if picSizeInCtbs g ≤ a then raise .badParam 41 s
    else if 4 < Rec.SLICE.five_minus_max_num_merge_cand s.params then raise .badParam 53 s
    else runBins (ctuBins (walkEnv g s) a) s

/-! ## The whole slice -/

/-- `SliceQPy` (R351). -/
def sliceQp (p : Params) : Int := max 0 (26 + Rec.PPS.init_qp_minus26 p + Rec.SLICE.slice_qp_delta p)

/-- The contexts 0 to 7 from the row of the slice type (R351, R352). -/
def initSkipContexts (sliceType : Nat) (qp : Int) (s : State) : State :=
  (List.range 8).foldl (fun t i => initContext (Fin.ofNat 9 i) (initValue sliceType i) qp t) s

/-- The checks of `SkipCtxSetup` (R351), in order. -/
def skipChecks (p : Params) : PreCheck :=
  check (Rec.SLICE.type p == 2) .unsupported 8 <|
  check (2 < Rec.SLICE.type p) .badParam 50 <|
  check (Rec.PPS.cabac_init_present_flag p && Rec.SLICE.cabac_init_flag p) .unsupported 9 <|
  check (4 < Rec.SLICE.five_minus_max_num_merge_cand p) .badParam 53 none

/-- `SkipCtxSetup()` (R351). -/
def skipCtxSetup (s : State) : Res :=
  match skipChecks s.params with
  | some (code, info) => raise code (BitVec.ofNat 32 info) s
  | none => .ok ((initSkipContexts (Rec.SLICE.type s.params) (sliceQp s.params) s).setContext 8 63)

/-- The loop over the CTUs (R350): `n` CTUs from address `a` on, a terminate bin 0 after each but the last, which
`SliceFinish` follows. -/
def ctuLoop (e : WalkEnv) : Nat → Nat → State → Res
  | _, 0, s => .ok s
  | a, n + 1, s => do
    let s ← runBins (ctuBins e a) s
    if n = 0 then sliceFinish s
    else do
      let s ← encodeBin (ctxIndex .endOfSliceFlag 0) false s
      ctuLoop e (a + 1) n s

/-- `GetSkipSlice` once its two checks have passed (R350). -/
def skipSliceBody (g : Geometry) (append : Bool) (n : Nat) (s : State) : Res := do
  let s ← writerInit 0 s
  let s ← packSsh false s
  let s ← skipCtxSetup (cabacInit s)
  let s ← ctuLoop (walkEnv g s) (sliceAddress s.params) n s
  packRbsp append (sliceStartCode s.params) s

/-- `GetSkipSlice` (R350): the checks 40 and 41, then the body. -/
def getSkipSlice (append : Bool) (n : Nat) (s : State) : Res :=
  match geometry s.params with
  | none => raise .badParam 40 s
  | some g =>
    if n = 0 ∨ picSizeInCtbs g < sliceAddress s.params + n then raise .badParam 41 s
    else skipSliceBody g append n s

/-! ## Commands -/

/-- `CODING_TREE ctu` (R341). -/
def execCodingTree (ctu : Word) (s : State) : Host.Outcome State Fault Refusal := finish (codingTree ctu.toNat s)

/-- `GET_SKIP_SLICE append, n` (R350). -/
def execGetSkipSlice (append : Bool) (n : Word) (s : State) : Host.Outcome State Fault Refusal :=
  finish (getSkipSlice append n.toNat s)

end Sys2Proof.Machine
end

