-- ==== Sys2Proof/Machine/System.lean ====
section
/-! DEFINITION. The system commands: `END` (R120) and `SETR` (R121). -/

namespace Sys2Proof.Machine

/-- `END` (R120): `RUN` cleared, `DONE` set, `CP` and everything else as they were. -/
def execEnd (s : State) : Host.Outcome State Fault Refusal := .next s.endRun

/-- A writable CSR takes a value (R28, R121), from `SETR` or from the host. -/
def writeTarget (t : SetrTarget) (value : Word) (s : State) : State :=
  match t with
  | .bufStart => s.setWriter { s.writer with bufStart := value }
  | .bufSize => s.setWriter { s.writer with bufSize := value }
  | .srcBitAddr => s.setSrcBitAddr value
  | .outStart => s.setOut { s.out with start := value }
  | .outSize => s.setOut { s.out with size := value }

/-- `SETR csr, value` (R121). A CSR that is not writable is an illegal command (R95), `OPC` 0x01. -/
def execSetr (csr : BitVec 8) (value : Word) (s : State) : Host.Outcome State Fault Refusal :=
  match setrOperand csr with
  | some t => finish (.ok (writeTarget t value s))
  | none => finish (raise .illegalCmd 0x01 s)

end Sys2Proof.Machine
end

