-- ==== Sys2Proof/Syntax.lean ====
section
/-! DEFINITION. The commands of the engine: one constructor for each row of spec/opcode_table.json (R92),
each operand at the width the row gives it. -/

namespace Sys2Proof

/-- The 23 commands (R92), in the order of the opcode table. -/
inductive Instr where
  /-- `END` (R120). -/
  | endCmd
  /-- `SETR csr, value` (R121). -/
  | setr (csr : BitVec 8) (value : Word)
  /-- `W_INIT off` (R131). -/
  | wInit (off : BitVec 3)
  /-- `PUT_BITS n, value` (R133). -/
  | putBits (n : BitVec 8) (value : Word)
  /-- `PUT_BIT b` (R134). -/
  | putBit (b : Bool)
  /-- `PUT_BITS_BUFFER n` (R135). -/
  | putBitsBuffer (n : Word)
  /-- `PUT_UE v` (R136). -/
  | putUe (v : Word)
  /-- `PUT_SE v` (R137): `v` is read as an `i32` (R91). -/
  | putSe (v : Word)
  /-- `PUT_TRAILING checkAligned` (R138). -/
  | putTrailing (checkAligned : Bool)
  /-- `CABAC_INIT` (R161). -/
  | cabacInit
  /-- `CTX_INIT ctx, initVal, qp` (R162): `qp` is read as an `i32` (R91). -/
  | ctxInit (ctx : BitVec 8) (initVal : BitVec 8) (qp : Word)
  /-- `CTX_SET ctx, raw` (R171). -/
  | ctxSet (ctx : BitVec 8) (raw : BitVec 7)
  /-- `ENC_BIN ctx, binVal` (R165). -/
  | encBin (ctx : BitVec 8) (binVal : Bool)
  /-- `ENC_BIN_EP binVal` (R168). -/
  | encBinEp (binVal : Bool)
  /-- `SLICE_FINISH` (R169). -/
  | sliceFinish
  /-- `PACK_RBSP append, prefix` (R201). -/
  | packRbsp (append : Bool) (pfx : BitVec 8)
  /-- `PACK_NALU` (R211). -/
  | packNalu
  /-- `PACK_VPS` (R260). -/
  | packVps
  /-- `PACK_SPS` (R262). -/
  | packSps
  /-- `PACK_PPS` (R264). -/
  | packPps
  /-- `PACK_SSH dyn_slice_size` (R300). -/
  | packSsh (dyn : Bool)
  /-- `CODING_TREE ctu` (R341). -/
  | codingTree (ctu : Word)
  /-- `GET_SKIP_SLICE append, n` (R350). -/
  | getSkipSlice (append : Bool) (n : Word)
deriving DecidableEq, Repr

end Sys2Proof
end

