-- ==== Sys2Proof/Machine/Dispatch.lean ====
section
/-! DEFINITION. What each command does: one arm per constructor of `Instr` (R92), each a direct call of its meaning. -/

namespace Sys2Proof.Machine

def exec (i : Instr) (s : State) : Host.Outcome State Fault Refusal :=
  match i with
  | .endCmd => Sys2Proof.Machine.execEnd s
  | .setr csr value => Sys2Proof.Machine.execSetr csr value s
  | .wInit off => Sys2Proof.Machine.execWInit off s
  | .putBits n value => Sys2Proof.Machine.execPutBits n value s
  | .putBit b => Sys2Proof.Machine.execPutBit b s
  | .putBitsBuffer n => Sys2Proof.Machine.execPutBitsBuffer n s
  | .putUe v => Sys2Proof.Machine.execPutUe v s
  | .putSe v => Sys2Proof.Machine.execPutSe v s
  | .putTrailing c => Sys2Proof.Machine.execPutTrailing c s
  | .cabacInit => Sys2Proof.Machine.execCabacInit s
  | .ctxInit ctx initVal qp => Sys2Proof.Machine.execCtxInit ctx initVal qp s
  | .ctxSet ctx raw => Sys2Proof.Machine.execCtxSet ctx raw s
  | .encBin ctx binVal => Sys2Proof.Machine.execEncBin ctx binVal s
  | .encBinEp binVal => Sys2Proof.Machine.execEncBinEp binVal s
  | .sliceFinish => Sys2Proof.Machine.execSliceFinish s
  | .packRbsp append pfx => Sys2Proof.Machine.execPackRbsp append pfx s
  | .packNalu => Sys2Proof.Machine.execPackNalu s
  | .packVps => Sys2Proof.Machine.execPackVps s
  | .packSps => Sys2Proof.Machine.execPackSps s
  | .packPps => Sys2Proof.Machine.execPackPps s
  | .packSsh dyn => Sys2Proof.Machine.execPackSsh dyn s
  | .codingTree ctu => Sys2Proof.Machine.execCodingTree ctu s
  | .getSkipSlice append n => Sys2Proof.Machine.execGetSkipSlice append n s

end Sys2Proof.Machine
end

