-- ==== Sys2Proof/WellFormed.lean ====
section
/-! DEFINITION. Which commands are well formed: the value constraints of R92 (tested third, after the opcode and the
must-be-zero bits: R95). -/

namespace Sys2Proof

/-- The numbers of the CSRs that `SETR` may write (R28, the column "cmd"; R92). -/
def writableCsrs : List (BitVec 8) := [0x08, 0x09, 0x0C, 0x18, 0x19]

/-- The value constraints of R92. Every other command has none. -/
def Instr.wf : Instr → Bool
  | .setr csr _ => writableCsrs.contains csr
  | .putBits n _ => n.toNat ≤ 32
  | .ctxInit ctx _ _ => ctx.toNat < 9
  | .ctxSet ctx _ => ctx.toNat < 9
  | .encBin ctx _ => ctx.toNat < 9
  | .endCmd => true
  | .wInit _ => true
  | .putBit _ => true
  | .putBitsBuffer _ => true
  | .putUe _ => true
  | .putSe _ => true
  | .putTrailing _ => true
  | .cabacInit => true
  | .encBinEp _ => true
  | .sliceFinish => true
  | .packRbsp _ _ => true
  | .packNalu => true
  | .packVps => true
  | .packSps => true
  | .packPps => true
  | .packSsh _ => true
  | .codingTree _ => true
  | .getSkipSlice _ _ => true

end Sys2Proof
end

