-- ==== Sys2Proof/Decode.lean ====
section
/-! DEFINITION. The decoder, total on the 2^64 command words (R95), and the encoder after it (R90, R92). -/

namespace Sys2Proof

/-- Why a word is illegal, in the order R95 tests. The machine answers each with `ILLEGAL_CMD` and
`FAULT_INFO = OPC` (R382). -/
inductive DecodeError where
  /-- Test 1: the opcode is not one of the 23 assigned. -/
  | unassignedOpcode
  /-- Test 2: a bit that the command does not use is 1. -/
  | reservedBit
  /-- Test 3: a value constraint of R92 fails. -/
  | badOperand
deriving DecidableEq, Repr

/-- The four fields of format `C` (R90). -/
structure Fields where
  /-- `OPC`, bits 63:56. -/
  opc : BitVec 8
  /-- `A`, bits 55:48. -/
  a : BitVec 8
  /-- `B`, bits 47:32. -/
  b : BitVec 16
  /-- `IMM`, bits 31:0. -/
  imm : BitVec 32
deriving DecidableEq, Repr

/-- Field extraction (R90). -/
def fieldsOf (w : CmdWord) : Fields where
  opc := w.extractLsb' 56 8
  a := w.extractLsb' 48 8
  b := w.extractLsb' 32 16
  imm := w.extractLsb' 0 32

/-- `word = OPC << 56 | A << 48 | B << 32 | IMM` (R90). -/
def wordOf (f : Fields) : CmdWord := f.opc ++ f.a ++ f.b ++ f.imm

/-- The opcode of each command (R92). -/
def opcodeOf : Instr → BitVec 8
  | .endCmd => 0x00
  | .setr _ _ => 0x01
  | .wInit _ => 0x10
  | .putBits _ _ => 0x11
  | .putBit _ => 0x12
  | .putBitsBuffer _ => 0x13
  | .putUe _ => 0x14
  | .putSe _ => 0x15
  | .putTrailing _ => 0x16
  | .cabacInit => 0x20
  | .ctxInit _ _ _ => 0x21
  | .ctxSet _ _ => 0x22
  | .encBin _ _ => 0x23
  | .encBinEp _ => 0x24
  | .sliceFinish => 0x25
  | .packRbsp _ _ => 0x30
  | .packNalu => 0x40
  | .packVps => 0x41
  | .packSps => 0x42
  | .packPps => 0x43
  | .packSsh _ => 0x44
  | .codingTree _ => 0x50
  | .getSkipSlice _ _ => 0x51

/-- A one-bit operand in bit 0 of a field that uses no other bit (R92). -/
def oneBit {w : Nat} (v : BitVec w) : Bool := v.getLsbD 0

/-- The bits of the fields that R92 lists for each opcode, as masks over `A`, `B` and `IMM`; `none` for an
unassigned opcode (R94: 23 of the 256 are assigned). -/
def usedBits (opc : BitVec 8) : Option (BitVec 8 × BitVec 16 × BitVec 32) :=
  match opc.toNat with
  | 0x00 => some (0, 0, 0)
  | 0x01 => some (0xFF, 0, 0xFFFFFFFF)
  | 0x10 => some (0x07, 0, 0)
  | 0x11 => some (0xFF, 0, 0xFFFFFFFF)
  | 0x12 => some (0x01, 0, 0)
  | 0x13 => some (0, 0, 0xFFFFFFFF)
  | 0x14 => some (0, 0, 0xFFFFFFFF)
  | 0x15 => some (0, 0, 0xFFFFFFFF)
  | 0x16 => some (0x01, 0, 0)
  | 0x20 => some (0, 0, 0)
  | 0x21 => some (0xFF, 0x00FF, 0xFFFFFFFF)
  | 0x22 => some (0xFF, 0, 0x7F)
  | 0x23 => some (0xFF, 0, 0x01)
  | 0x24 => some (0, 0, 0x01)
  | 0x25 => some (0, 0, 0)
  | 0x30 => some (0x01, 0x00FF, 0)
  | 0x40 => some (0, 0, 0)
  | 0x41 => some (0, 0, 0)
  | 0x42 => some (0, 0, 0)
  | 0x43 => some (0, 0, 0)
  | 0x44 => some (0x01, 0, 0)
  | 0x50 => some (0, 0, 0xFFFFFFFF)
  | 0x51 => some (0x01, 0, 0xFFFFFFFF)
  | _ => none

/-- The command of an assigned opcode with the operands its fields hold (R92); `none` for an unassigned opcode. -/
def build (f : Fields) : Option Instr :=
  match f.opc.toNat with
  | 0x00 => some .endCmd
  | 0x01 => some (.setr f.a f.imm)
  | 0x10 => some (.wInit (f.a.extractLsb' 0 3))
  | 0x11 => some (.putBits f.a f.imm)
  | 0x12 => some (.putBit (oneBit f.a))
  | 0x13 => some (.putBitsBuffer f.imm)
  | 0x14 => some (.putUe f.imm)
  | 0x15 => some (.putSe f.imm)
  | 0x16 => some (.putTrailing (oneBit f.a))
  | 0x20 => some .cabacInit
  | 0x21 => some (.ctxInit f.a (f.b.extractLsb' 0 8) f.imm)
  | 0x22 => some (.ctxSet f.a (f.imm.extractLsb' 0 7))
  | 0x23 => some (.encBin f.a (oneBit f.imm))
  | 0x24 => some (.encBinEp (oneBit f.imm))
  | 0x25 => some .sliceFinish
  | 0x30 => some (.packRbsp (oneBit f.a) (f.b.extractLsb' 0 8))
  | 0x40 => some .packNalu
  | 0x41 => some .packVps
  | 0x42 => some .packSps
  | 0x43 => some .packPps
  | 0x44 => some (.packSsh (oneBit f.a))
  | 0x50 => some (.codingTree f.imm)
  | 0x51 => some (.getSkipSlice (oneBit f.a) f.imm)
  | _ => none

/-- The bits of the fields outside the masks are all 0 (R95, test 2). -/
def reservedClear (f : Fields) (m : BitVec 8 × BitVec 16 × BitVec 32) : Bool :=
  f.a &&& ~~~m.1 = 0 ∧ f.b &&& ~~~m.2.1 = 0 ∧ f.imm &&& ~~~m.2.2 = 0

/-- Decoding a word by R92, with the three tests of R95 in their order. -/
def decode (w : CmdWord) : Except DecodeError Instr :=
  match usedBits (fieldsOf w).opc, build (fieldsOf w) with
  | some m, some i =>
    if reservedClear (fieldsOf w) m then
      if i.wf then .ok i else .error .badOperand
    else .error .reservedBit
  | _, _ => .error .unassignedOpcode

/-- A one-bit operand as a field value. -/
def bitField (w : Nat) (b : Bool) : BitVec w := (BitVec.ofBool b).setWidth w

/-- The fields of each command (R92); unused bits are 0. -/
def fieldsFor (i : Instr) : Fields :=
  match i with
  | .setr csr value => ⟨opcodeOf i, csr, 0, value⟩
  | .wInit off => ⟨opcodeOf i, off.setWidth 8, 0, 0⟩
  | .putBits n value => ⟨opcodeOf i, n, 0, value⟩
  | .putBit b => ⟨opcodeOf i, bitField 8 b, 0, 0⟩
  | .putBitsBuffer n => ⟨opcodeOf i, 0, 0, n⟩
  | .putUe v => ⟨opcodeOf i, 0, 0, v⟩
  | .putSe v => ⟨opcodeOf i, 0, 0, v⟩
  | .putTrailing c => ⟨opcodeOf i, bitField 8 c, 0, 0⟩
  | .ctxInit ctx initVal qp => ⟨opcodeOf i, ctx, initVal.setWidth 16, qp⟩
  | .ctxSet ctx raw => ⟨opcodeOf i, ctx, 0, raw.setWidth 32⟩
  | .encBin ctx binVal => ⟨opcodeOf i, ctx, 0, bitField 32 binVal⟩
  | .encBinEp binVal => ⟨opcodeOf i, 0, 0, bitField 32 binVal⟩
  | .packRbsp append pfx => ⟨opcodeOf i, bitField 8 append, pfx.setWidth 16, 0⟩
  | .packSsh dyn => ⟨opcodeOf i, bitField 8 dyn, 0, 0⟩
  | .codingTree ctu => ⟨opcodeOf i, 0, 0, ctu⟩
  | .getSkipSlice append n => ⟨opcodeOf i, bitField 8 append, 0, n⟩
  | .endCmd => ⟨opcodeOf i, 0, 0, 0⟩
  | .cabacInit => ⟨opcodeOf i, 0, 0, 0⟩
  | .sliceFinish => ⟨opcodeOf i, 0, 0, 0⟩
  | .packNalu => ⟨opcodeOf i, 0, 0, 0⟩
  | .packVps => ⟨opcodeOf i, 0, 0, 0⟩
  | .packSps => ⟨opcodeOf i, 0, 0, 0⟩
  | .packPps => ⟨opcodeOf i, 0, 0, 0⟩

/-- The word of a command (R90, R97). -/
def encode (i : Instr) : CmdWord := wordOf (fieldsFor i)

/-- The host's decoding question: the instruction whose `nbits` bits are `w`, every higher bit 0. A command is one
64-bit word (R96), so the table's numbering is the word's own. -/
def decodeTableWord (nbits w : Nat) : Option Instr :=
  match decode (BitVec.ofNat 64 (w % 2 ^ nbits)) with
  | .ok i => some i
  | .error _ => none

/-! ## The opcode table as the spec prints it -/

/-- `match` and `mask` of each row of the opcode table (R99), in its order. -/
def opcodeRows : List (CmdWord × CmdWord) := [
  (0x0000000000000000, 0xffffffffffffffff),
  (0x0100000000000000, 0xff00ffff00000000),
  (0x1000000000000000, 0xfff8ffffffffffff),
  (0x1100000000000000, 0xff00ffff00000000),
  (0x1200000000000000, 0xfffeffffffffffff),
  (0x1300000000000000, 0xffffffff00000000),
  (0x1400000000000000, 0xffffffff00000000),
  (0x1500000000000000, 0xffffffff00000000),
  (0x1600000000000000, 0xfffeffffffffffff),
  (0x2000000000000000, 0xffffffffffffffff),
  (0x2100000000000000, 0xff00ff0000000000),
  (0x2200000000000000, 0xff00ffffffffff80),
  (0x2300000000000000, 0xff00fffffffffffe),
  (0x2400000000000000, 0xfffffffffffffffe),
  (0x2500000000000000, 0xffffffffffffffff),
  (0x3000000000000000, 0xfffeff00ffffffff),
  (0x4000000000000000, 0xffffffffffffffff),
  (0x4100000000000000, 0xffffffffffffffff),
  (0x4200000000000000, 0xffffffffffffffff),
  (0x4300000000000000, 0xffffffffffffffff),
  (0x4400000000000000, 0xfffeffffffffffff),
  (0x5000000000000000, 0xffffffff00000000),
  (0x5100000000000000, 0xfffeffff00000000)]

/-- The value constraints of the rows (R92, R99), on the word's own bits: `n ≤ 32` for `PUT_BITS`, `ctx < 9` for the three
context commands, a writable CSR number for `SETR`. -/
def constraintOk (w : CmdWord) : Bool :=
  match (w.extractLsb' 56 8).toNat with
  | 0x01 => writableCsrs.contains (w.extractLsb' 48 8)
  | 0x11 => (w.extractLsb' 48 8).toNat ≤ 32
  | 0x21 => (w.extractLsb' 48 8).toNat < 9
  | 0x22 => (w.extractLsb' 48 8).toNat < 9
  | 0x23 => (w.extractLsb' 48 8).toNat < 9
  | _ => true

/-- R99: the word is an encoding of some row's command. -/
def legalWord (w : CmdWord) : Bool := opcodeRows.any (fun r => w &&& r.2 == r.1) && constraintOk w

end Sys2Proof
end

