-- ==== Sys2Proof/Machine/Fetch.lean ====
section
/-! DEFINITION. Command fetch (R65, R93): the word at `CP`, decoded, or the state after the fault that the fetch or the
decoding raises (R382, R386). -/

namespace Sys2Proof.Machine

/-- The command at `CP`. `CMD_FETCH` comes first, then `ILLEGAL_CMD` with `FAULT_INFO = OPC` (R391). -/
def fetchCommand (s : State) : Except State Instr :=
  if s.cp.toNat < s.cfg.cmdWords then
    match decode (s.cmd.read s.cp.toNat) with
    | .ok i => .ok i
    | .error _ => .error (s.takeFault .illegalCmd ((fieldsOf (s.cmd.read s.cp.toNat)).opc.setWidth 32))
  else .error (s.takeFault .cmdFetch (indexWord s.cp))

/-- Where the next command is fetched: `CP`, or word 0 where `CP` is outside `CMD`. -/
def fetchIndex (s : State) : CmdIndex := if s.cp.toNat < s.cfg.cmdWords then s.cp else 0

/-- The state in which the very next step fetches and runs `w`: the word stored where `CP` points, a run in progress, no
host access before it (log entry 4). -/
def placeWord (s : State) (w : CmdWord) : State :=
  { s with
    cp := fetchIndex s
    cmd := s.cmd.write (fetchIndex s).toNat w
    status := Status.started Status.idle
    hostPending := [] }

end Sys2Proof.Machine
end

