-- ==== Sys2Proof/Machine/Host.lean ====
section
/-! DEFINITION. The host, the second agent (R20, R73): the register port (R28, R34), the memory ports (R60), reset by
`CTRL` (R420, R421), and when a pending access is made. -/

namespace Sys2Proof.Machine

/-! ## The register port -/

/-- The value the host reads at a CSR number (R28); `none` for an unassigned number. -/
def csrValue (number : BitVec 8) (s : State) : Option Word :=
  match number.toNat with
  | 0x00 => some 0
  | 0x01 => some s.status.word
  | 0x02 => some (indexWord s.cp)
  | 0x03 => some s.faultCp
  | 0x04 => some s.faultInfo
  | 0x08 => some s.writer.bufStart
  | 0x09 => some s.writer.bufSize
  | 0x0A => some s.writer.bytePos
  | 0x0B => some (s.writer.bitOffset.setWidth 32)
  | 0x0C => some s.srcBitAddr
  | 0x0D => some s.writer.curStart
  | 0x0E => some s.writer.curEnd
  | 0x10 => some s.cabac.low
  | 0x11 => some s.cabac.range
  | 0x12 => some s.cabac.outstanding
  | 0x13 => some s.cabac.firstBitWord
  | 0x14 => some s.cabac.binCount
  | 0x18 => some s.out.start
  | 0x19 => some s.out.size
  | 0x1A => some s.out.len
  | 0x20 => some s.report.qpd
  | 0x21 => some s.report.sao
  | 0x22 => some s.report.pwt
  | 0x23 => some s.report.sshStartLen
  | 0x24 => some s.report.sshOffset
  | _ => none

/-! ## CTRL -/

/-- A region of `DMEM`: its first byte and its length. -/
abbrev Region := Nat × Nat

/-- The writer's region (R70). -/
def writerRegion (s : State) : Region := (s.writer.curStart.toNat, s.writer.curEnd.toNat - s.writer.curStart.toNat)

/-- The buffer the next `W_INIT` takes (R21). -/
def bufferRegion (s : State) : Region := (s.writer.bufStart.toNat, s.writer.bufSize.toNat)

/-- The output region (R70). -/
def outputRegion (s : State) : Region := (s.out.start.toNat, s.out.size.toNat)

/-- The regions in which a command could write (R70, R421). -/
def writableRegions (i : Instr) (s : State) : List Region :=
  match i with
  | .endCmd => []
  | .setr _ _ => []
  | .wInit _ => [((bufferRegion s).1, min 1 (bufferRegion s).2)]
  | .putBits _ _ => [writerRegion s]
  | .putBit _ => [writerRegion s]
  | .putBitsBuffer _ => [writerRegion s]
  | .putUe _ => [writerRegion s]
  | .putSe _ => [writerRegion s]
  | .putTrailing _ => [writerRegion s]
  | .cabacInit => []
  | .ctxInit _ _ _ => []
  | .ctxSet _ _ => []
  | .encBin _ _ => [writerRegion s]
  | .encBinEp _ => [writerRegion s]
  | .sliceFinish => [writerRegion s]
  | .packRbsp _ _ => [outputRegion s]
  | .packNalu => [writerRegion s]
  | .packVps => [writerRegion s]
  | .packSps => [writerRegion s]
  | .packPps => [writerRegion s]
  | .packSsh _ => [writerRegion s]
  | .codingTree _ => [writerRegion s]
  | .getSkipSlice _ _ => [bufferRegion s, outputRegion s]

/-- The bytes of a region inside `DMEM` take free values (R421, U21). -/
def freeRegion (s : State) (r : Region) : State :=
  s.setBytes r.1 ((List.range (min r.2 (s.cfg.dmemSize - r.1))).map fun k => Config.interruptedByte s.freeCount (r.1 + k))

/-- A reset has interrupted the command at `CP` (R421): the bytes it could write are free (log entry 8). -/
def interruptCommand (s : State) : State :=
  match fetchCommand s with
  | .error _ => s
  | .ok i => { (writableRegions i s).foldl freeRegion s with freeCount := s.freeCount + 1 }

/-- `CTRL.RESET` (R34, R420), in any state. -/
def ctrlReset (s : State) : State :=
  if s.status.run then (interruptCommand s).resetRegisters else s.resetRegisters

/-- A start (R34): `CP <- 0`, `DONE <- 0`, `RUN <- 1`, and nothing else. -/
def startRun (s : State) : State := { s with cp := 0, status := s.status.started }

/-- A host write to `CTRL` (R34): reset wins over start; a start is ignored while `FAULT = 1`. -/
def writeCtrl (v : Word) (s : State) : Host.Outcome State Fault Refusal :=
  if 4 ≤ v.toNat then .refused .hostCtrlReservedBits
  else if v.getLsbD 1 then .next (ctrlReset s)
  else if s.status.run then .refused (if v.getLsbD 0 then .startWhileRunning else .hostAccessWhileRunning)
  else if v.getLsbD 0 && !s.status.fault then .next (startRun s)
  else .next s

/-! ## The accesses -/

/-- The host has read a value. -/
def reply (v : CmdWord) (s : State) : State := { s with hostReplies := v :: s.hostReplies }

/-- A host read of a CSR (R28): while a run is in progress, of `STATUS` alone (R73, R430). -/
def readCsr (number : BitVec 8) (s : State) : Host.Outcome State Fault Refusal :=
  if s.status.run && number != 0x01 then .refused .hostAccessWhileRunning
  else
    match csrValue number s with
    | some v => .next (reply (v.setWidth 64) s)
    | none => .refused .hostUnassignedCsr

/-- A host write to a CSR (R28): `CTRL` has its own rule; a write to a read-only CSR is ignored. -/
def writeCsr (number : BitVec 8) (v : Word) (s : State) : Host.Outcome State Fault Refusal :=
  if number = 0x00 then writeCtrl v s
  else if s.status.run then .refused .hostAccessWhileRunning
  else
    match setrOperand number with
    | some t => .next (writeTarget t v s)
    | none => if (csrValue number s).isSome then .next s else .refused .hostUnassignedCsr

/-- A host access to a memory (R60): only while no run is in progress, and only to an index the memory has. -/
def memoryPort (index size : Nat) (s t : State) : Host.Outcome State Fault Refusal :=
  if s.status.run then .refused .hostAccessWhileRunning
  else if index < size then .next t
  else .refused .hostIndexOutOfRange

/-- One access of the host (R28, R60). -/
def hostAccess (a : HostAccess) (s : State) : Host.Outcome State Fault Refusal :=
  match a with
  | .readCsr number => readCsr number s
  | .writeCsr number v => writeCsr number v s
  | .readCmd i => memoryPort i s.cfg.cmdWords s (reply (s.cmd.read i) s)
  | .writeCmd i v => memoryPort i s.cfg.cmdWords s { s with cmd := s.cmd.write i v }
  | .readParam i => memoryPort i paramWords s (reply ((s.param.read i).setWidth 64) s)
  | .writeParam i v => memoryPort i paramWords s { s with param := s.param.write i v }
  | .readDmem a => memoryPort a s.cfg.dmemSize s (reply ((s.dmem.read a).setWidth 64) s)
  | .writeDmem a v => memoryPort a s.cfg.dmemSize s { s with dmem := s.dmem.write a v }

/-! ## When -/

/-- The first pending access is to be made now. -/
def hostDue (s : State) : Bool :=
  match s.hostPending with
  | [] => false
  | r :: _ =>
    match r.wait with
    | .untilIdle => !s.status.run
    | .cycles n => n == 0

/-- The host makes its first pending access. -/
def hostTurn (s : State) : Host.Outcome State Fault Refusal :=
  match s.hostPending with
  | [] => .next s
  | r :: rest => hostAccess r.access { s with hostPending := rest }

/-- One engine cycle passes for the host's first pending access. -/
def HostRequest.tick (r : HostRequest) : HostRequest :=
  match r.wait with
  | .untilIdle => r
  | .cycles n => { r with wait := .cycles (n - 1) }

/-- One engine cycle passes. -/
def hostTick (s : State) : State :=
  match s.hostPending with
  | [] => s
  | r :: rest => { s with hostPending := r.tick :: rest }

end Sys2Proof.Machine
end

