-- ==== Sys2Proof/Machine/Step.lean ====
section
/-! DEFINITION. One step of the machine (R93): a host access that is due, else one command of the run in progress, else
nothing (R405: an idle engine keeps all state). -/

namespace Sys2Proof.Machine

/-- One turn of the execution cycle (R93): fetch, decode, execute. A fetch or decode fault is a next state. -/
def engineCycle (s : State) : Host.Outcome State Fault Refusal :=
  match fetchCommand s with
  | .ok i => exec i s
  | .error t => .next t

/-- One step. -/
def step (s : State) : Host.Outcome State Fault Refusal :=
  if hostDue s then hostTurn s
  else if s.status.run then engineCycle (hostTick s)
  else .next (hostTick s)

/-- The host's question: `s` with the command word `w` where the next step fetches (log entry 4). -/
def State.withFetchWord (s : State) (nbits w : Nat) : State := placeWord s (BitVec.ofNat 64 (w % 2 ^ nbits))

end Sys2Proof.Machine
end

