-- ==== Sys2Proof/Machine/Reader.lean ====
section
/-! DEFINITION. The reference reader (spec/48_reference_reader.md): pure functions outside the engine, through which the
spec states the round-trip properties of the writer and the inserter (R140, R203). -/

namespace Sys2Proof.Machine

/-- Reader state (R370): the byte string, the byte index, the bit index (0 is the most significant bit), the flag of
emulation-prevention transparency. -/
structure Reader where
  buf : List Byte
  pos : Nat
  off : Nat
  emu : Bool
deriving DecidableEq, Repr

/-- A fresh reader (R370). -/
def freshReader (buf : List Byte) (emu : Bool) : Reader := ⟨buf, 0, 0, emu⟩

/-- Byte `k` of the reader's string, 0 outside it. -/
def Reader.byte (r : Reader) (k : Nat) : Byte := r.buf.getD k 0

/-- The cursor has arrived at an escape (R371): `00 00 03` followed by a byte whose top 6 bits are zero. -/
def Reader.atEscape (r : Reader) : Bool :=
  r.emu && decide (2 ≤ r.pos) && decide (r.pos + 1 < r.buf.length) && r.byte (r.pos - 2) == 0 &&
    r.byte (r.pos - 1) == 0 && r.byte r.pos == 3 && (r.byte (r.pos + 1) &&& 0xFC) == 0

/-- The cursor moves to the next byte, past an escape if one stands there (R371). -/
def Reader.nextByte (r : Reader) : Reader :=
  if { r with pos := r.pos + 1, off := 0 }.atEscape then { r with pos := r.pos + 2, off := 0 }
  else { r with pos := r.pos + 1, off := 0 }

/-- `GetBit()` (R371); `none` is `EndOfBuffer`. -/
def getBit (r : Reader) : Option (Bool × Reader) :=
  if r.buf.length ≤ r.pos then none
  else some ((r.byte r.pos).getLsbD (7 - r.off), if r.off = 7 then r.nextByte else { r with off := r.off + 1 })

/-- The loop of `GetBits(n)` (R374), from the value read so far. -/
def getBitsFrom : Nat → Nat → Reader → Option (Nat × Reader)
  | v, 0, r => some (v, r)
  | v, n + 1, r =>
    match getBit r with
    | none => none
    | some (b, r) => getBitsFrom (2 * v + b.toNat) n r

/-- `GetBits(n)` (R374). -/
def getBits (n : Nat) (r : Reader) : Option (Nat × Reader) := getBitsFrom 0 n r

/-- The zeros before the first 1 (R372), counted from `lz`; the bound is the number of bits that can be left. -/
def leadingZeros : Nat → Nat → Reader → Option (Nat × Reader)
  | 0, _, _ => none
  | fuel + 1, lz, r =>
    match getBit r with
    | none => none
    | some (true, r) => some (lz, r)
    | some (false, r) => leadingZeros fuel (lz + 1) r

/-- `GetUE()` (R372), over unbounded integers. -/
def getUe (r : Reader) : Option (Nat × Reader) :=
  match leadingZeros (8 * r.buf.length + 1) 0 r with
  | none => none
  | some (lz, r) => (getBits lz r).map fun x => (2 ^ lz + x.1 - 1, x.2)

/-- The inverse of the mapping of `PutSE` (R373). -/
def seValue (k : Nat) : Int := if k % 2 = 1 then ((k + 1) / 2 : Nat) else -((k / 2 : Nat) : Int)

/-- `GetSE()` (R373). -/
def getSe (r : Reader) : Option (Int × Reader) := (getUe r).map fun x => (seValue x.1, x.2)

/-- The reader's escape rule on whole bytes (R203): every `03` that follows two zero bytes of the string and is followed
by a byte of value 0 to 3 is dropped. `a` and `b` are the two bytes before, `none` where there is none. -/
def unescapeFrom : Option Byte → Option Byte → List Byte → List Byte
  | _, _, [] => []
  | _, _, [c] => [c]
  | a, b, c :: d :: cs =>
    if a = some 0 ∧ b = some 0 ∧ c = 3 ∧ d.toNat ≤ 3 then unescapeFrom b (some c) (d :: cs)
    else c :: unescapeFrom b (some c) (d :: cs)

/-- The bytes a transparent reader delivers (R203, R371). -/
def unescape (bytes : List Byte) : List Byte := unescapeFrom none none bytes

end Sys2Proof.Machine
end

