-- ==== Sys2Proof/Machine/Stream.lean ====
section
/-! DEFINITION. The vocabulary of the statements about streams: the bits a listing sends, the bits the arithmetic coder
sends, as pure functions of what they read; and the arithmetic decoder of spec/95_test_vectors.md section 4.5, through
which R174 says what the coder's bits mean. Nothing here is part of the machine. -/

namespace Sys2Proof.Machine

/-! ## Listings -/

/-- The action raises a fault. -/
def Act.stops : Act → Bool
  | .fail _ _ => true
  | .put _ => false
  | .trailing => false
  | .mark _ => false
  | .assign _ _ => false

/-- The bits an action sends at bit position `pos` (R138, R210). -/
def Act.bits (pos : Nat) : Act → List Bool
  | .put bits => bits
  | .trailing => true :: List.replicate (7 - pos % 8) false
  | .mark _ => []
  | .assign _ _ => []
  | .fail _ _ => []

/-- The bits a listing sends from bit position `pos` on, where no line raises a fault. -/
def listingBits : Nat → List Act → List Bool
  | _, [] => []
  | pos, a :: as => a.bits pos ++ listingBits (pos + (a.bits pos).length) as

/-- What an action at bit position `pos` assigns to the report registers (R300, R330). -/
def Act.report (base pos : Nat) (r : Report) : Act → Report
  | .mark reg => r.write reg (BitVec.ofNat 32 (pos - base))
  | .assign reg v => r.write reg (BitVec.ofNat 32 v)
  | .put _ => r
  | .trailing => r
  | .fail _ _ => r

/-- The report registers after a listing that began at bit position `base` and stands at `pos` (R330). -/
def listingReport (base : Nat) : Nat → List Act → Report → Report
  | _, [], r => r
  | pos, a :: as, r => listingReport base (pos + (a.bits pos).length) as (a.report base pos r)

/-! ## The arithmetic coder -/

/-- The bits of `PutBitC(b)` and the registers after it (R166). -/
def codeBitC (b : Bool) (c : Cabac) : List Bool × Cabac :=
  ((if c.firstBit then [] else [b]) ++ List.replicate c.outstanding.toNat (!b),
    { c with firstBit := false, outstanding := 0 })

/-- One band decision of `RenormE` (R167). -/
def codeBand (c : Cabac) : List Bool × Cabac :=
  if c.low.toNat < 256 then codeBitC false c
  else if 512 ≤ c.low.toNat then codeBitC true { c with low := c.low - 512 }
  else ([], { c with low := c.low - 256, outstanding := c.outstanding + 1 })

/-- The loop of `RenormE` (R167). -/
def codeRenorm : Nat → Cabac → List Bool × Cabac
  | 0, c => ([], c)
  | n + 1, c =>
    if c.range.toNat < 256 then
      let x := codeBand c
      let y := codeRenorm n { x.2 with range := x.2.range <<< 1, low := x.2.low <<< 1 }
      (x.1 ++ y.1, y.2)
    else ([], c)

/-- The registers with one more bin counted (R173). -/
def Cabac.counted (c : Cabac) : Cabac := { c with binCount := c.binCount + 1 }

/-- The bits of `EncodeBin` through a context byte and the registers after it (R165). -/
def codeBin (byte : Byte) (b : Bool) (c : Cabac) : List Bool × Cabac :=
  let r := codeRenorm 8 (nextInterval byte b c)
  (r.1, r.2.counted)

/-- The decision of `EncodeBinEP` on the doubled `low` (R168). -/
def codeBypassBand (c : Cabac) : List Bool × Cabac :=
  if 1024 ≤ c.low.toNat then codeBitC true { c with low := c.low - 1024 }
  else if c.low.toNat < 512 then codeBitC false c
  else ([], { c with low := c.low - 512, outstanding := c.outstanding + 1 })

/-- The bits of `EncodeBinEP` and the registers after it (R168). -/
def codeBypass (b : Bool) (c : Cabac) : List Bool × Cabac :=
  let r := codeBypassBand { c with low := bypassLow c b }
  (r.1, r.2.counted)

/-- The bits of `SliceFinish` before the trailing bits, and the registers after it (R169). -/
def codeFinish (c : Cabac) : List Bool × Cabac :=
  let r := codeRenorm 8 (terminateInterval c)
  let p := codeBitC (r.2.low.getLsbD 9) r.2
  (r.1 ++ p.1 ++ [r.2.low.getLsbD 8], p.2)

/-- The bits of a sequence of bins, the contexts and the registers after it. -/
def codeBins : List Bin → Vector Context 9 → Cabac → List Bool × Vector Context 9 × Cabac
  | [], ctx, c => ([], ctx, c)
  | .ctx i b :: bins, ctx, c =>
    let x := codeBin ctx[i].byte b c
    let y := codeBins bins (ctx.set i ⟨nextContext ctx[i].byte b, true⟩) x.2
    (x.1 ++ y.1, y.2)
  | .bypass b :: bins, ctx, c =>
    let x := codeBypass b c
    let y := codeBins bins ctx x.2
    (x.1 ++ y.1, y.2)

/-- The value of a bin. -/
def Bin.value : Bin → Bool
  | .ctx _ b => b
  | .bypass b => b

/-- The contexts that a sequence of bins reads hold a value. -/
def Bin.readable (ctx : Vector Context 9) : Bin → Bool
  | .ctx i _ => ctx[i].valid
  | .bypass _ => true

/-- The bins of a skip slice of `n` CTUs from address `a` on, but for the terminating bin 1 (R350). -/
def skipSliceBins (e : WalkEnv) : Nat → Nat → List Bin
  | _, 0 => []
  | a, 1 => ctuBins e a
  | a, n + 2 => ctuBins e a ++ Bin.ctx (ctxIndex .endOfSliceFlag 0) false :: skipSliceBins e (a + 1) (n + 1)

/-! ## Bytes and the whole skip slice -/

/-- The bytes of a bit string, first bit on top (R12); bits after the last whole byte are left out. -/
def packBits : List Bool → List Byte
  | b7 :: b6 :: b5 :: b4 :: b3 :: b2 :: b1 :: b0 :: bits =>
    BitVec.ofNat 8 (128 * b7.toNat + 64 * b6.toNat + 32 * b5.toNat + 16 * b4.toNat + 8 * b3.toNat + 4 * b2.toNat +
      2 * b1.toNat + b0.toNat) :: packBits bits
  | _ => []

/-- The contexts `SkipCtxSetup` leaves (R351, R352). -/
def skipContexts (sliceType : Nat) (qp : Int) : Vector Context 9 :=
  Vector.ofFn fun i =>
    if i.val < 8 then ⟨initContextByte (initValue sliceType i.val).toNat qp, true⟩ else ⟨63, true⟩

/-- The unit `GetSkipSlice` puts in the writer's buffer before protection (R350): the header of R300, the coded bins, the
bits of `SliceFinish`, the trailing bits; with the contexts and the coder's registers after it. -/
def skipSliceUnit (p : Params) (e : WalkEnv) (n : Nat) : List Bool × Vector Context 9 × Cabac :=
  let header := listingBits 0 (sshActs p e.geom false)
  let x := codeBins (skipSliceBins e (sliceAddress p) n) (skipContexts (Rec.SLICE.type p) (sliceQp p)) Cabac.reset
  let f := codeFinish x.2.2
  let bits := header ++ x.1 ++ f.1
  (bits ++ Act.bits bits.length .trailing, x.2.1, f.2)

/-! ## The arithmetic decoder -/

/-- The decoder's registers and the bits it has not read. -/
structure Decoder where
  range : Nat
  off : Nat
  bits : List Bool
deriving DecidableEq, Repr

/-- `off <- (off << 1) | bit()`; beyond the end of the stream `bit()` is 0. -/
def Decoder.shift (d : Decoder) : Decoder :=
  { d with off := 2 * d.off + (d.bits.headD false).toNat, bits := d.bits.tail }

/-- `init`: range 510, the first 9 bits. -/
def decoderInit (bits : List Bool) : Decoder :=
  ⟨510, (List.range 9).foldl (fun v k => 2 * v + (bits.getD k false).toNat) 0, bits.drop 9⟩

/-- `while range < 256: range <- range << 1; off <- (off << 1) | bit()`. -/
def decodeRenorm : Nat → Decoder → Decoder
  | 0, d => d
  | n + 1, d => if d.range < 256 then decodeRenorm n { d.shift with range := 2 * d.range } else d

/-- `dec(i)` on the byte of the context. -/
def decodeBin (byte : Byte) (d : Decoder) : Bool × Decoder :=
  let lps := (rangeTabLps (ctxState byte) (rangeQuarter (BitVec.ofNat 32 d.range))).toNat
  if d.range - lps ≤ d.off then (!ctxMps byte, decodeRenorm 8 ⟨lps, d.off - (d.range - lps), d.bits⟩)
  else (ctxMps byte, decodeRenorm 8 ⟨d.range - lps, d.off, d.bits⟩)

/-- `bypass()`. -/
def decodeBypass (d : Decoder) : Bool × Decoder :=
  if d.range ≤ d.shift.off then (true, { d.shift with off := d.shift.off - d.range }) else (false, d.shift)

/-- `term()`. -/
def decodeTerm (d : Decoder) : Bool × Decoder :=
  if d.range - 2 ≤ d.off then (true, { d with range := d.range - 2 })
  else (false, decodeRenorm 8 { d with range := d.range - 2 })

/-- The decoder called in the order of the coder's calls: of each bin it uses the kind, not the value. -/
def decodeBins : List Bin → Vector Context 9 → Decoder → List Bool × Decoder
  | [], _, d => ([], d)
  | .ctx i _ :: bins, ctx, d =>
    let x := decodeBin ctx[i].byte d
    let y := decodeBins bins (ctx.set i ⟨nextContext ctx[i].byte x.1, true⟩) x.2
    (x.1 :: y.1, y.2)
  | .bypass _ :: bins, ctx, d =>
    let x := decodeBypass d
    let y := decodeBins bins ctx x.2
    (x.1 :: y.1, y.2)

end Sys2Proof.Machine
end

