-- ==== Sys2Proof/Safety.lean ====
section
/-! DEFINITION. What counts as a sound state and a safe run, in the terms the statements use. -/

namespace Sys2Proof.Machine

/-- The writer's cursor between commands (R21). -/
abbrev WriterOk (w : Writer) (dmemSize : Nat) : Prop :=
  w.curStart.toNat ≤ w.bytePos.toNat ∧ w.bytePos.toNat ≤ w.curEnd.toNat ∧ w.curEnd.toNat ≤ dmemSize ∧
    (w.bytePos = w.curEnd → w.bitOffset = 0)

/-- The arithmetic coder's interval between commands (R23, R172). -/
abbrev CabacOk (c : Cabac) : Prop :=
  256 ≤ c.range.toNat ∧ c.range.toNat ≤ 510 ∧ c.low.toNat < 1024 ∧ c.low.toNat + c.range.toNat ≤ 1024

/-- At most one of `RUN`, `DONE`, `FAULT` holds, and the fault code is one of R380's exactly while `FAULT` holds (R35). -/
abbrev StatusOk (st : Status) : Prop :=
  ¬(st.run ∧ st.done) ∧ ¬(st.run ∧ st.fault) ∧ ¬(st.done ∧ st.fault) ∧
    (st.fault = false → st.faultCode = 0) ∧ (st.fault → 1 ≤ st.faultCode.toNat ∧ st.faultCode.toNat ≤ 9)

/-- The fault registers are 0 until a fault is raised, and name the faulting command afterwards (R36, R381, U29). -/
abbrev FaultRegsOk (s : State) : Prop :=
  (s.status.fault = false → s.faultCp = 0 ∧ s.faultInfo = 0) ∧ (s.status.fault → s.faultCp = indexWord s.cp)

/-- The three memories are in canonical form and hold nothing outside their sizes (R33). -/
abbrev MemoriesOk (s : State) : Prop :=
  Memory.wf s.cmd ∧ Memory.within s.cfg.cmdWords s.cmd ∧ Memory.wf s.param ∧ Memory.within paramWords s.param ∧
    Memory.wf s.dmem ∧ Memory.within s.cfg.dmemSize s.dmem

/-- Bit 7 of every context byte is 0 (R29). -/
abbrev ContextsOk (ctx : Vector Context 9) : Prop := ∀ i : Fin 9, ctx[i].byte.getLsbD 7 = false

/-- The invariant of the machine: legal parameters (R8), `CP` inside `CMD` or one past it (R26), and R21, R23, R29, R33,
R35, R36. The coder's interval is claimed only while no fault has been raised: a fault may interrupt a bin (R392). -/
abbrev Inv (s : State) : Prop :=
  s.cfg.legal ∧ MemoriesOk s ∧ WriterOk s.writer s.cfg.dmemSize ∧ ContextsOk s.ctx ∧ StatusOk s.status ∧
    FaultRegsOk s ∧ s.cp.toNat ≤ s.cfg.cmdWords ∧ (s.status.fault = false → CabacOk s.cabac)

/-- `n` more bits fit in the writer's buffer (R130). -/
abbrev Fits (s : State) (n : Nat) : Prop := s.bitpos + n ≤ s.room

/-- The bits of the current byte below the cursor are 0 (R132, U25: unless the host has put 1s there). -/
abbrev TailClear (s : State) : Prop :=
  s.writer.bitOffset ≠ 0 → (s.byteAt s.writer.bytePos.toNat).toNat % 2 ^ (8 - s.writer.bitOffset.toNat) = 0

/-- Bit `k` of the writer's stream (R12, R130): `k` counts from the first byte of the buffer. -/
def State.streamBit (s : State) (k : Nat) : Bool := s.bitAt (8 * s.writer.curStart.toNat + k)

/-- A fault has been raised (R381): the outcome of a command that stops in state `s` with everything else as in `s`. -/
def faultNext (code : FaultCode) (info : Word) (s : State) : Host.Outcome State Fault Refusal :=
  .next (s.takeFault code info)

/-- A run in progress, no host access due: the engine's turn (R73, R93). -/
abbrev EngineTurn (s : State) : Prop := hostDue s = false ∧ s.status.run = true

end Sys2Proof.Machine
end

