-- ==== Sys2Proof/Certificates/Slice0/Obligations.lean ====
section
/-! DEFINITION. The statements for the provers. Each docstring names the rules of spec/ it formalises. -/

open Sys2Proof Sys2Proof.Machine

/-! ## Decoding and encoding -/

/-- Decoding the word of a well-formed command gives the command back, every operand at every value (R90, R92). -/
def Obligations.DecodeOfEncode : Prop := ∀ i : Instr, i.wf = true → decode (encode i) = .ok i

/-- The decoder accepts exactly the words of the opcode table, those that match a row under its mask and meet its value
constraint; and a word it accepts is the word of the well-formed command it decodes to, so no bit of a legal word is
ignored (R92, R95, R99). -/
def Obligations.DecodeAcceptsOpcodeTable : Prop :=
  (∀ w : CmdWord, (∃ i, decode w = .ok i) ↔ legalWord w = true) ∧
  (∀ (w : CmdWord) (i : Instr), decode w = .ok i → encode i = w ∧ i.wf = true)

/-- Words written out from the spec's encodings decode to the commands they stand for: R97's examples, and one for each of
the other families (R90, R92, R97, R121). -/
def Obligations.WrittenWordsDecode : Prop :=
  decode 0x1108000000000042 = .ok (.putBits 8 0x42) ∧ decode 0x15000000FFFFFFFD = .ok (.putSe 0xFFFFFFFD) ∧
    decode 0x210400C50000001A = .ok (.ctxInit 4 197 26) ∧ decode 0x0000000000000000 = .ok .endCmd ∧
    decode 0x0109000000000040 = .ok (.setr 0x09 64) ∧ decode 0x3001000400000000 = .ok (.packRbsp true 4) ∧
    decode 0x4401000000000000 = .ok (.packSsh true) ∧ decode 0x51010000000001FE = .ok (.getSkipSlice true 510)

/-! ## Running commands -/

/-- Where the engine has its turn and the word at `CP` decodes to `i`, a step is `exec i`, with one engine cycle counted for
the host's next access, which is the model's own record (R65, R93; log entry 6). -/
def Obligations.StepRunsDecoded : Prop :=
  ∀ (s : State) (i : Instr), EngineTurn s → s.cp.toNat < s.cfg.cmdWords →
    decode (s.cmd.read s.cp.toNat) = .ok i →
      step s = exec i (hostTick s) ∧ (s.hostPending = [] → step s = exec i s)

/-- A word at `CP` that is no legal encoding raises `ILLEGAL_CMD` with `FAULT_INFO = OPC` and changes nothing else
(R382, R95). -/
def Obligations.IllegalWordFaults : Prop :=
  ∀ s : State, EngineTurn s → s.cp.toNat < s.cfg.cmdWords → legalWord (s.cmd.read s.cp.toNat) = false →
    step s = .next ((hostTick s).takeFault .illegalCmd (((s.cmd.read s.cp.toNat).extractLsb' 56 8).setWidth 32))

/-- A fetch at or past `CMD_WORDS` raises `CMD_FETCH` with `FAULT_INFO = CP`; no command is executed. In every sound state
`CP` has then counted to `CMD_WORDS`, and `FAULT_INFO` is that number where 32 bits hold it (R386; for 2^32 words the value
of the registers is free, log entry 5). -/
def Obligations.FetchPastEndFaults : Prop :=
  ∀ s : State, EngineTurn s → s.cfg.cmdWords ≤ s.cp.toNat →
    step s = .next ((hostTick s).takeFault .cmdFetch (indexWord s.cp)) ∧
      (Inv s → s.cp.toNat = s.cfg.cmdWords ∧ (s.cfg.cmdWords < 2 ^ 32 → (indexWord s.cp).toNat = s.cfg.cmdWords))

/-- Taking a fault: `FAULT` and its code set, `RUN` cleared, `DONE` stays 0, `FAULT_CP = CP`, `FAULT_INFO` the information
word, `CP` and everything else as they were, the register `CP` and `FAULT_CP` showing the index of the faulting command;
the halted engine then does nothing (R381). -/
def Obligations.FaultIsTaken : Prop :=
  (∀ (s : State) (code : FaultCode) (info : Word), s.status.run = true → StatusOk s.status →
    finish (raise code info s) =
      .next { s with status := ⟨false, false, true, code.number⟩, faultCp := indexWord s.cp, faultInfo := info }) ∧
  (∀ i : CmdIndex, i.toNat < 2 ^ 32 → (indexWord i).toNat = i.toNat) ∧
  (∀ s : State, s.status.fault = true → s.status.run = false → s.hostPending = [] → step s = .next s)

/-- The way out of a fault is a reset alone: every host access that is not a `CTRL` write with `RESET = 1`, a start
included, leaves the status, `CP` and the fault registers as they are (R34, R394). -/
def Obligations.FaultEndsByResetOnly : Prop :=
  ∀ (s t : State) (a : HostAccess), s.status.fault = true → hostAccess a s = .next t →
    (∃ v : Word, a = .writeCsr 0x00 v ∧ v.getLsbD 1 = true) ∨
      (t.status = s.status ∧ t.cp = s.cp ∧ t.faultCp = s.faultCp ∧ t.faultInfo = s.faultInfo)

/-- What a step of a run does to `CP`: a command that completes and is not `END` adds 1, `END` leaves it at its own index,
a fault leaves it at the faulting command's index and copies it to `FAULT_CP`; a start sets it to 0; reset sets it to 0
(R26). -/
def Obligations.CommandPointer : Prop :=
  (∀ s t : State, Inv s → EngineTurn s → step s = .next t →
    (t.cp.toNat = s.cp.toNat + 1 ∧ t.status = s.status ∧
      ∃ i, decode (s.cmd.read s.cp.toNat) = .ok i ∧ i ≠ .endCmd) ∨
    (t.cp = s.cp ∧ t.status = { s.status with run := false, done := true } ∧
      decode (s.cmd.read s.cp.toNat) = .ok .endCmd) ∨
    (t.cp = s.cp ∧ t.faultCp = indexWord s.cp ∧ t.status.fault = true ∧ t.status.run = false ∧ t.status.done = false)) ∧
  (∀ s t : State, s.status.run = false → s.status.fault = false → writeCsr 0x00 1 s = .next t → t.cp = 0) ∧
  State.reset.cp = 0

/-- An operand that its value constraint forbids makes `exec` raise `ILLEGAL_CMD` with the opcode. The model's choice (log
entry 16): the decoder never lets such a command through (R95). -/
def Obligations.IllFormedOperandFaults : Prop :=
  ∀ (i : Instr) (s : State), i.wf = false → exec i s = faultNext .illegalCmd ((opcodeOf i).setWidth 32) s

/-! ## Reset, the host, the whole machine -/

/-- What R420 says every register holds after reset, in a state `t`. -/
abbrev AfterReset (t : State) : Prop :=
  t.status = ⟨false, false, false, 0⟩ ∧ t.cp = 0 ∧ t.faultCp = 0 ∧ t.faultInfo = 0 ∧
    t.writer = ⟨0, 0, 0, 0, 0, 0⟩ ∧ t.srcBitAddr = 0 ∧ t.cabac = ⟨0, 510, 0, true, 0⟩ ∧
    t.out = ⟨0, 0, 0⟩ ∧ t.report = ⟨0, 0, 0, 0, 0⟩ ∧ ∀ i : Fin 9, t.ctx[i].valid = false

/-- Reset, by power-up and by a `CTRL` write with `RESET = 1` in any state and whatever `START` is, gives every register
its reset value. The write changes no memory word unless it interrupts a command, and then no byte outside the writer's
region, the buffer `W_INIT` would take and the output region, no command and no parameter word (R34, R70, R420, R421). -/
def Obligations.Reset : Prop :=
  AfterReset State.reset ∧
  ∀ (s : State) (v : Word), v.toNat < 4 → v.getLsbD 1 = true →
    ∃ t, writeCsr 0x00 v s = .next t ∧ AfterReset t ∧ t.cfg = s.cfg ∧ t.cmd = s.cmd ∧ t.param = s.param ∧
      (s.status.run = false → t.dmem = s.dmem) ∧
      ∀ a : Nat,
        (a < s.writer.curStart.toNat ∨ s.writer.curEnd.toNat ≤ a) →
        (a < s.writer.bufStart.toNat ∨ s.writer.bufStart.toNat + s.writer.bufSize.toNat ≤ a) →
        (a < s.out.start.toNat ∨ s.out.start.toNat + s.out.size.toNat ≤ a) → t.byteAt a = s.byteAt a

/-- `CTRL`: a start while idle or done clears `CP` and `DONE` and sets `RUN`, and changes nothing else; a start while
faulted is ignored; a write of 0 does nothing; a start during a run, to which R34 gives no meaning, is refused (log entry
7); `RESET = 1` is the reset whatever `START` is (R34). -/
def Obligations.ControlWrites : Prop :=
  ∀ s : State,
    (s.status.run = false → s.status.fault = false →
      writeCsr 0x00 1 s = .next { s with cp := 0, status := { s.status with run := true, done := false } }) ∧
    (s.status.run = false → s.status.fault = true → writeCsr 0x00 1 s = .next s) ∧
    (s.status.run = false → writeCsr 0x00 0 s = .next s) ∧
    (s.status.run = true → writeCsr 0x00 1 s = .refused .startWhileRunning) ∧
    (∃ t, writeCsr 0x00 2 s = .next t ∧ writeCsr 0x00 3 s = .next t ∧ AfterReset t)

/-- While a run is in progress every host access but a read of `STATUS` and a reset is refused: R73 forbids it, and that it
is a refusal is the model's choice (log entry 7). -/
def Obligations.HostKeepsOut : Prop :=
  ∀ (s : State) (a : HostAccess), s.status.run = true → a ≠ .readCsr 0x01 →
    (∀ v : Word, a = .writeCsr 0x00 v → v.getLsbD 1 = false) → ∃ r, hostAccess a s = .refused r

/-- What the host reads at the CSR numbers of R28 while no run is in progress, with the bits of `STATUS` at their places;
every other number is refused (R28). -/
def Obligations.HostReadsRegisters : Prop :=
  ∀ s : State, s.status.run = false →
    (∀ (n : BitVec 8) (v : Word),
      (n, v) ∈ [((0x00 : BitVec 8), (0 : Word)), (0x02, indexWord s.cp), (0x03, s.faultCp), (0x04, s.faultInfo),
        (0x08, s.writer.bufStart), (0x09, s.writer.bufSize), (0x0A, s.writer.bytePos),
        (0x0B, s.writer.bitOffset.setWidth 32), (0x0C, s.srcBitAddr), (0x0D, s.writer.curStart),
        (0x0E, s.writer.curEnd), (0x10, s.cabac.low), (0x11, s.cabac.range), (0x12, s.cabac.outstanding),
        (0x13, if s.cabac.firstBit then 1 else 0), (0x14, s.cabac.binCount), (0x18, s.out.start), (0x19, s.out.size),
        (0x1A, s.out.len), (0x20, s.report.qpd), (0x21, s.report.sao), (0x22, s.report.pwt),
        (0x23, s.report.sshStartLen), (0x24, s.report.sshOffset)] →
      hostAccess (.readCsr n) s = .next { s with hostReplies := v.setWidth 64 :: s.hostReplies }) ∧
    (∃ v : Word, hostAccess (.readCsr 0x01) s = .next { s with hostReplies := v.setWidth 64 :: s.hostReplies } ∧
      v.getLsbD 0 = s.status.run ∧ v.getLsbD 1 = s.status.done ∧ v.getLsbD 2 = s.status.fault ∧
      v.extractLsb' 3 5 = 0 ∧ v.extractLsb' 8 8 = s.status.faultCode ∧ v.extractLsb' 16 16 = 0) ∧
    (∀ n : BitVec 8, n.toNat ∉ [0x00, 0x01, 0x02, 0x03, 0x04, 0x08, 0x09, 0x0A, 0x0B, 0x0C, 0x0D, 0x0E, 0x10, 0x11, 0x12,
        0x13, 0x14, 0x18, 0x19, 0x1A, 0x20, 0x21, 0x22, 0x23, 0x24] →
      hostAccess (.readCsr n) s = .refused .hostUnassignedCsr)

/-- A byte or a word the host has written is what it reads next, every other one is unchanged, and the memories do not
touch one another (R33, R60, R63). -/
def Obligations.HostMemoryPorts : Prop :=
  (∀ (s : State) (a : Nat) (v : Byte), s.status.run = false → a < s.cfg.dmemSize →
    ∃ t, hostAccess (.writeDmem a v) s = .next t ∧ t = { s with dmem := t.dmem } ∧
      (∀ b, t.byteAt b = if b = a then v else s.byteAt b) ∧
      hostAccess (.readDmem a) t = .next { t with hostReplies := v.setWidth 64 :: s.hostReplies }) ∧
  (∀ (s : State) (k : Nat) (v : Word), s.status.run = false → k < 0x2300 →
    ∃ t, hostAccess (.writeParam k v) s = .next t ∧ t = { s with param := t.param } ∧
      (∀ j, t.params j = if j = k then v else s.params j) ∧
      hostAccess (.readParam k) t = .next { t with hostReplies := v.setWidth 64 :: s.hostReplies }) ∧
  (∀ (s : State) (k : Nat) (v : CmdWord), s.status.run = false → k < s.cfg.cmdWords →
    ∃ t, hostAccess (.writeCmd k v) s = .next t ∧ t = { s with cmd := t.cmd } ∧
      (∀ j, t.cmd.read j = if j = k then v else s.cmd.read j) ∧
      hostAccess (.readCmd k) t = .next { t with hostReplies := v :: s.hostReplies })

/-- An idle, done or faulted engine with no host access to come keeps all state, for any number of steps (R405, R394). -/
def Obligations.IdleKeepsState : Prop :=
  ∀ (s : State) (k : Nat), s.status.run = false → s.hostPending = [] → Host.Core.run core k s = .next s

/-- The invariant holds after reset. -/
def Obligations.ResetIsSound : Prop := Inv State.reset

/-- The invariant is kept by every step, of the engine and of the host: legal parameters, memories in canonical form and
inside their sizes, the writer's cursor (R21), the coder's interval (R23, R172), bit 7 of every context byte (R29), the
status word (R35), the fault registers (R36), `CP` (R26). -/
def Obligations.StepKeepsSound : Prop := ∀ s t : State, Inv s → step s = .next t → Inv t

/-- In a sound state the engine's turn has a next state, or reaches the one situation R24 gives no meaning (log entry 10):
no access leaves `DMEM` (R62) and no renormalisation fails to end (R167). -/
def Obligations.EngineNeverStuck : Prop :=
  ∀ s : State, Inv s → hostDue s = false → (∃ t, step s = .next t) ∨ step s = .refused .bitsOutstandingOverflow

/-- A run that no host disturbs ends within `CMD_WORDS - CP + 1` steps in exactly one of two ways: `DONE` with `CP` at an
`END`, or `FAULT` with `FAULT_CP = CP`; or it reaches the one situation R24 gives no meaning (R441, R122; log entry 10). -/
def Obligations.RunEnds : Prop :=
  ∀ s : State, Inv s → s.status.run = true → s.hostPending = [] →
    ∃ k ≤ s.cfg.cmdWords - s.cp.toNat + 1,
      Host.Core.run core k s = .refused .bitsOutstandingOverflow ∨
      ∃ t : State, Host.Core.run core k s = .next t ∧ t.status.run = false ∧
        ((t.status.done = true ∧ t.status.fault = false ∧ decode (s.cmd.read t.cp.toNat) = .ok .endCmd) ∨
         (t.status.fault = true ∧ t.status.done = false ∧ t.faultCp = indexWord t.cp))

/-! ## System commands -/

/-- `END`: `RUN` cleared, `DONE` set, nothing else changed; a word with opcode 0 and any other bit set is illegal
(R120). -/
def Obligations.EndCommand : Prop :=
  (∀ s : State, exec .endCmd s = .next { s with status := { s.status with run := false, done := true } }) ∧
  (∀ w : CmdWord, w.extractLsb' 56 8 = 0 → w ≠ 0 → decode w = .error .reservedBit)

/-- `SETR`: the five writable registers, one each, and `ILLEGAL_CMD` with 0x01 for every other number; a word with opcode
0x01 and a bit of `B` set is illegal (R121). -/
def Obligations.SetRegister : Prop :=
  (∀ (s : State) (v : Word),
    exec (.setr 0x08 v) s = .next { s with writer := { s.writer with bufStart := v }, cp := s.cp + 1 } ∧
    exec (.setr 0x09 v) s = .next { s with writer := { s.writer with bufSize := v }, cp := s.cp + 1 } ∧
    exec (.setr 0x0C v) s = .next { s with srcBitAddr := v, cp := s.cp + 1 } ∧
    exec (.setr 0x18 v) s = .next { s with out := { s.out with start := v }, cp := s.cp + 1 } ∧
    exec (.setr 0x19 v) s = .next { s with out := { s.out with size := v }, cp := s.cp + 1 } ∧
    ∀ csr : BitVec 8, csr.toNat ∉ [0x08, 0x09, 0x0C, 0x18, 0x19] →
      exec (.setr csr v) s = faultNext .illegalCmd 0x01 s) ∧
  (∀ w : CmdWord, w.extractLsb' 56 8 = 0x01 → w.extractLsb' 32 16 ≠ 0 → decode w = .error .reservedBit)

/-! ## The bit writer -/

/-- What entering bits does: the position grows by their number, they stand in the buffer in order, every bit before them
and every byte outside the bytes they touch is unchanged, the writer stays sound, and the bits below the cursor stay clear
(R132, R141). -/
def Obligations.EnteringBits : Prop :=
  ∀ (s : State) (bits : List Bool), s.cfg.dmemSize ≤ 2 ^ 29 → WriterOk s.writer s.cfg.dmemSize → TailClear s →
    Fits s bits.length →
      (enter bits s).bitpos = s.bitpos + bits.length ∧
      (∀ k, k < bits.length → (enter bits s).streamBit (s.bitpos + k) = bits.getD k false) ∧
      (∀ k, k < s.bitpos → (enter bits s).streamBit k = s.streamBit k) ∧
      (∀ a, a < s.writer.bytePos.toNat ∨ 8 * s.writer.curStart.toNat + s.bitpos + bits.length ≤ 8 * a →
        (enter bits s).byteAt a = s.byteAt a) ∧
      WriterOk (enter bits s).writer s.cfg.dmemSize ∧ TailClear (enter bits s) ∧
      enter bits s = { s with
        dmem := (enter bits s).dmem
        writer := { s.writer with
          bytePos := (enter bits s).writer.bytePos, bitOffset := (enter bits s).writer.bitOffset } }

/-- `PUT_BITS n, value` enters the low `n` bits of `value`, most significant first, and `PUT_BIT b` the bit `b`, where they
fit; where they do not, `WRITER_OVERRUN` with `bitpos()` and nothing written (R130, R133, R134). -/
def Obligations.PutBitsCommands : Prop :=
  ∀ s : State, s.cfg.dmemSize ≤ 2 ^ 29 → WriterOk s.writer s.cfg.dmemSize →
    (∀ (n : BitVec 8) (v : Word), n.toNat ≤ 32 →
      (Fits s n.toNat → exec (.putBits n v) s =
        .next (enter ((List.range n.toNat).map fun k => v.getLsbD (n.toNat - 1 - k)) s).advance) ∧
      (¬Fits s n.toNat → exec (.putBits n v) s = faultNext .writerOverrun (BitVec.ofNat 32 s.bitpos) s)) ∧
    (∀ b : Bool,
      (Fits s 1 → exec (.putBit b) s = .next (enter [b] s).advance) ∧
      (¬Fits s 1 → exec (.putBit b) s = faultNext .writerOverrun (BitVec.ofNat 32 s.bitpos) s))

/-- `PUT_UE v` enters `n - 1` zeros and the `n` bits of `v + 1`, where `n` is the number of bits of `v + 1`, and `PUT_SE v`
the same code of `2v - 1` for a positive `v` and of `-2v` for the others, where the code fits; where it does not,
`WRITER_OVERRUN` and nothing written (R130, R136, R137). -/
def Obligations.PutGolombCommands : Prop :=
  ∀ s : State, s.cfg.dmemSize ≤ 2 ^ 29 → WriterOk s.writer s.cfg.dmemSize →
    ∀ (v : Word) (i : Instr) (x n : Nat),
      (i = .putUe v ∧ x = v.toNat + 1) ∨
        (i = .putSe v ∧ (x : Int) = (if 0 < v.toInt then 2 * v.toInt - 1 else -2 * v.toInt) + 1) →
      0 < n → 2 ^ (n - 1) ≤ x → x < 2 ^ n →
        (Fits s (2 * n - 1) → exec i s =
          .next (enter (List.replicate (n - 1) false ++ (List.range n).map fun k => x.testBit (n - 1 - k)) s).advance) ∧
        (¬Fits s (2 * n - 1) → exec i s = faultNext .writerOverrun (BitVec.ofNat 32 s.bitpos) s)

/-- `PUT_TRAILING c`: with `c = 1` at an aligned cursor nothing; else a 1 and zeros up to the byte boundary, where the byte
is in the buffer; else `WRITER_OVERRUN`. After it the cursor is aligned (R130, R138). -/
def Obligations.PutTrailingCommand : Prop :=
  ∀ s : State, s.cfg.dmemSize ≤ 2 ^ 29 → WriterOk s.writer s.cfg.dmemSize → ∀ c : Bool,
    (c = true → s.writer.bitOffset = 0 → exec (.putTrailing c) s = .next s.advance) ∧
    (c = false ∨ s.writer.bitOffset ≠ 0 → Fits s (8 - s.writer.bitOffset.toNat) →
      exec (.putTrailing c) s =
        .next (enter (true :: List.replicate (7 - s.writer.bitOffset.toNat) false) s).advance ∧
      (enter (true :: List.replicate (7 - s.writer.bitOffset.toNat) false) s).writer.bitOffset = 0) ∧
    (c = false ∨ s.writer.bitOffset ≠ 0 → ¬Fits s (8 - s.writer.bitOffset.toNat) →
      exec (.putTrailing c) s = faultNext .writerOverrun (BitVec.ofNat 32 s.bitpos) s)

/-- `PUT_BITS_BUFFER n`, with its three faults in their order: the source outside `DMEM`, the source meeting the writer's
buffer, no room; else the `n` source bits enter in order and `SRC_BIT_ADDR` advances by `n` modulo 2^32 (R67, R130,
R135, R387, R391). -/
def Obligations.PutBitsBufferCommand : Prop :=
  ∀ (s : State) (n : Word), s.cfg.dmemSize ≤ 2 ^ 29 → WriterOk s.writer s.cfg.dmemSize →
    (8 * s.cfg.dmemSize < s.srcBitAddr.toNat + n.toNat → exec (.putBitsBuffer n) s = faultNext .memRange 2 s) ∧
    (s.srcBitAddr.toNat + n.toNat ≤ 8 * s.cfg.dmemSize →
      (0 < n.toNat ∧ s.srcBitAddr.toNat < 8 * s.writer.curEnd.toNat ∧
          8 * s.writer.curStart.toNat < s.srcBitAddr.toNat + n.toNat →
        exec (.putBitsBuffer n) s = faultNext .memRange 5 s) ∧
      (¬(0 < n.toNat ∧ s.srcBitAddr.toNat < 8 * s.writer.curEnd.toNat ∧
          8 * s.writer.curStart.toNat < s.srcBitAddr.toNat + n.toNat) →
        (¬Fits s n.toNat →
          exec (.putBitsBuffer n) s = faultNext .writerOverrun (BitVec.ofNat 32 s.bitpos) s) ∧
        (Fits s n.toNat →
          exec (.putBitsBuffer n) s =
            .next (((enter ((List.range n.toNat).map fun k => s.bitAt (s.srcBitAddr.toNat + k)) s).setSrcBitAddr
              (s.srcBitAddr + n)).advance))))

/-- `W_INIT off`: `MEM_RANGE` 1 for a buffer outside `DMEM`, then `WRITER_OVERRUN` 0 for an empty buffer with a bit offset;
else the cursor opens, the first byte keeps its top `off` bits alone, the coder restarts, `BIN_COUNT` is cleared, and
everything else is as it was (R66, R131). -/
def Obligations.WInitCommand : Prop :=
  ∀ (s : State) (off : BitVec 3), s.cfg.dmemSize ≤ 2 ^ 29 →
    (s.cfg.dmemSize < s.writer.bufStart.toNat + s.writer.bufSize.toNat →
      exec (.wInit off) s = faultNext .memRange 1 s) ∧
    (s.writer.bufStart.toNat + s.writer.bufSize.toNat ≤ s.cfg.dmemSize →
      (s.writer.bufSize = 0 → off ≠ 0 → exec (.wInit off) s = faultNext .writerOverrun 0 s) ∧
      (s.writer.bufSize ≠ 0 ∨ off = 0 → ∃ t, exec (.wInit off) s = .next t ∧
        t = { s with
          writer := { s.writer with
            curStart := s.writer.bufStart, curEnd := s.writer.bufStart + s.writer.bufSize
            bytePos := s.writer.bufStart, bitOffset := off }
          cabac := ⟨0, 510, 0, true, 0⟩
          cp := s.cp + 1
          dmem := t.dmem } ∧
        WriterOk t.writer t.cfg.dmemSize ∧ t.bitpos = off.toNat ∧
        (∀ a, a ≠ s.writer.bufStart.toNat ∨ s.writer.bufSize = 0 → t.byteAt a = s.byteAt a) ∧
        (s.writer.bufSize ≠ 0 → ∀ k, k < 8 → (t.byteAt s.writer.bufStart.toNat).getLsbD k =
          ((s.byteAt s.writer.bufStart.toNat).getLsbD k && decide (8 - off.toNat ≤ k)))))

/-- The round trip of the spec's source, with the reference reader: `GetUE` at the place where `PUT_UE v` began gives `v`
and ends at the writer's cursor, for every `v`, and `GetSE` likewise for `PUT_SE` (R136, R137, R140, R372, R373). -/
def Obligations.GolombRoundTrip : Prop :=
  ∀ (s t : State) (v : Word), s.cfg.dmemSize ≤ 2 ^ 29 → WriterOk s.writer s.cfg.dmemSize → TailClear s →
    let buffer := t.dmem.readList s.writer.curStart.toNat (s.writer.curEnd.toNat - s.writer.curStart.toNat)
    let before : Reader :=
      ⟨buffer, s.writer.bytePos.toNat - s.writer.curStart.toNat, s.writer.bitOffset.toNat, false⟩
    let after : Reader :=
      ⟨buffer, t.writer.bytePos.toNat - t.writer.curStart.toNat, t.writer.bitOffset.toNat, false⟩
    (Fits s (ueBits v.toNat).length → exec (.putUe v) s = .next t → getUe before = some (v.toNat, after)) ∧
    (Fits s (seBits v.toInt).length → exec (.putSe v) s = .next t → getSe before = some (v.toInt, after))

/-! ## The arithmetic coder -/

/-- `CABAC_INIT`: the four registers, nothing else; a word with opcode 0x20 and any other bit set is illegal (R161). -/
def Obligations.CabacInitCommand : Prop :=
  (∀ s : State, exec .cabacInit s =
    .next { s with
      cabac := { s.cabac with low := 0, range := 510, outstanding := 0, firstBit := true }, cp := s.cp + 1 }) ∧
  (∀ w : CmdWord, w.extractLsb' 56 8 = 0x20 → w ≠ 0x2000000000000000 → decode w = .error .reservedBit)

/-- `CTX_INIT i, initVal, qp`: the context byte from slope, offset and clipped QP, with floor division; the valid bit set;
nothing else. `i ≥ 9` or a bit of `B[15:8]` set is illegal (R162). -/
def Obligations.CtxInitCommand : Prop :=
  (∀ (s : State) (ctx initVal : BitVec 8) (qp : Word) (h : ctx.toNat < 9),
    let q : Int := max 0 (min 51 qp.toInt)
    let slope : Int := (initVal.toNat / 16 : Nat) * 5 - 45
    let offset : Int := (initVal.toNat % 16 * 8 : Nat) - 16
    let init : Int := max 1 (min 126 (Int.fdiv (slope * q) 16 + offset))
    let value : Int := if 64 ≤ init then (init - 64) + 64 else 63 - init
    exec (.ctxInit ctx initVal qp) s =
      .next { s with ctx := s.ctx.set ctx.toNat ⟨BitVec.ofInt 8 value, true⟩, cp := s.cp + 1 }) ∧
  (∀ w : CmdWord, w.extractLsb' 56 8 = 0x21 →
    9 ≤ (w.extractLsb' 48 8).toNat ∨ w.extractLsb' 40 8 ≠ 0 → ∃ e, decode w = .error e)

/-- `CTX_SET i, raw`: the seven bits stored, bit 7 clear, the valid bit set, nothing else; `i ≥ 9` or `IMM[7]` set is
illegal (R171). -/
def Obligations.CtxSetCommand : Prop :=
  (∀ (s : State) (ctx : BitVec 8) (raw : BitVec 7) (h : ctx.toNat < 9),
    exec (.ctxSet ctx raw) s =
      .next { s with ctx := s.ctx.set ctx.toNat ⟨raw.setWidth 8, true⟩, cp := s.cp + 1 }) ∧
  (∀ w : CmdWord, w.extractLsb' 56 8 = 0x22 →
    9 ≤ (w.extractLsb' 48 8).toNat ∨ w.extractLsb' 32 16 ≠ 0 ∨ w.extractLsb' 7 25 ≠ 0 → ∃ e, decode w = .error e)

/-- A bin through a context that nothing has written since reset raises `CTX_UNINIT` with the index, and nothing changes
(R31, R389). -/
def Obligations.UninitialisedContextFaults : Prop :=
  ∀ (s : State) (ctx : BitVec 8) (b : Bool) (h : ctx.toNat < 9), s.ctx[ctx.toNat].valid = false →
    exec (.encBin ctx b) s = faultNext .ctxUninit (ctx.setWidth 32) s

/-- `ENC_BIN i, binVal` in a sound interval with room for its bits: the interval step of R165 with the table width, the
renormalisation of R167 with its bits, the context's transition, `BIN_COUNT + 1`, and nothing else (R165, R166, R167;
the bound is R24's). -/
def Obligations.EncBinCommand : Prop :=
  ∀ (s : State) (ctx : BitVec 8) (b : Bool) (h : ctx.toNat < 9), s.cfg.dmemSize ≤ 2 ^ 29 →
    WriterOk s.writer s.cfg.dmemSize → CabacOk s.cabac → s.ctx[ctx.toNat].valid = true →
    s.cabac.outstanding.toNat + 8 < 2 ^ 32 →
    let byte := s.ctx[ctx.toNat].byte
    let state : BitVec 6 := byte.extractLsb' 0 6
    let mps : Bool := byte.getLsbD 6
    let lps : Word := (rangeTabLps state ((s.cabac.range >>> 6).setWidth 2)).setWidth 32
    let interval : Cabac :=
      if b = mps then { s.cabac with range := s.cabac.range - lps }
      else { s.cabac with low := s.cabac.low + (s.cabac.range - lps), range := lps }
    let state' : BitVec 6 := if b = mps then transMps state else transLps state
    let mps' : Bool := if b ≠ mps ∧ state = 0 then !mps else mps
    let r := codeRenorm 8 interval
    Fits s r.1.length → exec (.encBin ctx b) s =
      .next { enter r.1 s with
        cabac := { r.2 with binCount := s.cabac.binCount + 1 }
        ctx := s.ctx.set ctx.toNat ⟨state'.setWidth 8 ||| (BitVec.ofBool mps').setWidth 8 <<< 6, true⟩
        cp := s.cp + 1 }

/-- `ENC_BIN_EP binVal` in a sound interval with room for its bits: the doubled `low` and its three bands, `BIN_COUNT + 1`,
and nothing else (R166, R168; the bound is R24's). -/
def Obligations.EncBinEpCommand : Prop :=
  ∀ (s : State) (b : Bool), s.cfg.dmemSize ≤ 2 ^ 29 → WriterOk s.writer s.cfg.dmemSize → CabacOk s.cabac →
    s.cabac.outstanding.toNat + 1 < 2 ^ 32 →
    let low := 2 * s.cabac.low.toNat + if b then s.cabac.range.toNat else 0
    let carries (v : Bool) : List Bool :=
      (if s.cabac.firstBit then [] else [v]) ++ List.replicate s.cabac.outstanding.toNat (!v)
    (1024 ≤ low → Fits s (carries true).length → exec (.encBinEp b) s =
      .next { enter (carries true) s with
        cabac := ⟨BitVec.ofNat 32 (low - 1024), s.cabac.range, 0, false, s.cabac.binCount + 1⟩, cp := s.cp + 1 }) ∧
    (low < 512 → Fits s (carries false).length → exec (.encBinEp b) s =
      .next { enter (carries false) s with
        cabac := ⟨BitVec.ofNat 32 low, s.cabac.range, 0, false, s.cabac.binCount + 1⟩, cp := s.cp + 1 }) ∧
    (512 ≤ low → low < 1024 → exec (.encBinEp b) s =
      .next { s with
        cabac := ⟨BitVec.ofNat 32 (low - 512), s.cabac.range, s.cabac.outstanding + 1, s.cabac.firstBit,
          s.cabac.binCount + 1⟩, cp := s.cp + 1 })

/-- `SLICE_FINISH` in a sound interval with room for its bits: the terminating interval renormalised, bit 9 of `low` through
`PutBitC`, bit 8 directly, the trailing bits; the contexts and `BIN_COUNT` unchanged. It leaves range 256, nothing
outstanding, the first-bit flag clear, an aligned cursor, and `low` a multiple of 128 below 1024 (R169; the bound is
R24's). -/
def Obligations.SliceFinishCommand : Prop :=
  ∀ s : State, s.cfg.dmemSize ≤ 2 ^ 29 → WriterOk s.writer s.cfg.dmemSize → CabacOk s.cabac →
    s.cabac.outstanding.toNat + 8 < 2 ^ 32 →
    let r := codeRenorm 8 { s.cabac with low := s.cabac.low + (s.cabac.range - 2), range := 2 }
    let p := codeBitC (r.2.low.getLsbD 9) r.2
    let bits := r.1 ++ p.1 ++ [r.2.low.getLsbD 8]
    let all := bits ++ true :: List.replicate (7 - (s.bitpos + bits.length) % 8) false
    Fits s all.length → exec .sliceFinish s = .next { enter all s with cabac := p.2, cp := s.cp + 1 } ∧
      p.2.range = 256 ∧ p.2.outstanding = 0 ∧ p.2.firstBit = false ∧ (enter all s).writer.bitOffset = 0 ∧
      p.2.low.toNat % 128 = 0 ∧ p.2.low.toNat < 1024 ∧ p.2.binCount = s.cabac.binCount

/-- The invariant of the coder's interval: `cabacInit` establishes it, and each of `EncodeBin`, `EncodeBinEP` and
`SliceFinish` that starts in it and does not fault ends in it (R172). -/
def Obligations.IntervalInvariant : Prop :=
  (∀ s t : State, exec .cabacInit s = .next t → CabacOk t.cabac) ∧
  (∀ (s t : State) (i : Instr), (∃ ctx b, i = .encBin ctx b) ∨ (∃ b, i = .encBinEp b) ∨ i = .sliceFinish →
    s.cfg.dmemSize ≤ 2 ^ 29 → WriterOk s.writer s.cfg.dmemSize → CabacOk s.cabac → s.status.fault = false → exec i s = .next t → t.status.fault = false → CabacOk t.cabac)

/-- `BIN_COUNT`: `ENC_BIN` and `ENC_BIN_EP` that complete add 1 modulo 2^32, `SLICE_FINISH` and `CABAC_INIT` leave it,
`W_INIT` and reset clear it (R173). -/
def Obligations.BinCount : Prop :=
  (∀ (s t : State) (i : Instr), Inv s → s.status.fault = false → exec i s = .next t → t.status.fault = false →
    ((∃ ctx b, i = .encBin ctx b) ∨ (∃ b, i = .encBinEp b) → t.cabac.binCount = s.cabac.binCount + 1) ∧
    (i = .sliceFinish ∨ i = .cabacInit → t.cabac.binCount = s.cabac.binCount) ∧
    ((∃ off, i = .wInit off) → t.cabac.binCount = 0)) ∧
  (∀ (s t : State), writeCsr 0x00 2 s = .next t → t.cabac.binCount = 0)

/-- The terminating bin of value 0 through context 8 set to 63: the range shrinks by 2, the context stays 63, and the
renormalisation shifts once exactly where the range falls below 256 (R170). -/
def Obligations.TerminateBinZero : Prop :=
  ∀ s : State, s.cfg.dmemSize ≤ 2 ^ 29 → WriterOk s.writer s.cfg.dmemSize → CabacOk s.cabac →
    s.ctx[8] = ⟨63, true⟩ →
    (258 ≤ s.cabac.range.toNat → exec (.encBin 8 false) s =
      .next { s with
        cabac := { s.cabac with range := s.cabac.range - 2, binCount := s.cabac.binCount + 1 }, cp := s.cp + 1 }) ∧
    (s.cabac.range.toNat < 258 → ∀ t, s.status.fault = false → exec (.encBin 8 false) s = .next t →
      t.status.fault = false → t.cabac.range.toNat = 2 * (s.cabac.range.toNat - 2) ∧ t.ctx = s.ctx)

/-- What a decoder sees: from `cabacInit` on, for any bins and any starting contexts, the arithmetic decoder with the same
tables returns the bins in order from the coder's bits and the stop bit, and finds the terminating bin 1 at the end,
whatever follows (R174; the bound is R24's). -/
def Obligations.CoderIsDecodable : Prop :=
  ∀ (bins : List Bin) (ctx : Vector Context 9) (rest : List Bool), 8 * bins.length + 8 < 2 ^ 32 →
    let x := codeBins bins ctx Cabac.reset
    let d := decodeBins bins ctx (decoderInit (x.1 ++ (codeFinish x.2.2).1 ++ true :: rest))
    d.1 = bins.map Bin.value ∧ (decodeTerm d.2).1 = true

/-! ## Emulation prevention -/

/-- `PACK_RBSP`, with its faults in their order: an unaligned cursor, an output region outside `DMEM`, a source that meets
it, a unit that does not fit (then `OUT_LEN` is cleared and, by the model's choice of R201's two-pass form, no byte
changes: log entry 19); else the protected unit stands in the output region, `OUT_LEN` ends it, and nothing else changes
(R68, R69, R201, R202, R387, R388, R390, R391; an empty source meets nothing: log entry 14). -/
def Obligations.PackRbspCommand : Prop :=
  ∀ (s : State) (append : Bool) (pfx : BitVec 8), s.cfg.dmemSize ≤ 2 ^ 29 → WriterOk s.writer s.cfg.dmemSize →
    let source := s.dmem.readList s.writer.curStart.toNat (s.writer.bytePos.toNat - s.writer.curStart.toNat)
    let packed := escape pfx.toNat source
    let before := if append then s.out.len.toNat else 0
    let meets := s.writer.curStart.toNat < s.writer.bytePos.toNat ∧
      s.writer.curStart.toNat < s.out.start.toNat + s.out.size.toNat ∧ s.out.start.toNat < s.writer.bytePos.toNat
    (s.writer.bitOffset ≠ 0 →
      exec (.packRbsp append pfx) s = faultNext .unaligned (s.writer.bitOffset.setWidth 32) s) ∧
    (s.writer.bitOffset = 0 → s.cfg.dmemSize < s.out.start.toNat + s.out.size.toNat →
      exec (.packRbsp append pfx) s = faultNext .memRange 3 s) ∧
    (s.writer.bitOffset = 0 → s.out.start.toNat + s.out.size.toNat ≤ s.cfg.dmemSize → meets →
      exec (.packRbsp append pfx) s = faultNext .memRange 4 s) ∧
    (s.writer.bitOffset = 0 → s.out.start.toNat + s.out.size.toNat ≤ s.cfg.dmemSize → ¬meets →
      (s.out.size.toNat < before + packed.length → exec (.packRbsp append pfx) s =
        faultNext .notEnoughBuffer (BitVec.ofNat 32 packed.length) { s with out := { s.out with len := 0 } }) ∧
      (before + packed.length ≤ s.out.size.toNat → ∃ t, exec (.packRbsp append pfx) s = .next t ∧
        t = { s with
          dmem := t.dmem, cp := s.cp + 1
          out := { s.out with len := BitVec.ofNat 32 (before + packed.length) } } ∧
        t.dmem.readList (s.out.start.toNat + before) packed.length = packed ∧
        ∀ a, a < s.out.start.toNat + before ∨ s.out.start.toNat + before + packed.length ≤ a →
          t.byteAt a = s.byteAt a))

/-- Both halves of the protection property, for the part of the output after the prefix: it has no byte-aligned 00 00 00,
00 00 01 or 00 00 02, and every 00 00 03 in it stands before a byte of value 0 to 3; dropping every 03 that follows two
zero bytes and stands before such a byte gives the source back, and the reference reader with its escape rule reads the
source's bits from it (R203, R371). -/
def Obligations.ProtectionProperty : Prop :=
  ∀ (pfx : Nat) (source : List Byte),
    let payload := source.drop pfx
    let out := (escape pfx source).drop pfx
    (∀ (l r : List Byte) (b : Byte), out = l ++ 0 :: 0 :: b :: r →
      3 ≤ b.toNat ∧ (b = 3 → ∃ c r', r = c :: r' ∧ c.toNat ≤ 3)) ∧
    unescape out = payload ∧
    ∃ r, getBits (8 * payload.length) (freshReader out true) =
      some (payload.foldl (fun v b => 256 * v + b.toNat) 0, r)

/-- The size bound a host can use: a protected unit has at most `len + (len - prefix) / 2` bytes, and at least `len`
(R201, corner case g). -/
def Obligations.ProtectionBound : Prop :=
  ∀ (pfx : Nat) (source : List Byte), source.length ≤ (escape pfx source).length ∧
    (escape pfx source).length ≤ source.length + (source.length - pfx) / 2

/-! ## Headers -/

/-- `PACK_NALU`: the optional zero byte, the start code, the 16 header bits from words 0 to 3 of `PARAM`, where they fit
(R42, R211). -/
def Obligations.PackNaluCommand : Prop :=
  ∀ s : State, s.cfg.dmemSize ≤ 2 ^ 29 → WriterOk s.writer s.cfg.dmemSize →
    let long := (s.param.read 0).getLsbD 0
    let type := (s.param.read 1).toNat % 64
    let layer := (s.param.read 2).toNat % 64
    let tid := (s.param.read 3).toNat % 8
    let field (n v : Nat) : List Bool := (List.range n).map fun k => v.testBit (n - 1 - k)
    let bits := (if long = true ∨ type ∈ [32, 33, 34, 35, 39] then List.replicate 8 false else []) ++
      List.replicate 23 false ++ [true] ++ [false] ++ field 6 type ++ field 6 layer ++ field 3 tid
    Fits s bits.length → exec .packNalu s = .next (enter bits s).advance

/-- `PACK_VPS`, `PACK_SPS` and `PACK_PPS` complete where their pre-checks pass, no line of the listing raises a fault and the
listing's bits fit: those bits enter, and nothing else changes (R260, R262, R264). -/
def Obligations.ParameterSetCommands : Prop :=
  ∀ s : State, s.cfg.dmemSize ≤ 2 ^ 29 → WriterOk s.writer s.cfg.dmemSize →
    (Rec.VPS.num_layer_sets_minus1 s.params = 0 → Rec.VPS.num_hrd_parameters s.params = 0 →
      Rec.VPS.extension_flag s.params = false → Rec.VPS.max_sub_layers_minus1 s.params ≤ 6 →
      Fits s (listingBits s.bitpos (vpsActs s.params)).length →
      exec .packVps s = .next (enter (listingBits s.bitpos (vpsActs s.params)) s).advance) ∧
    (Rec.SPS.scaling_list_enabled_flag s.params = false → Rec.SPS.pcm_enabled_flag s.params = false →
      Rec.SPS.extension_flag s.params = false → Rec.SPS.max_sub_layers_minus1 s.params ≤ 6 →
      Rec.SPS.num_short_term_ref_pic_sets s.params ≤ 64 → Rec.SPS.num_long_term_ref_pics_sps s.params ≤ 32 →
      Rec.SPS.log2_max_pic_order_cnt_lsb_minus4 s.params ≤ 12 → (∀ a ∈ spsActs s.params, a.stops = false) →
      Fits s (listingBits s.bitpos (spsActs s.params)).length →
      exec .packSps s = .next (enter (listingBits s.bitpos (spsActs s.params)) s).advance) ∧
    (Rec.PPS.scaling_list_data_present_flag s.params = false → Rec.PPS.extension_flag s.params = false →
      Rec.PPS.num_tile_columns_minus1 s.params ≤ 19 → Rec.PPS.num_tile_rows_minus1 s.params ≤ 21 →
      Fits s (listingBits s.bitpos (ppsActs s.params)).length →
      exec .packPps s = .next (enter (listingBits s.bitpos (ppsActs s.params)) s).advance)

/-- The first six bytes of a parameter set packed at an aligned cursor: the long start code and the two header bytes, and
the unit ends aligned (R212, R138). -/
def Obligations.ParameterSetHeaders : Prop :=
  ∀ (s t : State) (i : Instr) (b : Byte),
    (i = .packVps ∧ b = 0x40) ∨ (i = .packSps ∧ b = 0x42) ∨ (i = .packPps ∧ b = 0x44) →
    s.cfg.dmemSize ≤ 2 ^ 29 → WriterOk s.writer s.cfg.dmemSize → s.writer.bitOffset = 0 → s.status.fault = false →
    exec i s = .next t → t.status.fault = false →
      t.dmem.readList s.writer.bytePos.toNat 6 = [0, 0, 0, 1, b, 1] ∧ t.writer.bitOffset = 0

/-- The pre-checks of the parameter-set packers, in their order, before any bit is written (R260, R262, R264, R384, R385,
R391). -/
def Obligations.ParameterSetChecks : Prop :=
  ∀ (s : State),
    let p := s.params
    let vps10 := Rec.VPS.num_layer_sets_minus1 p ≠ 0 ∨ Rec.VPS.num_hrd_parameters p ≠ 0 ∨ Rec.VPS.extension_flag p = true
    let sps1 := Rec.SPS.scaling_list_enabled_flag p = true
    let sps2 := Rec.SPS.pcm_enabled_flag p = true
    let sps4 := Rec.SPS.extension_flag p = true
    let sps11 := 6 < Rec.SPS.max_sub_layers_minus1 p
    let sps12 := 64 < Rec.SPS.num_short_term_ref_pic_sets p
    let sps13 := 32 < Rec.SPS.num_long_term_ref_pics_sps p
    let sps14 := 12 < Rec.SPS.log2_max_pic_order_cnt_lsb_minus4 p
    let pps5 := Rec.PPS.scaling_list_data_present_flag p = true
    let pps6 := Rec.PPS.extension_flag p = true
    let pps15 := 19 < Rec.PPS.num_tile_columns_minus1 p ∨ 21 < Rec.PPS.num_tile_rows_minus1 p
    (vps10 → exec .packVps s = faultNext .unsupported 10 s) ∧
    (¬vps10 → 6 < Rec.VPS.max_sub_layers_minus1 p → exec .packVps s = faultNext .badParam 11 s) ∧
    (sps1 → exec .packSps s = faultNext .unsupported 1 s) ∧
    (¬sps1 → sps2 → exec .packSps s = faultNext .unsupported 2 s) ∧
    (¬sps1 → ¬sps2 → sps4 → exec .packSps s = faultNext .unsupported 4 s) ∧
    (¬sps1 → ¬sps2 → ¬sps4 → sps11 → exec .packSps s = faultNext .badParam 11 s) ∧
    (¬sps1 → ¬sps2 → ¬sps4 → ¬sps11 → sps12 → exec .packSps s = faultNext .badParam 12 s) ∧
    (¬sps1 → ¬sps2 → ¬sps4 → ¬sps11 → ¬sps12 → sps13 → exec .packSps s = faultNext .badParam 13 s) ∧
    (¬sps1 → ¬sps2 → ¬sps4 → ¬sps11 → ¬sps12 → ¬sps13 → sps14 → exec .packSps s = faultNext .badParam 14 s) ∧
    (pps5 → exec .packPps s = faultNext .unsupported 5 s) ∧
    (¬pps5 → pps6 → exec .packPps s = faultNext .unsupported 6 s) ∧
    (¬pps5 → ¬pps6 → pps15 → exec .packPps s = faultNext .badParam 15 s)

/-- A fault in the middle of a listing leaves what the lines before it wrote: `PACK_SPS` whose listing reaches a line that
raises, or a line for which there is no room, after lines that raise nothing and fit (R130, R210, R383, R392 b). Stepping the
listing line by line is the model's choice (log entry 18): R392 c and U23 let a model leave the writer's buffer unspecified
after a fault in the middle of a command. -/
def Obligations.MidListingFault : Prop :=
  ∀ (s : State) (done rest : List Act), s.cfg.dmemSize ≤ 2 ^ 29 → WriterOk s.writer s.cfg.dmemSize →
    spsChecks s.params = none → (∀ a ∈ done, a.stops = false) → Fits s (listingBits s.bitpos done).length →
    (∀ m, Act.mark m ∉ done) → (∀ m v, Act.assign m v ∉ done) →
    (∀ code info, spsActs s.params = done ++ .fail code info :: rest →
      exec .packSps s = faultNext code (BitVec.ofNat 32 info) (enter (listingBits s.bitpos done) s)) ∧
    (∀ bits, spsActs s.params = done ++ .put bits :: rest →
      ¬Fits s ((listingBits s.bitpos done).length + bits.length) →
      exec .packSps s = faultNext .writerOverrun
        (BitVec.ofNat 32 (s.bitpos + (listingBits s.bitpos done).length)) (enter (listingBits s.bitpos done) s))

/-- `PACK_SSH`, with its pre-checks in their order; where they pass, no line raises a fault and the bits fit, the listing's
bits enter, the report registers hold the positions counted from the start of the header, and nothing else changes (R300,
R330, R340, R385). -/
def Obligations.PackSshCommand : Prop :=
  ∀ (s : State) (dyn : Bool), s.cfg.dmemSize ≤ 2 ^ 29 → WriterOk s.writer s.cfg.dmemSize →
    (geometry s.params = none → exec (.packSsh dyn) s = faultNext .badParam 40 s) ∧
    ∀ g, geometry s.params = some g →
      (64 < Rec.SPS.num_short_term_ref_pic_sets s.params → exec (.packSsh dyn) s = faultNext .badParam 12 s) ∧
      (Rec.SPS.num_short_term_ref_pic_sets s.params ≤ 64 →
        (32 < Rec.SPS.num_long_term_ref_pics_sps s.params → exec (.packSsh dyn) s = faultNext .badParam 13 s) ∧
        (Rec.SPS.num_long_term_ref_pics_sps s.params ≤ 32 →
          (12 < Rec.SPS.log2_max_pic_order_cnt_lsb_minus4 s.params →
            exec (.packSsh dyn) s = faultNext .badParam 14 s) ∧
          (Rec.SPS.log2_max_pic_order_cnt_lsb_minus4 s.params ≤ 12 →
            (∀ a ∈ sshActs s.params g dyn, a.stops = false) →
            Fits s (listingBits s.bitpos (sshActs s.params g dyn)).length →
            exec (.packSsh dyn) s = .next
              ((enter (listingBits s.bitpos (sshActs s.params g dyn)) s).setReport
                (listingReport s.bitpos s.bitpos (sshActs s.params g dyn) ⟨0, 0, 0, 0, 0⟩)).advance)))

/-- The report registers after a `PACK_SSH` that completes: with `dyn = 1` the start code length and the length of the
header in bits, with `dyn = 0` both 0; a dependent segment leaves the three syntax positions 0; without SAO in the SPS
`SAO_OFFSET` is 0 (R330). -/
def Obligations.ReportRegisters : Prop :=
  ∀ (s t : State) (dyn : Bool), s.cfg.dmemSize ≤ 2 ^ 29 → WriterOk s.writer s.cfg.dmemSize →
    s.status.fault = false → exec (.packSsh dyn) s = .next t → t.status.fault = false →
      (dyn = true → t.report.sshStartLen = BitVec.ofNat 32 (sliceStartCode s.params) ∧
        (sliceStartCode s.params = 3 ∨ sliceStartCode s.params = 4) ∧
        t.report.sshOffset = BitVec.ofNat 32 (t.bitpos - s.bitpos)) ∧
      (dyn = false → t.report.sshStartLen = 0 ∧ t.report.sshOffset = 0 ∧ t.writer.bitOffset = 0) ∧
      (sliceDependent s.params = true → t.report.qpd = 0 ∧ t.report.sao = 0 ∧ t.report.pwt = 0) ∧
      (Rec.SPS.sample_adaptive_offset_enabled_flag s.params = false → t.report.sao = 0)

/-! ## Skip slices -/

/-- `CODING_TREE a`, with its pre-checks in their order; where they pass, the contexts it reads hold values and the bits
fit, the bins of the CTU are coded: bits, contexts, coder's registers and `CP`, nothing else (R341, R343, R344, R346; the
bound is R24's). -/
def Obligations.CodingTreeCommand : Prop :=
  ∀ (s : State) (a : Word), s.cfg.dmemSize ≤ 2 ^ 29 → WriterOk s.writer s.cfg.dmemSize → CabacOk s.cabac →
    (geometry s.params = none → exec (.codingTree a) s = faultNext .badParam 40 s) ∧
    ∀ g, geometry s.params = some g →
      (g.widthInCtbs * g.heightInCtbs ≤ a.toNat → exec (.codingTree a) s = faultNext .badParam 41 s) ∧
      (a.toNat < g.widthInCtbs * g.heightInCtbs →
        (4 < Rec.SLICE.five_minus_max_num_merge_cand s.params →
          exec (.codingTree a) s = faultNext .badParam 53 s) ∧
        (Rec.SLICE.five_minus_max_num_merge_cand s.params ≤ 4 →
          let bins := ctuBins (walkEnv g s) a.toNat
          let x := codeBins bins s.ctx s.cabac
          (∀ b ∈ bins, b.readable s.ctx = true) → s.cabac.outstanding.toNat + 8 * bins.length < 2 ^ 32 →
          Fits s x.1.length →
          exec (.codingTree a) s = .next { enter x.1 s with ctx := x.2.1, cabac := x.2.2, cp := s.cp + 1 }))

/-- The bins of a CTU that lies inside the picture and is larger than the minimum coding block: one split flag 0, the bypass
flag 0 where the PPS enables it, the skip flag 1, the first merge bin 0 unless there is a single candidate (R343, R344,
R346, R353; for `MERGE_IDX = 0`, R344's value). -/
def Obligations.WholeCtuBins : Prop :=
  ∀ (e : WalkEnv) (a : Nat), e.mergeIdx = 0 → e.geom.minCbLog2 < e.geom.ctbLog2 →
    let x := a % e.geom.widthInCtbs * 2 ^ e.geom.ctbLog2
    let y := a / e.geom.widthInCtbs * 2 ^ e.geom.ctbLog2
    x + 2 ^ e.geom.ctbLog2 ≤ e.geom.width → y + 2 ^ e.geom.ctbLog2 ≤ e.geom.height →
    let inc := avail e (x - 1) y + avail e x (y - 1)
    inc ≤ 2 ∧
    ctuBins e a =
      [.ctx (Fin.ofNat 9 (1 + if e.mode = .availabilityCount then inc else 0)) false] ++
      (if e.bypassEnabled then [.ctx 0 false] else []) ++ [.ctx (Fin.ofNat 9 (4 + inc)) true] ++
      (if e.fiveMinus < 4 then [.ctx 7 false] else [])

/-- `GET_SKIP_SLICE` as a function of its inputs: where the geometry, the CTU range, the buffer, the pre-checks and the
slice type allow it, no line of the header raises a fault, and the unit and its protected form fit in disjoint regions, the
command completes with the protected unit in the output region and every register as the pure unit leaves it; no byte
outside the two regions changes (R343, R350, R351; the bound is R24's). -/
def Obligations.GetSkipSliceCommand : Prop :=
  ∀ (s : State) (append : Bool) (n : Word) (g : Geometry), s.cfg.dmemSize ≤ 2 ^ 29 →
    geometry s.params = some g → 0 < n.toNat →
    sliceAddress s.params + n.toNat ≤ g.widthInCtbs * g.heightInCtbs →
    s.writer.bufStart.toNat + s.writer.bufSize.toNat ≤ s.cfg.dmemSize → spsBoundChecks s.params = none →
    (∀ a ∈ sshActs s.params g false, a.stops = false) → Rec.SLICE.type s.params ≤ 1 →
    ¬(Rec.PPS.cabac_init_present_flag s.params = true ∧ Rec.SLICE.cabac_init_flag s.params = true) →
    Rec.SLICE.five_minus_max_num_merge_cand s.params ≤ 4 →
    8 * (skipSliceBins (walkEnv g s) (sliceAddress s.params) n.toNat).length + 8 < 2 ^ 32 →
    let x := skipSliceUnit s.params (walkEnv g s) n.toNat
    let packed := escape (sliceStartCode s.params) (packBits x.1)
    let before := if append then s.out.len.toNat else 0
    x.1.length ≤ 8 * s.writer.bufSize.toNat → s.out.start.toNat + s.out.size.toNat ≤ s.cfg.dmemSize →
    (s.out.start.toNat + s.out.size.toNat ≤ s.writer.bufStart.toNat ∨
      s.writer.bufStart.toNat + x.1.length / 8 ≤ s.out.start.toNat) →
    before + packed.length ≤ s.out.size.toNat →
    ∃ t, exec (.getSkipSlice append n) s = .next t ∧
      t = { s with
        dmem := t.dmem, cp := s.cp + 1, ctx := x.2.1, cabac := x.2.2
        writer := { s.writer with
          curStart := s.writer.bufStart, curEnd := s.writer.bufStart + s.writer.bufSize
          bytePos := s.writer.bufStart + BitVec.ofNat 32 (x.1.length / 8), bitOffset := 0 }
        report := listingReport 0 0 (sshActs s.params g false) ⟨0, 0, 0, 0, 0⟩
        out := { s.out with len := BitVec.ofNat 32 (before + packed.length) } } ∧
      t.dmem.readList s.writer.bufStart.toNat (x.1.length / 8) = packBits x.1 ∧
      t.dmem.readList (s.out.start.toNat + before) packed.length = packed ∧
      ∀ a, (a < s.writer.bufStart.toNat ∨ s.writer.bufStart.toNat + x.1.length / 8 ≤ a) →
        (a < s.out.start.toNat + before ∨ s.out.start.toNat + before + packed.length ≤ a) → t.byteAt a = s.byteAt a

/-- The refusals of `GET_SKIP_SLICE` before anything changes, in their order: the geometry, the CTU range, the buffer (R350,
R355 g, R385, R387, R391). -/
def Obligations.GetSkipSliceChecks : Prop :=
  ∀ (s : State) (append : Bool) (n : Word),
    (geometry s.params = none → exec (.getSkipSlice append n) s = faultNext .badParam 40 s) ∧
    ∀ g, geometry s.params = some g →
      (n = 0 ∨ g.widthInCtbs * g.heightInCtbs < sliceAddress s.params + n.toNat →
        exec (.getSkipSlice append n) s = faultNext .badParam 41 s) ∧
      (n ≠ 0 → sliceAddress s.params + n.toNat ≤ g.widthInCtbs * g.heightInCtbs →
        s.cfg.dmemSize < s.writer.bufStart.toNat + s.writer.bufSize.toNat →
        exec (.getSkipSlice append n) s = faultNext .memRange 1 s)

/-- Determinism: no engine state from before the command enters its result. Two states with the same parameters, records and
regions, whatever their memories, contexts, coder and cursor, give the same bytes, the same `OUT_LEN` and the same
registers (R353, R350). -/
def Obligations.SkipSliceDeterminism : Prop :=
  ∀ (s₁ s₂ t₁ : State) (n : Word), s₁.cfg.dmemSize ≤ 2 ^ 29 → s₂.cfg = s₁.cfg → s₂.param = s₁.param →
    s₂.writer.bufStart = s₁.writer.bufStart → s₂.writer.bufSize = s₁.writer.bufSize →
    s₂.out.start = s₁.out.start → s₂.out.size = s₁.out.size → s₁.status.fault = false →
    exec (.getSkipSlice false n) s₁ = .next t₁ → t₁.status.fault = false →
    ∃ t₂, exec (.getSkipSlice false n) s₂ = .next t₂ ∧ t₂.out = t₁.out ∧ t₂.report = t₁.report ∧
      t₂.cabac = t₁.cabac ∧ t₂.ctx = t₁.ctx ∧ t₂.writer = t₁.writer ∧
      t₂.dmem.readList t₂.out.start.toNat t₂.out.len.toNat = t₁.dmem.readList t₁.out.start.toNat t₁.out.len.toNat

/-! ## Frames -/

/-- No command changes the commands, the parameter words, the configuration or the host's record, and none but a fault
changes the fault registers (R36, R60, R77). -/
def Obligations.CommandsNeverWritten : Prop :=
  ∀ (i : Instr) (s t : State), Inv s → exec i s = .next t →
    t.cmd = s.cmd ∧ t.param = s.param ∧ t.cfg = s.cfg ∧ t.hostPending = s.hostPending ∧
      t.hostReplies = s.hostReplies ∧ t.freeCount = s.freeCount ∧
      (t.status.fault = false → t.faultCp = s.faultCp ∧ t.faultInfo = s.faultInfo)

/-- The commands that write bits and no register but the writer's cursor and `CP` (`PUT_BITS_BUFFER`: and `SRC_BIT_ADDR`).
Where they do not fault, every other register is as it was, and so is every byte below the byte of the old cursor and from
the byte after the last written bit on (R70, R132, R141). -/
def Obligations.WriterCommandFrame : Prop :=
  ∀ (i : Instr) (s t : State),
    i ∈ [.packNalu, .packVps, .packSps, .packPps] ∨ (∃ n v, i = .putBits n v) ∨ (∃ b, i = .putBit b) ∨
      (∃ n, i = .putBitsBuffer n) ∨ (∃ v, i = .putUe v) ∨ (∃ v, i = .putSe v) ∨ (∃ c, i = .putTrailing c) →
    s.cfg.dmemSize ≤ 2 ^ 29 → WriterOk s.writer s.cfg.dmemSize → s.status.fault = false → exec i s = .next t →
    t.status.fault = false →
      t = { s with
        dmem := t.dmem, cp := s.cp + 1
        srcBitAddr := t.srcBitAddr
        writer := { s.writer with bytePos := t.writer.bytePos, bitOffset := t.writer.bitOffset } } ∧
      ((∀ n, i ≠ .putBitsBuffer n) → t.srcBitAddr = s.srcBitAddr) ∧
      s.bitpos ≤ t.bitpos ∧ WriterOk t.writer t.cfg.dmemSize ∧
      ∀ a, a < s.writer.bytePos.toNat ∨ 8 * s.writer.curStart.toNat + t.bitpos ≤ 8 * a → t.byteAt a = s.byteAt a

/-- The commands that code bins or pack a slice header. Where they do not fault, they change the coder's registers and the
contexts (`ENC_BIN`: its own alone; `ENC_BIN_EP`, `SLICE_FINISH`: none; `PACK_SSH`: neither, but the report registers), the
writer's cursor and the written bytes, and nothing else (R70, R165, R168, R169, R300, R341). -/
def Obligations.CoderCommandFrame : Prop :=
  ∀ (i : Instr) (s t : State),
    (∃ c b, i = .encBin c b) ∨ (∃ b, i = .encBinEp b) ∨ i = .sliceFinish ∨ (∃ a, i = .codingTree a) ∨
      (∃ d, i = .packSsh d) →
    Inv s → s.status.fault = false → exec i s = .next t → t.status.fault = false →
      t = { s with
        dmem := t.dmem, cp := s.cp + 1, cabac := t.cabac, ctx := t.ctx, report := t.report
        writer := { s.writer with bytePos := t.writer.bytePos, bitOffset := t.writer.bitOffset } } ∧
      (∀ c b, i = .encBin c b → ∀ k : Fin 9, k.val ≠ c.toNat → t.ctx[k] = s.ctx[k]) ∧
      ((∃ b, i = .encBinEp b) ∨ i = .sliceFinish → t.ctx = s.ctx) ∧
      ((∃ d, i = .packSsh d) → t.ctx = s.ctx ∧ t.cabac = s.cabac) ∧
      ((∀ d, i ≠ .packSsh d) → t.report = s.report) ∧ s.bitpos ≤ t.bitpos ∧ WriterOk t.writer t.cfg.dmemSize ∧
      ∀ a, a < s.writer.bytePos.toNat ∨ 8 * s.writer.curStart.toNat + t.bitpos ≤ 8 * a → t.byteAt a = s.byteAt a

/-- `GET_SKIP_SLICE` that completes keeps `W_BUF_START`, `W_BUF_SIZE`, `SRC_BIT_ADDR`, `OUT_START` and `OUT_SIZE`, sets
every context's valid bit, and changes no byte outside the buffer and the output region (R31, R70, R350). -/
def Obligations.SkipSliceFrame : Prop :=
  ∀ (s t : State) (append : Bool) (n : Word), Inv s → s.status.fault = false →
    exec (.getSkipSlice append n) s = .next t → t.status.fault = false →
      t = { s with
        dmem := t.dmem, cp := s.cp + 1, cabac := t.cabac, ctx := t.ctx, report := t.report
        out := { s.out with len := t.out.len }
        writer := { s.writer with
          curStart := s.writer.bufStart, curEnd := s.writer.bufStart + s.writer.bufSize
          bytePos := t.writer.bytePos, bitOffset := t.writer.bitOffset } } ∧
      (∀ k : Fin 9, t.ctx[k].valid = true) ∧
      ∀ a, (a < s.writer.bufStart.toNat ∨ s.writer.bufStart.toNat + s.writer.bufSize.toNat ≤ a) →
        (a < s.out.start.toNat ∨ s.out.start.toNat + s.out.size.toNat ≤ a) → t.byteAt a = s.byteAt a
end

