-- ==== Sys2Proof/Laws/Memory.lean ====
section
/-! SUPPORT. The laws of memory: what a read gives after a write, and that every write keeps the canonical form and the
bound on the indices. -/

namespace Sys2Proof.Machine

variable {w : Nat}

@[simp] theorem Memory.written_nil (a : Nat) : Memory.written ([] : Memory w) a = none := rfl

@[simp] theorem Memory.read_nil (a : Nat) : Memory.read ([] : Memory w) a = Memory.unlisted w a := rfl

/-- Nothing is written below every entry. -/
theorem Memory.written_of_lt (m : Memory w) (a : Nat) (h : ∀ e ∈ m, a < e.1) : Memory.written m a = none := by
  cases m with
  | nil => rfl
  | cons e m => simp [Memory.written, h e (by simp)]

/-- The first listed cell has been written. -/
theorem Memory.written_head (e : Nat × BitVec w) (m : Memory w) : Memory.written (e :: m) e.1 = some e.2 := by
  simp [Memory.written]

/-- What a write leaves written: its value at its index, everything else as before. -/
theorem Memory.written_write (m : Memory w) (a x : Nat) (v : BitVec w) :
    Memory.written (Memory.write m a v) x = if x = a then some v else Memory.written m x := by
  induction m with
  | nil => simp only [Memory.write, Memory.written]; split_ifs <;> first | rfl | omega
  | cons e m ih =>
    simp only [Memory.write]
    split_ifs <;> simp only [Memory.written, ih] <;> split_ifs <;> first | rfl | omega

/-- READ AFTER WRITE, both cases. -/
theorem Memory.read_write (m : Memory w) (a x : Nat) (v : BitVec w) :
    Memory.read (Memory.write m a v) x = if x = a then v else Memory.read m x := by
  rw [Memory.read, Memory.written_write]
  split <;> rfl

/-- READ AFTER WRITE, the same index. -/
@[simp] theorem Memory.read_write_same (m : Memory w) (a : Nat) (v : BitVec w) :
    Memory.read (Memory.write m a v) a = v := by rw [Memory.read_write, if_pos rfl]

/-- READ AFTER WRITE, another index. -/
theorem Memory.read_write_ne (m : Memory w) (a x : Nat) (v : BitVec w) (h : x ≠ a) :
    Memory.read (Memory.write m a v) x = Memory.read m x := by rw [Memory.read_write, if_neg h]

/-- Every entry of a written memory is an old one or the new one. -/
theorem Memory.mem_write (m : Memory w) (a : Nat) (v : BitVec w) : ∀ e ∈ Memory.write m a v, e ∈ m ∨ e = (a, v) := by
  induction m with
  | nil => simp [Memory.write]
  | cons e m ih =>
    simp only [Memory.write]
    intro x hx
    split_ifs at hx
    · rcases List.mem_cons.1 hx with rfl | hx
      · simp
      · rcases ih x hx with h | h
        · exact .inl (List.mem_cons_of_mem _ h)
        · exact .inr h
    · rcases List.mem_cons.1 hx with h | hx
      · exact .inr h
      · exact .inl (List.mem_cons_of_mem _ hx)
    · rcases List.mem_cons.1 hx with h | hx
      · exact .inr h
      · exact .inl hx

/-- A write keeps the canonical form. -/
theorem Memory.write_wf {m : Memory w} (h : Memory.wf m) (a : Nat) (v : BitVec w) : Memory.wf (Memory.write m a v) := by
  induction m with
  | nil => simp [Memory.write]
  | cons e m ih =>
    have hc := List.pairwise_cons.1 h
    simp only [Memory.write]
    split_ifs with hb he
    · refine List.pairwise_cons.2 ⟨fun x hx => ?_, ih hc.2⟩
      rcases Memory.mem_write m a v x hx with hx | rfl
      · exact hc.1 x hx
      · exact hb
    · exact List.pairwise_cons.2 ⟨fun x hx => he ▸ hc.1 x hx, hc.2⟩
    · refine List.pairwise_cons.2 ⟨fun x hx => ?_, h⟩
      rcases List.mem_cons.1 hx with rfl | hx
      · simp only; omega
      · have := hc.1 x hx; simp only; omega

/-- A write inside the size keeps every index inside the size. -/
theorem Memory.write_within {m : Memory w} {size : Nat} (h : Memory.within size m) {a : Nat} (ha : a < size)
    (v : BitVec w) : Memory.within size (Memory.write m a v) := by
  intro e he
  rcases Memory.mem_write m a v e he with he | rfl
  · exact h e he
  · exact ha

/-- Consecutive writes keep the canonical form. -/
theorem Memory.writeList_wf {m : Memory w} (h : Memory.wf m) (a : Nat) (vs : List (BitVec w)) :
    Memory.wf (Memory.writeList m a vs) := by
  induction vs generalizing m a with
  | nil => exact h
  | cons v vs ih => exact ih (Memory.write_wf h a v) (a + 1)

/-- Consecutive writes inside the size keep every index inside the size. -/
theorem Memory.writeList_within {m : Memory w} {size : Nat} (h : Memory.within size m) {a : Nat}
    (vs : List (BitVec w)) (ha : a + vs.length ≤ size) : Memory.within size (Memory.writeList m a vs) := by
  induction vs generalizing m a with
  | nil => exact h
  | cons v vs ih =>
    simp only [List.length_cons] at ha
    exact ih (Memory.write_within h (by omega) v) (by omega)

/-- What a read gives after consecutive writes. -/
theorem Memory.read_writeList (m : Memory w) (a x : Nat) (vs : List (BitVec w)) :
    Memory.read (Memory.writeList m a vs) x =
      if a ≤ x ∧ x < a + vs.length then vs.getD (x - a) 0 else Memory.read m x := by
  induction vs generalizing m a with
  | nil => rw [if_neg (by simp)]; rfl
  | cons v vs ih =>
    simp only [Memory.writeList, ih, Memory.read_write, List.length_cons]
    by_cases h1 : a + 1 ≤ x ∧ x < a + 1 + vs.length
    · rw [if_pos h1, if_pos (by omega), show x - a = (x - (a + 1)) + 1 by omega]; simp
    · rw [if_neg h1]
      by_cases h2 : x = a
      · subst h2; simp
      · rw [if_neg h2, if_neg (by omega)]

/-- Two memories in canonical form in which the same has been written are the same list. -/
theorem Memory.ext_of_wf {m n : Memory w} (hm : Memory.wf m) (hn : Memory.wf n)
    (h : ∀ a, Memory.written m a = Memory.written n a) : m = n := by
  induction m generalizing n with
  | nil =>
    cases n with
    | nil => rfl
    | cons e n => have := h e.1; rw [Memory.written_head] at this; cases this
  | cons d m ih =>
    cases n with
    | nil => have := h d.1; rw [Memory.written_head] at this; cases this
    | cons e n =>
      have hmp := List.pairwise_cons.1 hm
      have hnp := List.pairwise_cons.1 hn
      have hidx : d.1 = e.1 := by
        rcases lt_trichotomy d.1 e.1 with hlt | heq | hgt
        · have := h d.1
          rw [Memory.written_head, Memory.written, if_pos hlt] at this
          cases this
        · exact heq
        · have := h e.1
          rw [Memory.written_head, Memory.written, if_pos hgt] at this
          cases this
      have hval : d.2 = e.2 := by
        have := h d.1
        rw [Memory.written_head, hidx, Memory.written_head] at this
        exact Option.some.inj this
      have hde : d = e := Prod.ext hidx hval
      subst hde
      rw [ih hmp.2 hnp.2]
      intro a
      by_cases ha : a ≤ d.1
      · rw [Memory.written_of_lt m a fun x hx => by have := hmp.1 x hx; omega,
          Memory.written_of_lt n a fun x hx => by have := hnp.1 x hx; omega]
      · have := h a
        simpa [Memory.written, show ¬ a < d.1 by omega, show ¬ a = d.1 by omega] using this

/-- Reading a list of cells, cell by cell. -/
theorem Memory.readList_getD (m : Memory w) (a n k : Nat) (h : k < n) :
    (Memory.readList m a n).getD k 0 = Memory.read m (a + k) := by
  simp [Memory.readList, List.getD_eq_getElem?_getD, h]

@[simp] theorem Memory.readList_length (m : Memory w) (a n : Nat) : (Memory.readList m a n).length = n := by
  simp [Memory.readList]

end Sys2Proof.Machine
end

