-- ==== Sys2Proof/Laws/State.lean ====
section
/-! SUPPORT. One lemma per field per update of the state, true by `rfl`, for `simp`: no later proof unfolds a record
update. -/

namespace Sys2Proof.Machine

variable (s : State)

/-! ## `State.setByte` -/

@[simp] theorem State.setByte_cfg (a : Nat) (v : Byte) : (s.setByte a v).cfg = s.cfg := rfl
@[simp] theorem State.setByte_writer (a : Nat) (v : Byte) : (s.setByte a v).writer = s.writer := rfl
@[simp] theorem State.setByte_cabac (a : Nat) (v : Byte) : (s.setByte a v).cabac = s.cabac := rfl
@[simp] theorem State.setByte_ctx (a : Nat) (v : Byte) : (s.setByte a v).ctx = s.ctx := rfl
@[simp] theorem State.setByte_srcBitAddr (a : Nat) (v : Byte) : (s.setByte a v).srcBitAddr = s.srcBitAddr := rfl
@[simp] theorem State.setByte_out (a : Nat) (v : Byte) : (s.setByte a v).out = s.out := rfl
@[simp] theorem State.setByte_report (a : Nat) (v : Byte) : (s.setByte a v).report = s.report := rfl
@[simp] theorem State.setByte_cp (a : Nat) (v : Byte) : (s.setByte a v).cp = s.cp := rfl
@[simp] theorem State.setByte_status (a : Nat) (v : Byte) : (s.setByte a v).status = s.status := rfl
@[simp] theorem State.setByte_faultCp (a : Nat) (v : Byte) : (s.setByte a v).faultCp = s.faultCp := rfl
@[simp] theorem State.setByte_faultInfo (a : Nat) (v : Byte) : (s.setByte a v).faultInfo = s.faultInfo := rfl
@[simp] theorem State.setByte_cmd (a : Nat) (v : Byte) : (s.setByte a v).cmd = s.cmd := rfl
@[simp] theorem State.setByte_param (a : Nat) (v : Byte) : (s.setByte a v).param = s.param := rfl
@[simp] theorem State.setByte_dmem (a : Nat) (v : Byte) : (s.setByte a v).dmem = s.dmem.write a v := rfl
@[simp] theorem State.setByte_hostPending (a : Nat) (v : Byte) : (s.setByte a v).hostPending = s.hostPending := rfl
@[simp] theorem State.setByte_hostReplies (a : Nat) (v : Byte) : (s.setByte a v).hostReplies = s.hostReplies := rfl
@[simp] theorem State.setByte_freeCount (a : Nat) (v : Byte) : (s.setByte a v).freeCount = s.freeCount := rfl

/-! ## `State.setBytes` -/

@[simp] theorem State.setBytes_cfg (a : Nat) (vs : List Byte) : (s.setBytes a vs).cfg = s.cfg := rfl
@[simp] theorem State.setBytes_writer (a : Nat) (vs : List Byte) : (s.setBytes a vs).writer = s.writer := rfl
@[simp] theorem State.setBytes_cabac (a : Nat) (vs : List Byte) : (s.setBytes a vs).cabac = s.cabac := rfl
@[simp] theorem State.setBytes_ctx (a : Nat) (vs : List Byte) : (s.setBytes a vs).ctx = s.ctx := rfl
@[simp] theorem State.setBytes_srcBitAddr (a : Nat) (vs : List Byte) : (s.setBytes a vs).srcBitAddr = s.srcBitAddr := rfl
@[simp] theorem State.setBytes_out (a : Nat) (vs : List Byte) : (s.setBytes a vs).out = s.out := rfl
@[simp] theorem State.setBytes_report (a : Nat) (vs : List Byte) : (s.setBytes a vs).report = s.report := rfl
@[simp] theorem State.setBytes_cp (a : Nat) (vs : List Byte) : (s.setBytes a vs).cp = s.cp := rfl
@[simp] theorem State.setBytes_status (a : Nat) (vs : List Byte) : (s.setBytes a vs).status = s.status := rfl
@[simp] theorem State.setBytes_faultCp (a : Nat) (vs : List Byte) : (s.setBytes a vs).faultCp = s.faultCp := rfl
@[simp] theorem State.setBytes_faultInfo (a : Nat) (vs : List Byte) : (s.setBytes a vs).faultInfo = s.faultInfo := rfl
@[simp] theorem State.setBytes_cmd (a : Nat) (vs : List Byte) : (s.setBytes a vs).cmd = s.cmd := rfl
@[simp] theorem State.setBytes_param (a : Nat) (vs : List Byte) : (s.setBytes a vs).param = s.param := rfl
@[simp] theorem State.setBytes_dmem (a : Nat) (vs : List Byte) : (s.setBytes a vs).dmem = s.dmem.writeList a vs := rfl
@[simp] theorem State.setBytes_hostPending (a : Nat) (vs : List Byte) : (s.setBytes a vs).hostPending = s.hostPending := rfl
@[simp] theorem State.setBytes_hostReplies (a : Nat) (vs : List Byte) : (s.setBytes a vs).hostReplies = s.hostReplies := rfl
@[simp] theorem State.setBytes_freeCount (a : Nat) (vs : List Byte) : (s.setBytes a vs).freeCount = s.freeCount := rfl

/-! ## `State.setWriter` -/

@[simp] theorem State.setWriter_cfg (w : Writer) : (s.setWriter w).cfg = s.cfg := rfl
@[simp] theorem State.setWriter_writer (w : Writer) : (s.setWriter w).writer = w := rfl
@[simp] theorem State.setWriter_cabac (w : Writer) : (s.setWriter w).cabac = s.cabac := rfl
@[simp] theorem State.setWriter_ctx (w : Writer) : (s.setWriter w).ctx = s.ctx := rfl
@[simp] theorem State.setWriter_srcBitAddr (w : Writer) : (s.setWriter w).srcBitAddr = s.srcBitAddr := rfl
@[simp] theorem State.setWriter_out (w : Writer) : (s.setWriter w).out = s.out := rfl
@[simp] theorem State.setWriter_report (w : Writer) : (s.setWriter w).report = s.report := rfl
@[simp] theorem State.setWriter_cp (w : Writer) : (s.setWriter w).cp = s.cp := rfl
@[simp] theorem State.setWriter_status (w : Writer) : (s.setWriter w).status = s.status := rfl
@[simp] theorem State.setWriter_faultCp (w : Writer) : (s.setWriter w).faultCp = s.faultCp := rfl
@[simp] theorem State.setWriter_faultInfo (w : Writer) : (s.setWriter w).faultInfo = s.faultInfo := rfl
@[simp] theorem State.setWriter_cmd (w : Writer) : (s.setWriter w).cmd = s.cmd := rfl
@[simp] theorem State.setWriter_param (w : Writer) : (s.setWriter w).param = s.param := rfl
@[simp] theorem State.setWriter_dmem (w : Writer) : (s.setWriter w).dmem = s.dmem := rfl
@[simp] theorem State.setWriter_hostPending (w : Writer) : (s.setWriter w).hostPending = s.hostPending := rfl
@[simp] theorem State.setWriter_hostReplies (w : Writer) : (s.setWriter w).hostReplies = s.hostReplies := rfl
@[simp] theorem State.setWriter_freeCount (w : Writer) : (s.setWriter w).freeCount = s.freeCount := rfl

/-! ## `State.setCursor` -/

@[simp] theorem State.setCursor_cfg (p : Word) (o : BitVec 3) : (s.setCursor p o).cfg = s.cfg := rfl
@[simp] theorem State.setCursor_writer (p : Word) (o : BitVec 3) : (s.setCursor p o).writer = { s.writer with bytePos := p, bitOffset := o } := rfl
@[simp] theorem State.setCursor_cabac (p : Word) (o : BitVec 3) : (s.setCursor p o).cabac = s.cabac := rfl
@[simp] theorem State.setCursor_ctx (p : Word) (o : BitVec 3) : (s.setCursor p o).ctx = s.ctx := rfl
@[simp] theorem State.setCursor_srcBitAddr (p : Word) (o : BitVec 3) : (s.setCursor p o).srcBitAddr = s.srcBitAddr := rfl
@[simp] theorem State.setCursor_out (p : Word) (o : BitVec 3) : (s.setCursor p o).out = s.out := rfl
@[simp] theorem State.setCursor_report (p : Word) (o : BitVec 3) : (s.setCursor p o).report = s.report := rfl
@[simp] theorem State.setCursor_cp (p : Word) (o : BitVec 3) : (s.setCursor p o).cp = s.cp := rfl
@[simp] theorem State.setCursor_status (p : Word) (o : BitVec 3) : (s.setCursor p o).status = s.status := rfl
@[simp] theorem State.setCursor_faultCp (p : Word) (o : BitVec 3) : (s.setCursor p o).faultCp = s.faultCp := rfl
@[simp] theorem State.setCursor_faultInfo (p : Word) (o : BitVec 3) : (s.setCursor p o).faultInfo = s.faultInfo := rfl
@[simp] theorem State.setCursor_cmd (p : Word) (o : BitVec 3) : (s.setCursor p o).cmd = s.cmd := rfl
@[simp] theorem State.setCursor_param (p : Word) (o : BitVec 3) : (s.setCursor p o).param = s.param := rfl
@[simp] theorem State.setCursor_dmem (p : Word) (o : BitVec 3) : (s.setCursor p o).dmem = s.dmem := rfl
@[simp] theorem State.setCursor_hostPending (p : Word) (o : BitVec 3) : (s.setCursor p o).hostPending = s.hostPending := rfl
@[simp] theorem State.setCursor_hostReplies (p : Word) (o : BitVec 3) : (s.setCursor p o).hostReplies = s.hostReplies := rfl
@[simp] theorem State.setCursor_freeCount (p : Word) (o : BitVec 3) : (s.setCursor p o).freeCount = s.freeCount := rfl

/-! ## `State.setCabac` -/

@[simp] theorem State.setCabac_cfg (c : Cabac) : (s.setCabac c).cfg = s.cfg := rfl
@[simp] theorem State.setCabac_writer (c : Cabac) : (s.setCabac c).writer = s.writer := rfl
@[simp] theorem State.setCabac_cabac (c : Cabac) : (s.setCabac c).cabac = c := rfl
@[simp] theorem State.setCabac_ctx (c : Cabac) : (s.setCabac c).ctx = s.ctx := rfl
@[simp] theorem State.setCabac_srcBitAddr (c : Cabac) : (s.setCabac c).srcBitAddr = s.srcBitAddr := rfl
@[simp] theorem State.setCabac_out (c : Cabac) : (s.setCabac c).out = s.out := rfl
@[simp] theorem State.setCabac_report (c : Cabac) : (s.setCabac c).report = s.report := rfl
@[simp] theorem State.setCabac_cp (c : Cabac) : (s.setCabac c).cp = s.cp := rfl
@[simp] theorem State.setCabac_status (c : Cabac) : (s.setCabac c).status = s.status := rfl
@[simp] theorem State.setCabac_faultCp (c : Cabac) : (s.setCabac c).faultCp = s.faultCp := rfl
@[simp] theorem State.setCabac_faultInfo (c : Cabac) : (s.setCabac c).faultInfo = s.faultInfo := rfl
@[simp] theorem State.setCabac_cmd (c : Cabac) : (s.setCabac c).cmd = s.cmd := rfl
@[simp] theorem State.setCabac_param (c : Cabac) : (s.setCabac c).param = s.param := rfl
@[simp] theorem State.setCabac_dmem (c : Cabac) : (s.setCabac c).dmem = s.dmem := rfl
@[simp] theorem State.setCabac_hostPending (c : Cabac) : (s.setCabac c).hostPending = s.hostPending := rfl
@[simp] theorem State.setCabac_hostReplies (c : Cabac) : (s.setCabac c).hostReplies = s.hostReplies := rfl
@[simp] theorem State.setCabac_freeCount (c : Cabac) : (s.setCabac c).freeCount = s.freeCount := rfl

/-! ## `State.countBin` -/

@[simp] theorem State.countBin_cfg : s.countBin.cfg = s.cfg := rfl
@[simp] theorem State.countBin_writer : s.countBin.writer = s.writer := rfl
@[simp] theorem State.countBin_cabac : s.countBin.cabac = { s.cabac with binCount := s.cabac.binCount + 1 } := rfl
@[simp] theorem State.countBin_ctx : s.countBin.ctx = s.ctx := rfl
@[simp] theorem State.countBin_srcBitAddr : s.countBin.srcBitAddr = s.srcBitAddr := rfl
@[simp] theorem State.countBin_out : s.countBin.out = s.out := rfl
@[simp] theorem State.countBin_report : s.countBin.report = s.report := rfl
@[simp] theorem State.countBin_cp : s.countBin.cp = s.cp := rfl
@[simp] theorem State.countBin_status : s.countBin.status = s.status := rfl
@[simp] theorem State.countBin_faultCp : s.countBin.faultCp = s.faultCp := rfl
@[simp] theorem State.countBin_faultInfo : s.countBin.faultInfo = s.faultInfo := rfl
@[simp] theorem State.countBin_cmd : s.countBin.cmd = s.cmd := rfl
@[simp] theorem State.countBin_param : s.countBin.param = s.param := rfl
@[simp] theorem State.countBin_dmem : s.countBin.dmem = s.dmem := rfl
@[simp] theorem State.countBin_hostPending : s.countBin.hostPending = s.hostPending := rfl
@[simp] theorem State.countBin_hostReplies : s.countBin.hostReplies = s.hostReplies := rfl
@[simp] theorem State.countBin_freeCount : s.countBin.freeCount = s.freeCount := rfl

/-! ## `State.setContext` -/

@[simp] theorem State.setContext_cfg (i : Fin 9) (v : Byte) : (s.setContext i v).cfg = s.cfg := rfl
@[simp] theorem State.setContext_writer (i : Fin 9) (v : Byte) : (s.setContext i v).writer = s.writer := rfl
@[simp] theorem State.setContext_cabac (i : Fin 9) (v : Byte) : (s.setContext i v).cabac = s.cabac := rfl
@[simp] theorem State.setContext_ctx (i : Fin 9) (v : Byte) : (s.setContext i v).ctx = s.ctx.set i ⟨v, true⟩ := rfl
@[simp] theorem State.setContext_srcBitAddr (i : Fin 9) (v : Byte) : (s.setContext i v).srcBitAddr = s.srcBitAddr := rfl
@[simp] theorem State.setContext_out (i : Fin 9) (v : Byte) : (s.setContext i v).out = s.out := rfl
@[simp] theorem State.setContext_report (i : Fin 9) (v : Byte) : (s.setContext i v).report = s.report := rfl
@[simp] theorem State.setContext_cp (i : Fin 9) (v : Byte) : (s.setContext i v).cp = s.cp := rfl
@[simp] theorem State.setContext_status (i : Fin 9) (v : Byte) : (s.setContext i v).status = s.status := rfl
@[simp] theorem State.setContext_faultCp (i : Fin 9) (v : Byte) : (s.setContext i v).faultCp = s.faultCp := rfl
@[simp] theorem State.setContext_faultInfo (i : Fin 9) (v : Byte) : (s.setContext i v).faultInfo = s.faultInfo := rfl
@[simp] theorem State.setContext_cmd (i : Fin 9) (v : Byte) : (s.setContext i v).cmd = s.cmd := rfl
@[simp] theorem State.setContext_param (i : Fin 9) (v : Byte) : (s.setContext i v).param = s.param := rfl
@[simp] theorem State.setContext_dmem (i : Fin 9) (v : Byte) : (s.setContext i v).dmem = s.dmem := rfl
@[simp] theorem State.setContext_hostPending (i : Fin 9) (v : Byte) : (s.setContext i v).hostPending = s.hostPending := rfl
@[simp] theorem State.setContext_hostReplies (i : Fin 9) (v : Byte) : (s.setContext i v).hostReplies = s.hostReplies := rfl
@[simp] theorem State.setContext_freeCount (i : Fin 9) (v : Byte) : (s.setContext i v).freeCount = s.freeCount := rfl

/-! ## `State.setSrcBitAddr` -/

@[simp] theorem State.setSrcBitAddr_cfg (v : Word) : (s.setSrcBitAddr v).cfg = s.cfg := rfl
@[simp] theorem State.setSrcBitAddr_writer (v : Word) : (s.setSrcBitAddr v).writer = s.writer := rfl
@[simp] theorem State.setSrcBitAddr_cabac (v : Word) : (s.setSrcBitAddr v).cabac = s.cabac := rfl
@[simp] theorem State.setSrcBitAddr_ctx (v : Word) : (s.setSrcBitAddr v).ctx = s.ctx := rfl
@[simp] theorem State.setSrcBitAddr_srcBitAddr (v : Word) : (s.setSrcBitAddr v).srcBitAddr = v := rfl
@[simp] theorem State.setSrcBitAddr_out (v : Word) : (s.setSrcBitAddr v).out = s.out := rfl
@[simp] theorem State.setSrcBitAddr_report (v : Word) : (s.setSrcBitAddr v).report = s.report := rfl
@[simp] theorem State.setSrcBitAddr_cp (v : Word) : (s.setSrcBitAddr v).cp = s.cp := rfl
@[simp] theorem State.setSrcBitAddr_status (v : Word) : (s.setSrcBitAddr v).status = s.status := rfl
@[simp] theorem State.setSrcBitAddr_faultCp (v : Word) : (s.setSrcBitAddr v).faultCp = s.faultCp := rfl
@[simp] theorem State.setSrcBitAddr_faultInfo (v : Word) : (s.setSrcBitAddr v).faultInfo = s.faultInfo := rfl
@[simp] theorem State.setSrcBitAddr_cmd (v : Word) : (s.setSrcBitAddr v).cmd = s.cmd := rfl
@[simp] theorem State.setSrcBitAddr_param (v : Word) : (s.setSrcBitAddr v).param = s.param := rfl
@[simp] theorem State.setSrcBitAddr_dmem (v : Word) : (s.setSrcBitAddr v).dmem = s.dmem := rfl
@[simp] theorem State.setSrcBitAddr_hostPending (v : Word) : (s.setSrcBitAddr v).hostPending = s.hostPending := rfl
@[simp] theorem State.setSrcBitAddr_hostReplies (v : Word) : (s.setSrcBitAddr v).hostReplies = s.hostReplies := rfl
@[simp] theorem State.setSrcBitAddr_freeCount (v : Word) : (s.setSrcBitAddr v).freeCount = s.freeCount := rfl

/-! ## `State.setOut` -/

@[simp] theorem State.setOut_cfg (o : Output) : (s.setOut o).cfg = s.cfg := rfl
@[simp] theorem State.setOut_writer (o : Output) : (s.setOut o).writer = s.writer := rfl
@[simp] theorem State.setOut_cabac (o : Output) : (s.setOut o).cabac = s.cabac := rfl
@[simp] theorem State.setOut_ctx (o : Output) : (s.setOut o).ctx = s.ctx := rfl
@[simp] theorem State.setOut_srcBitAddr (o : Output) : (s.setOut o).srcBitAddr = s.srcBitAddr := rfl
@[simp] theorem State.setOut_out (o : Output) : (s.setOut o).out = o := rfl
@[simp] theorem State.setOut_report (o : Output) : (s.setOut o).report = s.report := rfl
@[simp] theorem State.setOut_cp (o : Output) : (s.setOut o).cp = s.cp := rfl
@[simp] theorem State.setOut_status (o : Output) : (s.setOut o).status = s.status := rfl
@[simp] theorem State.setOut_faultCp (o : Output) : (s.setOut o).faultCp = s.faultCp := rfl
@[simp] theorem State.setOut_faultInfo (o : Output) : (s.setOut o).faultInfo = s.faultInfo := rfl
@[simp] theorem State.setOut_cmd (o : Output) : (s.setOut o).cmd = s.cmd := rfl
@[simp] theorem State.setOut_param (o : Output) : (s.setOut o).param = s.param := rfl
@[simp] theorem State.setOut_dmem (o : Output) : (s.setOut o).dmem = s.dmem := rfl
@[simp] theorem State.setOut_hostPending (o : Output) : (s.setOut o).hostPending = s.hostPending := rfl
@[simp] theorem State.setOut_hostReplies (o : Output) : (s.setOut o).hostReplies = s.hostReplies := rfl
@[simp] theorem State.setOut_freeCount (o : Output) : (s.setOut o).freeCount = s.freeCount := rfl

/-! ## `State.setOutLen` -/

@[simp] theorem State.setOutLen_cfg (v : Word) : (s.setOutLen v).cfg = s.cfg := rfl
@[simp] theorem State.setOutLen_writer (v : Word) : (s.setOutLen v).writer = s.writer := rfl
@[simp] theorem State.setOutLen_cabac (v : Word) : (s.setOutLen v).cabac = s.cabac := rfl
@[simp] theorem State.setOutLen_ctx (v : Word) : (s.setOutLen v).ctx = s.ctx := rfl
@[simp] theorem State.setOutLen_srcBitAddr (v : Word) : (s.setOutLen v).srcBitAddr = s.srcBitAddr := rfl
@[simp] theorem State.setOutLen_out (v : Word) : (s.setOutLen v).out = { s.out with len := v } := rfl
@[simp] theorem State.setOutLen_report (v : Word) : (s.setOutLen v).report = s.report := rfl
@[simp] theorem State.setOutLen_cp (v : Word) : (s.setOutLen v).cp = s.cp := rfl
@[simp] theorem State.setOutLen_status (v : Word) : (s.setOutLen v).status = s.status := rfl
@[simp] theorem State.setOutLen_faultCp (v : Word) : (s.setOutLen v).faultCp = s.faultCp := rfl
@[simp] theorem State.setOutLen_faultInfo (v : Word) : (s.setOutLen v).faultInfo = s.faultInfo := rfl
@[simp] theorem State.setOutLen_cmd (v : Word) : (s.setOutLen v).cmd = s.cmd := rfl
@[simp] theorem State.setOutLen_param (v : Word) : (s.setOutLen v).param = s.param := rfl
@[simp] theorem State.setOutLen_dmem (v : Word) : (s.setOutLen v).dmem = s.dmem := rfl
@[simp] theorem State.setOutLen_hostPending (v : Word) : (s.setOutLen v).hostPending = s.hostPending := rfl
@[simp] theorem State.setOutLen_hostReplies (v : Word) : (s.setOutLen v).hostReplies = s.hostReplies := rfl
@[simp] theorem State.setOutLen_freeCount (v : Word) : (s.setOutLen v).freeCount = s.freeCount := rfl

/-! ## `State.setReport` -/

@[simp] theorem State.setReport_cfg (r : Report) : (s.setReport r).cfg = s.cfg := rfl
@[simp] theorem State.setReport_writer (r : Report) : (s.setReport r).writer = s.writer := rfl
@[simp] theorem State.setReport_cabac (r : Report) : (s.setReport r).cabac = s.cabac := rfl
@[simp] theorem State.setReport_ctx (r : Report) : (s.setReport r).ctx = s.ctx := rfl
@[simp] theorem State.setReport_srcBitAddr (r : Report) : (s.setReport r).srcBitAddr = s.srcBitAddr := rfl
@[simp] theorem State.setReport_out (r : Report) : (s.setReport r).out = s.out := rfl
@[simp] theorem State.setReport_report (r : Report) : (s.setReport r).report = r := rfl
@[simp] theorem State.setReport_cp (r : Report) : (s.setReport r).cp = s.cp := rfl
@[simp] theorem State.setReport_status (r : Report) : (s.setReport r).status = s.status := rfl
@[simp] theorem State.setReport_faultCp (r : Report) : (s.setReport r).faultCp = s.faultCp := rfl
@[simp] theorem State.setReport_faultInfo (r : Report) : (s.setReport r).faultInfo = s.faultInfo := rfl
@[simp] theorem State.setReport_cmd (r : Report) : (s.setReport r).cmd = s.cmd := rfl
@[simp] theorem State.setReport_param (r : Report) : (s.setReport r).param = s.param := rfl
@[simp] theorem State.setReport_dmem (r : Report) : (s.setReport r).dmem = s.dmem := rfl
@[simp] theorem State.setReport_hostPending (r : Report) : (s.setReport r).hostPending = s.hostPending := rfl
@[simp] theorem State.setReport_hostReplies (r : Report) : (s.setReport r).hostReplies = s.hostReplies := rfl
@[simp] theorem State.setReport_freeCount (r : Report) : (s.setReport r).freeCount = s.freeCount := rfl

/-! ## `State.setLow` -/

@[simp] theorem State.setLow_cfg (v : Word) : (s.setLow v).cfg = s.cfg := rfl
@[simp] theorem State.setLow_writer (v : Word) : (s.setLow v).writer = s.writer := rfl
@[simp] theorem State.setLow_cabac (v : Word) : (s.setLow v).cabac = { s.cabac with low := v } := rfl
@[simp] theorem State.setLow_ctx (v : Word) : (s.setLow v).ctx = s.ctx := rfl
@[simp] theorem State.setLow_srcBitAddr (v : Word) : (s.setLow v).srcBitAddr = s.srcBitAddr := rfl
@[simp] theorem State.setLow_out (v : Word) : (s.setLow v).out = s.out := rfl
@[simp] theorem State.setLow_report (v : Word) : (s.setLow v).report = s.report := rfl
@[simp] theorem State.setLow_cp (v : Word) : (s.setLow v).cp = s.cp := rfl
@[simp] theorem State.setLow_status (v : Word) : (s.setLow v).status = s.status := rfl
@[simp] theorem State.setLow_faultCp (v : Word) : (s.setLow v).faultCp = s.faultCp := rfl
@[simp] theorem State.setLow_faultInfo (v : Word) : (s.setLow v).faultInfo = s.faultInfo := rfl
@[simp] theorem State.setLow_cmd (v : Word) : (s.setLow v).cmd = s.cmd := rfl
@[simp] theorem State.setLow_param (v : Word) : (s.setLow v).param = s.param := rfl
@[simp] theorem State.setLow_dmem (v : Word) : (s.setLow v).dmem = s.dmem := rfl
@[simp] theorem State.setLow_hostPending (v : Word) : (s.setLow v).hostPending = s.hostPending := rfl
@[simp] theorem State.setLow_hostReplies (v : Word) : (s.setLow v).hostReplies = s.hostReplies := rfl
@[simp] theorem State.setLow_freeCount (v : Word) : (s.setLow v).freeCount = s.freeCount := rfl

/-! ## `State.advance` -/

@[simp] theorem State.advance_cfg : s.advance.cfg = s.cfg := rfl
@[simp] theorem State.advance_writer : s.advance.writer = s.writer := rfl
@[simp] theorem State.advance_cabac : s.advance.cabac = s.cabac := rfl
@[simp] theorem State.advance_ctx : s.advance.ctx = s.ctx := rfl
@[simp] theorem State.advance_srcBitAddr : s.advance.srcBitAddr = s.srcBitAddr := rfl
@[simp] theorem State.advance_out : s.advance.out = s.out := rfl
@[simp] theorem State.advance_report : s.advance.report = s.report := rfl
@[simp] theorem State.advance_cp : s.advance.cp = s.cp + 1 := rfl
@[simp] theorem State.advance_status : s.advance.status = s.status := rfl
@[simp] theorem State.advance_faultCp : s.advance.faultCp = s.faultCp := rfl
@[simp] theorem State.advance_faultInfo : s.advance.faultInfo = s.faultInfo := rfl
@[simp] theorem State.advance_cmd : s.advance.cmd = s.cmd := rfl
@[simp] theorem State.advance_param : s.advance.param = s.param := rfl
@[simp] theorem State.advance_dmem : s.advance.dmem = s.dmem := rfl
@[simp] theorem State.advance_hostPending : s.advance.hostPending = s.hostPending := rfl
@[simp] theorem State.advance_hostReplies : s.advance.hostReplies = s.hostReplies := rfl
@[simp] theorem State.advance_freeCount : s.advance.freeCount = s.freeCount := rfl

/-! ## `State.endRun` -/

@[simp] theorem State.endRun_cfg : s.endRun.cfg = s.cfg := rfl
@[simp] theorem State.endRun_writer : s.endRun.writer = s.writer := rfl
@[simp] theorem State.endRun_cabac : s.endRun.cabac = s.cabac := rfl
@[simp] theorem State.endRun_ctx : s.endRun.ctx = s.ctx := rfl
@[simp] theorem State.endRun_srcBitAddr : s.endRun.srcBitAddr = s.srcBitAddr := rfl
@[simp] theorem State.endRun_out : s.endRun.out = s.out := rfl
@[simp] theorem State.endRun_report : s.endRun.report = s.report := rfl
@[simp] theorem State.endRun_cp : s.endRun.cp = s.cp := rfl
@[simp] theorem State.endRun_status : s.endRun.status = s.status.ended := rfl
@[simp] theorem State.endRun_faultCp : s.endRun.faultCp = s.faultCp := rfl
@[simp] theorem State.endRun_faultInfo : s.endRun.faultInfo = s.faultInfo := rfl
@[simp] theorem State.endRun_cmd : s.endRun.cmd = s.cmd := rfl
@[simp] theorem State.endRun_param : s.endRun.param = s.param := rfl
@[simp] theorem State.endRun_dmem : s.endRun.dmem = s.dmem := rfl
@[simp] theorem State.endRun_hostPending : s.endRun.hostPending = s.hostPending := rfl
@[simp] theorem State.endRun_hostReplies : s.endRun.hostReplies = s.hostReplies := rfl
@[simp] theorem State.endRun_freeCount : s.endRun.freeCount = s.freeCount := rfl

/-! ## `State.takeFault` -/

@[simp] theorem State.takeFault_cfg (c : FaultCode) (i : Word) : (s.takeFault c i).cfg = s.cfg := rfl
@[simp] theorem State.takeFault_writer (c : FaultCode) (i : Word) : (s.takeFault c i).writer = s.writer := rfl
@[simp] theorem State.takeFault_cabac (c : FaultCode) (i : Word) : (s.takeFault c i).cabac = s.cabac := rfl
@[simp] theorem State.takeFault_ctx (c : FaultCode) (i : Word) : (s.takeFault c i).ctx = s.ctx := rfl
@[simp] theorem State.takeFault_srcBitAddr (c : FaultCode) (i : Word) : (s.takeFault c i).srcBitAddr = s.srcBitAddr := rfl
@[simp] theorem State.takeFault_out (c : FaultCode) (i : Word) : (s.takeFault c i).out = s.out := rfl
@[simp] theorem State.takeFault_report (c : FaultCode) (i : Word) : (s.takeFault c i).report = s.report := rfl
@[simp] theorem State.takeFault_cp (c : FaultCode) (i : Word) : (s.takeFault c i).cp = s.cp := rfl
@[simp] theorem State.takeFault_status (c : FaultCode) (i : Word) : (s.takeFault c i).status = s.status.faulted c := rfl
@[simp] theorem State.takeFault_faultCp (c : FaultCode) (i : Word) : (s.takeFault c i).faultCp = indexWord s.cp := rfl
@[simp] theorem State.takeFault_faultInfo (c : FaultCode) (i : Word) : (s.takeFault c i).faultInfo = i := rfl
@[simp] theorem State.takeFault_cmd (c : FaultCode) (i : Word) : (s.takeFault c i).cmd = s.cmd := rfl
@[simp] theorem State.takeFault_param (c : FaultCode) (i : Word) : (s.takeFault c i).param = s.param := rfl
@[simp] theorem State.takeFault_dmem (c : FaultCode) (i : Word) : (s.takeFault c i).dmem = s.dmem := rfl
@[simp] theorem State.takeFault_hostPending (c : FaultCode) (i : Word) : (s.takeFault c i).hostPending = s.hostPending := rfl
@[simp] theorem State.takeFault_hostReplies (c : FaultCode) (i : Word) : (s.takeFault c i).hostReplies = s.hostReplies := rfl
@[simp] theorem State.takeFault_freeCount (c : FaultCode) (i : Word) : (s.takeFault c i).freeCount = s.freeCount := rfl

end Sys2Proof.Machine
end

