-- ==== Sys2Proof/Laws/Ops.lean ====
section
/-! SUPPORT. The laws of the shared operations over the writer: what each can do, said once. The writer's registers are
sound where `WriterOk` holds and `DMEM` has at most 2^29 bytes (R8, R21). -/

namespace Sys2Proof.Machine

variable (s : State)

/-! ## Entering bits: the fields that never change -/

@[simp] theorem enterBit_cfg (b : Bool) : (enterBit b s).cfg = s.cfg := rfl
@[simp] theorem enterBit_cabac (b : Bool) : (enterBit b s).cabac = s.cabac := rfl
@[simp] theorem enterBit_ctx (b : Bool) : (enterBit b s).ctx = s.ctx := rfl
@[simp] theorem enterBit_srcBitAddr (b : Bool) : (enterBit b s).srcBitAddr = s.srcBitAddr := rfl
@[simp] theorem enterBit_out (b : Bool) : (enterBit b s).out = s.out := rfl
@[simp] theorem enterBit_report (b : Bool) : (enterBit b s).report = s.report := rfl
@[simp] theorem enterBit_cp (b : Bool) : (enterBit b s).cp = s.cp := rfl
@[simp] theorem enterBit_status (b : Bool) : (enterBit b s).status = s.status := rfl
@[simp] theorem enterBit_faultCp (b : Bool) : (enterBit b s).faultCp = s.faultCp := rfl
@[simp] theorem enterBit_faultInfo (b : Bool) : (enterBit b s).faultInfo = s.faultInfo := rfl
@[simp] theorem enterBit_cmd (b : Bool) : (enterBit b s).cmd = s.cmd := rfl
@[simp] theorem enterBit_param (b : Bool) : (enterBit b s).param = s.param := rfl
@[simp] theorem enterBit_hostPending (b : Bool) : (enterBit b s).hostPending = s.hostPending := rfl
@[simp] theorem enterBit_hostReplies (b : Bool) : (enterBit b s).hostReplies = s.hostReplies := rfl
@[simp] theorem enterBit_freeCount (b : Bool) : (enterBit b s).freeCount = s.freeCount := rfl

@[simp] theorem enter_cfg (bs : List Bool) : (enter bs s).cfg = s.cfg := by
  induction bs generalizing s with
  | nil => rfl
  | cons b bs ih => simp [enter, ih]

@[simp] theorem enter_cabac (bs : List Bool) : (enter bs s).cabac = s.cabac := by
  induction bs generalizing s with
  | nil => rfl
  | cons b bs ih => simp [enter, ih]

@[simp] theorem enter_ctx (bs : List Bool) : (enter bs s).ctx = s.ctx := by
  induction bs generalizing s with
  | nil => rfl
  | cons b bs ih => simp [enter, ih]

@[simp] theorem enter_srcBitAddr (bs : List Bool) : (enter bs s).srcBitAddr = s.srcBitAddr := by
  induction bs generalizing s with
  | nil => rfl
  | cons b bs ih => simp [enter, ih]

@[simp] theorem enter_out (bs : List Bool) : (enter bs s).out = s.out := by
  induction bs generalizing s with
  | nil => rfl
  | cons b bs ih => simp [enter, ih]

@[simp] theorem enter_report (bs : List Bool) : (enter bs s).report = s.report := by
  induction bs generalizing s with
  | nil => rfl
  | cons b bs ih => simp [enter, ih]

@[simp] theorem enter_cp (bs : List Bool) : (enter bs s).cp = s.cp := by
  induction bs generalizing s with
  | nil => rfl
  | cons b bs ih => simp [enter, ih]

@[simp] theorem enter_status (bs : List Bool) : (enter bs s).status = s.status := by
  induction bs generalizing s with
  | nil => rfl
  | cons b bs ih => simp [enter, ih]

@[simp] theorem enter_faultCp (bs : List Bool) : (enter bs s).faultCp = s.faultCp := by
  induction bs generalizing s with
  | nil => rfl
  | cons b bs ih => simp [enter, ih]

@[simp] theorem enter_faultInfo (bs : List Bool) : (enter bs s).faultInfo = s.faultInfo := by
  induction bs generalizing s with
  | nil => rfl
  | cons b bs ih => simp [enter, ih]

@[simp] theorem enter_cmd (bs : List Bool) : (enter bs s).cmd = s.cmd := by
  induction bs generalizing s with
  | nil => rfl
  | cons b bs ih => simp [enter, ih]

@[simp] theorem enter_param (bs : List Bool) : (enter bs s).param = s.param := by
  induction bs generalizing s with
  | nil => rfl
  | cons b bs ih => simp [enter, ih]

@[simp] theorem enter_hostPending (bs : List Bool) : (enter bs s).hostPending = s.hostPending := by
  induction bs generalizing s with
  | nil => rfl
  | cons b bs ih => simp [enter, ih]

@[simp] theorem enter_hostReplies (bs : List Bool) : (enter bs s).hostReplies = s.hostReplies := by
  induction bs generalizing s with
  | nil => rfl
  | cons b bs ih => simp [enter, ih]

@[simp] theorem enter_freeCount (bs : List Bool) : (enter bs s).freeCount = s.freeCount := by
  induction bs generalizing s with
  | nil => rfl
  | cons b bs ih => simp [enter, ih]

@[simp] theorem enterBit_writer_bufStart (b : Bool) : (enterBit b s).writer.bufStart = s.writer.bufStart := rfl

@[simp] theorem enter_writer_bufStart (bs : List Bool) : (enter bs s).writer.bufStart = s.writer.bufStart := by
  induction bs generalizing s with
  | nil => rfl
  | cons b bs ih => simp [enter, ih]

@[simp] theorem enterBit_writer_bufSize (b : Bool) : (enterBit b s).writer.bufSize = s.writer.bufSize := rfl

@[simp] theorem enter_writer_bufSize (bs : List Bool) : (enter bs s).writer.bufSize = s.writer.bufSize := by
  induction bs generalizing s with
  | nil => rfl
  | cons b bs ih => simp [enter, ih]

@[simp] theorem enterBit_writer_curStart (b : Bool) : (enterBit b s).writer.curStart = s.writer.curStart := rfl

@[simp] theorem enter_writer_curStart (bs : List Bool) : (enter bs s).writer.curStart = s.writer.curStart := by
  induction bs generalizing s with
  | nil => rfl
  | cons b bs ih => simp [enter, ih]

@[simp] theorem enterBit_writer_curEnd (b : Bool) : (enterBit b s).writer.curEnd = s.writer.curEnd := rfl

@[simp] theorem enter_writer_curEnd (bs : List Bool) : (enter bs s).writer.curEnd = s.writer.curEnd := by
  induction bs generalizing s with
  | nil => rfl
  | cons b bs ih => simp [enter, ih]
@[simp] theorem enterBit_bytePos (b : Bool) :
    (enterBit b s).writer.bytePos = nextBytePos s.writer.bytePos s.writer.bitOffset := rfl

@[simp] theorem enterBit_bitOffset (b : Bool) : (enterBit b s).writer.bitOffset = s.writer.bitOffset + 1 := rfl

theorem enterBit_dmem (b : Bool) :
    (enterBit b s).dmem = s.dmem.write s.writer.bytePos.toNat
      (rawByte (s.byteAt s.writer.bytePos.toNat) s.writer.bitOffset b) := rfl

@[simp] theorem enter_nil : enter [] s = s := rfl

@[simp] theorem enter_cons (b : Bool) (bs : List Bool) : enter (b :: bs) s = enter bs (enterBit b s) := rfl

theorem enter_append (as bs : List Bool) : enter (as ++ bs) s = enter bs (enter as s) := by
  induction as generalizing s with
  | nil => rfl
  | cons a as ih => simp [ih]

/-- Setting registers that the stream does not use commutes with entering bits. -/
theorem enterBit_setCabac (b : Bool) (c : Cabac) : enterBit b (s.setCabac c) = (enterBit b s).setCabac c := rfl

theorem enter_setCabac (bs : List Bool) (c : Cabac) : enter bs (s.setCabac c) = (enter bs s).setCabac c := by
  induction bs generalizing s with
  | nil => rfl
  | cons b bs ih => simp [enterBit_setCabac, ih]

theorem enterBit_setContext (b : Bool) (i : Fin 9) (v : Byte) :
    enterBit b (s.setContext i v) = (enterBit b s).setContext i v := rfl

theorem enter_setContext (bs : List Bool) (i : Fin 9) (v : Byte) :
    enter bs (s.setContext i v) = (enter bs s).setContext i v := by
  induction bs generalizing s with
  | nil => rfl
  | cons b bs ih => simp [enterBit_setContext, ih]

theorem enterBit_setReport (b : Bool) (r : Report) : enterBit b (s.setReport r) = (enterBit b s).setReport r := rfl

theorem enter_setReport (bs : List Bool) (r : Report) : enter bs (s.setReport r) = (enter bs s).setReport r := by
  induction bs generalizing s with
  | nil => rfl
  | cons b bs ih => simp [enterBit_setReport, ih]

/-! ## The cursor -/

/-- The cursor as one number: the address of the next bit in `DMEM` (R12). -/
def State.cursor (s : State) : Nat := 8 * s.writer.bytePos.toNat + s.writer.bitOffset.toNat

/-- The bits the buffer can still take, counted from address 0: the address of the first bit past it. -/
def State.limit (s : State) : Nat := 8 * s.writer.curEnd.toNat

@[simp] theorem enter_limit (bs : List Bool) : (enter bs s).limit = s.limit := by simp [State.limit]

@[simp] theorem enterBit_limit (b : Bool) : (enterBit b s).limit = s.limit := rfl

/-- One bit moves the cursor by one, unless the byte position wraps. -/
theorem enterBit_cursor (b : Bool) (h : s.writer.bytePos.toNat + 1 < 2 ^ 32) :
    (enterBit b s).cursor = s.cursor + 1 := by
  simp only [State.cursor, enterBit_bytePos, enterBit_bitOffset, nextBytePos]
  have h3 := s.writer.bitOffset.isLt
  split
  · rename_i h7
    rw [h7]
    have : (s.writer.bytePos + 1).toNat = s.writer.bytePos.toNat + 1 := by bv_omega
    rw [this]; simp; omega
  · rename_i h7
    have : s.writer.bitOffset.toNat ≠ 7 := by
      intro h; apply h7; exact BitVec.eq_of_toNat_eq (by simpa using h)
    have : (s.writer.bitOffset + 1).toNat = s.writer.bitOffset.toNat + 1 := by bv_omega
    omega

/-- The room left, in terms of the cursor (R130). -/
theorem fits_iff (n : Nat) (h : WriterOk s.writer s.cfg.dmemSize) : Fits s n ↔ s.cursor + n ≤ s.limit := by
  obtain ⟨h1, h2, -, -⟩ := h
  simp only [Fits, State.bitpos, State.room, State.cursor, State.limit]
  omega

/-- A writer is sound exactly when its cursor lies in the buffer. -/
theorem writerOk_iff (w : Writer) (size : Nat) : WriterOk w size ↔
    w.curStart.toNat ≤ w.bytePos.toNat ∧ 8 * w.bytePos.toNat + w.bitOffset.toNat ≤ 8 * w.curEnd.toNat ∧
      w.curEnd.toNat ≤ size := by
  have hb := w.bitOffset.isLt
  constructor
  · rintro ⟨h1, h2, h3, h4⟩
    refine ⟨h1, ?_, h3⟩
    rcases Nat.lt_or_eq_of_le h2 with h | h
    · omega
    · rw [h4 (BitVec.eq_of_toNat_eq h)]; simp; omega
  · rintro ⟨h1, h2, h3⟩
    refine ⟨h1, by omega, h3, fun h => ?_⟩
    rw [h] at h2
    exact BitVec.eq_of_toNat_eq (by simp; omega)

/-- One more bit in the buffer keeps the writer sound. -/
theorem enterBit_writerOk (b : Bool) (hs : s.cfg.dmemSize ≤ 2 ^ 29) (h : WriterOk s.writer s.cfg.dmemSize)
    (hf : Fits s 1) : WriterOk (enterBit b s).writer s.cfg.dmemSize := by
  have hc := (fits_iff s 1 h).1 hf
  rw [writerOk_iff] at h ⊢
  have hp : s.writer.bytePos.toNat + 1 < 2 ^ 32 := by simp only [State.cursor, State.limit] at hc; omega
  have := enterBit_cursor s b hp
  simp only [State.cursor, State.limit] at this hc
  simp only [enterBit_writer_curStart, enterBit_writer_curEnd]
  refine ⟨?_, by omega, h.2.2⟩
  have h3 := (enterBit b s).writer.bitOffset.isLt
  have h4 := s.writer.bitOffset.isLt
  omega

theorem enterBit_fits (b : Bool) (n : Nat) (hs : s.cfg.dmemSize ≤ 2 ^ 29) (h : WriterOk s.writer s.cfg.dmemSize)
    (hf : Fits s (n + 1)) : Fits (enterBit b s) n := by
  have hc := (fits_iff s _ h).1 hf
  have hw := enterBit_writerOk s b hs h (by unfold Fits at *; omega)
  rw [fits_iff _ _ hw, enterBit_limit, enterBit_cursor s b]
  · omega
  · have := ((writerOk_iff _ _).1 h).2.2
    simp only [State.cursor, State.limit] at hc; omega

/-- Bits that fit keep the writer sound. -/
theorem enter_writerOk (bs : List Bool) (hs : s.cfg.dmemSize ≤ 2 ^ 29) (h : WriterOk s.writer s.cfg.dmemSize)
    (hf : Fits s bs.length) : WriterOk (enter bs s).writer s.cfg.dmemSize := by
  induction bs generalizing s with
  | nil => exact h
  | cons b bs ih =>
    exact ih (enterBit b s) hs (enterBit_writerOk s b hs h (by simp only [List.length_cons, Fits] at *; omega))
      (enterBit_fits s b _ hs h hf)

/-- The cursor after bits that fit. -/
theorem enter_cursor (bs : List Bool) (hs : s.cfg.dmemSize ≤ 2 ^ 29) (h : WriterOk s.writer s.cfg.dmemSize)
    (hf : Fits s bs.length) : (enter bs s).cursor = s.cursor + bs.length := by
  induction bs generalizing s with
  | nil => rfl
  | cons b bs ih =>
    have hc := (fits_iff s _ h).1 hf
    have hd := ((writerOk_iff _ _).1 h).2.2
    rw [enter_cons, ih (enterBit b s) hs (enterBit_writerOk s b hs h (by simp only [List.length_cons, Fits] at *; omega))
      (enterBit_fits s b _ hs h hf), enterBit_cursor]
    · simp; omega
    · simp only [State.cursor, State.limit, List.length_cons] at hc; omega

/-- The bit position after bits that fit (R141). -/
theorem enter_bitpos (bs : List Bool) (hs : s.cfg.dmemSize ≤ 2 ^ 29) (h : WriterOk s.writer s.cfg.dmemSize)
    (hf : Fits s bs.length) : (enter bs s).bitpos = s.bitpos + bs.length := by
  have h1 := enter_cursor s bs hs h hf
  have h2 := enter_writerOk s bs hs h hf
  have h3 := h.1
  have h4 := h2.1
  simp only [State.cursor, State.bitpos, enter_writer_curStart] at *
  omega

theorem enter_room (bs : List Bool) : (enter bs s).room = s.room := by simp [State.room]

/-- Bits that fit leave room for what fitted beside them. -/
theorem enter_fits (bs : List Bool) (n : Nat) (hs : s.cfg.dmemSize ≤ 2 ^ 29) (h : WriterOk s.writer s.cfg.dmemSize)
    (hf : Fits s (bs.length + n)) : Fits (enter bs s) n := by
  have := enter_bitpos s bs hs h (by unfold Fits at *; omega)
  unfold Fits at *
  rw [this, enter_room]; omega

/-- The bit offset is the bit position modulo 8. -/
theorem bitpos_mod (s : State) : s.bitpos % 8 = s.writer.bitOffset.toNat := by
  have := s.writer.bitOffset.isLt
  simp only [State.bitpos]; omega

/-! ## What memory holds -/

/-- The byte a bit enters. -/
theorem enterBit_byteAt (b : Bool) (a : Nat) :
    (enterBit b s).byteAt a = if a = s.writer.bytePos.toNat then
      rawByte (s.byteAt s.writer.bytePos.toNat) s.writer.bitOffset b else s.byteAt a := by
  simp only [State.byteAt, enterBit_dmem, Memory.read_write]

/-- Every byte below the byte position and from the end of the written bits on is unchanged (R132, R141). -/
theorem enter_byteAt_of_outside (bs : List Bool) (a : Nat) (hs : s.cfg.dmemSize ≤ 2 ^ 29)
    (h : WriterOk s.writer s.cfg.dmemSize) (hf : Fits s bs.length)
    (ha : a < s.writer.bytePos.toNat ∨ s.cursor + bs.length ≤ 8 * a) : (enter bs s).byteAt a = s.byteAt a := by
  induction bs generalizing s with
  | nil => rfl
  | cons b bs ih =>
    have hc := (fits_iff s _ h).1 hf
    have hd := ((writerOk_iff _ _).1 h).2.2
    have hp : s.writer.bytePos.toNat + 1 < 2 ^ 32 := by
      simp only [State.cursor, State.limit, List.length_cons] at hc; omega
    have hcur := enterBit_cursor s b hp
    have h7 := s.writer.bitOffset.isLt
    have h8 := (enterBit b s).writer.bitOffset.isLt
    rw [enter_cons, ih (enterBit b s) hs (enterBit_writerOk s b hs h (by simp only [List.length_cons, Fits] at *; omega))
      (enterBit_fits s b _ hs h hf), enterBit_byteAt, if_neg]
    · simp only [State.cursor, List.length_cons] at ha hcur; omega
    · rw [hcur]; simp only [State.cursor, List.length_cons] at ha hcur ⊢; omega

/-- The bytes entered keep the memory in canonical form and inside its size. -/
theorem enter_memory (bs : List Bool) (hs : s.cfg.dmemSize ≤ 2 ^ 29) (h : WriterOk s.writer s.cfg.dmemSize)
    (hf : Fits s bs.length) (hm : Memory.wf s.dmem) (hw : Memory.within s.cfg.dmemSize s.dmem) :
    Memory.wf (enter bs s).dmem ∧ Memory.within s.cfg.dmemSize (enter bs s).dmem := by
  induction bs generalizing s with
  | nil => exact ⟨hm, hw⟩
  | cons b bs ih =>
    have hc := (fits_iff s _ h).1 hf
    have hd := ((writerOk_iff _ _).1 h).2.2
    refine ih (enterBit b s) hs (enterBit_writerOk s b hs h (by simp only [List.length_cons, Fits] at *; omega))
      (enterBit_fits s b _ hs h hf) (Memory.write_wf hm _ _) (Memory.write_within hw ?_ _)
    simp only [State.cursor, State.limit, List.length_cons] at hc; omega

/-! ## The procedures -/

/-- `raise` in one equation (R381). -/
theorem raise_eq (code : FaultCode) (info : Word) : raise code info s = .error (.raised (s.takeFault code info)) := rfl

/-- EVERYTHING `NeedBits` can do (R130). -/
theorem needBits_eq (k : Nat) : needBits k s =
    if Fits s k then .ok s else raise .writerOverrun (BitVec.ofNat 32 s.bitpos) s := by
  simp only [needBits, Fits]
  by_cases h : s.bitpos + k ≤ s.room
  · rw [if_neg (by omega), if_pos h]
  · rw [if_pos (by omega), if_neg h]

/-- `PutBitRaw` where the byte exists (R132). -/
theorem putBitRaw_eq (b : Bool) (h : s.writer.bytePos.toNat < s.cfg.dmemSize) : putBitRaw b s = .ok (enterBit b s) := by
  simp [putBitRaw, h]

/-- The byte position of a writer with room for a bit lies in `DMEM` (R62, R66). -/
theorem bytePos_lt (h : WriterOk s.writer s.cfg.dmemSize) (hf : Fits s 1) :
    s.writer.bytePos.toNat < s.cfg.dmemSize := by
  have hc := (fits_iff s _ h).1 hf
  have hd := ((writerOk_iff _ _).1 h).2.2
  simp only [State.cursor, State.limit] at hc; omega

/-- Bits that fit all enter. -/
theorem putRaw_eq (bs : List Bool) (hs : s.cfg.dmemSize ≤ 2 ^ 29) (h : WriterOk s.writer s.cfg.dmemSize)
    (hf : Fits s bs.length) : putRaw bs s = .ok (enter bs s) := by
  induction bs generalizing s with
  | nil => rfl
  | cons b bs ih =>
    have h1 : Fits s 1 := by simp only [List.length_cons, Fits] at *; omega
    simp only [putRaw, putBitRaw_eq s b (bytePos_lt s h h1), bind, Except.bind, enter_cons]
    exact ih (enterBit b s) hs (enterBit_writerOk s b hs h h1) (enterBit_fits s b _ hs h hf)

/-- EVERYTHING a writing primitive can do (R130, R383): all of its bits, or the fault with nothing written. -/
theorem emit_eq (bs : List Bool) (hs : s.cfg.dmemSize ≤ 2 ^ 29) (h : WriterOk s.writer s.cfg.dmemSize) :
    emit bs s = if Fits s bs.length then .ok (enter bs s)
      else raise .writerOverrun (BitVec.ofNat 32 s.bitpos) s := by
  simp only [emit, needBits_eq]
  split
  · exact putRaw_eq s bs hs h (by assumption)
  · rfl

/-- EVERYTHING `PutTrailingBits` can do (R138). -/
theorem putTrailing_eq (c : Bool) (hs : s.cfg.dmemSize ≤ 2 ^ 29) (h : WriterOk s.writer s.cfg.dmemSize) :
    putTrailing c s = if c ∧ s.writer.bitOffset = 0 then .ok s
      else if Fits s (trailingBits s.writer.bitOffset).length then .ok (enter (trailingBits s.writer.bitOffset) s)
      else raise .writerOverrun (BitVec.ofNat 32 s.bitpos) s := by
  simp only [putTrailing]
  split
  · rfl
  · exact emit_eq s _ hs h

@[simp] theorem trailingBits_length (off : BitVec 3) : (trailingBits off).length = 8 - off.toNat := by
  have := off.isLt
  simp [trailingBits]; omega

/-- The trailing bits end on a byte boundary (R138). -/
theorem enter_trailing_bitOffset (hs : s.cfg.dmemSize ≤ 2 ^ 29) (h : WriterOk s.writer s.cfg.dmemSize)
    (hf : Fits s (trailingBits s.writer.bitOffset).length) :
    (enter (trailingBits s.writer.bitOffset) s).writer.bitOffset = 0 := by
  have h1 := bitpos_mod (enter (trailingBits s.writer.bitOffset) s)
  have h2 := bitpos_mod s
  have h3 := s.writer.bitOffset.isLt
  rw [enter_bitpos s _ hs h hf, trailingBits_length] at h1
  exact BitVec.eq_of_toNat_eq (by simp; omega)

/-! ## Ending a command -/

@[simp] theorem finish_ok : finish (.ok s) = .next s.advance := rfl

@[simp] theorem finish_raise (code : FaultCode) (info : Word) :
    finish (raise code info s) = .next (s.takeFault code info) := rfl

/-- EVERYTHING `finish` can do (R26, R93): a next state comes from a completed procedure or from a fault raised. -/
theorem finish_next {r : Res} {t : State} (h : finish r = .next t) :
    (∃ u, r = .ok u ∧ t = u.advance) ∨ r = .error (.raised t) := by
  match r, h with
  | .ok u, h => exact .inl ⟨u, rfl, by simpa [finish, eq_comm] using h⟩
  | .error (.raised u), h => exact .inr (by simpa [finish] using h)

end Sys2Proof.Machine
end

