-- ==== Sys2Proof/Laws/Listing.lean ====
section
/-! SUPPORT. The laws of the composite procedures over the writer: what any of them can do at all (`Answers`), and what a
listing does where nothing stops it. -/

namespace Sys2Proof.Machine

variable {s t u : State}

/-! ## What a writing procedure can do -/

/-- `t` is `s` with bits that fit entered and the coder's, the contexts' and the report registers at any values. -/
def Wrote (s t : State) : Prop :=
  ∃ (bits : List Bool) (c : Cabac) (x : Vector Context 9) (r : Report), Fits s bits.length ∧
    t = { enter bits s with cabac := c, ctx := x, report := r }

/-- A writing procedure started in `s` ends in a state it has written, or in a fault raised there, or at the one refusal
of R24; it never leaves `DMEM` and never gets stuck. -/
def Answers (s : State) (r : Res) : Prop :=
  match r with
  | .ok t => Wrote s t
  | .error (.raised t) => ∃ u code info, Wrote s u ∧ t = u.takeFault code info
  | .error (.fault _) => False
  | .error (.refused x) => x = .bitsOutstandingOverflow

/-- A state whose writer is sound and whose `DMEM` has a legal size (R8, R21). -/
abbrev Writable (s : State) : Prop := s.cfg.dmemSize ≤ 2 ^ 29 ∧ WriterOk s.writer s.cfg.dmemSize

theorem enterBit_with (s : State) (b : Bool) (c : Cabac) (x : Vector Context 9) (r : Report) :
    enterBit b { s with cabac := c, ctx := x, report := r } =
      { enterBit b s with cabac := c, ctx := x, report := r } := rfl

/-- The coder's, the contexts' and the report registers play no part in entering bits. -/
theorem enter_with (s : State) (bs : List Bool) (c : Cabac) (x : Vector Context 9) (r : Report) :
    enter bs { s with cabac := c, ctx := x, report := r } = { enter bs s with cabac := c, ctx := x, report := r } := by
  induction bs generalizing s with
  | nil => rfl
  | cons b bs ih => simp only [enter_cons, enterBit_with, ih]

/-- A sound writer has room for no bits. -/
theorem Writable.fits_zero (h : Writable s) : Fits s 0 := by
  rw [fits_iff s 0 h.2]
  have := ((writerOk_iff _ _).1 h.2).2.1
  simpa [State.cursor, State.limit] using this

theorem Wrote.refl (h : Writable s) : Wrote s s := ⟨[], s.cabac, s.ctx, s.report, h.fits_zero, rfl⟩

/-- What is written keeps the writer sound. -/
theorem Wrote.writable (h : Writable s) (w : Wrote s t) : Writable t := by
  obtain ⟨bits, c, x, r, hf, rfl⟩ := w
  exact ⟨by simpa using h.1, by simpa using enter_writerOk s bits h.1 h.2 hf⟩

theorem Wrote.trans (h : Writable s) (a : Wrote s t) (b : Wrote t u) : Wrote s u := by
  obtain ⟨bs, c, x, r, hf, rfl⟩ := a
  obtain ⟨bs', c', x', r', hf', rfl⟩ := b
  refine ⟨bs ++ bs', c', x', r', ?_, ?_⟩
  · have := enter_bitpos s bs h.1 h.2 hf
    have h2 := enter_room s bs
    simp only [Fits, List.length_append, State.bitpos, State.room] at *
    omega
  · rw [enter_with, enter_append]

/-- Only the stream, the coder's, the contexts' and the report registers change. -/
theorem Wrote.frame (w : Wrote s t) :
    t = { s with
          dmem := t.dmem, cabac := t.cabac, ctx := t.ctx, report := t.report,
          writer := { s.writer with bytePos := t.writer.bytePos, bitOffset := t.writer.bitOffset } } := by
  obtain ⟨bs, c, x, r, -, rfl⟩ := w
  obtain ⟨h1, h2, h3, h4⟩ : (enter bs s).writer.bufStart = s.writer.bufStart ∧
      (enter bs s).writer.bufSize = s.writer.bufSize ∧ (enter bs s).writer.curStart = s.writer.curStart ∧
      (enter bs s).writer.curEnd = s.writer.curEnd := by simp
  have e : ∀ v : State, v.cfg = s.cfg → v.srcBitAddr = s.srcBitAddr → v.out = s.out → v.cp = s.cp →
      v.status = s.status → v.faultCp = s.faultCp → v.faultInfo = s.faultInfo → v.cmd = s.cmd →
      v.param = s.param → v.hostPending = s.hostPending → v.hostReplies = s.hostReplies →
      v.freeCount = s.freeCount → v.writer.bufStart = s.writer.bufStart → v.writer.bufSize = s.writer.bufSize →
      v.writer.curStart = s.writer.curStart → v.writer.curEnd = s.writer.curEnd →
      { v with cabac := c, ctx := x, report := r } = { s with
          dmem := v.dmem, cabac := c, ctx := x, report := r,
          writer := { s.writer with bytePos := v.writer.bytePos, bitOffset := v.writer.bitOffset } } := by
    rintro ⟨_, ⟨⟩⟩; simp_all
  exact e (enter bs s) (by simp) (by simp) (by simp) (by simp) (by simp) (by simp) (by simp) (by simp) (by simp)
    (by simp) (by simp) (by simp) h1 h2 h3 h4

theorem Wrote.cfg (w : Wrote s t) : t.cfg = s.cfg := by rw [w.frame]
theorem Wrote.status (w : Wrote s t) : t.status = s.status := by rw [w.frame]
theorem Wrote.cp (w : Wrote s t) : t.cp = s.cp := by rw [w.frame]
theorem Wrote.param (w : Wrote s t) : t.param = s.param := by rw [w.frame]
theorem Wrote.params (w : Wrote s t) : t.params = s.params := by unfold State.params; rw [w.param]

/-- The cursor never moves back. -/
theorem Wrote.cursor_le (h : Writable s) (w : Wrote s t) : s.cursor ≤ t.cursor := by
  obtain ⟨bs, c, x, r, hf, rfl⟩ := w
  have := enter_cursor s bs h.1 h.2 hf
  simp only [State.cursor] at *
  omega

/-- Bytes below the byte position before, and from the end of the written bits on, are unchanged (R70, R132). -/
theorem Wrote.byteAt (h : Writable s) (w : Wrote s t) (a : Nat)
    (ha : a < s.writer.bytePos.toNat ∨ t.cursor ≤ 8 * a) : t.byteAt a = s.byteAt a := by
  obtain ⟨bs, c, x, r, hf, rfl⟩ := w
  have := enter_cursor s bs h.1 h.2 hf
  exact enter_byteAt_of_outside s bs a h.1 h.2 hf (ha.imp id fun h' => by simp only [State.cursor] at *; omega)

/-- What is written keeps the memory in canonical form and inside its size. -/
theorem Wrote.memory (h : Writable s) (w : Wrote s t)
    (hm : Memory.wf s.dmem ∧ Memory.within s.cfg.dmemSize s.dmem) :
    Memory.wf t.dmem ∧ Memory.within t.cfg.dmemSize t.dmem := by
  obtain ⟨bs, c, x, r, hf, rfl⟩ := w
  simpa using enter_memory s bs h.1 h.2 hf hm.1 hm.2

/-- Registers that the stream does not use may change on the way. -/
theorem Wrote.with (w : Wrote s t) (c : Cabac) (x : Vector Context 9) (r : Report) :
    Wrote s { t with cabac := c, ctx := x, report := r } := by
  obtain ⟨bs, _, _, _, hf, rfl⟩ := w
  exact ⟨bs, c, x, r, hf, rfl⟩

theorem Wrote.enter {bits : List Bool} (h : Writable s) (w : Wrote s t) (hf : Fits t bits.length) :
    Wrote s (Machine.enter bits t) :=
  w.trans h ⟨bits, t.cabac, t.ctx, t.report, hf, by
    have := enter_with t bits t.cabac t.ctx t.report
    simpa using this⟩

/-! ## Answers, step by step -/

theorem Answers.ok (w : Wrote s t) : Answers s (.ok t) := w

theorem Answers.raise (w : Wrote s t) (code : FaultCode) (info : Word) : Answers s (Machine.raise code info t) :=
  ⟨t, code, info, w, rfl⟩

/-- Answers from a state already written are answers from the state before. -/
theorem Answers.of_wrote (h : Writable s) (w : Wrote s t) {r : Res} (a : Answers t r) : Answers s r := by
  match r, a with
  | .ok _, a => exact w.trans h a
  | .error (.raised _), ⟨v, code, info, hv, e⟩ => exact ⟨v, code, info, w.trans h hv, e⟩
  | .error (.refused _), a => exact a

/-- One procedure after another. -/
theorem Answers.bind (h : Writable s) {r : Res} {f : State → Res} (a : Answers s r)
    (b : ∀ t, r = .ok t → Wrote s t → Answers t (f t)) : Answers s (r >>= f) := by
  match r, a with
  | .ok t, a => exact .of_wrote h a (b t rfl a)
  | .error (.raised _), a => exact a
  | .error (.refused _), a => exact a

theorem Answers.emit (h : Writable s) (bits : List Bool) : Answers s (Machine.emit bits s) := by
  rw [emit_eq s bits h.1 h.2]
  split
  · exact (Wrote.refl h).enter h (by assumption)
  · exact .raise (.refl h) _ _

theorem Answers.putTrailing (h : Writable s) (c : Bool) : Answers s (Machine.putTrailing c s) := by
  rw [putTrailing_eq s c h.1 h.2]
  split
  · exact Wrote.refl h
  · split
    · exact (Wrote.refl h).enter h (by assumption)
    · exact .raise (.refl h) _ _

theorem Answers.runAct (h : Writable s) (base : Nat) (a : Act) : Answers s (Machine.runAct base a s) := by
  cases a with
  | put bits => exact .emit h bits
  | trailing => exact .putTrailing h false
  | mark reg => exact (Wrote.refl h).with s.cabac s.ctx _
  | assign reg v => exact (Wrote.refl h).with s.cabac s.ctx _
  | fail code info => exact .raise (.refl h) _ _

/-- EVERYTHING a listing can do: bits that fit, report registers, a fault raised at the line that raises it. -/
theorem Answers.runActs (h : Writable s) (base : Nat) (as : List Act) : Answers s (Machine.runActs base as s) := by
  induction as generalizing s with
  | nil => exact Wrote.refl h
  | cons a as ih => exact .bind h (.runAct h base a) fun t _ w => ih (w.writable h)

/-! ## A listing that nothing stops -/

/-- The trailing bits of the writer are those of its bit position (R138). -/
theorem trailingBits_eq (s : State) :
    trailingBits s.writer.bitOffset = Act.bits s.bitpos .trailing := by
  simp [trailingBits, Act.bits, bitpos_mod]

/-- One line that raises nothing and fits. -/
theorem runAct_eq (h : Writable s) (base : Nat) (a : Act) (hs : a.stops = false)
    (hf : Fits s (a.bits s.bitpos).length) :
    runAct base a s = .ok ((enter (a.bits s.bitpos) s).setReport (a.report base s.bitpos s.report)) := by
  have key : ∀ v : State, v.setReport v.report = v := fun _ => rfl
  cases a with
  | put bits =>
    have hr := enter_report s bits
    simp only [Act.bits] at hf
    simp only [runAct, emit_eq s bits h.1 h.2, if_pos hf, Act.bits, Act.report]
    rw [← hr, key]
  | trailing =>
    simp only [runAct, putTrailing_eq s false h.1 h.2, Bool.false_eq_true, false_and, if_false, Act.report]
    rw [trailingBits_eq, if_pos hf, ← enter_report s (Act.bits s.bitpos .trailing), key]
  | mark reg => rfl
  | assign reg v => rfl
  | fail code info => simp [Act.stops] at hs

/-- A listing that raises nothing and fits: its bits enter, its report registers are assigned (R210, R330). -/
theorem runActs_eq (h : Writable s) (base : Nat) (as : List Act) (hs : ∀ a ∈ as, a.stops = false)
    (hf : Fits s (listingBits s.bitpos as).length) :
    runActs base as s =
      .ok ((enter (listingBits s.bitpos as) s).setReport (listingReport base s.bitpos as s.report)) := by
  induction as generalizing s with
  | nil => rfl
  | cons a as ih =>
    simp only [listingBits, List.length_append] at hf
    have hf1 : Fits s (a.bits s.bitpos).length := by unfold Fits at *; omega
    have w : Wrote s ((enter (a.bits s.bitpos) s).setReport (a.report base s.bitpos s.report)) :=
      ⟨_, s.cabac, s.ctx, _, hf1, by
        have := enter_cabac s (a.bits s.bitpos)
        have h2 := enter_ctx s (a.bits s.bitpos)
        rw [← this, ← h2]; rfl⟩
    have hb : ((enter (a.bits s.bitpos) s).setReport (a.report base s.bitpos s.report)).bitpos =
        s.bitpos + (a.bits s.bitpos).length := enter_bitpos s _ h.1 h.2 hf1
    have hfit : Fits ((enter (a.bits s.bitpos) s).setReport (a.report base s.bitpos s.report))
        (listingBits (s.bitpos + (a.bits s.bitpos).length) as).length := enter_fits s _ _ h.1 h.2 hf
    have := ih (w.writable h) (fun x hx => hs x (List.mem_cons_of_mem _ hx)) (by rw [hb]; exact hfit)
    simp only [runActs, runAct_eq h base a (hs a (by simp)) hf1, bind, Except.bind, this, listingBits, hb,
      listingReport, State.setReport_report, enter_append, enter_setReport]
    rfl

/-- A listing whose lines up to a failing one raise nothing and fit raises the fault of that line there (R392). -/
theorem runActs_append (base : Nat) (as bs : List Act) (s : State) :
    runActs base (as ++ bs) s = (runActs base as s >>= runActs base bs) := by
  induction as generalizing s with
  | nil => rfl
  | cons a as ih =>
    simp only [List.cons_append, runActs, bind, Except.bind]
    cases runAct base a s with
    | error e => rfl
    | ok t => exact ih t

end Sys2Proof.Machine
end

