-- ==== Sys2Proof/Laws/Cabac.lean ====
section
/-! SUPPORT. The laws of the arithmetic coder: every procedure of spec/42_cabac.md answers what its pure counterpart in
Machine/Stream.lean computes, or stops for want of room, or at the refusal of R24; and the interval stays sound (R172). -/

namespace Sys2Proof.Machine

variable {s t u : State}

/-! ## The interval -/

/-- What R163 says of its values: every entry is at least 2 and at most 240, and leaves the MPS at least 128 of every range
in its quarter. -/
theorem rangeTabLps_bounds (st : BitVec 6) (q : BitVec 2) :
    2 ≤ (rangeTabLps st q).toNat ∧ (rangeTabLps st q).toNat ≤ 240 ∧
      (rangeTabLps st q).toNat + 127 < 256 + 64 * q.toNat := by
  revert st q; decide

theorem lpsWidth_bounds (byte : Byte) (range : Word) (h : 256 ≤ range.toNat ∧ range.toNat ≤ 510) :
    2 ≤ (lpsWidth byte range).toNat ∧ (lpsWidth byte range).toNat ≤ 240 ∧
      (lpsWidth byte range).toNat + 128 ≤ range.toNat := by
  have hb := rangeTabLps_bounds (ctxState byte) (rangeQuarter range)
  have hw : (lpsWidth byte range).toNat = (rangeTabLps (ctxState byte) (rangeQuarter range)).toNat := by
    have := (rangeTabLps (ctxState byte) (rangeQuarter range)).isLt
    simp only [lpsWidth, BitVec.toNat_setWidth]; omega
  have hq : (rangeQuarter range).toNat = range.toNat / 64 % 4 := by
    simp [rangeQuarter, BitVec.extractLsb'_toNat, Nat.shiftRight_eq_div_pow]
  rw [hw]; omega

/-- The interval inside `RenormE` (R172, b): any range from 2 on, and the two bounds on `low`. -/
abbrev Interval (c : Cabac) : Prop :=
  2 ≤ c.range.toNat ∧ c.range.toNat ≤ 510 ∧ c.low.toNat + c.range.toNat ≤ 1024

/-- `EncodeBin` before `RenormE` (R172, a). -/
theorem nextInterval_interval (byte : Byte) (b : Bool) {c : Cabac} (h : CabacOk c) :
    Interval (nextInterval byte b c) := by
  have := lpsWidth_bounds byte c.range ⟨h.1, h.2.1⟩
  obtain ⟨h1, h2, h3, h4⟩ := h
  simp only [nextInterval, Interval]
  split <;> simp only <;> refine ⟨?_, ?_, ?_⟩ <;> bv_omega

theorem terminateInterval_interval {c : Cabac} (h : CabacOk c) : Interval (terminateInterval c) := by
  obtain ⟨h1, h2, h3, h4⟩ := h
  simp only [terminateInterval, Interval]
  refine ⟨by decide, by decide, by bv_omega⟩

/-- One turn of the loop of `RenormE` (R172, b). -/
theorem codeBand_interval {c : Cabac} (h : Interval c) (hr : c.range.toNat < 256) :
    (codeBand c).2.range = c.range ∧ (codeBand c).2.low.toNat + c.range.toNat ≤ 512 := by
  obtain ⟨h1, h2, h3⟩ := h
  simp only [codeBand, codeBitC]
  split
  · exact ⟨rfl, by simp only; omega⟩
  · split
    · exact ⟨rfl, by simp only; bv_omega⟩
    · exact ⟨rfl, by simp only; bv_omega⟩

/-- The loop of `RenormE` ends in a sound interval (R172, c). -/
theorem codeRenorm_ok (n : Nat) {c : Cabac} (h : Interval c) (hn : 256 ≤ c.range.toNat * 2 ^ n) :
    CabacOk (codeRenorm n c).2 := by
  induction n generalizing c with
  | zero =>
    obtain ⟨h1, h2, h3⟩ := h
    exact ⟨by simpa [codeRenorm] using hn, h2, by simp only [codeRenorm]; omega, h3⟩
  | succ n ih =>
    simp only [codeRenorm]
    split
    · rename_i hr
      obtain ⟨e, hl⟩ := codeBand_interval h hr
      refine ih (c := { (codeBand c).2 with
        range := (codeBand c).2.range <<< 1, low := (codeBand c).2.low <<< 1 }) ?_ ?_
      · simp only [Interval, e, BitVec.toNat_shiftLeft, Nat.shiftLeft_eq]
        have := h.1
        omega
      · simp only [e, BitVec.toNat_shiftLeft, Nat.shiftLeft_eq, pow_one]
        rw [Nat.mod_eq_of_lt (by omega), Nat.mul_assoc, ← pow_succ']
        exact hn
    · obtain ⟨h1, h2, h3⟩ := h
      exact ⟨by simp only; omega, h2, by simp only; omega, h3⟩

theorem codeBin_ok (byte : Byte) (b : Bool) {c : Cabac} (h : CabacOk c) : CabacOk (codeBin byte b c).2 := by
  have hi := nextInterval_interval byte b h
  exact codeRenorm_ok 8 hi (by have := hi.1; omega)

theorem codeBypass_ok (b : Bool) {c : Cabac} (h : CabacOk c) : CabacOk (codeBypass b c).2 := by
  obtain ⟨h1, h2, h3, h4⟩ := h
  have hl : (bypassLow c b).toNat = 2 * c.low.toNat + if b then c.range.toNat else 0 := by
    unfold bypassLow; split <;> bv_omega
  have hb : (if b then c.range.toNat else 0) ≤ c.range.toNat := by split <;> omega
  have hc : (if b then c.range.toNat else 0) = 0 ∨ (if b then c.range.toNat else 0) = c.range.toNat := by
    split <;> simp
  simp only [codeBypass, codeBypassBand, codeBitC, Cabac.counted, CabacOk]
  split
  · refine ⟨h1, h2, ?_, ?_⟩ <;> simp only <;> bv_omega
  · split
    · refine ⟨h1, h2, ?_, ?_⟩ <;> simp only <;> omega
    · refine ⟨h1, h2, ?_, ?_⟩ <;> simp only <;> bv_omega

theorem codeFinish_ok {c : Cabac} (h : CabacOk c) : CabacOk (codeFinish c).2 :=
  codeRenorm_ok 8 (terminateInterval_interval h) (by simp [terminateInterval])

theorem codeBins_ok (bins : List Bin) (x : Vector Context 9) {c : Cabac} (h : CabacOk c) :
    CabacOk (codeBins bins x c).2.2 := by
  induction bins generalizing x c with
  | nil => exact h
  | cons b bins ih =>
    cases b with
    | ctx i b => exact ih _ (codeBin_ok _ _ h)
    | bypass b => exact ih _ (codeBypass_ok _ h)

/-! ## The machine's coder against the pure one -/

/-- The state after bits, with the coder's registers and the contexts at the values computed beside them. -/
def State.coded (s : State) (x : List Bool × Vector Context 9 × Cabac) : State :=
  { enter x.1 s with ctx := x.2.1, cabac := x.2.2 }

/-- EVERYTHING a procedure of the coder can do: with `x` what its pure counterpart computes, it ends in `s.coded x` where
the bits fit, or raises `WRITER_OVERRUN` on the way where they do not, or reaches the refusal of R24, and then
`BITS_OUTSTANDING` was within `k` of 2^32. -/
def Codes (k : Nat) (s : State) (x : List Bool × Vector Context 9 × Cabac) (r : Res) : Prop :=
  match r with
  | .ok t => Fits s x.1.length ∧ t = s.coded x
  | .error (.raised t) => ¬Fits s x.1.length ∧ ∃ u info, Wrote s u ∧ t = u.takeFault .writerOverrun info
  | .error (.fault _) => False
  | .error (.refused q) => q = .bitsOutstandingOverflow ∧ 2 ^ 32 ≤ s.cabac.outstanding.toNat + k

theorem State.coded_nil (s : State) : s.coded ([], s.ctx, s.cabac) = s := rfl

theorem wrote_coded {x : List Bool × Vector Context 9 × Cabac} (h : Fits s x.1.length) : Wrote s (s.coded x) :=
  ⟨x.1, x.2.2, x.2.1, s.report, h, by
    have := enter_report s x.1
    simp only [State.coded]; rw [← this]⟩

theorem enter_with_coder (s : State) (bs : List Bool) (c : Cabac) (x : Vector Context 9) :
    enter bs { s with ctx := x, cabac := c } = { enter bs s with ctx := x, cabac := c } := by
  induction bs generalizing s with
  | nil => rfl
  | cons b bs ih => exact ih (enterBit b s)

theorem State.coded_coded (s : State) (x y : List Bool × Vector Context 9 × Cabac) :
    (s.coded x).coded y = s.coded (x.1 ++ y.1, y.2) := by
  simp only [State.coded, enter_append, enter_with_coder]

/-- Registers of the coder that a procedure finds already changed. -/
theorem State.coded_start (s : State) (x y : List Bool × Vector Context 9 × Cabac) (h : y.1 = []) :
    (s.coded y).coded x = s.coded x := by
  rw [State.coded_coded, h]; rfl

theorem fits_coded (h : Writable s) (x y : List Bool × Vector Context 9 × Cabac) (hx : Fits s x.1.length) :
    Fits (s.coded x) y.1.length ↔ Fits s (x.1 ++ y.1).length := by
  have h1 : (s.coded x).bitpos = s.bitpos + x.1.length := enter_bitpos s x.1 h.1 h.2 hx
  have h2 : (s.coded x).room = s.room := enter_room s x.1
  simp only [Fits, h1, h2, List.length_append]; omega

/-- A procedure that codes answers as every writing procedure does. -/
theorem Codes.answers {k : Nat} {x : List Bool × Vector Context 9 × Cabac} {r : Res} (h : Codes k s x r) :
    Answers s r := by
  match r, h with
  | .ok t, ⟨hf, e⟩ => exact e ▸ wrote_coded hf
  | .error (.raised _), ⟨_, u, info, w, e⟩ => exact ⟨u, .writerOverrun, info, w, e⟩
  | .error (.refused _), ⟨e, _⟩ => exact e

/-- Where the bits fit and the count stays below 2^32, a procedure that codes completes. -/
theorem Codes.completes {k : Nat} {x : List Bool × Vector Context 9 × Cabac} {r : Res} (h : Codes k s x r)
    (hf : Fits s x.1.length) (ho : s.cabac.outstanding.toNat + k < 2 ^ 32) : r = .ok (s.coded x) := by
  match r, h with
  | .ok t, ⟨_, e⟩ => rw [e]
  | .error (.raised _), ⟨hn, _⟩ => exact absurd hf hn
  | .error (.refused _), ⟨_, hn⟩ => omega

/-- Where the bits do not fit, a procedure that codes does not complete. -/
theorem Codes.ok {k : Nat} {x : List Bool × Vector Context 9 × Cabac} (h : Codes k s x (.ok t)) :
    Fits s x.1.length ∧ t = s.coded x := h

theorem Codes.mono {k k' : Nat} {x : List Bool × Vector Context 9 × Cabac} {r : Res} (h : Codes k s x r)
    (hk : k ≤ k') : Codes k' s x r := by
  match r, h with
  | .ok t, h => exact h
  | .error (.raised _), h => exact h
  | .error (.refused _), ⟨e, hn⟩ => exact ⟨e, by omega⟩

/-- One procedure after another. -/
theorem Codes.bind {k l : Nat} {x y : List Bool × Vector Context 9 × Cabac} {r : Res} {f : State → Res}
    (h : Writable s) (a : Codes k s x r) (ho : x.2.2.outstanding.toNat ≤ s.cabac.outstanding.toNat + k)
    (b : Fits s x.1.length → Writable (s.coded x) → Codes l (s.coded x) y (f (s.coded x))) : Codes (k + l) s (x.1 ++ y.1, y.2) (r >>= f) := by
  match r, a with
  | .ok t, ⟨hf, e⟩ =>
    subst e
    have hw := wrote_coded hf
    replace b := b hf (hw.writable h)
    show Codes (k + l) s (x.1 ++ y.1, y.2) (f (s.coded x))
    match f (s.coded x), b with
    | .ok u, ⟨hg, e⟩ => exact ⟨(fits_coded h x y hf).1 hg, e.trans (State.coded_coded s x y)⟩
    | .error (.raised _), ⟨hg, u, info, w, e⟩ =>
      exact ⟨fun hn => hg ((fits_coded h x y hf).2 hn), u, info, hw.trans h w, e⟩
    | .error (.refused _), ⟨e, hn⟩ => exact ⟨e, by simp only [State.coded] at hn; omega⟩
  | .error (.raised _), ⟨hn, e⟩ =>
    exact ⟨fun hf => hn (by simp only [Fits, List.length_append] at *; omega), e⟩
  | .error (.refused _), ⟨e, hn⟩ => exact ⟨e, by omega⟩

theorem putBit_codes (h : Writable s) (b : Bool) : Codes 0 s ([b], s.ctx, s.cabac) (putBit b s) := by
  rw [putBit, emit_eq s _ h.1 h.2]
  split
  · exact ⟨by assumption, by have h1 := enter_ctx s [b]; have h2 := enter_cabac s [b]; rw [State.coded, ← h1, ← h2]⟩
  · exact ⟨by assumption, s, _, .refl h, rfl⟩

/-- A procedure that starts from changed registers of the coder. -/
theorem Codes.start {k l : Nat} {x : List Bool × Vector Context 9 × Cabac} {r : Res} (h : Writable s)
    (a : Codes k t x r) (e : { t with ctx := s.ctx, cabac := s.cabac } = s)
    (ho : t.cabac.outstanding.toNat + k ≤ s.cabac.outstanding.toNat + l) : Codes l s x r := by
  have hw : Wrote s (s.coded ([], t.ctx, t.cabac)) := wrote_coded h.fits_zero
  have e : s.coded ([], t.ctx, t.cabac) = t := by rw [← e]; rfl
  match r, a with
  | .ok u, ⟨hf, a⟩ => rw [← e] at hf a; exact ⟨hf, a.trans (State.coded_start s x _ rfl)⟩
  | .error (.raised _), ⟨hn, u, info, w, a⟩ => rw [← e] at hn w; exact ⟨hn, u, info, hw.trans h w, a⟩
  | .error (.refused _), ⟨a, hn⟩ => exact ⟨a, by omega⟩

/-- A procedure that only changes the coder's registers. -/
theorem Codes.pure (h : Writable s) (c : Cabac) (ctx : Vector Context 9) :
    Codes 0 s ([], ctx, c) (.ok { s with ctx := ctx, cabac := c }) := ⟨h.fits_zero, rfl⟩

/-- The carry bits (R166). -/
theorem putOutstanding_codes (h : Writable s) (b : Bool) (n : Nat) (hn : n ≤ s.cabac.outstanding.toNat) :
    Codes 0 s (List.replicate n b, s.ctx, { s.cabac with outstanding := s.cabac.outstanding - BitVec.ofNat 32 n })
      (putOutstanding b n s) := by
  induction n generalizing s with
  | zero => exact ⟨h.fits_zero, by simp [State.coded]⟩
  | succ n ih =>
    have hl := s.cabac.outstanding.isLt
    have key := Codes.bind (l := 0) (f := fun t => putOutstanding b n
        (t.setCabac { t.cabac with outstanding := t.cabac.outstanding - 1 })) (y := (List.replicate n b, s.ctx,
        { s.cabac with outstanding := s.cabac.outstanding - BitVec.ofNat 32 (n + 1) })) h (putBit_codes h b)
      (Nat.le_refl _) fun _ hw => ?_
    · simpa [putOutstanding, List.replicate_succ] using key
    · have hw' : Writable ((s.coded ([b], s.ctx, s.cabac)).setCabac
          { s.cabac with outstanding := s.cabac.outstanding - 1 }) := hw
      have := ih hw' (by simp only [State.setCabac]; bv_omega)
      have ho : (s.cabac.outstanding - 1).toNat + 0 ≤ s.cabac.outstanding.toNat + 0 := by bv_omega
      have e : s.cabac.outstanding - 1 - BitVec.ofNat 32 n = s.cabac.outstanding - BitVec.ofNat 32 (n + 1) := by
        bv_omega
      simp only [State.setCabac, e] at this
      exact Codes.start hw this rfl ho

/-- EVERYTHING `PutBitC` can do (R166). -/
theorem putBitC_codes (h : Writable s) (b : Bool) :
    Codes 0 s ((codeBitC b s.cabac).1, s.ctx, (codeBitC b s.cabac).2) (putBitC b s) := by
  have carry : ∀ t : State, Writable t → t.ctx = s.ctx → t.cabac = { s.cabac with firstBit := false } →
      Codes 0 t (List.replicate s.cabac.outstanding.toNat (!b), s.ctx, (codeBitC b s.cabac).2)
        (putOutstanding (!b) t.cabac.outstanding.toNat t) := by
    intro t ht hx hc
    have := putOutstanding_codes ht (!b) t.cabac.outstanding.toNat (Nat.le_refl _)
    simpa [hx, hc, codeBitC] using this
  cases hb : s.cabac.firstBit with
  | true =>
    have := Codes.start h (carry (s.setCabac { s.cabac with firstBit := false }) h rfl rfl) rfl (Nat.le_refl _)
    simpa [putBitC, hb, codeBitC, bind, Except.bind] using this
  | false =>
    have hc : s.cabac = { s.cabac with firstBit := false } := by rw [← hb]
    have := Codes.bind (f := fun t => putOutstanding (!b) t.cabac.outstanding.toNat t) h (putBit_codes h b)
      (Nat.le_refl _) fun _ hw => carry _ hw rfl hc
    simpa [putBitC, hb, codeBitC] using this

theorem codeBitC_outstanding (b : Bool) (c : Cabac) : (codeBitC b c).2.outstanding = 0 := rfl

/-- EVERYTHING counting an outstanding bit can do (R24). -/
theorem incOutstanding_codes (h : Writable s) :
    Codes 1 s ([], s.ctx, { s.cabac with outstanding := s.cabac.outstanding + 1 }) (incOutstanding s) := by
  rw [incOutstanding]
  split
  · exact (Codes.pure h _ _).mono (by omega)
  · exact ⟨rfl, by omega⟩

/-- EVERYTHING one band decision of `RenormE` can do (R167). -/
theorem renormBand_codes (h : Writable s) :
    Codes 1 s ((codeBand s.cabac).1, s.ctx, (codeBand s.cabac).2) (renormBand s) := by
  simp only [renormBand, codeBand]
  split
  · exact (putBitC_codes h false).mono (by omega)
  · split
    · exact Codes.start h (putBitC_codes (s := s.setLow (s.cabac.low - 512)) h true) rfl (Nat.le_succ _)
    · exact Codes.start h (incOutstanding_codes (s := s.setLow (s.cabac.low - 256)) h) rfl (Nat.le_refl _)

theorem codeBand_outstanding (c : Cabac) : (codeBand c).2.outstanding.toNat ≤ c.outstanding.toNat + 1 := by
  simp only [codeBand, codeBitC]
  split
  · simp
  · split
    · simp
    · simp only; bv_omega

/-- EVERYTHING the loop of `RenormE` can do from a sound interval (R167). -/
theorem renormLoop_codes (n : Nat) (h : Writable s) (hi : Interval s.cabac) (hn : 256 ≤ s.cabac.range.toNat * 2 ^ n) :
    Codes n s ((codeRenorm n s.cabac).1, s.ctx, (codeRenorm n s.cabac).2) (renormLoop n s) := by
  induction n generalizing s with
  | zero =>
    rw [renormLoop, if_neg (by omega)]
    exact Codes.pure h _ _
  | succ n ih =>
    rw [renormLoop, codeRenorm]
    split
    · rename_i hr
      obtain ⟨e, hl⟩ := codeBand_interval hi hr
      have := Codes.bind (l := n) (f := fun t => renormLoop n (doubleInterval t)) h (renormBand_codes h)
        (codeBand_outstanding _) (y := ((codeRenorm n { (codeBand s.cabac).2 with
          range := (codeBand s.cabac).2.range <<< 1, low := (codeBand s.cabac).2.low <<< 1 }).1, s.ctx,
          (codeRenorm n { (codeBand s.cabac).2 with
          range := (codeBand s.cabac).2.range <<< 1, low := (codeBand s.cabac).2.low <<< 1 }).2)) fun _ hw => ?_
      · simpa [Nat.add_comm] using this
      · refine Codes.start hw
          (ih (s := doubleInterval (s.coded ((codeBand s.cabac).1, s.ctx, (codeBand s.cabac).2))) hw ?_ ?_)
          rfl (Nat.le_refl _)
        · simp only [Interval, doubleInterval, State.coded, State.setCabac, e, BitVec.toNat_shiftLeft, Nat.shiftLeft_eq]
          have := hi.1
          omega
        · simp only [doubleInterval, State.coded, State.setCabac, e, BitVec.toNat_shiftLeft, Nat.shiftLeft_eq, pow_one]
          rw [Nat.mod_eq_of_lt (by omega), Nat.mul_assoc, ← pow_succ']
          exact hn
    · exact (Codes.pure h _ _).mono (by omega)

/-- EVERYTHING `EncodeBin` can do through a context that holds a value (R165). -/
theorem encodeBin_codes (h : Writable s) (hc : CabacOk s.cabac) (i : Fin 9) (b : Bool) (hv : s.ctx[i].valid = true) :
    Codes 8 s ((codeBin s.ctx[i].byte b s.cabac).1, s.ctx.set i ⟨nextContext s.ctx[i].byte b, true⟩,
      (codeBin s.ctx[i].byte b s.cabac).2) (encodeBin i b s) := by
  have hi := nextInterval_interval s.ctx[i].byte b hc
  have ho : (nextInterval s.ctx[i].byte b s.cabac).outstanding = s.cabac.outstanding := by
    simp only [nextInterval]; split <;> rfl
  have a := Codes.start (l := 8) h
    (renormLoop_codes (s := (s.setCabac (nextInterval s.ctx[i].byte b s.cabac)).setContext i
      (nextContext s.ctx[i].byte b)) 8 h hi (by have := hi.1; simp only [State.setContext, State.setCabac]; omega))
    rfl (Nat.le_of_eq (congrArg (fun x : Word => x.toNat + 8) ho))
  rw [encodeBin, if_pos hv, renormE]
  revert a
  generalize renormLoop 8 _ = r
  intro a
  match r, a with
  | .ok t, ⟨hf, e⟩ => exact ⟨hf, by rw [e]; rfl⟩
  | .error (.raised _), a => exact a
  | .error (.refused _), a => exact a

/-- EVERYTHING `EncodeBinEP` can do (R168). -/
theorem encodeBinEp_codes (h : Writable s) (b : Bool) :
    Codes 1 s ((codeBypass b s.cabac).1, s.ctx, (codeBypass b s.cabac).2) (encodeBinEp b s) := by
  have a : Codes 1 s ((codeBypassBand { s.cabac with low := bypassLow s.cabac b }).1, s.ctx,
      (codeBypassBand { s.cabac with low := bypassLow s.cabac b }).2)
      (bypassBand (s.setLow (bypassLow s.cabac b))) := by
    refine Codes.start (k := 1) (t := s.setLow (bypassLow s.cabac b)) h ?_ rfl (Nat.le_refl _)
    generalize hv : s.setLow (bypassLow s.cabac b) = v
    have hw : Writable v := hv ▸ h
    have e : { s.cabac with low := bypassLow s.cabac b } = v.cabac := by rw [← hv]; rfl
    have ex : s.ctx = v.ctx := by rw [← hv]; rfl
    rw [e, ex, bypassBand, codeBypassBand]
    split
    · exact Codes.start hw (putBitC_codes (s := v.setLow (v.cabac.low - 1024)) hw true) rfl (Nat.le_succ _)
    · split
      · exact (putBitC_codes hw false).mono (by omega)
      · exact Codes.start hw (incOutstanding_codes (s := v.setLow (v.cabac.low - 512)) hw) rfl (Nat.le_refl _)
  rw [encodeBinEp]
  revert a
  generalize bypassBand _ = r
  intro a
  match r, a with
  | .ok t, ⟨hf, e⟩ => exact ⟨hf, by rw [e]; rfl⟩
  | .error (.raised _), a => exact a
  | .error (.refused _), a => exact a

theorem codeRenorm_outstanding (n : Nat) (c : Cabac) :
    (codeRenorm n c).2.outstanding.toNat ≤ c.outstanding.toNat + n := by
  induction n generalizing c with
  | zero => simp [codeRenorm]
  | succ n ih =>
    simp only [codeRenorm]
    split
    · have h1 := codeBand_outstanding c
      have h2 := ih { (codeBand c).2 with range := (codeBand c).2.range <<< 1, low := (codeBand c).2.low <<< 1 }
      simp only at *
      omega
    · simp

theorem codeBin_outstanding (byte : Byte) (b : Bool) (c : Cabac) :
    (codeBin byte b c).2.outstanding.toNat ≤ c.outstanding.toNat + 8 := by
  have ho : (nextInterval byte b c).outstanding = c.outstanding := by
    simp only [nextInterval]; split <;> rfl
  have := codeRenorm_outstanding 8 (nextInterval byte b c)
  rw [ho] at this
  exact this

theorem codeBypass_outstanding (b : Bool) (c : Cabac) :
    (codeBypass b c).2.outstanding.toNat ≤ c.outstanding.toNat + 1 := by
  simp only [codeBypass, codeBypassBand, codeBitC, Cabac.counted]
  split
  · simp
  · split
    · simp
    · simp only; bv_omega

/-- EVERYTHING the unconditional trailing bits can do (R138). -/
theorem putTrailing_codes (h : Writable s) :
    Codes 0 s (Act.bits s.bitpos .trailing, s.ctx, s.cabac) (putTrailing false s) := by
  rw [putTrailing_eq s false h.1 h.2, if_neg (by simp), trailingBits_eq]
  split
  · refine ⟨by assumption, ?_⟩
    have h1 := enter_ctx s (Act.bits s.bitpos .trailing)
    have h2 := enter_cabac s (Act.bits s.bitpos .trailing)
    rw [State.coded, ← h1, ← h2]
  · exact ⟨by assumption, s, _, .refl h, rfl⟩

/-- The last explicit bit and the trailing bits (R169). -/
theorem lastBit_codes (h : Writable s) (b : Bool) :
    Codes 0 s (b :: Act.bits (s.bitpos + 1) .trailing, s.ctx, s.cabac) (putBit b s >>= putTrailing false) := by
  refine Codes.bind (x := ([b], s.ctx, s.cabac)) (y := (_, s.ctx, s.cabac)) (f := putTrailing false) (l := 0) h
    (putBit_codes h b) (Nat.le_refl _) fun hf hw => ?_
  have e : (s.coded ([b], s.ctx, s.cabac)).bitpos = s.bitpos + 1 := enter_bitpos s [b] h.1 h.2 hf
  have a := putTrailing_codes hw
  rw [e] at a
  exact a

/-- The three writes that end a slice (R169). -/
theorem flush_codes (h : Writable s) (b9 b8 : Bool) :
    Codes 0 s ((codeBitC b9 s.cabac).1 ++
        b8 :: Act.bits (s.bitpos + (codeBitC b9 s.cabac).1.length + 1) .trailing, s.ctx, (codeBitC b9 s.cabac).2)
      (putBitC b9 s >>= fun t => putBit b8 t >>= putTrailing false) := by
  refine Codes.bind (x := (_, s.ctx, _)) (y := (_, s.ctx, (codeBitC b9 s.cabac).2))
    (f := fun t => putBit b8 t >>= putTrailing false) (l := 0) h (putBitC_codes h b9) (Nat.zero_le _) fun hf hw => ?_
  have e : (s.coded ((codeBitC b9 s.cabac).1, s.ctx, (codeBitC b9 s.cabac).2)).bitpos =
      s.bitpos + (codeBitC b9 s.cabac).1.length := enter_bitpos s _ h.1 h.2 hf
  have a := lastBit_codes hw b8
  rw [e] at a
  exact a

/-- EVERYTHING `SliceFinish` can do (R169): its bits, then the trailing bits of the place where they end. -/
theorem sliceFinish_codes (h : Writable s) (hc : CabacOk s.cabac) :
    Codes 8 s ((codeFinish s.cabac).1 ++ Act.bits (s.bitpos + (codeFinish s.cabac).1.length) .trailing, s.ctx,
      (codeFinish s.cabac).2) (sliceFinish s) := by
  have e : sliceFinish s = renormE (s.setCabac (terminateInterval s.cabac)) >>= fun u =>
      putBitC (u.cabac.low.getLsbD 9) u >>= fun t => putBit (u.cabac.low.getLsbD 8) t >>= putTrailing false := rfl
  have i := terminateInterval_interval hc
  have first := Codes.start (l := 8) h (renormLoop_codes (s := s.setCabac (terminateInterval s.cabac)) 8 h i
    (by simp [terminateInterval])) rfl (Nat.le_refl _)
  have ho := codeRenorm_outstanding 8 (terminateInterval s.cabac)
  have ho' : (terminateInterval s.cabac).outstanding = s.cabac.outstanding := rfl
  rw [ho'] at ho
  rw [e, codeFinish]
  simp only [State.setCabac] at first
  generalize codeRenorm 8 (terminateInterval s.cabac) = r at first ho
  have key := Codes.bind (x := (r.1, s.ctx, r.2)) (y := (_, s.ctx, (codeBitC (r.2.low.getLsbD 9) r.2).2))
    (f := fun u => putBitC (u.cabac.low.getLsbD 9) u >>= fun t =>
      putBit (u.cabac.low.getLsbD 8) t >>= putTrailing false) (l := 0) h first ho fun hf hw => by
    have e : (s.coded (r.1, s.ctx, r.2)).bitpos = s.bitpos + r.1.length := enter_bitpos s _ h.1 h.2 hf
    have a := flush_codes hw (r.2.low.getLsbD 9) (r.2.low.getLsbD 8)
    rw [e] at a
    exact a
  simpa [Nat.add_assoc, State.coded, renormE, State.setCabac] using key

/-- EVERYTHING a sequence of bins can do through contexts that hold values (R343, R350). -/
theorem runBins_codes (bins : List Bin) (h : Writable s) (hc : CabacOk s.cabac)
    (hr : ∀ b ∈ bins, b.readable s.ctx = true) :
    Codes (8 * bins.length) s (codeBins bins s.ctx s.cabac) (runBins bins s) := by
  induction bins generalizing s with
  | nil => exact Codes.pure h _ _
  | cons b bins ih =>
    have hk : 8 * (b :: bins).length = 8 + 8 * bins.length := by simp; omega
    rw [hk]
    cases b with
    | ctx i b =>
      refine Codes.bind h (encodeBin_codes h hc i b (hr (.ctx i b) (by simp))) (codeBin_outstanding _ _ _) fun _ hw => ?_
      refine ih hw (codeBin_ok _ _ hc) fun x hx => ?_
      have := hr x (List.mem_cons_of_mem _ hx)
      cases x with
      | bypass => rfl
      | ctx j v =>
        simp only [Bin.readable, State.coded] at this ⊢
        by_cases e : i = j
        · subst e; simp
        · simpa [Vector.getElem_set, Fin.val_inj, e] using this
    | bypass b =>
      refine Codes.bind h ((encodeBinEp_codes h b).mono (by omega))
        (Nat.le_trans (codeBypass_outstanding _ _) (by omega)) fun _ hw => ?_
      exact ih hw (codeBypass_ok _ hc) fun x hx => hr x (List.mem_cons_of_mem _ hx)

end Sys2Proof.Machine
end

