-- ==== Sys2Proof/Laws/Commands.lean ====
section
/-! SUPPORT. What each command can do to a sound state at all: it completes, raises a fault or reaches the refusal of R24,
and what it leaves is sound (R21, R29, R33, R172); said once for each procedure, for every command's whole meaning. -/

namespace Sys2Proof.Machine

variable {s t u : State}

/-- What the statements about every command ask of the state before it: R8's bound, R21, R29, R33. -/
abbrev Ready (s : State) : Prop :=
  s.cfg.dmemSize ≤ 2 ^ 29 ∧ WriterOk s.writer s.cfg.dmemSize ∧ ContextsOk s.ctx ∧ Memory.wf s.dmem ∧
    Memory.within s.cfg.dmemSize s.dmem

/-- No procedure touches the configuration, the commands, the parameter words, `CP`, the status, the fault registers or the
model's own fields; and what it leaves is ready for the next. -/
abbrev Effect (s u : State) : Prop :=
  u.cfg = s.cfg ∧ u.cmd = s.cmd ∧ u.param = s.param ∧ u.cp = s.cp ∧ u.status = s.status ∧ u.faultCp = s.faultCp ∧
    u.faultInfo = s.faultInfo ∧ u.hostPending = s.hostPending ∧ u.hostReplies = s.hostReplies ∧
    u.freeCount = s.freeCount ∧ Ready u

/-- EVERYTHING a procedure can do to a ready state with a sound interval. -/
def Performs (s : State) (r : Res) : Prop :=
  match r with
  | .ok u => Effect s u ∧ CabacOk u.cabac
  | .error (.raised t) => ∃ u code info, Effect s u ∧ t = u.takeFault code info
  | .error (.fault _) => False
  | .error (.refused q) => q = .bitsOutstandingOverflow

theorem Effect.refl (h : Ready s) : Effect s s := ⟨rfl, rfl, rfl, rfl, rfl, rfl, rfl, rfl, rfl, rfl, h⟩

theorem Effect.trans (a : Effect s t) (b : Effect t u) : Effect s u := by
  obtain ⟨a1, a2, a3, a4, a5, a6, a7, a8, a9, a10, -⟩ := a
  obtain ⟨b1, b2, b3, b4, b5, b6, b7, b8, b9, b10, h⟩ := b
  exact ⟨b1.trans a1, b2.trans a2, b3.trans a3, b4.trans a4, b5.trans a5, b6.trans a6, b7.trans a7, b8.trans a8,
    b9.trans a9, b10.trans a10, h⟩

theorem Effect.params (a : Effect s t) : t.params = s.params := by unfold State.params; rw [a.2.2.1]

theorem Performs.ok (e : Effect s t) (c : CabacOk t.cabac) : Performs s (.ok t) := ⟨e, c⟩

theorem Performs.raise (e : Effect s t) (code : FaultCode) (info : Word) : Performs s (Machine.raise code info t) :=
  ⟨t, code, info, e, rfl⟩

/-- One procedure after another. -/
theorem Performs.bind {r : Res} {f : State → Res} (a : Performs s r)
    (b : ∀ t, r = .ok t → Effect s t → CabacOk t.cabac → Performs t (f t)) : Performs s (r >>= f) := by
  match r, a with
  | .ok t, ⟨e, c⟩ =>
    replace b := b t rfl e c
    show Performs s (f t)
    match f t, b with
    | .ok u, ⟨e', c'⟩ => exact ⟨e.trans e', c'⟩
    | .error (.raised _), ⟨u, code, info, e', h⟩ => exact ⟨u, code, info, e.trans e', h⟩
    | .error (.refused _), h => exact h
  | .error (.raised _), a => exact a
  | .error (.refused _), a => exact a

/-! ## Procedures that write -/

/-- What is written, with contexts that keep bit 7 clear, leaves a ready state. -/
theorem Wrote.effect (h : Ready s) (w : Wrote s t) (hc : ContextsOk t.ctx) : Effect s t := by
  have hw : Writable s := ⟨h.1, h.2.1⟩
  have m := w.memory hw ⟨h.2.2.2.1, h.2.2.2.2⟩
  have wr := w.writable hw
  have f := w.frame
  refine ⟨w.cfg, ?_, w.param, w.cp, w.status, ?_, ?_, ?_, ?_, ?_, wr.1, wr.2, hc, m.1, m.2⟩ <;> rw [f]

/-- Every state a procedure ends in keeps the contexts of `s`. -/
def KeepsContexts (s : State) (r : Res) : Prop :=
  match r with
  | .ok u => u.ctx = s.ctx
  | .error (.raised t) => t.ctx = s.ctx
  | .error (.fault _) => True
  | .error (.refused _) => True

theorem KeepsContexts.bind {r : Res} {f : State → Res} (a : KeepsContexts s r)
    (b : ∀ t, t.ctx = s.ctx → KeepsContexts t (f t)) : KeepsContexts s (r >>= f) := by
  match r, a with
  | .ok t, e =>
    replace b := b t e
    show KeepsContexts s (f t)
    match f t, b with
    | .ok u, e' => exact Eq.trans e' e
    | .error (.raised _), e' => exact Eq.trans e' e
    | .error (.refused _), _ => trivial
    | .error (.fault _), _ => trivial
  | .error (.raised _), e => exact e
  | .error (.refused _), _ => trivial
  | .error (.fault _), _ => trivial

theorem KeepsContexts.of_eq {r : Res} (e : t.ctx = s.ctx) (a : KeepsContexts t r) : KeepsContexts s r := by
  match r, a with
  | .ok u, e' => exact Eq.trans e' e
  | .error (.raised _), e' => exact Eq.trans e' e
  | .error (.refused _), _ => trivial
  | .error (.fault _), _ => trivial

theorem emit_keepsContexts (bits : List Bool) : KeepsContexts s (emit bits s) := by
  have putRaw : ∀ (bits : List Bool) (s : State), KeepsContexts s (putRaw bits s) := by
    intro bits
    induction bits with
    | nil => intro s; exact rfl
    | cons b bits ih =>
      intro s
      refine KeepsContexts.bind (r := putBitRaw b s) ?_ fun t _ => ih t
      unfold putBitRaw; split <;> first | exact rfl | trivial
  refine KeepsContexts.bind (r := needBits bits.length s) ?_ fun t _ => putRaw bits t
  unfold needBits; split <;> exact rfl

theorem putTrailing_keepsContexts (c : Bool) : KeepsContexts s (putTrailing c s) := by
  unfold putTrailing; split
  · exact rfl
  · exact emit_keepsContexts _

theorem putOutstanding_keepsContexts (b : Bool) (n : Nat) : KeepsContexts s (putOutstanding b n s) := by
  induction n generalizing s with
  | zero => exact rfl
  | succ n ih => exact KeepsContexts.bind (emit_keepsContexts [b]) fun t _ => KeepsContexts.of_eq rfl ih

theorem putBitC_keepsContexts (b : Bool) : KeepsContexts s (putBitC b s) := by
  unfold putBitC
  split
  · exact KeepsContexts.bind (r := .ok _) rfl fun t _ => putOutstanding_keepsContexts _ _
  · exact KeepsContexts.bind (emit_keepsContexts [b]) fun t _ => putOutstanding_keepsContexts _ _

theorem incOutstanding_keepsContexts : KeepsContexts s (incOutstanding s) := by
  unfold incOutstanding; split <;> first | exact rfl | trivial

theorem renormLoop_keepsContexts (n : Nat) : KeepsContexts s (renormLoop n s) := by
  induction n generalizing s with
  | zero => unfold renormLoop; split <;> first | exact rfl | trivial
  | succ n ih =>
    unfold renormLoop; split
    · refine KeepsContexts.bind ?_ fun t _ => KeepsContexts.of_eq rfl (ih (s := doubleInterval t))
      unfold renormBand; split
      · exact putBitC_keepsContexts _
      · split
        · exact KeepsContexts.of_eq rfl (putBitC_keepsContexts _)
        · exact KeepsContexts.of_eq rfl incOutstanding_keepsContexts
    · exact rfl

/-- A writing procedure that keeps the contexts and the interval's soundness performs. -/
theorem Answers.performs (h : Ready s) {r : Res} (a : Answers s r) (k : KeepsContexts s r)
    (c : ∀ t, r = .ok t → CabacOk t.cabac) : Performs s r := by
  match r, a with
  | .ok t, a => exact ⟨Wrote.effect h a (by rw [show t.ctx = s.ctx from k]; exact h.2.2.1), c t rfl⟩
  | .error (.raised t), ⟨u, code, info, w, e⟩ =>
    refine ⟨u, code, info, Wrote.effect h w ?_, e⟩
    have : t.ctx = s.ctx := k
    rw [e] at this
    rw [show u.ctx = s.ctx from this]; exact h.2.2.1
  | .error (.refused _), a => exact a

theorem emit_performs (h : Ready s) (c : CabacOk s.cabac) (bits : List Bool) : Performs s (emit bits s) := by
  refine Answers.performs h (.emit ⟨h.1, h.2.1⟩ bits) (emit_keepsContexts bits) fun t e => ?_
  rw [emit_eq s bits h.1 h.2.1] at e
  split at e
  · cases e; simpa using c
  · cases e

theorem putTrailing_performs (h : Ready s) (c : CabacOk s.cabac) (b : Bool) : Performs s (putTrailing b s) := by
  unfold putTrailing; split
  · exact ⟨.refl h, c⟩
  · exact emit_performs h c _

theorem runActs_performs (base : Nat) (as : List Act) (h : Ready s) (c : CabacOk s.cabac) :
    Performs s (runActs base as s) := by
  induction as generalizing s with
  | nil => exact ⟨.refl h, c⟩
  | cons a as ih =>
    refine Performs.bind ?_ fun t _ e c => ih e.2.2.2.2.2.2.2.2.2.2 c
    cases a with
    | put bits => exact emit_performs h c bits
    | trailing => exact putTrailing_performs h c false
    | mark reg => exact ⟨.refl h, c⟩
    | assign reg v => exact ⟨.refl h, c⟩
    | fail code info => exact .raise (.refl h) _ _

/-! ## The coder -/

theorem ctxByte_bit7 (st : BitVec 6) (m : Bool) : (ctxByte st m).getLsbD 7 = false := by
  revert st m; decide

theorem nextContext_bit7 (byte : Byte) (b : Bool) : (nextContext byte b).getLsbD 7 = false := by
  unfold nextContext; split <;> exact ctxByte_bit7 _ _

theorem initContextByte_bit7 (v : Nat) (qp : Int) : (initContextByte v qp).getLsbD 7 = false := by
  unfold initContextByte; split <;> exact ctxByte_bit7 _ _

theorem contextsOk_set {x : Vector Context 9} (h : ContextsOk x) (i : Fin 9) {v : Byte} (hv : v.getLsbD 7 = false) :
    ContextsOk (x.set i ⟨v, true⟩) := by
  intro j
  by_cases e : i = j
  · subst e; simpa using hv
  · have : (x.set i ⟨v, true⟩)[j] = x[j] := by
      simp only [Fin.getElem_fin]
      exact Vector.getElem_set_ne _ _ (by simpa [Fin.val_inj] using e)
    rw [this]; exact h j

theorem setContext_effect (h : Ready s) (i : Fin 9) {v : Byte} (hv : v.getLsbD 7 = false) :
    Effect s (s.setContext i v) :=
  ⟨rfl, rfl, rfl, rfl, rfl, rfl, rfl, rfl, rfl, rfl, h.1, h.2.1, contextsOk_set h.2.2.1 i hv, h.2.2.2.1, h.2.2.2.2⟩

theorem encodeBin_performs (h : Ready s) (c : CabacOk s.cabac) (i : Fin 9) (b : Bool) : Performs s (encodeBin i b s) := by
  by_cases hv : s.ctx[i].valid = true
  · have a := encodeBin_codes ⟨h.1, h.2.1⟩ c i b hv
    have e : encodeBin i b s = (renormE ((s.setCabac (nextInterval s.ctx[i].byte b s.cabac)).setContext i
        (nextContext s.ctx[i].byte b)) >>= fun t => .ok t.countBin) := by rw [encodeBin, if_pos hv]
    have k : KeepsContexts (s.setContext i (nextContext s.ctx[i].byte b)) (encodeBin i b s) := by
      rw [e]
      refine KeepsContexts.bind ?_ fun t _ => rfl
      exact KeepsContexts.of_eq rfl (renormLoop_keepsContexts 8)
    have hx := contextsOk_set h.2.2.1 i (nextContext_bit7 s.ctx[i].byte b)
    revert a k
    generalize encodeBin i b s = r
    intro a k
    match r, a with
    | .ok t, ⟨hf, e⟩ =>
      exact ⟨Wrote.effect h (e ▸ wrote_coded hf) (by rw [show t.ctx = _ from k]; exact hx),
        by rw [e]; exact codeBin_ok _ _ c⟩
    | .error (.raised t), ⟨_, u, info, w, e⟩ =>
      refine ⟨u, .writerOverrun, info, Wrote.effect h w ?_, e⟩
      have : t.ctx = _ := k
      rw [e] at this
      rw [show u.ctx = _ from this]; exact hx
    | .error (.refused _), ⟨e, _⟩ => exact e
  · have : encodeBin i b s = Machine.raise .ctxUninit (BitVec.ofNat 32 i) s := by
      rw [encodeBin, if_neg hv]
    rw [this]; exact .raise (.refl h) _ _

theorem encodeBinEp_performs (h : Ready s) (c : CabacOk s.cabac) (b : Bool) : Performs s (encodeBinEp b s) := by
  have a := encodeBinEp_codes ⟨h.1, h.2.1⟩ b
  refine Answers.performs h a.answers ?_ fun t e => ?_
  · refine KeepsContexts.bind ?_ fun t _ => rfl
    unfold bypassBand; split
    · exact KeepsContexts.of_eq rfl (putBitC_keepsContexts _)
    · split
      · exact KeepsContexts.of_eq rfl (putBitC_keepsContexts _)
      · exact KeepsContexts.of_eq rfl incOutstanding_keepsContexts
  · rw [e] at a; rw [a.2]; exact codeBypass_ok b c

theorem sliceFinish_performs (h : Ready s) (c : CabacOk s.cabac) : Performs s (sliceFinish s) := by
  have a := sliceFinish_codes ⟨h.1, h.2.1⟩ c
  refine Answers.performs h a.answers ?_ fun t e => ?_
  · refine KeepsContexts.bind (KeepsContexts.of_eq rfl (renormLoop_keepsContexts 8)) fun t _ =>
      KeepsContexts.bind (putBitC_keepsContexts _) fun t _ =>
        KeepsContexts.bind (emit_keepsContexts _) fun t _ => putTrailing_keepsContexts _
  · rw [e] at a; rw [a.2]; exact codeFinish_ok c

theorem runBins_performs (bins : List Bin) (h : Ready s) (c : CabacOk s.cabac) : Performs s (runBins bins s) := by
  induction bins generalizing s with
  | nil => exact ⟨.refl h, c⟩
  | cons b bins ih =>
    refine Performs.bind ?_ fun t _ e c => ih e.2.2.2.2.2.2.2.2.2.2 c
    cases b with
    | ctx i v => exact encodeBin_performs h c i v
    | bypass v => exact encodeBinEp_performs h c v

theorem ctuLoop_performs (e : WalkEnv) (a n : Nat) (h : Ready s) (c : CabacOk s.cabac) :
    Performs s (ctuLoop e a n s) := by
  induction n generalizing a s with
  | zero => exact ⟨.refl h, c⟩
  | succ n ih =>
    refine Performs.bind (runBins_performs _ h c) fun t _ e c => ?_
    split
    · exact sliceFinish_performs e.2.2.2.2.2.2.2.2.2.2 c
    · exact Performs.bind (encodeBin_performs e.2.2.2.2.2.2.2.2.2.2 c _ _) fun t _ e c =>
        ih _ e.2.2.2.2.2.2.2.2.2.2 c

/-! ## The other procedures -/

/-- The copying loop where its bits fit (R135): bits enter; they are the source's bits as `s` holds them where the source
meets no byte the loop writes. -/
theorem copyBits_eq (p n : Nat) (h : Writable s) (hf : Fits s n) :
    ∃ bits, bits.length = n ∧ copyBits p n s = .ok (enter bits s) ∧
      ((p + n ≤ 8 * s.writer.bytePos.toNat ∨ s.cursor + n ≤ 8 * (p / 8)) →
        bits = (List.range n).map fun k => s.bitAt (p + k)) := by
  induction n generalizing s p with
  | zero => exact ⟨[], rfl, rfl, fun _ => rfl⟩
  | succ n ih =>
    have h1 : Fits s 1 := by unfold Fits at *; omega
    have hw := enterBit_writerOk s (s.bitAt p) h.1 h.2 h1
    obtain ⟨bits, hl, e, hb⟩ := ih (p + 1) (s := enterBit (s.bitAt p) s) ⟨h.1, hw⟩ (enterBit_fits s _ n h.1 h.2 hf)
    refine ⟨s.bitAt p :: bits, by simp [hl], ?_, fun hp => ?_⟩
    · simp only [copyBits, putBitRaw_eq s _ (bytePos_lt s h.2 h1), bind, Except.bind, e, enter_cons]
    · have hd := ((writerOk_iff _ _).1 h.2).2.2
      have hc := (fits_iff s _ h.2).1 h1
      have hcur := enterBit_cursor s (s.bitAt p) (by simp only [State.cursor, State.limit] at hc; have := h.1; omega)
      have h3 := s.writer.bitOffset.isLt
      have h4 := (enterBit (s.bitAt p) s).writer.bitOffset.isLt
      have hle : s.writer.bytePos.toNat ≤ (enterBit (s.bitAt p) s).writer.bytePos.toNat := by
        simp only [State.cursor] at hcur; omega
      have same : ∀ k, k < n → (enterBit (s.bitAt p) s).bitAt (p + 1 + k) = s.bitAt (p + 1 + k) := by
        intro k hk
        simp only [State.bitAt]
        rw [enterBit_byteAt, if_neg]
        simp only [State.cursor] at hp
        omega
      rw [hb (by simp only [State.cursor] at *; omega), List.range_succ_eq_map]
      simp only [List.map_cons, Nat.add_zero, List.map_map]
      congr 1
      apply List.map_congr_left
      intro k hk
      simp only [Function.comp]
      rw [same k (List.mem_range.1 hk)]
      congr 1; omega

theorem putBitsBuffer_performs (n : Nat) (h : Ready s) (c : CabacOk s.cabac) : Performs s (putBitsBuffer n s) := by
  unfold putBitsBuffer
  split
  · exact .raise (.refl h) _ _
  · split
    · exact .raise (.refl h) _ _
    · rw [needBits_eq]
      split
      · rename_i hf
        obtain ⟨bits, hl, e, -⟩ := copyBits_eq s.srcBitAddr.toNat n ⟨h.1, h.2.1⟩ hf
        simp only [bind, Except.bind, e]
        have w := Wrote.effect h (⟨bits, s.cabac, s.ctx, s.report, by rw [hl]; exact hf, ?_⟩ : Wrote s (enter bits s))
          (by simpa using h.2.2.1)
        · exact ⟨w, by simpa using c⟩
        · have := enter_with s bits s.cabac s.ctx s.report
          simpa using this
      · exact .raise (.refl h) _ _

theorem maskFirstByte_memory (off : BitVec 3) (h : Ready s)
    (hb : s.writer.bufStart.toNat + s.writer.bufSize.toNat ≤ s.cfg.dmemSize) :
    Memory.wf (maskFirstByte off s).dmem ∧ Memory.within s.cfg.dmemSize (maskFirstByte off s).dmem := by
  unfold maskFirstByte
  split
  · exact h.2.2.2
  · rename_i hz
    refine ⟨Memory.write_wf h.2.2.2.1 _ _, Memory.write_within h.2.2.2.2 ?_ _⟩
    have : s.writer.bufSize.toNat ≠ 0 := fun e => hz (BitVec.eq_of_toNat_eq (by simpa using e))
    omega

@[simp] theorem openWriter_cabac (off : BitVec 3) (s : State) : (openWriter off s).cabac = Cabac.reset := rfl

/-- The writer that `W_INIT` opens once its two checks have passed is sound (R21, R131). -/
theorem opened_writerOk (w : Writer) (off : BitVec 3) {size : Nat} (h : size ≤ 2 ^ 29)
    (hb : w.bufStart.toNat + w.bufSize.toNat ≤ size) (hz : ¬(w.bufSize = 0 ∧ off ≠ 0)) : WriterOk (w.opened off) size := by
  refine ⟨Nat.le_refl _, ?_, ?_, fun e => ?_⟩
  · simp only [Writer.opened]; bv_omega
  · simp only [Writer.opened]; bv_omega
  · simp only [Writer.opened] at e ⊢
    by_contra ho
    exact hz ⟨by bv_omega, ho⟩

/-- What `W_INIT` changes besides the memory (R131). -/
theorem openWriter_eq (off : BitVec 3) (s : State) : openWriter off s =
    { s with writer := s.writer.opened off, cabac := Cabac.reset, dmem := (openWriter off s).dmem } := by
  have e : maskFirstByte off (s.setWriter (s.writer.opened off)) =
      { s with
        writer := s.writer.opened off, dmem := (maskFirstByte off (s.setWriter (s.writer.opened off))).dmem } := by
    unfold maskFirstByte; split <;> rfl
  rw [openWriter, e]; rfl

/-- EVERYTHING `W_INIT` can do (R131). It asks nothing of the coder before it. -/
theorem writerInit_performs (off : BitVec 3) (h : Ready s) : Performs s (writerInit off s) := by
  unfold writerInit
  split
  · exact .raise (.refl h) _ _
  · rename_i hb
    split
    · exact .raise (.refl h) _ _
    · rename_i hz
      have hw := opened_writerOk s.writer off h.1 (Nat.le_of_not_lt hb) hz
      have hm := maskFirstByte_memory (s := s.setWriter (s.writer.opened off)) off
        ⟨h.1, hw, h.2.2.1, h.2.2.2.1, h.2.2.2.2⟩ (by simpa [Writer.opened] using hb)
      refine ⟨?_, by rw [openWriter_cabac]; decide⟩
      have e : (openWriter off s).dmem = (maskFirstByte off (s.setWriter (s.writer.opened off))).dmem := rfl
      rw [openWriter_eq, e]
      exact ⟨rfl, rfl, rfl, rfl, rfl, rfl, rfl, rfl, rfl, rfl, h.1, hw, h.2.2.1, hm.1, hm.2⟩

/-- EVERYTHING `PackRBSP` can do (R201). -/
theorem packRbsp_performs (append : Bool) (pfx : Nat) (h : Ready s) (c : CabacOk s.cabac) :
    Performs s (packRbsp append pfx s) := by
  unfold packRbsp
  split
  · exact .raise (.refl h) _ _
  · split
    · exact .raise (.refl h) _ _
    · rename_i ho
      split
      · exact .raise (.refl h) _ _
      · split
        · have := h.2.1
          exact absurd this (by intro ⟨_, a, b, _⟩; omega)
        · have key : ∀ v, Effect s (s.setOutLen v) := fun v =>
            ⟨rfl, rfl, rfl, rfl, rfl, rfl, rfl, rfl, rfl, rfl, h⟩
          unfold packUnit
          split
          · exact .raise (key 0) _ _
          · rename_i hu
            refine ⟨⟨rfl, rfl, rfl, rfl, rfl, rfl, rfl, rfl, rfl, rfl, h.1, h.2.1, h.2.2.1, ?_, ?_⟩, c⟩
            · exact Memory.writeList_wf h.2.2.2.1 _ _
            · exact Memory.writeList_within h.2.2.2.2 _ (by omega)

theorem packListing_performs (pre : Params → PreCheck) (acts : Params → List Act) (h : Ready s) (c : CabacOk s.cabac) :
    Performs s (packListing pre acts s) := by
  unfold packListing
  split
  · exact .raise (.refl h) _ _
  · exact runActs_performs _ _ h c

theorem packSsh_performs (dyn : Bool) (h : Ready s) (c : CabacOk s.cabac) : Performs s (packSsh dyn s) := by
  unfold packSsh
  split
  · exact .raise (.refl h) _ _
  · split
    · exact .raise (.refl h) _ _
    · have e : Effect s (s.setReport ⟨0, 0, 0, 0, 0⟩) := ⟨rfl, rfl, rfl, rfl, rfl, rfl, rfl, rfl, rfl, rfl, h⟩
      exact Performs.bind (r := .ok _) ⟨e, c⟩ fun t _ e c => by cases ‹Except.ok _ = Except.ok _›; exact runActs_performs _ _ h c

theorem codingTree_performs (a : Nat) (h : Ready s) (c : CabacOk s.cabac) : Performs s (codingTree a s) := by
  unfold codingTree
  split
  · exact .raise (.refl h) _ _
  · split
    · exact .raise (.refl h) _ _
    · split
      · exact .raise (.refl h) _ _
      · exact runBins_performs _ h c

theorem initSkipContexts_effect (l : List Nat) (typ : Nat) (qp : Int) (h : Ready s) (c : CabacOk s.cabac) :
    Effect s (l.foldl (fun t i => initContext (Fin.ofNat 9 i) (initValue typ i) qp t) s) ∧
      CabacOk (l.foldl (fun t i => initContext (Fin.ofNat 9 i) (initValue typ i) qp t) s).cabac := by
  induction l generalizing s with
  | nil => exact ⟨.refl h, c⟩
  | cons i l ih =>
    have e := setContext_effect h (Fin.ofNat 9 i) (initContextByte_bit7 (initValue typ i).toNat qp)
    have := ih e.2.2.2.2.2.2.2.2.2.2 (s := initContext (Fin.ofNat 9 i) (initValue typ i) qp s) c
    exact ⟨e.trans this.1, this.2⟩

theorem skipCtxSetup_performs (h : Ready s) (c : CabacOk s.cabac) : Performs s (skipCtxSetup s) := by
  unfold skipCtxSetup
  split
  · exact .raise (.refl h) _ _
  · obtain ⟨e, c⟩ := initSkipContexts_effect (List.range 8) (Rec.SLICE.type s.params) (sliceQp s.params) h c
    exact ⟨e.trans (setContext_effect e.2.2.2.2.2.2.2.2.2.2 8 (by decide)), c⟩

/-- `cabacInit` establishes the coder's interval (R161, R172). -/
theorem cabacInit_ok (s : State) : CabacOk (cabacInit s).cabac :=
  ⟨(by decide : 256 ≤ (510#32).toNat), (by decide : (510#32).toNat ≤ 510), (by decide : (0#32).toNat < 1024),
    (by decide : (0#32).toNat + (510#32).toNat ≤ 1024)⟩

theorem getSkipSlice_performs (append : Bool) (n : Nat) (h : Ready s) : Performs s (getSkipSlice append n s) := by
  unfold getSkipSlice
  split
  · exact .raise (.refl h) _ _
  · split
    · exact .raise (.refl h) _ _
    · unfold skipSliceBody
      refine Performs.bind (writerInit_performs 0 h) fun t _ e c => ?_
      refine Performs.bind (packSsh_performs false e.2.2.2.2.2.2.2.2.2.2 c) fun t _ e c => ?_
      have e' : Effect t (cabacInit t) := ⟨rfl, rfl, rfl, rfl, rfl, rfl, rfl, rfl, rfl, rfl, e.2.2.2.2.2.2.2.2.2.2⟩
      have setup : Performs t (skipCtxSetup (cabacInit t)) :=
        Performs.bind (r := .ok (cabacInit t)) (f := skipCtxSetup) ⟨e', cabacInit_ok t⟩ fun u hu e c => by
          cases hu; exact skipCtxSetup_performs e'.2.2.2.2.2.2.2.2.2.2 c
      refine Performs.bind setup fun t _ e c => ?_
      exact Performs.bind (ctuLoop_performs _ _ _ e.2.2.2.2.2.2.2.2.2.2 c) fun t _ e c =>
        packRbsp_performs _ _ e.2.2.2.2.2.2.2.2.2.2 c

/-! ## Every command -/

theorem writeTarget_effect (x : SetrTarget) (v : Word) (h : Ready s) :
    Effect s (writeTarget x v s) ∧ (writeTarget x v s).cabac = s.cabac := by
  cases x <;> exact ⟨⟨rfl, rfl, rfl, rfl, rfl, rfl, rfl, rfl, rfl, rfl, h⟩, rfl⟩

/-- EVERYTHING a command other than `END` can do to a ready state with a sound interval: it is the end of a procedure that
performs (R26, R93, R381). -/
theorem exec_performs (i : Instr) (hi : i ≠ .endCmd) (h : Ready s) (c : CabacOk s.cabac) :
    ∃ r, exec i s = finish r ∧ Performs s r := by
  have bad : ∀ info, Performs s (Machine.raise .illegalCmd info s) := fun _ => .raise (.refl h) _ _
  cases i with
  | endCmd => exact absurd rfl hi
  | setr csr v =>
    simp only [exec, execSetr]
    split
    · exact ⟨_, rfl, (writeTarget_effect _ v h).1, by rw [(writeTarget_effect _ v h).2]; exact c⟩
    · exact ⟨_, rfl, bad _⟩
  | wInit off => exact ⟨_, rfl, writerInit_performs off h⟩
  | putBits n v =>
    refine ⟨_, rfl, ?_⟩
    split
    · exact emit_performs h c _
    · exact bad _
  | putBit b => exact ⟨_, rfl, emit_performs h c _⟩
  | putBitsBuffer n => exact ⟨_, rfl, putBitsBuffer_performs _ h c⟩
  | putUe v => exact ⟨_, rfl, emit_performs h c _⟩
  | putSe v => exact ⟨_, rfl, emit_performs h c _⟩
  | putTrailing b => exact ⟨_, rfl, putTrailing_performs h c b⟩
  | cabacInit => exact ⟨.ok (cabacInit s), rfl, ⟨rfl, rfl, rfl, rfl, rfl, rfl, rfl, rfl, rfl, rfl, h⟩, cabacInit_ok s⟩
  | ctxInit ctx v qp =>
    simp only [exec, execCtxInit]
    split
    · exact ⟨_, rfl, setContext_effect h _ (initContextByte_bit7 _ _), c⟩
    · exact ⟨_, rfl, bad _⟩
  | ctxSet ctx raw =>
    simp only [exec, execCtxSet]
    split
    · exact ⟨_, rfl, setContext_effect h _ (by simp), c⟩
    · exact ⟨_, rfl, bad _⟩
  | encBin ctx b =>
    simp only [exec, execEncBin]
    split
    · exact ⟨_, rfl, encodeBin_performs h c _ b⟩
    · exact ⟨_, rfl, bad _⟩
  | encBinEp b => exact ⟨_, rfl, encodeBinEp_performs h c b⟩
  | sliceFinish => exact ⟨_, rfl, sliceFinish_performs h c⟩
  | packRbsp append pfx => exact ⟨_, rfl, packRbsp_performs append _ h c⟩
  | packNalu => exact ⟨_, rfl, runActs_performs _ _ h c⟩
  | packVps => exact ⟨_, rfl, packListing_performs _ _ h c⟩
  | packSps => exact ⟨_, rfl, packListing_performs _ _ h c⟩
  | packPps => exact ⟨_, rfl, packListing_performs _ _ h c⟩
  | packSsh dyn => exact ⟨_, rfl, packSsh_performs dyn h c⟩
  | codingTree a => exact ⟨_, rfl, codingTree_performs _ h c⟩
  | getSkipSlice append n => exact ⟨_, rfl, getSkipSlice_performs append _ h⟩

end Sys2Proof.Machine
end

