-- ==== Sys2Proof/Laws/PerInstr.lean ====
section
/-! SUPPORT. What the encoder's fields hold, command by command: `build` reads every operand back from them, and no bit
that the command does not use is set. -/

namespace Sys2Proof.Laws.OperandFields

/-- The fields of a command give the command back (R90, R92) and leave every unused bit clear (R95). -/
def Statement (i : Instr) : Prop :=
  (fieldsFor i).opc = opcodeOf i ∧ build (fieldsFor i) = some i ∧
    ∃ m, usedBits (opcodeOf i) = some m ∧ reservedClear (fieldsFor i) m = true

theorem low_bits {w v : Nat} (h : v ≤ w) (x : BitVec v) : (x.setWidth w).extractLsb' 0 v = x := by
  ext k hk
  simp [hk]
  omega

theorem high_bits {w v : Nat} (x : BitVec v) (m : BitVec w) (h : ∀ k < v, m.getLsbD k = false) :
    x.setWidth w &&& m = 0 := by
  ext k hk
  by_cases hv : k < v
  · have := h k hv
    rw [← BitVec.getLsbD_eq_getElem] at *
    simp [this]
  · simp [BitVec.getLsbD_of_ge x k (by omega)]

theorem oneBit_bitField {w : Nat} (h : 0 < w) (b : Bool) : oneBit (bitField w b) = b := by
  cases b <;> simp [oneBit, bitField, h]

theorem endCmd : Statement .endCmd := by
  refine ⟨rfl, rfl, _, rfl, ?_⟩; simp [reservedClear, fieldsFor]

theorem setr (csr : BitVec 8) (value : Word) : Statement (.setr csr value) := by
  refine ⟨rfl, rfl, _, rfl, ?_⟩; simp [reservedClear, fieldsFor]

theorem wInit (off : BitVec 3) : Statement (.wInit off) := by
  refine ⟨rfl, congrArg (fun x => some (Instr.wInit x)) (low_bits (by omega) off), _, rfl, ?_⟩
  simpa [reservedClear, fieldsFor] using high_bits _ _ (by decide)

theorem putBits (n : BitVec 8) (value : Word) : Statement (.putBits n value) := by
  refine ⟨rfl, rfl, _, rfl, ?_⟩; simp [reservedClear, fieldsFor]

theorem putBit (b : Bool) : Statement (.putBit b) := by
  cases b
  all_goals refine ⟨rfl, rfl, _, rfl, ?_⟩; simp [reservedClear, fieldsFor, bitField]

theorem putBitsBuffer (n : Word) : Statement (.putBitsBuffer n) := by
  refine ⟨rfl, rfl, _, rfl, ?_⟩; simp [reservedClear, fieldsFor]

theorem putUe (v : Word) : Statement (.putUe v) := by
  refine ⟨rfl, rfl, _, rfl, ?_⟩; simp [reservedClear, fieldsFor]

theorem putSe (v : Word) : Statement (.putSe v) := by
  refine ⟨rfl, rfl, _, rfl, ?_⟩; simp [reservedClear, fieldsFor]

theorem putTrailing (c : Bool) : Statement (.putTrailing c) := by
  cases c
  all_goals refine ⟨rfl, rfl, _, rfl, ?_⟩; simp [reservedClear, fieldsFor, bitField]

theorem cabacInit : Statement .cabacInit := by
  refine ⟨rfl, rfl, _, rfl, ?_⟩; simp [reservedClear, fieldsFor]

theorem ctxInit (ctx : BitVec 8) (initVal : BitVec 8) (qp : Word) : Statement (.ctxInit ctx initVal qp) := by
  refine ⟨rfl, congrArg (fun x => some (Instr.ctxInit ctx x qp)) (low_bits (by omega) initVal), _, rfl, ?_⟩
  simpa [reservedClear, fieldsFor] using high_bits _ _ (by decide)

theorem ctxSet (ctx : BitVec 8) (raw : BitVec 7) : Statement (.ctxSet ctx raw) := by
  refine ⟨rfl, congrArg (fun x => some (Instr.ctxSet ctx x)) (low_bits (by omega) raw), _, rfl, ?_⟩
  simpa [reservedClear, fieldsFor] using high_bits _ _ (by decide)

theorem encBin (ctx : BitVec 8) (binVal : Bool) : Statement (.encBin ctx binVal) := by
  refine ⟨rfl, congrArg (fun x => some (Instr.encBin ctx x)) (oneBit_bitField (by omega) binVal), _, rfl, ?_⟩
  cases binVal <;> simp [reservedClear, fieldsFor, bitField]

theorem encBinEp (binVal : Bool) : Statement (.encBinEp binVal) := by
  cases binVal
  all_goals refine ⟨rfl, rfl, _, rfl, ?_⟩; simp [reservedClear, fieldsFor, bitField]

theorem sliceFinish : Statement .sliceFinish := by
  refine ⟨rfl, rfl, _, rfl, ?_⟩; simp [reservedClear, fieldsFor]

theorem packRbsp (append : Bool) (pfx : BitVec 8) : Statement (.packRbsp append pfx) := by
  refine ⟨rfl, congrArg some (congrArg₂ Instr.packRbsp (oneBit_bitField (by omega) append) (low_bits (by omega) pfx)), _,
    rfl, ?_⟩
  cases append <;> simpa [reservedClear, fieldsFor, bitField] using high_bits _ _ (by decide)

theorem packNalu : Statement .packNalu := by
  refine ⟨rfl, rfl, _, rfl, ?_⟩; simp [reservedClear, fieldsFor]

theorem packVps : Statement .packVps := by
  refine ⟨rfl, rfl, _, rfl, ?_⟩; simp [reservedClear, fieldsFor]

theorem packSps : Statement .packSps := by
  refine ⟨rfl, rfl, _, rfl, ?_⟩; simp [reservedClear, fieldsFor]

theorem packPps : Statement .packPps := by
  refine ⟨rfl, rfl, _, rfl, ?_⟩; simp [reservedClear, fieldsFor]

theorem packSsh (dyn : Bool) : Statement (.packSsh dyn) := by
  cases dyn
  all_goals refine ⟨rfl, rfl, _, rfl, ?_⟩; simp [reservedClear, fieldsFor, bitField]

theorem codingTree (ctu : Word) : Statement (.codingTree ctu) := by
  refine ⟨rfl, rfl, _, rfl, ?_⟩; simp [reservedClear, fieldsFor]

theorem getSkipSlice (append : Bool) (n : Word) : Statement (.getSkipSlice append n) := by
  refine ⟨rfl, congrArg (fun x => some (Instr.getSkipSlice x n)) (oneBit_bitField (by omega) append), _, rfl, ?_⟩
  cases append <;> simp [reservedClear, fieldsFor, bitField]

end Sys2Proof.Laws.OperandFields
end

