-- ==== Sys2Proof/Laws/Step.lean ====
section
/-! SUPPORT. What one step is made of: who has the turn, what a fetch answers, what passing a cycle changes, what a host
access can be. Proofs about `step` cite these instead of unfolding it. -/

namespace Sys2Proof.Machine

variable {s : State}

/-! ## Passing a cycle touches the host's own record alone -/

/-- Everything a tick can do. -/
theorem hostTick_eq (s : State) : ∃ l, hostTick s = { s with hostPending := l } := by
  unfold hostTick; split <;> exact ⟨_, rfl⟩

@[simp] theorem hostTick_cfg (s : State) : (hostTick s).cfg = s.cfg := by unfold hostTick; split <;> rfl
@[simp] theorem hostTick_writer (s : State) : (hostTick s).writer = s.writer := by unfold hostTick; split <;> rfl
@[simp] theorem hostTick_cabac (s : State) : (hostTick s).cabac = s.cabac := by unfold hostTick; split <;> rfl
@[simp] theorem hostTick_ctx (s : State) : (hostTick s).ctx = s.ctx := by unfold hostTick; split <;> rfl
@[simp] theorem hostTick_cp (s : State) : (hostTick s).cp = s.cp := by unfold hostTick; split <;> rfl
@[simp] theorem hostTick_status (s : State) : (hostTick s).status = s.status := by unfold hostTick; split <;> rfl
@[simp] theorem hostTick_cmd (s : State) : (hostTick s).cmd = s.cmd := by unfold hostTick; split <;> rfl
@[simp] theorem hostTick_param (s : State) : (hostTick s).param = s.param := by unfold hostTick; split <;> rfl
@[simp] theorem hostTick_dmem (s : State) : (hostTick s).dmem = s.dmem := by unfold hostTick; split <;> rfl
@[simp] theorem hostTick_faultCp (s : State) : (hostTick s).faultCp = s.faultCp := by unfold hostTick; split <;> rfl
@[simp] theorem hostTick_faultInfo (s : State) : (hostTick s).faultInfo = s.faultInfo := by unfold hostTick; split <;> rfl

theorem hostTick_of_nil (h : s.hostPending = []) : hostTick s = s := by simp [hostTick, h]

theorem hostDue_of_nil (h : s.hostPending = []) : hostDue s = false := by simp [hostDue, h]

/-! ## Who has the turn (R73, R93, R405) -/

theorem step_of_hostDue (h : hostDue s = true) : step s = hostTurn s := by simp [step, h]

theorem step_of_running (h : hostDue s = false) (r : s.status.run = true) : step s = engineCycle (hostTick s) := by
  simp [step, h, r]

theorem step_of_idle (h : hostDue s = false) (r : s.status.run = false) : step s = .next (hostTick s) := by
  simp [step, h, r]

/-! ## What a fetch answers (R382, R386, R391) -/

theorem fetchCommand_of_decode {i : Instr} (h : s.cp.toNat < s.cfg.cmdWords)
    (d : decode (s.cmd.read s.cp.toNat) = .ok i) : fetchCommand s = .ok i := by simp [fetchCommand, h, d]

theorem fetchCommand_of_illegal {e : DecodeError} (h : s.cp.toNat < s.cfg.cmdWords)
    (d : decode (s.cmd.read s.cp.toNat) = .error e) :
    fetchCommand s = .error (s.takeFault .illegalCmd ((fieldsOf (s.cmd.read s.cp.toNat)).opc.setWidth 32)) := by
  simp [fetchCommand, h, d]

theorem fetchCommand_past_end (h : s.cfg.cmdWords ≤ s.cp.toNat) :
    fetchCommand s = .error (s.takeFault .cmdFetch (indexWord s.cp)) := by simp [fetchCommand, Nat.not_lt.mpr h]

theorem fetchCommand_hostTick {i : Instr} : fetchCommand (hostTick s) = .ok i ↔ fetchCommand s = .ok i := by
  simp only [fetchCommand, hostTick_cp, hostTick_cfg, hostTick_cmd]
  split
  · cases decode (s.cmd.read s.cp.toNat) <;> simp
  · simp

/-! ## What a host access can be (R34, R60, R73) -/

/-- Everything a memory port can answer. -/
theorem memoryPort_cases (index size : Nat) (s t : State) :
    (memoryPort index size s t = .next t ∧ s.status.run = false ∧ index < size) ∨
      (memoryPort index size s t = .refused .hostAccessWhileRunning ∧ s.status.run = true) ∨
      (memoryPort index size s t = .refused .hostIndexOutOfRange ∧ s.status.run = false ∧ size ≤ index) := by
  unfold memoryPort
  split
  · exact .inr (.inl ⟨rfl, ‹_›⟩)
  · split
    · exact .inl ⟨rfl, by simpa using ‹¬s.status.run = true›, ‹_›⟩
    · exact .inr (.inr ⟨rfl, by simpa using ‹¬s.status.run = true›, Nat.not_lt.mp ‹_›⟩)

/-- Everything a write of `CTRL` can answer. -/
theorem writeCtrl_cases (v : Word) (s : State) :
    (∃ r, writeCtrl v s = .refused r) ∨ (writeCtrl v s = .next (ctrlReset s) ∧ v.getLsbD 1 = true) ∨
      (writeCtrl v s = .next (startRun s) ∧ s.status.run = false ∧ s.status.fault = false) ∨
      (writeCtrl v s = .next s ∧ s.status.run = false) := by
  unfold writeCtrl
  split
  · exact .inl ⟨_, rfl⟩
  · split
    · exact .inr (.inl ⟨rfl, ‹_›⟩)
    · split
      · exact .inl ⟨_, rfl⟩
      · have run : s.status.run = false := by simpa using ‹¬s.status.run = true›
        split
        · rename_i h
          have h : v.getLsbD 0 = true ∧ s.status.fault = false := by simpa using h
          exact .inr (.inr (.inl ⟨rfl, run, h.2⟩))
        · exact .inr (.inr (.inr ⟨rfl, run⟩))

end Sys2Proof.Machine
end

