-- ==== Sys2Proof/Tests/Slice0.lean ====
section
/-! SUPPORT. The model's own tests. Expected values come from the spec: the opcode table (R92, R99), the worked tables of
spec/95_test_vectors.md, 96_test_vectors_units.md and 97_test_vectors_skip.md, or hand calculation from the rule named.
After them, for every statement with hypotheses, states and operands that meet them. -/

namespace Sys2Proof.Tests.Slice0
open Sys2Proof Sys2Proof.Machine

/-! ## Helpers -/

/-- What `f` sees in the state after one command; `none` where the model stops. -/
def after {α : Type} (f : State → α) (i : Instr) (s : State) : Option α :=
  match exec i s with
  | .next t => some (f t)
  | .fault _ => none
  | .refused _ => none

/-- What `f` sees in the state after one step. -/
def afterStep {α : Type} (f : State → α) (s : State) : Option α :=
  match step s with
  | .next t => some (f t)
  | .fault _ => none
  | .refused _ => none

/-- What `f` sees in the state after one host access. -/
def afterHost {α : Type} (f : State → α) (a : HostAccess) (s : State) : Option α :=
  match hostAccess a s with
  | .next t => some (f t)
  | .fault _ => none
  | .refused _ => none

/-- The command has a next state in which no fault has been raised. -/
def completes (i : Instr) (s : State) : Bool := after (fun t => t.status.fault) i s == some false

/-- `n` bytes from address `a` on, as numbers. -/
def bytes (a n : Nat) (s : State) : List Nat := (s.dmem.readList a n).map BitVec.toNat

/-- The fault code and the information word: `(0, 0)` where there is no fault. -/
def fault (s : State) : Nat × Nat := (s.status.faultCode.toNat, s.faultInfo.toNat)

/-- The cursor: byte position and bit offset. -/
def cursor (s : State) : Nat × Nat := (s.writer.bytePos.toNat, s.writer.bitOffset.toNat)

/-- `COD_I_LOW`, `COD_I_RANGE`, `BITS_OUTSTANDING`, `FIRST_BIT_FLAG`, `BIN_COUNT`. -/
def coder (s : State) : List Nat :=
  [s.cabac.low.toNat, s.cabac.range.toNat, s.cabac.outstanding.toNat, s.cabac.firstBit.toNat, s.cabac.binCount.toNat]

/-- A run in progress, the writer just opened on `size` bytes at 0x100. -/
def bench (size : Nat) : State :=
  { State.reset with
    writer := ⟨0x100, BitVec.ofNat 32 size, 0x100, BitVec.ofNat 32 (0x100 + size), 0x100, 0⟩
    status := ⟨true, false, false, 0⟩ }

/-- A faulted engine: `CTX_UNINIT` at command 2. -/
def faulted : State :=
  { State.reset with cp := 2, status := ⟨false, false, true, 8⟩, faultCp := 2, faultInfo := 3 }

/-- The coder in the middle of a slice, every context valid (the bytes of spec/97, section 7.1). -/
def coding (size : Nat) : State :=
  { bench size with
    ctx := #v[⟨0x40, true⟩, ⟨0x10, true⟩, ⟨0x00, true⟩, ⟨0x4F, true⟩, ⟨0x0F, true⟩, ⟨0x48, true⟩, ⟨0x50, true⟩,
      ⟨0x10, true⟩, ⟨0x3F, true⟩] }

/-- The `n` words from `base` on: those of `m`, and 0 where `m` lists none. -/
def fill (base n : Nat) (m : Memory 32) : Memory 32 :=
  (List.range n).map fun k => (base + k, ((Memory.written m (base + k)).getD 0))

/-- The standard `VPS` record (spec/96, section 5.1). -/
def vpsRecord : Memory 32 := fill 0x0100 0x8B [(0x0101, 3), (0x0104, 1), (0x0105, 65535), (0x0108, 1), (0x0109, 0x60000000), (0x010A, 1),
  (0x010D, 1), (0x0110, 120), (0x016C, 1), (0x016D, 1)]

/-- The words of the standard `SPS` record (spec/96, section 5.1) that are not 0, with a picture of `w` by `h`. -/
def spsWords (w h : Word) : Memory 32 := [(0x0202, 1), (0x0205, 1), (0x0206, 0x60000000), (0x0207, 1), (0x020A, 1),
  (0x020D, 120), (0x026A, 1), (0x026C, w), (0x026D, h), (0x0275, 4), (0x0276, 1), (0x0277, 1), (0x028D, 3), (0x028F, 3),
  (0x0290, 2), (0x0291, 2), (0x0293, 1), (0x0294, 1), (0x0296, 1), (0x029B, 1), (0x029D, 0xFFFFFFFF), (0x029E, 1),
  (0x19F4, 1), (0x19F5, 1)]

/-- The part of an `SPS` record that `PACK_SPS` and `PACK_SSH` read without VUI, long-term pictures and a third set. -/
def spsFrom (m : Memory 32) : Memory 32 := fill 0x0200 0xF2 m ++ fill 0x19B2 0x45 m ++ fill 0x1EAE 1 m

/-- The standard `SPS` record with a picture of `w` by `h`. -/
def spsRecord (w h : Word) : Memory 32 := spsFrom (spsWords w h)

/-- The standard `PPS` record (spec/96, section 5.1). -/
def ppsRecord : Memory 32 := fill 0x1F00 0x4D [(0x1F06, 1), (0x1F0C, 1), (0x1F42, 1), (0x1F43, 1)]

/-- The `NALU` record of spec/97, section 7. -/
def naluRecord : Memory 32 := [(0x0000, 1), (0x0001, 1), (0x0002, 0), (0x0003, 1)]

/-- The words of an `SPS` record that `PACK_SSH` reads for a picture of `w` by `h`. -/
def spsOfSlice (w h : Word) : Memory 32 :=
  fill 0x026A 0x2D (spsWords w h) ++ fill 0x19B2 2 (spsWords w h) ++ fill 0x19F4 1 (spsWords w h)

/-- The words of a `SLICE` record that a P slice without long-term pictures and weights reads. -/
def sliceFrom (m : Memory 32) : Memory 32 := fill 0x2000 0x0C m ++ fill 0x210E 7 m ++ fill 0x2138 3 m ++ fill 0x223D 10 m

/-- The `SLICE` record of spec/97, section 7.1: a P slice. -/
def sliceRecord : Memory 32 := sliceFrom [(0x2000, 1), (0x2006, 1), (0x2009, 5), (0x200A, 1), (0x2139, 1), (0x2245, 1)]

/-- The 64×64 P slice of spec/97, section 7.1, in state `s`. -/
def withSlice (s : State) : State :=
  { s with param := naluRecord ++ spsOfSlice 64 64 ++ ppsRecord ++ sliceRecord }

/-- The set-up of spec/97, section 7, with smaller regions: 64 bytes at 0, 64 bytes at 0x4000. -/
def skipBench : State :=
  { withSlice State.reset with
    writer := ⟨0, 64, 0, 0, 0, 0⟩, out := ⟨0x4000, 64, 0⟩, status := ⟨true, false, false, 0⟩ }

/-- The writer's bytes `00 00 01` at 0 and an output region of `size` bytes at 0x100 (spec/95, section 8). -/
def packBench (size : Nat) : State :=
  { State.reset with
    dmem := [(0, 0), (1, 0), (2, 1)], writer := ⟨0, 64, 0, 64, 3, 0⟩, out := ⟨0x100, BitVec.ofNat 32 size, 0⟩
    status := ⟨true, false, false, 0⟩ }

/-! ## Well-formedness: an ill-formed operand for each check (R92) -/

theorem test_setr_refuses_read_only : (Instr.setr 0x0A 0).wf = false := by decide
theorem test_putBits_refuses_33 : (Instr.putBits 33 0).wf = false := by decide
theorem test_ctxInit_refuses_9 : (Instr.ctxInit 9 154 26).wf = false := by decide
theorem test_ctxSet_refuses_9 : (Instr.ctxSet 9 0).wf = false := by decide
theorem test_encBin_refuses_9 : (Instr.encBin 9 true).wf = false := by decide
theorem test_bounds_are_well_formed :
    (Instr.putBits 32 0).wf = true ∧ (Instr.ctxSet 8 0).wf = true ∧ (Instr.setr 0x19 0).wf = true := by decide

/-! ## Decoding: a word written out from R92 for every command -/

theorem test_decode_system :
    decode 0x0000000000000000 = .ok .endCmd ∧ decode 0x010C000000001000 = .ok (.setr 0x0C 0x1000) := by decide

theorem test_decode_writer :
    decode 0x1005000000000000 = .ok (.wInit 5) ∧ decode 0x1120000089ABCDEF = .ok (.putBits 32 0x89ABCDEF) ∧
      decode 0x1201000000000000 = .ok (.putBit true) ∧ decode 0x1300000000000010 = .ok (.putBitsBuffer 16) ∧
      decode 0x14000000FFFFFFFF = .ok (.putUe 0xFFFFFFFF) ∧ decode 0x1500000080000000 = .ok (.putSe 0x80000000) ∧
      decode 0x1601000000000000 = .ok (.putTrailing true) := by decide

theorem test_decode_cabac :
    decode 0x2000000000000000 = .ok .cabacInit ∧ decode 0x2108009A00000033 = .ok (.ctxInit 8 154 51) ∧
      decode 0x220800000000003F = .ok (.ctxSet 8 63) ∧ decode 0x2304000000000001 = .ok (.encBin 4 true) ∧
      decode 0x2400000000000001 = .ok (.encBinEp true) ∧ decode 0x2500000000000000 = .ok .sliceFinish := by decide

theorem test_decode_packers :
    decode 0x3001000300000000 = .ok (.packRbsp true 3) ∧ decode 0x4000000000000000 = .ok .packNalu ∧
      decode 0x4100000000000000 = .ok .packVps ∧ decode 0x4200000000000000 = .ok .packSps ∧
      decode 0x4300000000000000 = .ok .packPps ∧ decode 0x4401000000000000 = .ok (.packSsh true) := by decide

theorem test_decode_skip_slice :
    decode 0x50000000000001FD = .ok (.codingTree 509) ∧ decode 0x5100000000000001 = .ok (.getSkipSlice false 1) := by
  decide

/-- R95: the three tests in their order (an unassigned opcode with bits set, a reserved bit beside a bad value, a bad
value alone). -/
theorem test_decode_refuses :
    decode 0x0200000000000001 = .error .unassignedOpcode ∧ decode 0x1121000100000000 = .error .reservedBit ∧
      decode 0x1121000000000000 = .error .badOperand ∧ decode 0x2208000000000080 = .error .reservedBit := by decide

/-- The host's two questions evaluate in the kernel (R96: 64 bits, no operand word beyond). -/
theorem test_host_questions :
    decodeTableWord 64 0x2304000000000001 = some (.encBin 4 true) ∧
      afterStep (fun t => (fault t, cursor t)) (State.reset.withFetchWord 64 0x1201000000000000) = some ((2, 0), (0, 0)) ∧
      afterStep (fun t => t.cp.toNat) (State.reset.withFetchWord 64 0x010C000000001000) = some 1 := by decide

/-! ## System commands -/

/-- R120. -/
theorem test_end : after (fun t => (t.status.run, t.status.done, t.cp.toNat)) .endCmd (bench 4) = some (false, true, 0) := by
  decide

/-- R121: the value lands in the register named and in no other. -/
theorem test_setr :
    after (fun t => (t.out.start.toNat, t.out.size.toNat, t.cp.toNat)) (.setr 0x18 0x1000) (bench 4) = some (0x1000, 0, 1) := by
  decide

/-! ## The bit writer (spec/95, sections 2 and 3) -/

/-- Section 2.1, row 2: `W_INIT 3` over `FF FF FF FF`. -/
theorem test_wInit_keeps_top_bits :
    after (fun t => (bytes 0x100 2 t, cursor t, coder t)) (.wInit 3)
      { bench 4 with dmem := [(0x100, 0xFF), (0x101, 0xFF)], cabac := ⟨5, 300, 2, false, 9⟩ } =
      some ([0xE0, 0xFF], (0x100, 3), [0, 510, 0, 1, 0]) := by decide

/-- Section 2.1, refusals: 0xFFF0 + 0x11 passes the end of `DMEM`. -/
theorem test_wInit_range :
    after fault (.wInit 0) { bench 4 with writer := ⟨0xFFF0, 0x11, 0, 0, 0, 0⟩ } = some (7, 1) := by decide

/-- Section 2.2, row 7: `PUT_BITS 12, 0xABC`. -/
theorem test_putBits : after (fun t => (bytes 0x100 2 t, cursor t)) (.putBits 12 0xABC) (bench 64) = some ([0xAB, 0xC0], (0x101, 4)) := by
  decide

/-- Section 2.2, row 3: bits of the value above bit `n - 1` are ignored. -/
theorem test_putBits_ignores_high_bits :
    after (fun t => (bytes 0x100 1 t, cursor t)) (.putBits 1 0xFFFFFFFE) (bench 64) = some ([0], (0x100, 1)) := by decide

/-- Section 2.2: a bit at offset 7 finishes the byte. -/
theorem test_putBit_finishes_byte :
    after (fun t => (bytes 0x100 1 t, cursor t)) (.putBit true)
      { bench 4 with dmem := [(0x100, 0xFE)], writer := ⟨0x100, 4, 0x100, 0x104, 0x100, 7⟩ } = some ([0xFF], (0x101, 0)) := by
  decide

/-- Section 2.5, last row: no room from reset. -/
theorem test_putBit_overrun : after fault (.putBit true) { bench 4 with writer := ⟨0, 0, 0, 0, 0, 0⟩ } = some (2, 0) := by decide

/-- Section 2.4, row 1. -/
theorem test_putBitsBuffer :
    after (fun t => (bytes 0x100 2 t, cursor t, t.srcBitAddr.toNat)) (.putBitsBuffer 16)
      { bench 64 with dmem := [(0x200, 0x12), (0x201, 0x34)], srcBitAddr := 0x1000 } = some ([0x12, 0x34], (0x102, 0), 0x1010) := by
  decide

/-- Section 2.4, refusals: the ninth bit is the writer's first. -/
theorem test_putBitsBuffer_meets_writer :
    after fault (.putBitsBuffer 9) { bench 64 with srcBitAddr := 0x7F8 } = some (7, 5) := by decide

/-- Section 3: `PUT_UE 15`. -/
theorem test_putUe : after (fun t => (bytes 0x100 2 t, cursor t)) (.putUe 15) (bench 64) = some ([0x08, 0x00], (0x101, 1)) := by
  decide

/-- Section 3: `PUT_UE 4294967295`, the 65-bit code. -/
theorem test_putUe_longest :
    after (fun t => (bytes 0x100 9 t, cursor t)) (.putUe 0xFFFFFFFF) (bench 64) =
      some ([0, 0, 0, 0, 0x80, 0, 0, 0, 0], (0x108, 1)) := by decide

/-- Section 3: `PUT_SE -3`. -/
theorem test_putSe_negative : after (fun t => (bytes 0x100 1 t, cursor t)) (.putSe 0xFFFFFFFD) (bench 64) = some ([0x38], (0x100, 5)) := by
  decide

/-- Section 3: `PUT_SE 3`. -/
theorem test_putSe_positive : after (fun t => (bytes 0x100 1 t, cursor t)) (.putSe 3) (bench 64) = some ([0x30], (0x100, 5)) := by
  decide

/-- Section 2.3: `PUT_TRAILING` at an aligned cursor. -/
theorem test_putTrailing_aligned :
    after (fun t => (bytes 0x100 1 t, t.bitpos)) (.putTrailing false) (bench 64) = some ([0x80], 8) ∧
      after (fun t => (bytes 0x100 1 t, t.bitpos)) (.putTrailing true) { bench 64 with dmem := [(0x100, 7)] } =
        some ([7], 0) := by decide

/-- Section 2.3, `k = 5`. -/
theorem test_putTrailing_pads :
    after (fun t => (bytes 0x100 1 t, t.bitpos)) (.putTrailing true)
      { bench 64 with dmem := [(0x100, 0)], writer := ⟨0x100, 64, 0x100, 0x140, 0x100, 5⟩ } = some ([0x04], 8) := by decide

/-! ## The arithmetic coder (spec/95, section 4) -/

/-- R161: the four registers; `BIN_COUNT` stays. -/
theorem test_cabacInit :
    after coder .cabacInit { bench 4 with cabac := ⟨1, 2, 3, false, 4⟩ } = some [0, 510, 0, 1, 4] := by decide

/-- Section 4.1: the row 107 at QP 26, which floor division decides, and a clipped negative QP. -/
theorem test_ctxInit :
    after (fun t => t.ctx[0].byte.toNat) (.ctxInit 0 107 26) (bench 4) = some 0x10 ∧
      after (fun t => t.ctx[0].byte.toNat) (.ctxInit 0 197 0x80000000) (bench 4) = some 0x27 := by decide

/-- Section 4.2, set-up: `CTX_SET 8, 63`. -/
theorem test_ctxSet : after (fun t => t.ctx[8]) (.ctxSet 8 63) (bench 4) = some ⟨0x3F, true⟩ := by decide

/-- Section 4.2, row 1: an LPS. -/
theorem test_encBin_lps :
    after (fun t => (coder t, t.ctx[4].byte.toNat, t.bitpos)) (.encBin 4 true) (coding 64) =
      some ([64, 440, 2, 1, 1], 0x0C, 0) := by decide

/-- Section 4.2, row 4: an MPS whose renormalisation releases four outstanding bits. -/
theorem test_encBin_mps :
    after (fun t => (coder t, bytes 0x100 1 t, t.bitpos)) (.encBin 4 false)
      { (coding 64).setContext 4 0x0A with cabac := ⟨36, 314, 4, true, 3⟩ } =
      some ([72, 458, 0, 0, 4], [0xF0], 4) := by decide

/-- Section 4.2, row 7: a bypass bin that sends a 1 at bit 5. -/
theorem test_encBinEp :
    after (fun t => (coder t, bytes 0x100 1 t, t.bitpos)) (.encBinEp true)
      { coding 64 with
        cabac := ⟨467, 323, 0, false, 6⟩, dmem := [(0x100, 0xF0)], writer := ⟨0x100, 64, 0x100, 0x140, 0x100, 5⟩ } =
      some ([233, 323, 0, 0, 7], [0xF4], 6) := by decide

/-- Section 4.3, row 1: the empty slice. -/
theorem test_sliceFinish_empty :
    after (fun t => (coder t, bytes 0x100 2 t, t.bitpos)) .sliceFinish (coding 64) =
      some ([0, 256, 0, 0, 0], [0xFE, 0x80], 16) := by decide

/-! ## Packers (spec/95, section 8; spec/96, section 5; spec/97, section 7) -/

/-- Section 8, row 4. -/
theorem test_packRbsp :
    after (fun t => (bytes 0x100 4 t, t.out.len.toNat)) (.packRbsp false 0) (packBench 128) = some ([0, 0, 3, 1], 4) := by decide

/-- Section 8, the fault table: one byte short. -/
theorem test_packRbsp_too_small :
    after (fun t => (fault t, t.out.len.toNat, bytes 0x100 3 t)) (.packRbsp false 0)
      { packBench 3 with dmem := [(0, 0), (1, 0), (2, 1), (0x100, 0xAA), (0x101, 0xBB), (0x102, 0xCC)] } =
      some ((3, 4), 0, [0xAA, 0xBB, 0xCC]) := by decide

/-- Section 7.1: the first 48 bits of the header. -/
theorem test_packNalu :
    after (fun t => (bytes 0x100 6 t, t.bitpos)) .packNalu { bench 64 with param := naluRecord } =
      some ([0, 0, 0, 1, 2, 1], 48) := by decide

/-- Section 5.2: the 24 bytes of the standard VPS. -/
theorem test_packVps :
    after (fun t => (bytes 0x100 24 t, t.bitpos)) .packVps { bench 64 with param := vpsRecord } =
      some ([0x00, 0x00, 0x00, 0x01, 0x40, 0x01, 0x0C, 0x01, 0xFF, 0xFF, 0x01, 0x60, 0x00, 0x00, 0x00, 0x90, 0x00, 0x00, 0x00,
        0x00, 0x00, 0x78, 0xAC, 0x09], 192) := by decide +kernel

/-- Section 5.3: the 32 bytes of the standard SPS. -/
theorem test_packSps :
    after (fun t => (bytes 0x100 32 t, t.bitpos)) .packSps { bench 64 with param := spsRecord 1920 1080 } =
      some ([0x00, 0x00, 0x00, 0x01, 0x42, 0x01, 0x01, 0x01, 0x60, 0x00, 0x00, 0x00, 0x90, 0x00, 0x00, 0x00, 0x00, 0x00, 0x78,
        0xA0, 0x03, 0xC0, 0x80, 0x10, 0xE5, 0x96, 0xB9, 0x24, 0x6D, 0x92, 0xEC, 0x80], 256) := by decide +kernel

/-- Section 5.4: the 11 bytes of the standard PPS. -/
theorem test_packPps :
    after (fun t => (bytes 0x100 11 t, t.bitpos)) .packPps { bench 64 with param := ppsRecord } =
      some ([0x00, 0x00, 0x00, 0x01, 0x44, 0x01, 0xC0, 0xF3, 0xC0, 0xCC, 0x90], 88) := by decide +kernel

/-- Section 7.1: the header and its positions. -/
theorem test_packSsh :
    after (fun t => (bytes 0x100 9 t, t.report)) (.packSsh false) (withSlice (bench 64)) =
      some ([0x00, 0x00, 0x00, 0x01, 0x02, 0x01, 0xD0, 0x2C, 0x1E], ⟨68, 63, 0, 0, 0⟩) := by decide +kernel

/-- R300: a third slice type raises `BAD_PARAM` 50 after the lines before it, so at bit 50. -/
theorem test_packSsh_bad_type :
    after (fun t => (fault t, t.bitpos)) (.packSsh false)
      { withSlice (bench 64) with param := (withSlice State.reset).param.write 0x2006 3 } = some ((5, 50), 50) := by
  decide +kernel

/-- Section 7.1: the three bins of the one CTU. -/
theorem test_codingTree :
    after (fun t => (coder t, t.ctx.toList.map fun c => c.byte.toNat)) (.codingTree 0) (withSlice (coding 64)) =
      some ([220, 304, 0, 0, 3], [0x40, 0x11, 0x00, 0x4F, 0x0C, 0x48, 0x50, 0x11, 0x3F]) := by decide +kernel

/-- Section 7.1: the whole slice. -/
theorem test_getSkipSlice :
    after (fun t => (bytes 0x4000 11 t, t.out.len.toNat, coder t)) (.getSkipSlice false 1) skipBench =
      some ([0x00, 0x00, 0x00, 0x01, 0x02, 0x01, 0xD0, 0x2C, 0x1E, 0xC1, 0x60], 11, [256, 256, 0, 0, 3]) := by decide +kernel

/-! ## Witnesses: for every statement with hypotheses, states and operands that meet them all, at a boundary where a range
has one. `completes` and the three `after…` say that an outcome is a next state. -/

/-- The writer `size` bytes long with `pos` whole bytes and `off` bits written. -/
def at_ (size pos : Nat) (off : BitVec 3) : State :=
  { bench size with
    writer := ⟨0x100, BitVec.ofNat 32 size, 0x100, BitVec.ofNat 32 (0x100 + size), BitVec.ofNat 32 (0x100 + pos), off⟩ }

/-- The command `w` about to run. -/
def running (w : CmdWord) : State := { bench 4 with cmd := (bench 4).cmd.write 0 w }

/-- A faulted engine whose host is about to reset it. -/
def aboutToReset : State := { faulted with hostPending := [⟨.untilIdle, .writeCsr 0x00 2⟩] }

/-- A state with parameter words. -/
def withParams (m : Memory 32) (s : State) : State := { s with param := m }

theorem test_witness_DecodeOfEncode :
    (Instr.putBits 32 0xFFFFFFFF).wf = true ∧ (Instr.encBin 8 true).wf = true ∧ (Instr.setr 0x19 0).wf = true := by decide

theorem test_witness_DecodeAcceptsOpcodeTable :
    decode 0x1120000000000000 = .ok (.putBits 32 0) ∧ legalWord 0x1120000000000000 = true ∧
      legalWord 0x1121000000000000 = false := by decide

/-- At the last word of `CMD`, with and without a host access to come. -/
theorem test_witness_StepRunsDecoded :
    let s := { bench 4 with cp := 1023, cmd := [(1023, 0x1201000000000000)] }
    EngineTurn s ∧ s.cp.toNat < s.cfg.cmdWords ∧ decode (s.cmd.read s.cp.toNat) = .ok (.putBit true) ∧ s.hostPending = [] ∧
      EngineTurn { s with hostPending := [⟨.cycles 1, .readCsr 0x01⟩] } := by decide

theorem test_witness_IllegalWordFaults :
    let s := { bench 4 with cp := 1023, cmd := [(1023, 0x1121000000000000)] }
    EngineTurn s ∧ s.cp.toNat < s.cfg.cmdWords ∧ legalWord (s.cmd.read s.cp.toNat) = false := by decide

/-- 2^32 commands, the most R8 allows. -/
def longest (cp : CmdIndex) : State :=
  { bench 4 with cfg := { Config.vectors with cmdWords := 2 ^ 32 }, cp := cp, cmd := [(2 ^ 32 - 1, 0x2000000000000000)] }

/-- R26, R65: after the last of 2^32 commands `CP` has not wrapped, and the fetch raises `CMD_FETCH`. -/
theorem test_cp_never_wraps :
    afterStep (fun t => (t.cp.toNat, t.status.run)) (longest 0xFFFFFFFF) = some (2 ^ 32, true) ∧
      afterStep (fun t => (t.cp.toNat, t.status.faultCode.toNat)) (longest 0x100000000) = some (2 ^ 32, 6) := by decide

theorem test_witness_FetchPastEndFaults :
    (EngineTurn { bench 4 with cp := 1024 } ∧ (bench 4).cfg.cmdWords ≤ 1024 ∧ (bench 4).cfg.cmdWords < 2 ^ 32) ∧
    Inv { bench 4 with cp := 1024 } ∧
    (EngineTurn (longest 0x100000000) ∧ (longest 0).cfg.cmdWords ≤ (longest 0x100000000).cp.toNat) ∧
    Inv (longest 0x100000000) := ⟨by decide, by decide, by decide, by decide⟩

theorem test_witness_FaultIsTaken :
    (bench 4).status.run = true ∧ StatusOk (bench 4).status ∧ faulted.status.fault = true ∧ faulted.status.run = false ∧
      faulted.hostPending = [] ∧ (0xFFFFFFFF : CmdIndex).toNat < 2 ^ 32 := by decide

/-- A read, a start and a reset of a faulted engine all have a next state. -/
theorem test_witness_FaultEndsByResetOnly :
    faulted.status.fault = true ∧ afterHost fault (.readCsr 0x03) faulted = some (8, 3) ∧
      afterHost fault (.writeCsr 0x00 1) faulted = some (8, 3) ∧ afterHost fault (.writeCsr 0x00 2) faulted = some (0, 0) := by
  decide

/-- A command that completes, `END`, a fault; a start from idle. -/
theorem test_witness_CommandPointer :
    (Inv (running 0x1201000000000000) ∧ EngineTurn (running 0x1201000000000000) ∧
      (afterStep fault (running 0x1201000000000000)).isSome = true) ∧
    (Inv (running 0) ∧ EngineTurn (running 0) ∧ (afterStep fault (running 0)).isSome = true) ∧
    (Inv (running 0xFF00000000000000) ∧ EngineTurn (running 0xFF00000000000000) ∧
      (afterStep fault (running 0xFF00000000000000)).isSome = true) ∧
    State.reset.status.run = false ∧ State.reset.status.fault = false ∧
      (afterHost fault (.writeCsr 0x00 1) State.reset).isSome = true :=
  ⟨by decide, by decide, by decide, by decide⟩

theorem test_witness_IllFormedOperandFaults :
    (Instr.setr 0x0A 0).wf = false ∧ (Instr.putBits 33 0).wf = false ∧ (Instr.ctxInit 9 154 26).wf = false ∧
      (Instr.ctxSet 255 0).wf = false ∧ (Instr.encBin 9 true).wf = false := by decide

/-- Both words that reset, a running and an idle state, an address beside each region. -/
theorem test_witness_Reset :
    (2 : Word).toNat < 4 ∧ (2 : Word).getLsbD 1 = true ∧ (3 : Word).toNat < 4 ∧ (3 : Word).getLsbD 1 = true ∧
      (bench 4).status.run = true ∧ State.reset.status.run = false ∧
      (0x104 < (bench 4).writer.curStart.toNat ∨ (bench 4).writer.curEnd.toNat ≤ 0x104) ∧
      (0x104 < (bench 4).writer.bufStart.toNat ∨
        (bench 4).writer.bufStart.toNat + (bench 4).writer.bufSize.toNat ≤ 0x104) ∧
      (0x104 < (bench 4).out.start.toNat ∨ (bench 4).out.start.toNat + (bench 4).out.size.toNat ≤ 0x104) := by decide

theorem test_witness_ControlWrites :
    State.reset.status.run = false ∧ State.reset.status.fault = false ∧ faulted.status.run = false ∧
      faulted.status.fault = true ∧ (bench 4).status.run = true := by decide

/-- A register read, and a start. -/
theorem test_witness_HostKeepsOut :
    (bench 4).status.run = true ∧ HostAccess.readCsr 0x02 ≠ .readCsr 0x01 ∧
      (∀ v : Word, HostAccess.readCsr 0x02 = .writeCsr 0x00 v → v.getLsbD 1 = false) ∧
      HostAccess.writeCsr 0x00 1 ≠ .readCsr 0x01 ∧
      (∀ v : Word, HostAccess.writeCsr 0x00 1 = .writeCsr 0x00 v → v.getLsbD 1 = false) :=
  ⟨rfl, nofun, nofun, nofun, fun v h => by cases h; rfl⟩

theorem test_witness_HostReadsRegisters :
    State.reset.status.run = false ∧
      (∀ n ∈ [(0x05 : BitVec 8), 0x07, 0x0F, 0x15, 0x17, 0x1B, 0x1F, 0x25, 0xFF], csrValue n State.reset = none) ∧
      csrValue 0x24 State.reset = some 0 := by decide

theorem test_witness_HostMemoryPorts :
    State.reset.status.run = false ∧ 65535 < State.reset.cfg.dmemSize ∧ 0x22FF < 0x2300 ∧ 1023 < State.reset.cfg.cmdWords := by
  decide

theorem test_witness_IdleKeepsState :
    State.reset.status.run = false ∧ State.reset.hostPending = [] ∧ faulted.status.run = false ∧ faulted.hostPending = [] := by
  decide

/-- The engine's turn and the host's. -/
theorem test_witness_StepKeepsSound :
    (Inv (running 0x1201000000000000) ∧ (afterStep fault (running 0x1201000000000000)).isSome = true) ∧
      Inv aboutToReset ∧ (afterStep fault aboutToReset).isSome = true := ⟨by decide, by decide⟩

theorem test_witness_EngineNeverStuck : Inv (bench 4) ∧ hostDue (bench 4) = false := by decide

theorem test_witness_RunEnds : Inv (bench 4) ∧ (bench 4).status.run = true ∧ (bench 4).hostPending = [] := by decide

theorem test_witness_EndCommand :
    (0x0000000000000001 : CmdWord).extractLsb' 56 8 = 0 ∧ (0x0000000000000001 : CmdWord) ≠ 0 := by decide

theorem test_witness_SetRegister :
    (0x0A : BitVec 8).toNat ∉ [0x08, 0x09, 0x0C, 0x18, 0x19] ∧ (0x0108000100000000 : CmdWord).extractLsb' 56 8 = 0x01 ∧
      (0x0108000100000000 : CmdWord).extractLsb' 32 16 ≠ 0 := by decide

/-- Three bits that just fill the byte after five. -/
theorem test_witness_EnteringBits :
    let s := { at_ 1 0 5 with dmem := [(0x100, 0xF8)] }
    s.cfg.dmemSize ≤ 2 ^ 29 ∧ WriterOk s.writer s.cfg.dmemSize ∧ TailClear s ∧ Fits s 3 ∧ ¬Fits s 4 := by decide

theorem test_witness_PutBitsCommands :
    (bench 4).cfg.dmemSize ≤ 2 ^ 29 ∧ WriterOk (bench 4).writer (bench 4).cfg.dmemSize ∧ (32 : BitVec 8).toNat ≤ 32 ∧
      Fits (bench 4) 32 ∧ ¬Fits (at_ 4 0 1) 32 ∧ WriterOk (at_ 4 0 1).writer (at_ 4 0 1).cfg.dmemSize ∧
      Fits (at_ 4 3 7) 1 ∧ WriterOk (at_ 4 3 7).writer (at_ 4 3 7).cfg.dmemSize ∧
      ¬Fits (at_ 4 4 0) 1 ∧ WriterOk (at_ 4 4 0).writer (at_ 4 4 0).cfg.dmemSize := by decide

/-- The longest codes of both commands, and a positive value; a buffer that just holds the code and one that does not. -/
theorem test_witness_PutGolombCommands :
    WriterOk (bench 9).writer (bench 9).cfg.dmemSize ∧
      2 ^ 32 = (0xFFFFFFFF : Word).toNat + 1 ∧ 2 ^ (33 - 1) ≤ 2 ^ 32 ∧ 2 ^ 32 < 2 ^ 33 ∧
      ((2 ^ 32 + 1 : Nat) : Int) =
        (if 0 < (0x80000000 : Word).toInt then 2 * (0x80000000 : Word).toInt - 1 else -2 * (0x80000000 : Word).toInt) + 1 ∧
      ((6 : Nat) : Int) = (if 0 < (3 : Word).toInt then 2 * (3 : Word).toInt - 1 else -2 * (3 : Word).toInt) + 1 ∧
      2 ^ (3 - 1) ≤ 6 ∧ 6 < 2 ^ 3 ∧ Fits (bench 9) (2 * 33 - 1) ∧ ¬Fits (bench 8) (2 * 33 - 1) ∧
      WriterOk (bench 8).writer (bench 8).cfg.dmemSize := by decide

theorem test_witness_PutTrailingCommand :
    (at_ 1 0 0).writer.bitOffset = 0 ∧ (at_ 1 0 7).writer.bitOffset ≠ 0 ∧
      Fits (at_ 1 0 7) (8 - (at_ 1 0 7).writer.bitOffset.toNat) ∧
      ¬Fits (at_ 1 1 0) (8 - (at_ 1 1 0).writer.bitOffset.toNat) ∧
      WriterOk (at_ 1 0 7).writer (at_ 1 0 7).cfg.dmemSize ∧ WriterOk (at_ 1 1 0).writer (at_ 1 1 0).cfg.dmemSize := by decide

/-- The four cases at the places where they meet (spec/95, section 2.4). -/
theorem test_witness_PutBitsBufferCommand :
    let s := bench 64
    let t (a : Word) := { s with srcBitAddr := a }
    WriterOk s.writer s.cfg.dmemSize ∧ 8 * s.cfg.dmemSize < (t 0x7FFF8).srcBitAddr.toNat + (9 : Word).toNat ∧
      (0 < (9 : Word).toNat ∧ (t 0x7F8).srcBitAddr.toNat < 8 * s.writer.curEnd.toNat ∧
        8 * s.writer.curStart.toNat < (t 0x7F8).srcBitAddr.toNat + (9 : Word).toNat) ∧
      ¬(0 < (8 : Word).toNat ∧ (t 0x7F8).srcBitAddr.toNat < 8 * s.writer.curEnd.toNat ∧
        8 * s.writer.curStart.toNat < (t 0x7F8).srcBitAddr.toNat + (8 : Word).toNat) ∧
      Fits (t 0x7F8) 8 ∧ ¬(0 < (513 : Word).toNat ∧ (t 0xA00).srcBitAddr.toNat < 8 * s.writer.curEnd.toNat ∧
        8 * s.writer.curStart.toNat < (t 0xA00).srcBitAddr.toNat + (513 : Word).toNat) ∧ ¬Fits (t 0xA00) 513 := by decide

/-- Just past the end of `DMEM`; an empty buffer with an offset; a buffer that ends with `DMEM`. -/
theorem test_witness_WInitCommand :
    (bench 4).cfg.dmemSize ≤ 2 ^ 29 ∧ (bench 4).cfg.dmemSize < (0xFFF0 : Word).toNat + (0x11 : Word).toNat ∧
      (0xFFF0 : Word).toNat + (0x10 : Word).toNat ≤ (bench 4).cfg.dmemSize ∧ (bench 0).writer.bufSize = 0 ∧
      (1 : BitVec 3) ≠ 0 ∧ (bench 1).writer.bufSize ≠ 0 := by decide

theorem test_witness_GolombRoundTrip :
    (bench 9).cfg.dmemSize ≤ 2 ^ 29 ∧ WriterOk (bench 9).writer (bench 9).cfg.dmemSize ∧ TailClear (bench 9) ∧
      Fits (bench 9) (ueBits (0xFFFFFFFF : Word).toNat).length ∧ completes (.putUe 0xFFFFFFFF) (bench 9) = true ∧
      Fits (bench 9) (seBits (0x80000000 : Word).toInt).length ∧ completes (.putSe 0x80000000) (bench 9) = true := by
  decide +kernel

theorem test_witness_CabacInitCommand :
    (0x2000000000000001 : CmdWord).extractLsb' 56 8 = 0x20 ∧ (0x2000000000000001 : CmdWord) ≠ 0x2000000000000000 := by decide

theorem test_witness_CtxInitCommand :
    (8 : BitVec 8).toNat < 9 ∧ (0x2109000000000000 : CmdWord).extractLsb' 56 8 = 0x21 ∧
      9 ≤ ((0x2109000000000000 : CmdWord).extractLsb' 48 8).toNat ∧
      (0x2108010000000000 : CmdWord).extractLsb' 56 8 = 0x21 ∧ (0x2108010000000000 : CmdWord).extractLsb' 40 8 ≠ 0 := by
  decide

theorem test_witness_CtxSetCommand :
    (8 : BitVec 8).toNat < 9 ∧ (0x2209000000000000 : CmdWord).extractLsb' 56 8 = 0x22 ∧
      9 ≤ ((0x2209000000000000 : CmdWord).extractLsb' 48 8).toNat ∧
      (0x2208000000000080 : CmdWord).extractLsb' 56 8 = 0x22 ∧ (0x2208000000000080 : CmdWord).extractLsb' 7 25 ≠ 0 := by
  decide

theorem test_witness_UninitialisedContextFaults : (8 : BitVec 8).toNat < 9 ∧ (bench 4).ctx[8].valid = false := by decide

/-- Section 4.2 of spec/95, row 4: four outstanding bits leave, and one byte has room for them. -/
theorem test_witness_EncBinCommand :
    let s := { (coding 1).setContext 4 0x0A with cabac := ⟨36, 314, 4, true, 3⟩ }
    s.cfg.dmemSize ≤ 2 ^ 29 ∧ WriterOk s.writer s.cfg.dmemSize ∧ CabacOk s.cabac ∧ s.ctx[4].valid = true ∧
      s.cabac.outstanding.toNat + 8 < 2 ^ 32 ∧ Fits s (codeRenorm 8 ⟨36, 229, 4, true, 3⟩).1.length := by decide

/-- The three bands: `low` doubled with the range at 1257, at 510 and at 1022. -/
theorem test_witness_EncBinEpCommand :
    let s (c : Cabac) := { coding 1 with cabac := c }
    CabacOk ⟨467, 323, 0, false, 6⟩ ∧ 1024 ≤ 2 * 467 + 323 ∧ Fits (s ⟨467, 323, 0, false, 6⟩) 1 ∧
      CabacOk ⟨255, 300, 3, true, 0⟩ ∧ 2 * 255 < 512 ∧ Fits (s ⟨255, 300, 3, true, 0⟩) 3 ∧
      CabacOk ⟨511, 300, 0, false, 0⟩ ∧ 512 ≤ 2 * 511 ∧ 2 * 511 < 1024 ∧
      WriterOk (coding 1).writer (coding 1).cfg.dmemSize := by decide

/-- The empty slice of section 4.3: 16 bits in two bytes. -/
theorem test_witness_SliceFinishCommand :
    CabacOk (coding 2).cabac ∧ WriterOk (coding 2).writer (coding 2).cfg.dmemSize ∧
      (coding 2).cabac.outstanding.toNat + 8 < 2 ^ 32 ∧ Fits (coding 2) 16 ∧
      (codeFinish (coding 2).cabac).1.length + 1 ≤ 16 ∧ completes .sliceFinish (coding 2) = true := by decide

theorem test_witness_IntervalInvariant :
    let s := coding 4
    s.cfg.dmemSize ≤ 2 ^ 29 ∧ WriterOk s.writer s.cfg.dmemSize ∧ CabacOk s.cabac ∧ s.status.fault = false ∧
      completes .cabacInit s = true ∧ completes (.encBin 4 true) s = true ∧ completes (.encBinEp true) s = true ∧
      completes .sliceFinish s = true := by decide

theorem test_witness_BinCount :
    Inv (coding 4) ∧ (coding 4).status.fault = false ∧ completes (.encBin 8 false) (coding 4) = true ∧
      completes (.encBinEp false) (coding 4) = true ∧ completes .sliceFinish (coding 4) = true ∧
      completes .cabacInit (coding 4) = true ∧ completes (.wInit 7) (coding 4) = true ∧
      (afterHost fault (.writeCsr 0x00 2) State.reset).isSome = true := by decide

/-- The ranges 258 and 257. -/
theorem test_witness_TerminateBinZero :
    let s (r : Word) := { coding 4 with cabac := ⟨0, r, 0, false, 0⟩ }
    (coding 4).ctx[8] = ⟨63, true⟩ ∧ CabacOk (s 258).cabac ∧ 258 ≤ (s 258).cabac.range.toNat ∧ CabacOk (s 257).cabac ∧
      (s 257).cabac.range.toNat < 258 ∧ completes (.encBin 8 false) (s 257) = true := by decide

theorem test_witness_CoderIsDecodable : 8 * [Bin.ctx 4 true, Bin.bypass true].length + 8 < 2 ^ 32 := by decide

/-- The five cases of `PACK_RBSP` (spec/95, section 8); `packBench 4` is an exact fit. -/
theorem test_witness_PackRbspCommand :
    let s := packBench 4
    s.cfg.dmemSize ≤ 2 ^ 29 ∧ WriterOk s.writer s.cfg.dmemSize ∧ s.writer.bitOffset = 0 ∧ (at_ 4 0 3).writer.bitOffset ≠ 0 ∧
      s.cfg.dmemSize < (0xFFF0 : Word).toNat + (0x20 : Word).toNat ∧ s.out.start.toNat + s.out.size.toNat ≤ s.cfg.dmemSize ∧
      sourceMeetsOutput { s with out := ⟨2, 4, 0⟩ } ∧ ¬sourceMeetsOutput { s with out := ⟨3, 4, 0⟩ } ∧
      ¬sourceMeetsOutput s ∧ 0 + (escape 0 s.writerBytes).length ≤ s.out.size.toNat ∧
      (packBench 3).out.size.toNat < 0 + (escape 0 (packBench 3).writerBytes).length := by decide

theorem test_witness_ProtectionProperty :
    (escape 1 [0, 0, 0, 3]).drop 1 = [] ++ 0 :: 0 :: 3 :: [3] ∧ (escape 1 [0, 0, 0, 4]).drop 1 = [] ++ 0 :: 0 :: 4 :: [] := by
  decide

theorem test_witness_PackNaluCommand :
    (bench 6).cfg.dmemSize ≤ 2 ^ 29 ∧ WriterOk (bench 6).writer (bench 6).cfg.dmemSize ∧ Fits (bench 6) 48 := by decide

/-- The standard records, each in a buffer of exactly its size. -/
theorem test_witness_ParameterSetCommands :
    (let s := withParams vpsRecord (bench 24); vpsChecks s.params = none ∧ Fits s (listingBits s.bitpos (vpsActs s.params)).length) ∧
    (let s := withParams (spsRecord 1920 1080) (bench 32); spsChecks s.params = none ∧ (∀ a ∈ spsActs s.params, a.stops = false) ∧
        Fits s (listingBits s.bitpos (spsActs s.params)).length) ∧
    (let s := withParams ppsRecord (bench 11); ppsChecks s.params = none ∧ Fits s (listingBits s.bitpos (ppsActs s.params)).length) := by decide +kernel

theorem test_witness_ParameterSetHeaders :
    (bench 32).writer.bitOffset = 0 ∧ (bench 32).status.fault = false ∧
      completes .packVps (withParams vpsRecord (bench 32)) = true ∧
      completes .packSps (withParams (spsRecord 1920 1080) (bench 32)) = true ∧
      completes .packPps (withParams ppsRecord (bench 32)) = true := by decide +kernel

/-- One set of words for each check that the checks before it pass. -/
theorem test_witness_ParameterSetChecks :
    let v (m : Memory 32) := (withParams (fill 0x0100 0x8B m) (bench 4)).params
    let q (m : Memory 32) := (withParams (spsFrom m) (bench 4)).params
    let r (m : Memory 32) := (withParams (fill 0x1F00 0x4D m) (bench 4)).params
    vpsChecks (v [(0x0183, 1)]) = some (.unsupported, 10) ∧ vpsChecks (v [(0x0103, 7)]) = some (.badParam, 11) ∧
      spsChecks (q [(0x0292, 1)]) = some (.unsupported, 1) ∧ spsChecks (q [(0x0295, 1)]) = some (.unsupported, 2) ∧
      Rec.SPS.extension_flag (q [(0x1EAE, 1)]) = true ∧ spsChecks (q [(0x1EAE, 1)]) = some (.unsupported, 4) ∧
      spsChecks (q [(0x0201, 7)]) = some (.badParam, 11) ∧ spsChecks (q [(0x0296, 65)]) = some (.badParam, 12) ∧
      spsChecks (q [(0x19B3, 33)]) = some (.badParam, 13) ∧ spsChecks (q [(0x0275, 13)]) = some (.badParam, 14) ∧
      ppsChecks (r [(0x1F48, 1)]) = some (.unsupported, 5) ∧ ppsChecks (r [(0x1F4C, 1)]) = some (.unsupported, 6) ∧
      Rec.PPS.num_tile_columns_minus1 (r [(0x1F16, 20)]) = 20 ∧ ppsChecks (r [(0x1F16, 20)]) = some (.badParam, 15) := by decide +kernel

/-- A set with 17 pictures stops in the middle of the listing; a one-byte buffer holds the zero byte and not the start
code. -/
theorem test_witness_MidListingFault :
    (∃ done rest code info, spsChecks (withParams ((spsRecord 1920 1080).write 0x029B 17) (bench 64)).params = none ∧
      spsActs (withParams ((spsRecord 1920 1080).write 0x029B 17) (bench 64)).params = done ++ .fail code info :: rest ∧
      (∀ a ∈ done, a.stops = false) ∧ Fits (bench 64) (listingBits (bench 64).bitpos done).length) ∧
    ∃ bits rest, spsActs (withParams (spsRecord 1920 1080) (bench 1)).params = u 8 0 ++ .put bits :: rest ∧
      Fits (bench 1) (listingBits (bench 1).bitpos (u 8 0)).length ∧
      ¬Fits (bench 1) ((listingBits (bench 1).bitpos (u 8 0)).length + bits.length) :=
  ⟨⟨(spsActs (withParams ((spsRecord 1920 1080).write 0x029B 17) (bench 64)).params).takeWhile fun a => !a.stops,
      (spsActs (withParams ((spsRecord 1920 1080).write 0x029B 17) (bench 64)).params).drop
        (((spsActs (withParams ((spsRecord 1920 1080).write 0x029B 17) (bench 64)).params).takeWhile fun a => !a.stops).length + 1),
      .badParam, 34, by decide +kernel⟩,
    ⟨bitsMsb 24 1, (spsActs (withParams (spsRecord 1920 1080) (bench 1)).params).drop 2, by decide +kernel⟩⟩

/-- The pre-checks, and a header that just fits. -/
theorem test_witness_PackSshCommand :
    let q (a : Nat) (v : Word) := (withParams ((spsRecord 64 64).write a v) (bench 9)).params
    geometry (withParams (spsRecord 0 64) State.reset).params = none ∧ (geometry (q 0x0296 65)).isSome = true ∧
      64 < Rec.SPS.num_short_term_ref_pic_sets (q 0x0296 65) ∧ 32 < Rec.SPS.num_long_term_ref_pics_sps (q 0x19B3 33) ∧
      12 < Rec.SPS.log2_max_pic_order_cnt_lsb_minus4 (q 0x0275 13) ∧
      (let s := withSlice (bench 9); let g : Geometry := ⟨3, 6, 64, 64, 1, 1⟩; geometry s.params = some g ∧ (∀ a ∈ sshActs s.params g false, a.stops = false) ∧
          Fits s (listingBits s.bitpos (sshActs s.params g false)).length) := by decide +kernel

/-- Both forms, and a dependent segment: address 1 of a picture of two CTUs. -/
theorem test_witness_ReportRegisters :
    let s := withSlice (bench 9)
    let d := withParams (naluRecord ++ spsOfSlice 128 64 ++ fill 0x1F00 0x4D [(0x1F02, 1), (0x1F06, 1)] ++
      sliceFrom [(0x2003, 1), (0x2004, 1), (0x2006, 1)]) (bench 9)
    s.status.fault = false ∧ completes (.packSsh true) s = true ∧ completes (.packSsh false) s = true ∧
      sliceDependent d.params = true ∧ completes (.packSsh false) d = true := by decide +kernel

/-- The pre-checks at their bounds; one CTU whose bins send one bit. -/
theorem test_witness_CodingTreeCommand :
    let s := withSlice (coding 1)
    let g : Geometry := ⟨3, 6, 64, 64, 1, 1⟩
    let bins := ctuBins (walkEnv g s) 0
    geometry (withParams (spsRecord 0 64) State.reset).params = none ∧ geometry s.params = some g ∧ g.widthInCtbs * g.heightInCtbs ≤ (1 : Word).toNat ∧
      (0 : Word).toNat < g.widthInCtbs * g.heightInCtbs ∧
      4 < Rec.SLICE.five_minus_max_num_merge_cand (withParams (s.param.write 0x223D 5) s).params ∧
      Rec.SLICE.five_minus_max_num_merge_cand s.params ≤ 4 ∧ CabacOk s.cabac ∧
      (∀ b ∈ bins, b.readable s.ctx = true) ∧ s.cabac.outstanding.toNat + 8 * bins.length < 2 ^ 32 ∧
      Fits s (codeBins bins s.ctx s.cabac).1.length := by decide +kernel

theorem test_witness_WholeCtuBins :
    let e := walkEnv ⟨3, 6, 128, 64, 2, 1⟩ State.reset
    e.mergeIdx = 0 ∧ e.geom.minCbLog2 < e.geom.ctbLog2 ∧ 1 % 2 * 2 ^ 6 + 2 ^ 6 ≤ e.geom.width ∧
      1 / 2 * 2 ^ 6 + 2 ^ 6 ≤ e.geom.height := by decide

/-- Section 7.1 of spec/97, in two adjacent regions of exactly the unit's 11 bytes. -/
theorem test_witness_GetSkipSliceCommand :
    let s := { skipBench with writer := ⟨0, 11, 0, 0, 0, 0⟩, out := ⟨11, 11, 0⟩ }
    let g : Geometry := ⟨3, 6, 64, 64, 1, 1⟩
    let x := skipSliceUnit s.params (walkEnv g s) 1
    let packed := escape (sliceStartCode s.params) (packBits x.1)
    s.cfg.dmemSize ≤ 2 ^ 29 ∧ geometry s.params = some g ∧
      sliceAddress s.params + (1 : Word).toNat ≤ g.widthInCtbs * g.heightInCtbs ∧
      s.writer.bufStart.toNat + s.writer.bufSize.toNat ≤ s.cfg.dmemSize ∧ spsBoundChecks s.params = none ∧
      (∀ a ∈ sshActs s.params g false, a.stops = false) ∧ Rec.SLICE.type s.params ≤ 1 ∧
      ¬(Rec.PPS.cabac_init_present_flag s.params = true ∧ Rec.SLICE.cabac_init_flag s.params = true) ∧
      Rec.SLICE.five_minus_max_num_merge_cand s.params ≤ 4 ∧
      8 * (skipSliceBins (walkEnv g s) (sliceAddress s.params) 1).length + 8 < 2 ^ 32 ∧
      x.1.length ≤ 8 * s.writer.bufSize.toNat ∧ s.out.start.toNat + s.out.size.toNat ≤ s.cfg.dmemSize ∧
      s.writer.bufStart.toNat + x.1.length / 8 ≤ s.out.start.toNat ∧ 0 + packed.length ≤ s.out.size.toNat := by
  decide +kernel

theorem test_witness_GetSkipSliceChecks :
    let s := skipBench
    let g : Geometry := ⟨3, 6, 64, 64, 1, 1⟩
    geometry (withParams (spsRecord 0 64) State.reset).params = none ∧ geometry s.params = some g ∧
      g.widthInCtbs * g.heightInCtbs < sliceAddress s.params + (2 : Word).toNat ∧ (1 : Word) ≠ 0 ∧
      sliceAddress s.params + (1 : Word).toNat ≤ g.widthInCtbs * g.heightInCtbs ∧
      s.cfg.dmemSize < (0xFFFF : Word).toNat + (2 : Word).toNat := by decide +kernel

/-- Two states with nothing alike but the inputs. -/
theorem test_witness_SkipSliceDeterminism :
    let s := skipBench
    let t := { skipBench with
      dmem := [(5, 0xFF), (0x4003, 0xFF)], ctx := (coding 4).ctx, cabac := ⟨700, 300, 9, false, 8⟩, writer := ⟨0, 64, 7, 9, 8, 3⟩ }
    t.cfg = s.cfg ∧ t.param = s.param ∧ t.writer.bufStart = s.writer.bufStart ∧ t.writer.bufSize = s.writer.bufSize ∧
      t.out.start = s.out.start ∧ t.out.size = s.out.size ∧ s.status.fault = false ∧
      completes (.getSkipSlice false 1) s = true := by decide +kernel

theorem test_witness_CommandsNeverWritten : Inv (bench 4) ∧ completes (.putBit true) (bench 4) = true := by decide

/-- Each of the ten commands. -/
theorem test_witness_WriterCommandFrame :
    let s := withParams (naluRecord ++ (vpsRecord ++ spsRecord 64 64) ++ ppsRecord) (bench 32)
    s.cfg.dmemSize ≤ 2 ^ 29 ∧ WriterOk s.writer s.cfg.dmemSize ∧ s.status.fault = false ∧
      ∀ i ∈ [Instr.packNalu, .packVps, .packSps, .packPps, .putBits 32 0, .putBit true, .putBitsBuffer 8, .putUe 7, .putSe 7,
        .putTrailing false], completes i s = true := by decide +kernel

/-- Each of the five commands. -/
theorem test_witness_CoderCommandFrame :
    let s := withSlice (coding 16)
    Inv s ∧ s.status.fault = false ∧ ∀ i ∈ [Instr.encBin 4 true, .encBinEp true, .sliceFinish, .codingTree 0, .packSsh true],
      completes i s = true := by decide +kernel

theorem test_witness_SkipSliceFrame :
    Inv skipBench ∧ skipBench.status.fault = false ∧ completes (.getSkipSlice false 1) skipBench = true := by decide +kernel

end Sys2Proof.Tests.Slice0
end

section
/-! PROOFS. Entering bits, read bit by bit. The facts are stated at bit addresses of `DMEM` (R12), where the cursor is one
number; the writer's stream is the same bits counted from the first byte of its buffer. -/

namespace Sys2Proof.Machine

variable {s : State}

/-! ## The byte a bit enters -/

/-- The low `m` bits of a byte are 0 exactly when each of them is. -/
theorem toNat_mod_two_pow_eq_zero_iff (x : Byte) (m : Nat) :
    x.toNat % 2 ^ m = 0 ↔ ∀ j < m, x.getLsbD j = false := by
  constructor
  · intro h j hj
    have bit := Nat.testBit_mod_two_pow x.toNat m j
    simpa [h, hj, BitVec.getLsbD] using bit.symm
  · intro h
    apply Nat.eq_of_testBit_eq
    intro j
    have bit := h j
    simp_all [BitVec.getLsbD]

/-- The bit a byte takes at position `k` of the stream order, once shifted to position `off` (R12, R132). -/
theorem shifted_bit_getLsbD (b : Bool) {off k : Nat} (hoff : off < 8) (hk : k < 8) :
    ((BitVec.ofBool b).setWidth 8 <<< (7 - off)).getLsbD (7 - k) = (decide (k = off) && b) := by
  rw [BitVec.getLsbD_shiftLeft, BitVec.getLsbD_setWidth, BitVec.getLsbD_ofBool]
  by_cases h : k = off
  · subst h; simp; omega
  · rcases Nat.lt_or_gt_of_ne h with h' | h' <;> simp [h] <;> omega

/-- The byte `PutBitRaw` stores, position by position: the bits entered before, the new bit, zeros (R132). -/
theorem rawByte_getLsbD (old : Byte) (off : BitVec 3) (b : Bool) {k : Nat} (hk : k < 8)
    (clear : off ≠ 0 → off.toNat ≤ k → old.getLsbD (7 - k) = false) :
    (rawByte old off b).getLsbD (7 - k) =
      if off.toNat ≤ k then decide (k = off.toNat) && b else old.getLsbD (7 - k) := by
  have hoff := off.isLt
  unfold rawByte
  split
  case isTrue h =>
    subst h
    simpa using shifted_bit_getLsbD b (off := 0) (by omega) hk
  case isFalse h =>
    rw [BitVec.getLsbD_or, shifted_bit_getLsbD b hoff hk]
    split
    case isTrue hle => rw [clear h hle, Bool.false_or]
    case isFalse hlt => rw [decide_eq_false (by omega), Bool.false_and, Bool.or_false]

/-! ## One bit -/

/-- `TailClear` bit by bit: in a byte begun, the bits from the cursor on are 0. -/
theorem tailClear_iff : TailClear s ↔ (s.writer.bitOffset ≠ 0 →
    ∀ p, p / 8 = s.writer.bytePos.toNat → s.cursor ≤ p → s.bitAt p = false) := by
  have hoff := s.writer.bitOffset.isLt
  simp only [TailClear, toNat_mod_two_pow_eq_zero_iff, State.cursor, State.bitAt]
  refine imp_congr_right fun _ => ⟨fun h p hp hc => hp ▸ h _ (by omega), fun h j hj => ?_⟩
  have bit := h (8 * s.writer.bytePos.toNat + (7 - j)) (by omega) (by omega)
  rwa [show (8 * s.writer.bytePos.toNat + (7 - j)) / 8 = s.writer.bytePos.toNat by omega,
    show 7 - (8 * s.writer.bytePos.toNat + (7 - j)) % 8 = j by omega] at bit

/-- EVERYTHING one bit does to the bits of `DMEM`: it stands at the cursor, with zeros after it in its byte (R132). -/
theorem enterBit_bitAt (b : Bool) (ht : TailClear s) (p : Nat) :
    (enterBit b s).bitAt p = if p / 8 = s.writer.bytePos.toNat ∧ s.cursor ≤ p then decide (p = s.cursor) && b
      else s.bitAt p := by
  have hoff := s.writer.bitOffset.isLt
  have hc : s.cursor = 8 * s.writer.bytePos.toNat + s.writer.bitOffset.toNat := rfl
  by_cases hp : p / 8 = s.writer.bytePos.toNat
  case neg => rw [State.bitAt, enterBit_byteAt, if_neg hp, if_neg fun h => hp h.1, State.bitAt]
  case pos =>
    have clear : s.writer.bitOffset ≠ 0 → s.writer.bitOffset.toNat ≤ p % 8 →
        (s.byteAt s.writer.bytePos.toNat).getLsbD (7 - p % 8) = false := fun h0 hle =>
      hp ▸ tailClear_iff.1 ht h0 p hp (by omega)
    rw [State.bitAt, enterBit_byteAt, if_pos hp, rawByte_getLsbD _ _ b (by omega) clear, State.bitAt, hp]
    simp only [show s.writer.bitOffset.toNat ≤ p % 8 ↔ s.cursor ≤ p by omega,
      show p % 8 = s.writer.bitOffset.toNat ↔ p = s.cursor by omega, true_and]

/-- A bit enters at the cursor (R132). -/
theorem enterBit_bitAt_cursor (b : Bool) (ht : TailClear s) : (enterBit b s).bitAt s.cursor = b := by
  have hoff := s.writer.bitOffset.isLt
  rw [enterBit_bitAt b ht, if_pos ⟨by simp only [State.cursor]; omega, le_rfl⟩, decide_eq_true rfl, Bool.true_and]

/-- A bit changes none of the bits before it (R132). -/
theorem enterBit_bitAt_of_lt (b : Bool) (ht : TailClear s) {p : Nat} (hp : p < s.cursor) :
    (enterBit b s).bitAt p = s.bitAt p := by
  rw [enterBit_bitAt b ht, if_neg (by omega)]

/-- A bit leaves the rest of its byte clear (R132). After the last bit of a byte nothing is left to be clear. -/
theorem enterBit_tailClear (b : Bool) (ht : TailClear s) : TailClear (enterBit b s) := by
  rw [tailClear_iff, enterBit_bitOffset]
  intro hbegun p hp hle
  have h7 : s.writer.bitOffset ≠ 7 := fun h => hbegun (by rw [h]; rfl)
  have hpos : (enterBit b s).writer.bytePos = s.writer.bytePos := by rw [enterBit_bytePos, nextBytePos, if_neg h7]
  have hoff : (s.writer.bitOffset + 1).toNat = s.writer.bitOffset.toNat + 1 := by bv_omega
  have hlt : s.cursor < p := by
    simp only [State.cursor, hpos, enterBit_bitOffset, hoff] at hle ⊢; omega
  rw [enterBit_bitAt b ht, if_pos ⟨hpos ▸ hp, hlt.le⟩, decide_eq_false hlt.ne', Bool.false_and]

/-! ## Several bits -/

/-- A sound writer, the bits below its cursor clear, with room for `n` more bits (R21, R130, R132). -/
structure RoomFor (s : State) (n : Nat) : Prop where
  writable : Writable s
  clear : TailClear s
  fits : Fits s n

theorem RoomFor.enterBit {n : Nat} (h : RoomFor s (n + 1)) (b : Bool) : RoomFor (enterBit b s) n := by
  obtain ⟨⟨hs, hw⟩, ht, hf⟩ := h
  have one : Fits s 1 := by unfold Fits at *; omega
  exact ⟨⟨hs, enterBit_writerOk s b hs hw one⟩, enterBit_tailClear b ht, enterBit_fits s b n hs hw hf⟩

theorem RoomFor.cursor_enterBit {n : Nat} (h : RoomFor s (n + 1)) (b : Bool) :
    (Machine.enterBit b s).cursor = s.cursor + 1 := by
  obtain ⟨⟨hs, hw⟩, -, hf⟩ := h
  have one : Fits s [b].length := by simp only [List.length_singleton, Fits] at *; omega
  exact enter_cursor s [b] hs hw one

/-- However many bits enter, the bits below the cursor stay clear (R132). -/
theorem enter_tailClear (bits : List Bool) (h : TailClear s) : TailClear (enter bits s) := by
  induction bits generalizing s with
  | nil => exact h
  | cons b bits ih => exact ih (enterBit_tailClear b h)

/-- Bits that fit change none of the bits before them (R132). -/
theorem enter_bitAt_of_lt (bits : List Bool) (h : RoomFor s bits.length) {p : Nat} (hp : p < s.cursor) :
    (enter bits s).bitAt p = s.bitAt p := by
  induction bits generalizing s with
  | nil => rfl
  | cons b bits ih =>
    have hc := h.cursor_enterBit b
    rw [enter_cons, ih (h.enterBit b) (by omega), enterBit_bitAt_of_lt b h.clear hp]

/-- Bits that fit stand in order from the cursor on (R132, R141). -/
theorem enter_bitAt_cursor_add (bits : List Bool) (h : RoomFor s bits.length) {k : Nat} (hk : k < bits.length) :
    (enter bits s).bitAt (s.cursor + k) = bits.getD k false := by
  induction bits generalizing s k with
  | nil => simp at hk
  | cons b bits ih =>
    have hc := h.cursor_enterBit b
    cases k with
    | zero =>
      rw [enter_cons, enter_bitAt_of_lt bits (h.enterBit b) (by omega)]
      exact enterBit_bitAt_cursor b h.clear
    | succ k =>
      rw [enter_cons, show s.cursor + (k + 1) = (Machine.enterBit b s).cursor + k by omega]
      exact ih (h.enterBit b) (by simpa using hk)

/-- Entering bits changes `DMEM` and the cursor, no other register (R132). -/
theorem enter_frame (bits : List Bool) (s : State) : enter bits s = { s with
    dmem := (enter bits s).dmem
    writer := { s.writer with
      bytePos := (enter bits s).writer.bytePos, bitOffset := (enter bits s).writer.bitOffset } } := by
  induction bits generalizing s with
  | nil => rfl
  | cons b bits ih => exact (ih (enterBit b s)).trans rfl

/-! ## The stream -/

/-- The cursor lies `bitpos()` bits into the buffer (R12, R130). -/
theorem cursor_eq (h : WriterOk s.writer s.cfg.dmemSize) : s.cursor = 8 * s.writer.curStart.toNat + s.bitpos := by
  have hstart := h.1
  simp only [State.cursor, State.bitpos]
  omega

/-- Settles O23: the facts about the bits of `DMEM`, moved to the stream. -/
theorem enteringBits : Obligations.EnteringBits := by
  intro s bits hs hw ht hf
  have room : RoomFor s bits.length := ⟨⟨hs, hw⟩, ht, hf⟩
  have hc := cursor_eq hw
  refine ⟨enter_bitpos s bits hs hw hf, fun k hk => ?_, fun k hk => ?_, fun a ha => ?_, enter_writerOk s bits hs hw hf,
    enter_tailClear bits ht, enter_frame bits s⟩
  · rw [State.streamBit, enter_writer_curStart, ← Nat.add_assoc, ← hc]
    exact enter_bitAt_cursor_add bits room hk
  · rw [State.streamBit, enter_writer_curStart]
    exact enter_bitAt_of_lt bits room (by omega)
  · exact enter_byteAt_of_outside s bits a hs hw hf (by omega)

end Sys2Proof.Machine
end

section
/-! PROOFS. What a turn of the host and a turn of the engine can leave, said once for each (`HostLeaves` and
`EngineLeaves`); from these the invariant of the machine, the end of a fault and the moves of `CP`. -/

namespace Sys2Proof.Machine

variable {s t u : State}

/-! ## What a host access leaves (R28, R34, R60) -/

/-- EVERYTHING a host access that has a next state can leave: the host's own replies longer (a read) or as they were (an
ignored write), one writable register or one memory cell written, a run begun, or the reset. -/
inductive HostLeaves (s : State) : HostAccess → State → Prop
  | replies (a : HostAccess) (l : List CmdWord) : HostLeaves s a { s with hostReplies := l }
  | register (a : HostAccess) (x : SetrTarget) (v : Word) : HostLeaves s a (writeTarget x v s)
  | start (a : HostAccess) : s.status.run = false → s.status.fault = false → HostLeaves s a (startRun s)
  | reset (v : Word) : v.getLsbD 1 = true → HostLeaves s (.writeCsr 0x00 v) (ctrlReset s)
  | cmd (k : Nat) (v : CmdWord) : k < s.cfg.cmdWords → HostLeaves s (.writeCmd k v) { s with cmd := s.cmd.write k v }
  | param (k : Nat) (v : Word) : k < paramWords → HostLeaves s (.writeParam k v) { s with param := s.param.write k v }
  | dmem (k : Nat) (v : Byte) : k < s.cfg.dmemSize → HostLeaves s (.writeDmem k v) { s with dmem := s.dmem.write k v }

theorem memoryPort_eq_next {index size : Nat} (h : memoryPort index size s u = .next t) :
    t = u ∧ s.status.run = false ∧ index < size := by
  rcases memoryPort_cases index size s u with ⟨e, hrun, hi⟩ | ⟨e, -⟩ | ⟨e, -⟩
  · exact ⟨by simpa using h.symm.trans e, hrun, hi⟩
  · simp [e] at h
  · simp [e] at h

theorem readCsr_eq_next {n : BitVec 8} (h : readCsr n s = .next t) : ∃ v : Word, t = reply (v.setWidth 64) s := by
  unfold readCsr at h
  split at h
  · cases h
  · split at h
    · cases h; exact ⟨_, rfl⟩
    · cases h

theorem writeCtrl_leaves {v : Word} (h : writeCtrl v s = .next t) : HostLeaves s (.writeCsr 0x00 v) t := by
  rcases writeCtrl_cases v s with ⟨r, e⟩ | ⟨e, hv⟩ | ⟨e, hrun, hfault⟩ | ⟨e, -⟩ <;> rw [e] at h <;> cases h
  · exact .reset v hv
  · exact .start _ hrun hfault
  · exact .replies _ s.hostReplies

theorem writeCsr_leaves {n : BitVec 8} {v : Word} (h : writeCsr n v s = .next t) : HostLeaves s (.writeCsr n v) t := by
  unfold writeCsr at h
  split at h
  case isTrue hn => subst hn; exact writeCtrl_leaves h
  case isFalse =>
    split at h
    · cases h
    · split at h
      · cases h; exact .register _ _ _
      · split at h <;> cases h
        exact .replies _ s.hostReplies

theorem hostAccess_leaves {a : HostAccess} (h : hostAccess a s = .next t) : HostLeaves s a t := by
  cases a with
  | readCsr n => obtain ⟨v, rfl⟩ := readCsr_eq_next h; exact .replies _ _
  | writeCsr n v => exact writeCsr_leaves h
  | readCmd k => obtain ⟨rfl, -⟩ := memoryPort_eq_next h; exact .replies _ _
  | readParam k => obtain ⟨rfl, -⟩ := memoryPort_eq_next h; exact .replies _ _
  | readDmem k => obtain ⟨rfl, -⟩ := memoryPort_eq_next h; exact .replies _ _
  | writeCmd k v => obtain ⟨rfl, -, hk⟩ := memoryPort_eq_next h; exact .cmd k v hk
  | writeParam k v => obtain ⟨rfl, -, hk⟩ := memoryPort_eq_next h; exact .param k v hk
  | writeDmem k v => obtain ⟨rfl, -, hk⟩ := memoryPort_eq_next h; exact .dmem k v hk

/-- Settles O8: of all that a host access can leave, only a start and the reset touch these registers, and a start needs
that no fault has been raised. -/
theorem faultEndsByResetOnly : Obligations.FaultEndsByResetOnly := by
  intro s t a hfault h
  cases hostAccess_leaves h with
  | reset v hv => exact .inl ⟨v, rfl, hv⟩
  | start _ _ hnone => simp [hfault] at hnone
  | register _ x v => right; cases x <;> exact ⟨rfl, rfl, rfl, rfl⟩
  | replies | cmd | param | dmem => exact .inr ⟨rfl, rfl, rfl, rfl⟩

/-! ## What the engine's turn leaves (R26, R93, R381) -/

/-- The invariant is all that the laws of the commands ask of a state. -/
theorem Inv.ready (h : Inv s) : Ready s := by
  obtain ⟨⟨hsize, -⟩, ⟨-, -, -, -, hwf, hin⟩, hw, hctx, -⟩ := h
  exact ⟨hsize, hw, hctx, hwf, hin⟩

theorem fetchCommand_eq_ok {i : Instr} (h : fetchCommand s = .ok i) :
    s.cp.toNat < s.cfg.cmdWords ∧ decode (s.cmd.read s.cp.toNat) = .ok i := by
  unfold fetchCommand at h
  split at h
  · split at h <;> cases h
    exact ⟨‹_›, ‹_›⟩
  · cases h

theorem fetchCommand_eq_error (h : fetchCommand s = .error t) : ∃ code info, t = s.takeFault code info := by
  unfold fetchCommand at h
  split at h
  · split at h <;> cases h
    exact ⟨_, _, rfl⟩
  · cases h; exact ⟨_, _, rfl⟩

/-- EVERYTHING the engine's turn in a sound state can leave: a command that is no `END` has completed, `END` has ended
the run, or a fault has been raised. -/
inductive EngineLeaves (s : State) : State → Prop
  | completes (i : Instr) (u : State) : fetchCommand s = .ok i → i ≠ .endCmd → Effect s u → CabacOk u.cabac →
      EngineLeaves s u.advance
  | ends : fetchCommand s = .ok .endCmd → EngineLeaves s s.endRun
  | faults (u : State) (code : FaultCode) (info : Word) : Effect s u → EngineLeaves s (u.takeFault code info)

theorem engineCycle_leaves (hr : Ready s) (hc : CabacOk s.cabac) (h : engineCycle s = .next t) : EngineLeaves s t := by
  unfold engineCycle at h
  split at h
  case h_2 e =>
    obtain ⟨code, info, rfl⟩ := fetchCommand_eq_error e
    cases h
    exact .faults s code info (.refl hr)
  case h_1 i hi =>
    by_cases hend : i = .endCmd
    · subst hend; cases h; exact .ends hi
    · obtain ⟨r, e, p⟩ := exec_performs i hend hr hc
      rcases finish_next (e ▸ h) with ⟨u, rfl, rfl⟩ | rfl
      · obtain ⟨hu, hcu⟩ := p
        exact .completes i u hi hend hu hcu
      · obtain ⟨u, code, info, hu, rfl⟩ := p
        exact .faults u code info hu

/-! ## The status word (R35) -/

section

variable {st : Status}

/-- A start of an engine that has raised no fault (R34). -/
theorem StatusOk.started (h : StatusOk st) (hf : st.fault = false) : StatusOk st.started := by
  obtain ⟨-, -, -, hcode⟩ := h
  exact ⟨by simp [Status.started], by simp [Status.started, hf], by simp [Status.started], hcode⟩

/-- `END` turns a run into `DONE` (R120). -/
theorem StatusOk.ended (h : StatusOk st) (hrun : st.run = true) : StatusOk st.ended := by
  obtain ⟨-, hrf, -, hcode⟩ := h
  have hf : st.fault = false := by simpa [hrun] using hrf
  exact ⟨by simp [Status.ended], by simp [Status.ended], by simp [Status.ended, hf], hcode⟩

/-- Every fault code is one of R380's. -/
theorem FaultCode.number_bounds (code : FaultCode) : 1 ≤ code.number.toNat ∧ code.number.toNat ≤ 9 := by
  cases code <;> decide

/-- A fault turns a run into `FAULT` (R381). -/
theorem StatusOk.faulted (h : StatusOk st) (hrun : st.run = true) (code : FaultCode) : StatusOk (st.faulted code) := by
  obtain ⟨hrd, -⟩ := h
  have hd : st.done = false := by simpa [hrun] using hrd
  exact ⟨by simp [Status.faulted], by simp [Status.faulted], by simp [Status.faulted, hd], by simp [Status.faulted],
    fun _ => code.number_bounds⟩

end

/-! ## The invariant, piece by piece -/

/-- A procedure's effect keeps everything the invariant says outside the coder. -/
theorem Inv.effect (h : Inv s) (e : Effect s u) (hc : s.status.fault = false → CabacOk u.cabac) : Inv u := by
  obtain ⟨hcfg, ⟨hm1, hm2, hm3, hm4, -⟩, -, -, hst, hfr, hcp, -⟩ := h
  obtain ⟨e1, e2, e3, e4, e5, e6, e7, -, -, -, -, hw, hctx, hwf, hin⟩ := e
  simp only [Inv, MemoriesOk, FaultRegsOk, e2, e3, e4, e5, e6, e7]
  exact ⟨e1 ▸ hcfg, ⟨hm1, e1 ▸ hm2, hm3, hm4, hwf, hin⟩, hw, hctx, hst, hfr, e1 ▸ hcp, hc⟩

/-- A command that completes leaves `CP` inside `CMD` or one past it (R26). -/
theorem Inv.advance (h : Inv s) (hf : s.status.fault = false) (hcp : s.cp.toNat < s.cfg.cmdWords) : Inv s.advance := by
  obtain ⟨hcfg, hm, hw, hctx, hst, hfr, -, hc⟩ := h
  have hlegal := hcfg.2
  refine ⟨hcfg, hm, hw, hctx, hst, ⟨hfr.1, fun hf' => ?_⟩, ?_, hc⟩
  · simp [hf] at hf'
  · simp only [State.advance_cp, State.advance_cfg]; bv_omega

/-- `END` turns a run into `DONE` (R35, R120). -/
theorem Inv.endRun (h : Inv s) (hrun : s.status.run = true) : Inv s.endRun := by
  obtain ⟨hcfg, hm, hw, hctx, hst, hfr, hcp, hc⟩ := h
  exact ⟨hcfg, hm, hw, hctx, hst.ended hrun, hfr, hcp, hc⟩

/-- Taking a fault in a run turns it into `FAULT`, whatever the coder's registers hold (R36, R381). -/
theorem Inv.takeFault (h : Inv s) (hrun : s.status.run = true) (e : Effect s u) (code : FaultCode) (info : Word) :
    Inv (u.takeFault code info) := by
  obtain ⟨hcfg, ⟨hm1, hm2, hm3, hm4, -⟩, -, -, hst, -, hcp, -⟩ := h
  obtain ⟨e1, e2, e3, e4, e5, -, -, -, -, -, -, hw, hctx, hwf, hin⟩ := e
  refine ⟨by simpa only [State.takeFault_cfg, e1] using hcfg, ?_, hw, hctx, ?_, ?_, ?_, ?_⟩
  · simp only [MemoriesOk, State.takeFault_cfg, State.takeFault_cmd, State.takeFault_param, State.takeFault_dmem, e2,
      e3]
    exact ⟨hm1, e1 ▸ hm2, hm3, hm4, hwf, hin⟩
  · rw [State.takeFault_status, e5]
    exact hst.faulted hrun code
  · exact ⟨by simp [Status.faulted], fun _ => rfl⟩
  · simpa only [State.takeFault_cp, State.takeFault_cfg, e1, e4] using hcp
  · simp [Status.faulted]

/-- A start begins a run at command 0 (R34). -/
theorem Inv.startRun (h : Inv s) (hf : s.status.fault = false) : Inv (startRun s) := by
  obtain ⟨hcfg, hm, hw, hctx, hst, ⟨hfr, -⟩, -, hc⟩ := h
  have none : ¬s.status.started.fault = true := by simp [Status.started, hf]
  exact ⟨hcfg, hm, hw, hctx, hst.started hf, ⟨hfr, fun h => absurd h none⟩, Nat.zero_le _, hc⟩

/-! ## Reset (R420, R421) -/

/-- The registers of R420 are sound over any sound memories. -/
theorem inv_resetRegisters (hcfg : s.cfg.legal) (hm : MemoriesOk s) : Inv s.resetRegisters :=
  ⟨hcfg, hm, ⟨le_rfl, le_rfl, Nat.zero_le _, fun _ => rfl⟩,
    fun i => by simp [State.resetRegisters, State.reset, Context.reset],
    (by decide : StatusOk Status.idle), ⟨fun _ => ⟨rfl, rfl⟩, nofun⟩, Nat.zero_le _,
    fun _ => (by decide : CabacOk Cabac.reset)⟩

/-- The free bytes of a region stay inside `DMEM` (R421). -/
theorem freeRegion_memory (r : Region) (hwf : Memory.wf s.dmem) (hin : Memory.within s.cfg.dmemSize s.dmem) :
    Memory.wf (freeRegion s r).dmem ∧ Memory.within s.cfg.dmemSize (freeRegion s r).dmem := by
  refine ⟨Memory.writeList_wf hwf _ _, ?_⟩
  by_cases hr : r.1 ≤ s.cfg.dmemSize
  · exact Memory.writeList_within hin _ (by simp; omega)
  · have none : min r.2 (s.cfg.dmemSize - r.1) = 0 := by omega
    simpa [freeRegion, none, Memory.writeList] using hin

/-- An interrupted command leaves sound memories and every register as it was (R421). -/
theorem interruptCommand_eq (hwf : Memory.wf s.dmem) (hin : Memory.within s.cfg.dmemSize s.dmem) :
    ∃ m n, interruptCommand s = { s with dmem := m, freeCount := n } ∧
      Memory.wf m ∧ Memory.within s.cfg.dmemSize m := by
  have regions : ∀ (l : List Region) (s : State), Memory.wf s.dmem → Memory.within s.cfg.dmemSize s.dmem →
      ∃ m, l.foldl freeRegion s = { s with dmem := m } ∧ Memory.wf m ∧ Memory.within s.cfg.dmemSize m := by
    intro l
    induction l with
    | nil => exact fun s hwf hin => ⟨s.dmem, rfl, hwf, hin⟩
    | cons r l ih =>
      intro s hwf hin
      obtain ⟨hwf', hin'⟩ := freeRegion_memory r hwf hin
      exact ih (freeRegion s r) hwf' hin'
  unfold interruptCommand
  split
  · exact ⟨s.dmem, s.freeCount, rfl, hwf, hin⟩
  · rename_i i _
    obtain ⟨m, e, hwf', hin'⟩ := regions (writableRegions i s) s hwf hin
    exact ⟨m, s.freeCount + 1, by rw [e], hwf', hin'⟩

theorem Inv.ctrlReset (h : Inv s) : Inv (ctrlReset s) := by
  obtain ⟨hcfg, hm, -⟩ := h
  unfold Machine.ctrlReset
  split
  · obtain ⟨hm1, hm2, hm3, hm4, hwf, hin⟩ := hm
    obtain ⟨m, n, e, hwf', hin'⟩ := interruptCommand_eq hwf hin
    rw [e]
    exact inv_resetRegisters hcfg ⟨hm1, hm2, hm3, hm4, hwf', hin'⟩
  · exact inv_resetRegisters hcfg hm

/-! ## Every step -/

theorem HostLeaves.inv {a : HostAccess} (l : HostLeaves s a t) (h : Inv s) : Inv t := by
  obtain ⟨hcfg, ⟨hm1, hm2, hm3, hm4, hm5, hm6⟩, rest⟩ := id h
  cases l with
  | replies => exact h
  | register _ x v =>
    obtain ⟨e, hc⟩ := writeTarget_effect x v h.ready
    obtain ⟨-, -, -, -, -, hok⟩ := rest
    exact h.effect e (hc ▸ hok)
  | start _ _ hf => exact h.startRun hf
  | reset => exact h.ctrlReset
  | cmd k v hk => exact ⟨hcfg, ⟨Memory.write_wf hm1 k v, Memory.write_within hm2 hk v, hm3, hm4, hm5, hm6⟩, rest⟩
  | param k v hk => exact ⟨hcfg, ⟨hm1, hm2, Memory.write_wf hm3 k v, Memory.write_within hm4 hk v, hm5, hm6⟩, rest⟩
  | dmem k v hk => exact ⟨hcfg, ⟨hm1, hm2, hm3, hm4, Memory.write_wf hm5 k v, Memory.write_within hm6 hk v⟩, rest⟩

/-- In a run of a sound state no fault has been raised (R35). -/
theorem Inv.fault_of_run (h : Inv s) (hrun : s.status.run = true) : s.status.fault = false := by
  obtain ⟨-, -, -, -, ⟨-, hrf, -⟩, -⟩ := h
  simpa [hrun] using hrf

/-- In a run of a sound state the coder's interval is sound (R23). -/
theorem Inv.cabacOk_of_run (h : Inv s) (hrun : s.status.run = true) : CabacOk s.cabac := by
  obtain ⟨-, -, -, -, -, -, -, hc⟩ := id h
  exact hc (h.fault_of_run hrun)

theorem Inv.engineLeaves (h : Inv s) (hrun : s.status.run = true) (hstep : engineCycle s = .next t) :
    EngineLeaves s t :=
  engineCycle_leaves h.ready (h.cabacOk_of_run hrun) hstep

theorem EngineLeaves.inv (l : EngineLeaves s t) (h : Inv s) (hrun : s.status.run = true) : Inv t := by
  cases l with
  | ends => exact h.endRun hrun
  | faults u code info e => exact h.takeFault hrun e code info
  | completes i u hi _ e hc =>
    obtain ⟨hcp, -⟩ := fetchCommand_eq_ok hi
    obtain ⟨e1, -, -, e4, e5, -⟩ := id e
    exact (h.effect e fun _ => hc).advance (e5 ▸ h.fault_of_run hrun) (by rw [e1, e4]; exact hcp)

/-- The host's own record plays no part in the invariant. -/
theorem Inv.hostTick (h : Inv s) : Inv (hostTick s) := by
  obtain ⟨l, e⟩ := hostTick_eq s
  rw [e]; exact h

theorem hostTurn_inv (h : Inv s) (hstep : hostTurn s = .next t) : Inv t := by
  unfold hostTurn at hstep
  split at hstep
  · cases hstep; exact h
  · rename_i r rest _
    exact (hostAccess_leaves hstep).inv (s := { s with hostPending := rest }) h

/-- Settles O18, by the three turns of a step: the host's, the engine's, nobody's. -/
theorem stepKeepsSound : Obligations.StepKeepsSound := by
  intro s t h hstep
  cases hdue : hostDue s with
  | true => exact hostTurn_inv h (step_of_hostDue hdue ▸ hstep)
  | false =>
    cases hrun : s.status.run with
    | true =>
      rw [step_of_running hdue hrun] at hstep
      have hrun' : (hostTick s).status.run = true := by simpa using hrun
      exact (h.hostTick.engineLeaves hrun' hstep).inv h.hostTick hrun'
    | false =>
      rw [step_of_idle hdue hrun] at hstep
      cases hstep; exact h.hostTick

/-! ## The command pointer -/

/-- A start of an engine that is idle or done (R34). -/
theorem writeCsr_start (hrun : s.status.run = false) (hf : s.status.fault = false) :
    writeCsr 0x00 1 s = .next (startRun s) := by
  simp [writeCsr, writeCtrl, hrun, hf]

/-- Settles O9: what the engine's turn can leave, read at `CP` and the status. -/
theorem commandPointer : Obligations.CommandPointer := by
  refine ⟨fun s t h turn hstep => ?_, fun s t hrun hf h => ?_, rfl⟩
  · obtain ⟨hdue, hrun⟩ := turn
    rw [step_of_running hdue hrun] at hstep
    have hrun' : (hostTick s).status.run = true := by simpa using hrun
    cases h.hostTick.engineLeaves hrun' hstep with
    | completes i u hi hne e _ =>
      obtain ⟨hcp, hdec⟩ := fetchCommand_eq_ok (fetchCommand_hostTick.1 hi)
      obtain ⟨-, -, -, e4, e5, -⟩ := e
      have hlegal : s.cfg.cmdWords ≤ 2 ^ 32 := h.1.2
      refine .inl ⟨?_, by simp [e5], i, hdec, hne⟩
      rw [State.advance_cp, e4, hostTick_cp]; bv_omega
    | ends hi =>
      exact .inr (.inl ⟨by simp, by simp [Status.ended], (fetchCommand_eq_ok (fetchCommand_hostTick.1 hi)).2⟩)
    | faults u code info e =>
      obtain ⟨-, -, -, e4, e5, -⟩ := e
      obtain ⟨-, -, -, -, ⟨hrd, -⟩, -⟩ := h
      have hd : s.status.done = false := by simpa [hrun] using hrd
      exact .inr (.inr ⟨by simp [e4], by simp [e4], by simp [Status.faulted], by simp [Status.faulted],
        by simp [Status.faulted, e5, hd]⟩)
  · rw [writeCsr_start hrun hf] at h
    cases h; rfl

end Sys2Proof.Machine
end

section
/-! PROOFS. The host's ports, access by access: `CTRL` (R34), the register port (R28), the three memories (R60). -/

namespace Sys2Proof.Machine

variable {s : State}

/-! ## CTRL -/

/-- The reset gives every register the value of R420, whether or not it interrupts a command. -/
theorem afterReset_ctrlReset (s : State) : AfterReset (ctrlReset s) := by
  have registers (s : State) : AfterReset s.resetRegisters :=
    ⟨rfl, rfl, rfl, rfl, rfl, rfl, rfl, rfl, rfl, fun i => by simp [State.resetRegisters, State.reset, Context.reset]⟩
  unfold ctrlReset
  split <;> exact registers _

/-- Settles O12, value by value: 1 is a start, 0 nothing, 2 and 3 the reset. -/
theorem controlWrites : Obligations.ControlWrites := by
  intro s
  refine ⟨fun hrun hf => ?_, fun hrun hf => ?_, fun hrun => ?_, fun hrun => ?_, ctrlReset s, ?_, ?_,
    afterReset_ctrlReset s⟩
  · simp [writeCsr, writeCtrl, hrun, hf, startRun, Status.started]
  · simp [writeCsr, writeCtrl, hrun, hf]
  · simp [writeCsr, writeCtrl, hrun]
  · simp [writeCsr, writeCtrl, hrun]
  · simp [writeCsr, writeCtrl]
  · simp [writeCsr, writeCtrl]

/-! ## The register port -/

theorem readCsr_assigned {n : BitVec 8} {v : Word} (hrun : s.status.run = false) (h : csrValue n s = some v) :
    readCsr n s = .next (reply (v.setWidth 64) s) := by
  simp [readCsr, hrun, h]

theorem readCsr_unassigned {n : BitVec 8} (hrun : s.status.run = false) (h : csrValue n s = none) :
    readCsr n s = .refused .hostUnassignedCsr := by
  simp [readCsr, hrun, h]

/-- The word of `STATUS` as a number; nothing overflows (R28). -/
theorem Status.word_toNat (st : Status) :
    st.word.toNat = st.run.toNat + 2 * st.done.toNat + 4 * st.fault.toNat + 256 * st.faultCode.toNat := by
  have hcode := st.faultCode.isLt
  have hr := st.run.toNat_le
  have hd := st.done.toNat_le
  have hf := st.fault.toNat_le
  simp only [Status.word, BitVec.toNat_ofNat]
  omega

/-- A bit of a word by its place in the number. -/
theorem getLsbD_eq_of_toNat {w : Word} {i : Nat} {b : Bool} (h : w.toNat / 2 ^ i % 2 = b.toNat) : w.getLsbD i = b := by
  rw [BitVec.getLsbD, Nat.testBit_eq_decide_div_mod_eq, h]
  cases b <;> rfl

/-- A field of a word by its place in the number. -/
theorem extractLsb'_eq_of_toNat {w : Word} {i n : Nat} {x : BitVec n} (h : w.toNat / 2 ^ i % 2 ^ n = x.toNat) :
    w.extractLsb' i n = x :=
  BitVec.eq_of_toNat_eq (by rwa [BitVec.extractLsb'_toNat, Nat.shiftRight_eq_div_pow])

/-- The fields of `STATUS` stand at the bits of R28, zeros elsewhere. -/
theorem Status.word_fields (st : Status) :
    st.word.getLsbD 0 = st.run ∧ st.word.getLsbD 1 = st.done ∧ st.word.getLsbD 2 = st.fault ∧
      st.word.extractLsb' 3 5 = 0 ∧ st.word.extractLsb' 8 8 = st.faultCode ∧ st.word.extractLsb' 16 16 = 0 := by
  have hw := st.word_toNat
  have hcode := st.faultCode.isLt
  have hr := st.run.toNat_le
  have hd := st.done.toNat_le
  have hf := st.fault.toNat_le
  exact ⟨getLsbD_eq_of_toNat (by omega), getLsbD_eq_of_toNat (by omega), getLsbD_eq_of_toNat (by omega),
    extractLsb'_eq_of_toNat (by simp; omega), extractLsb'_eq_of_toNat (by omega),
    extractLsb'_eq_of_toNat (by simp; omega)⟩

/-- `FIRST_BIT_FLAG` as a word (R28). -/
theorem Cabac.firstBitWord_eq (c : Cabac) : c.firstBitWord = if c.firstBit then 1 else 0 := by
  unfold Cabac.firstBitWord; cases c.firstBit <;> rfl

/-- The map of R28 ends where its list of numbers ends. -/
theorem csrValue_eq_none {n : BitVec 8} (h : n.toNat ∉ [0x00, 0x01, 0x02, 0x03, 0x04, 0x08, 0x09, 0x0A, 0x0B, 0x0C,
    0x0D, 0x0E, 0x10, 0x11, 0x12, 0x13, 0x14, 0x18, 0x19, 0x1A, 0x20, 0x21, 0x22, 0x23, 0x24]) (s : State) :
    csrValue n s = none := by
  unfold csrValue
  split
  case h_26 => rfl
  all_goals simp_all

/-- Settles O14: the map of R28 entry by entry, `STATUS` bit by bit. -/
theorem hostReadsRegisters : Obligations.HostReadsRegisters := by
  intro s hrun
  refine ⟨fun n v hmem => readCsr_assigned hrun ?_, ⟨s.status.word, readCsr_assigned hrun rfl, s.status.word_fields⟩,
    fun n hn => readCsr_unassigned hrun (csrValue_eq_none hn s)⟩
  rw [← Cabac.firstBitWord_eq] at hmem
  change csrValue (n, v).1 s = some (n, v).2
  generalize (n, v) = entry at hmem ⊢
  fin_cases hmem <;> rfl

/-! ## The memory ports -/

theorem memoryPort_of_idle {index size : Nat} (hrun : s.status.run = false) (h : index < size) (t : State) :
    memoryPort index size s t = .next t := by
  simp [memoryPort, hrun, h]

/-- Settles O15, memory by memory: a write inside the memory is made, and read after write says what is read. -/
theorem hostMemoryPorts : Obligations.HostMemoryPorts := by
  refine ⟨fun s a v hrun ha => ⟨_, memoryPort_of_idle hrun ha _, rfl, fun b => Memory.read_write s.dmem a b v, ?_⟩,
    fun s k v hrun hk => ⟨_, memoryPort_of_idle hrun hk _, rfl, fun j => Memory.read_write s.param k j v, ?_⟩,
    fun s k v hrun hk => ⟨_, memoryPort_of_idle hrun hk _, rfl, fun j => Memory.read_write s.cmd k j v, ?_⟩⟩
  · exact (memoryPort_of_idle (s := { s with dmem := _ }) hrun ha _).trans (by simp [reply])
  · exact (memoryPort_of_idle (s := { s with param := _ }) hrun hk _).trans (by simp [reply])
  · exact (memoryPort_of_idle (s := { s with cmd := _ }) hrun hk _).trans (by simp [reply])

end Sys2Proof.Machine
end

section
/-! PROOFS. Two commands in full: `ENC_BIN` through a context nothing has written (R389), `PACK_NALU` (R211). -/

namespace Sys2Proof.Machine

variable {s : State}

/-- A context index below 9 is a legal operand (R92). -/
theorem ctxOperand_of_lt {ctx : BitVec 8} (h : ctx.toNat < 9) : ctxOperand ctx = some ⟨ctx.toNat, h⟩ := by
  simp [ctxOperand, h]

/-- `EncodeBin` through a context whose valid bit is 0 (R389). -/
theorem encodeBin_of_not_valid {i : Fin 9} (h : s.ctx[i].valid = false) (b : Bool) :
    encodeBin i b s = raise .ctxUninit (BitVec.ofNat 32 i) s := by
  rw [encodeBin, if_neg (Bool.eq_false_iff.1 h)]

/-- Settles O33: the context is looked at before anything is written. -/
theorem uninitialisedContextFaults : Obligations.UninitialisedContextFaults := by
  intro s ctx b h hv
  have info : BitVec.ofNat 32 ctx.toNat = ctx.setWidth 32 := by
    apply BitVec.eq_of_toNat_eq; simp
  calc exec (.encBin ctx b) s = finish (encodeBin ⟨ctx.toNat, h⟩ b s) := by
        simp only [exec, execEncBin, ctxOperand_of_lt h]
    _ = faultNext .ctxUninit (ctx.setWidth 32) s := by
        rw [encodeBin_of_not_valid hv, finish_raise, faultNext, ← info]

/-- The low `n` bits of a number by their indices (R61, R133). -/
theorem bitsMsb_eq_map (n v : Nat) : bitsMsb n v = (List.range n).map fun k => v.testBit (n - 1 - k) := by
  induction n with
  | zero => rfl
  | succ n ih =>
    rw [bitsMsb, ih, List.range_succ_eq_map, List.map_cons, List.map_map]
    refine congrArg₂ _ (by simp) (List.map_congr_left fun k hk => ?_)
    simp only [Function.comp]; congr 1; omega

/-- A listing of writes alone sends its bits whatever the position it begins at. -/
theorem listingBits_put (pos : Nat) (l : List (List Bool)) : listingBits pos (l.map .put) = l.flatten := by
  induction l generalizing pos with
  | nil => rfl
  | cons b l ih => simp only [List.map_cons, listingBits, Act.bits, ih, List.flatten_cons]

/-- A listing of writes alone assigns no report register. -/
theorem listingReport_put (base pos : Nat) (l : List (List Bool)) (r : Report) :
    listingReport base pos (l.map .put) r = r := by
  induction l generalizing pos with
  | nil => rfl
  | cons b l ih => exact ih _

/-- A command that is a listing of writes alone enters their bits, where they fit. -/
theorem finish_runActs_put (h : Writable s) (base : Nat) (l : List (List Bool)) (hf : Fits s l.flatten.length) :
    finish (runActs base (l.map .put) s) = .next (enter l.flatten s).advance := by
  rw [runActs_eq h base _ (by simp [Act.stops]) (by rwa [listingBits_put]), listingBits_put, listingReport_put,
    finish_ok, ← enter_report s l.flatten]
  rfl

/-- The writes of `PackNALU` (R211), one by one: the optional zero byte, the start code, the header's fields. -/
def naluWrites (long : Bool) (type layer tid : Nat) : List (List Bool) :=
  (if long = true ∨ type ∈ [32, 33, 34, 35, 39] then [List.replicate 8 false] else []) ++
    [List.replicate 23 false ++ [true], [false], bitsMsb 6 type, bitsMsb 6 layer, bitsMsb 3 tid]

/-- The listing of `PackNALU` is its writes. -/
theorem naluActs_eq (long : Bool) (type layer tid : Nat) :
    naluActs long type layer tid = (naluWrites long type layer tid).map .put := by
  have zero : bitsMsb 8 0 = List.replicate 8 false := rfl
  have one : bitsMsb 24 0x000001 = List.replicate 23 false ++ [true] := rfl
  simp only [naluActs, naluWrites, onlyIf, leadingZero, u, flag, zero, one, Bool.or_eq_true, List.contains_iff_mem,
    List.map_append]
  split <;> rfl

theorem naluWrites_flatten (long : Bool) (type layer tid : Nat) : (naluWrites long type layer tid).flatten =
    (if long = true ∨ type ∈ [32, 33, 34, 35, 39] then List.replicate 8 false else []) ++ List.replicate 23 false ++
      [true] ++ [false] ++ bitsMsb 6 type ++ bitsMsb 6 layer ++ bitsMsb 3 tid := by
  rw [naluWrites]
  split <;> simp

/-- Settles O44: the listing of the `NALU` record is its writes, and its operands are the words of R42. -/
theorem packNaluCommand : Obligations.PackNaluCommand := by
  intro s hs hw
  simp only [← bitsMsb_eq_map, ← naluWrites_flatten]
  intro hf
  have listing : naluRecordActs s.params = (naluWrites ((s.param.read 0).getLsbD 0) ((s.param.read 1).toNat % 64)
      ((s.param.read 2).toNat % 64) ((s.param.read 3).toNat % 8)).map .put := naluActs_eq _ _ _ _
  rw [exec, execPackNalu, listing]
  exact finish_runActs_put ⟨hs, hw⟩ 0 _ hf

end Sys2Proof.Machine
end

section
/-! PROOFS. What no command writes: the configuration, the commands, the parameter words, the status, the fault
registers and the host's own record. Nothing is asked of the state before the command. -/

namespace Sys2Proof.Machine

variable {s t u : State}

/-- What a command leaves as it is, unless it is `END` or takes a fault (R36, R60, R77). -/
def State.fixed (s : State) :
    Config × Memory 64 × Memory 32 × Status × Word × Word × List HostRequest × List CmdWord × Nat :=
  (s.cfg, s.cmd, s.param, s.status, s.faultCp, s.faultInfo, s.hostPending, s.hostReplies, s.freeCount)

/-- A procedure started in `s` that completes has the fixed part of `s`; one that raises a fault has it up to
the fault. -/
def KeepsFixed (s : State) (r : Res) : Prop :=
  match r with
  | .ok u => u.fixed = s.fixed
  | .error (.raised t) => ∃ (u : State) (code : FaultCode) (info : Word), u.fixed = s.fixed ∧ t = u.takeFault code info
  | .error (.fault _) => True
  | .error (.refused _) => True

theorem KeepsFixed.ok (e : t.fixed = s.fixed) : KeepsFixed s (.ok t) := e

theorem KeepsFixed.raise (e : t.fixed = s.fixed) (code : FaultCode) (info : Word) :
    KeepsFixed s (Machine.raise code info t) := ⟨t, code, info, e, rfl⟩

theorem KeepsFixed.of_eq {r : Res} (a : KeepsFixed t r) (e : t.fixed = s.fixed) : KeepsFixed s r := by
  match r, a with
  | .ok _, e' => exact Eq.trans e' e
  | .error (.raised _), ⟨u, code, info, e', h⟩ => exact ⟨u, code, info, e'.trans e, h⟩
  | .error (.fault _), _ => trivial
  | .error (.refused _), _ => trivial

/-- One procedure after another. -/
theorem KeepsFixed.bind {r : Res} {f : State → Res} (a : KeepsFixed s r) (b : ∀ t, KeepsFixed t (f t)) :
    KeepsFixed s (r >>= f) := by
  match r, a with
  | .ok t, e => exact .of_eq (b t) e
  | .error (.raised _), a => exact a
  | .error (.fault _), _ => trivial
  | .error (.refused _), _ => trivial

/-! ## The bit writer -/

theorem putBitRaw_keepsFixed (b : Bool) : KeepsFixed s (putBitRaw b s) := by
  unfold putBitRaw; split
  · exact .ok rfl
  · trivial

theorem putRaw_keepsFixed (bits : List Bool) : KeepsFixed s (putRaw bits s) := by
  induction bits generalizing s with
  | nil => exact .ok rfl
  | cons b bits ih => exact .bind (putBitRaw_keepsFixed b) fun _ => ih

theorem needBits_keepsFixed (k : Nat) : KeepsFixed s (needBits k s) := by
  unfold needBits; split
  · exact .raise rfl _ _
  · exact .ok rfl

theorem emit_keepsFixed (bits : List Bool) : KeepsFixed s (emit bits s) :=
  .bind (needBits_keepsFixed _) fun _ => putRaw_keepsFixed bits

theorem putTrailing_keepsFixed (c : Bool) : KeepsFixed s (putTrailing c s) := by
  unfold putTrailing; split
  · exact .ok rfl
  · exact emit_keepsFixed _

theorem copyBits_keepsFixed (p n : Nat) : KeepsFixed s (copyBits p n s) := by
  induction n generalizing p s with
  | zero => exact .ok rfl
  | succ n ih => exact .bind (putBitRaw_keepsFixed _) fun _ => ih _

theorem putBitsBuffer_keepsFixed (n : Nat) : KeepsFixed s (putBitsBuffer n s) := by
  unfold putBitsBuffer; split
  · exact .raise rfl _ _
  · split
    · exact .raise rfl _ _
    · exact .bind (needBits_keepsFixed n) fun _ => .bind (copyBits_keepsFixed _ n) fun _ => .ok rfl

theorem writerInit_keepsFixed (off : BitVec 3) : KeepsFixed s (writerInit off s) := by
  unfold writerInit; split
  · exact .raise rfl _ _
  · split
    · exact .raise rfl _ _
    · rw [openWriter_eq]; exact .ok rfl

/-! ## The coder -/

theorem incOutstanding_keepsFixed : KeepsFixed s (incOutstanding s) := by
  unfold incOutstanding; split
  · exact .ok rfl
  · trivial

theorem putOutstanding_keepsFixed (b : Bool) (n : Nat) : KeepsFixed s (putOutstanding b n s) := by
  induction n generalizing s with
  | zero => exact .ok rfl
  | succ n ih => exact .bind (emit_keepsFixed [b]) fun _ => .of_eq ih rfl

theorem putBitC_keepsFixed (b : Bool) : KeepsFixed s (putBitC b s) := by
  unfold putBitC; split
  · exact .bind (r := .ok _) (.ok rfl) fun _ => putOutstanding_keepsFixed _ _
  · exact .bind (emit_keepsFixed [b]) fun _ => putOutstanding_keepsFixed _ _

theorem renormBand_keepsFixed : KeepsFixed s (renormBand s) := by
  unfold renormBand; split
  · exact putBitC_keepsFixed _
  · split
    · exact .of_eq (putBitC_keepsFixed _) rfl
    · exact .of_eq incOutstanding_keepsFixed rfl

theorem renormLoop_keepsFixed (n : Nat) : KeepsFixed s (renormLoop n s) := by
  induction n generalizing s with
  | zero =>
    unfold renormLoop; split
    · trivial
    · exact .ok rfl
  | succ n ih =>
    unfold renormLoop; split
    · exact .bind renormBand_keepsFixed fun t => .of_eq (ih (s := doubleInterval t)) rfl
    · exact .ok rfl

theorem bypassBand_keepsFixed : KeepsFixed s (bypassBand s) := by
  unfold bypassBand; split
  · exact .of_eq (putBitC_keepsFixed _) rfl
  · split
    · exact putBitC_keepsFixed _
    · exact .of_eq incOutstanding_keepsFixed rfl

theorem encodeBin_keepsFixed (i : Fin 9) (b : Bool) : KeepsFixed s (encodeBin i b s) := by
  unfold encodeBin; split
  · exact .bind (.of_eq (renormLoop_keepsFixed 8) rfl) fun _ => .ok rfl
  · exact .raise rfl _ _

theorem encodeBinEp_keepsFixed (b : Bool) : KeepsFixed s (encodeBinEp b s) :=
  .bind (.of_eq bypassBand_keepsFixed rfl) fun _ => .ok rfl

theorem sliceFinish_keepsFixed : KeepsFixed s (sliceFinish s) :=
  .bind (.of_eq (renormLoop_keepsFixed 8) rfl) fun _ => .bind (putBitC_keepsFixed _) fun _ =>
    .bind (emit_keepsFixed _) fun _ => putTrailing_keepsFixed false

theorem runBins_keepsFixed (bins : List Bin) : KeepsFixed s (runBins bins s) := by
  induction bins generalizing s with
  | nil => exact .ok rfl
  | cons b bins ih =>
    refine .bind ?_ fun _ => ih
    cases b with
    | ctx i v => exact encodeBin_keepsFixed i v
    | bypass v => exact encodeBinEp_keepsFixed v

/-! ## The packers -/

theorem packRbsp_keepsFixed (append : Bool) (pfx : Nat) : KeepsFixed s (packRbsp append pfx s) := by
  unfold packRbsp; split
  · exact .raise rfl _ _
  · split
    · exact .raise rfl _ _
    · split
      · exact .raise rfl _ _
      · split
        · trivial
        · unfold packUnit; split
          · exact .raise (t := s.setOutLen 0) rfl _ _
          · exact .ok rfl

theorem runActs_keepsFixed (base : Nat) (as : List Act) : KeepsFixed s (runActs base as s) := by
  induction as generalizing s with
  | nil => exact .ok rfl
  | cons a as ih =>
    refine .bind ?_ fun _ => ih
    cases a with
    | put bits => exact emit_keepsFixed bits
    | trailing => exact putTrailing_keepsFixed false
    | mark reg => exact .ok rfl
    | assign reg v => exact .ok rfl
    | fail code info => exact .raise rfl _ _

theorem packListing_keepsFixed (pre : Params → PreCheck) (acts : Params → List Act) :
    KeepsFixed s (packListing pre acts s) := by
  unfold packListing; split
  · exact .raise rfl _ _
  · exact runActs_keepsFixed _ _

theorem packSsh_keepsFixed (dyn : Bool) : KeepsFixed s (packSsh dyn s) := by
  unfold packSsh; split
  · exact .raise rfl _ _
  · split
    · exact .raise rfl _ _
    · exact .of_eq (runActs_keepsFixed _ _) rfl

/-! ## Skip slices -/

theorem codingTree_keepsFixed (a : Nat) : KeepsFixed s (codingTree a s) := by
  unfold codingTree; split
  · exact .raise rfl _ _
  · split
    · exact .raise rfl _ _
    · split
      · exact .raise rfl _ _
      · exact runBins_keepsFixed _

/-- `SkipCtxSetup` sets contexts and nothing else (R351). -/
theorem initSkipContexts_eq (typ : Nat) (qp : Int) (s : State) :
    initSkipContexts typ qp s = { s with ctx := (initSkipContexts typ qp s).ctx } := by
  have fold (l : List Nat) (s : State) : l.foldl (fun t i => initContext (Fin.ofNat 9 i) (initValue typ i) qp t) s =
      { s with ctx := (l.foldl (fun t i => initContext (Fin.ofNat 9 i) (initValue typ i) qp t) s).ctx } := by
    induction l generalizing s with
    | nil => rfl
    | cons i l ih => exact ih _
  exact fold _ s

theorem skipCtxSetup_keepsFixed : KeepsFixed s (skipCtxSetup s) := by
  unfold skipCtxSetup; split
  · exact .raise rfl _ _
  · rw [initSkipContexts_eq]; exact .ok rfl

theorem ctuLoop_keepsFixed (e : WalkEnv) (a n : Nat) : KeepsFixed s (ctuLoop e a n s) := by
  induction n generalizing a s with
  | zero => exact .ok rfl
  | succ n ih =>
    refine .bind (runBins_keepsFixed _) fun _ => ?_
    split
    · exact sliceFinish_keepsFixed
    · exact .bind (encodeBin_keepsFixed _ _) fun _ => ih _

theorem getSkipSlice_keepsFixed (append : Bool) (n : Nat) : KeepsFixed s (getSkipSlice append n s) := by
  unfold getSkipSlice; split
  · exact .raise rfl _ _
  · split
    · exact .raise rfl _ _
    · exact .bind (writerInit_keepsFixed 0) fun _ => .bind (packSsh_keepsFixed false) fun _ =>
        .bind (.of_eq skipCtxSetup_keepsFixed rfl) fun _ => .bind (ctuLoop_keepsFixed _ _ n) fun _ =>
          packRbsp_keepsFixed append _

/-! ## Every command -/

/-- Every command other than `END` is the end of a procedure that keeps the fixed part, whatever the state. -/
theorem exec_keepsFixed (i : Instr) (hi : i ≠ .endCmd) (s : State) : ∃ r, exec i s = finish r ∧ KeepsFixed s r := by
  have illegal (info : Word) : KeepsFixed s (raise .illegalCmd info s) := .raise rfl _ _
  cases i with
  | endCmd => exact absurd rfl hi
  | setr csr v =>
    simp only [exec, execSetr]; split
    · rename_i x _; exact ⟨_, rfl, by cases x <;> exact .ok rfl⟩
    · exact ⟨_, rfl, illegal _⟩
  | wInit off => exact ⟨_, rfl, writerInit_keepsFixed off⟩
  | putBits n v =>
    refine ⟨_, rfl, ?_⟩
    split
    · exact emit_keepsFixed _
    · exact illegal _
  | putBit b => exact ⟨_, rfl, emit_keepsFixed _⟩
  | putBitsBuffer n => exact ⟨_, rfl, putBitsBuffer_keepsFixed _⟩
  | putUe v => exact ⟨_, rfl, emit_keepsFixed _⟩
  | putSe v => exact ⟨_, rfl, emit_keepsFixed _⟩
  | putTrailing c => exact ⟨_, rfl, putTrailing_keepsFixed c⟩
  | cabacInit => exact ⟨.ok (cabacInit s), rfl, .ok rfl⟩
  | ctxInit ctx v qp =>
    simp only [exec, execCtxInit]; split
    · exact ⟨_, rfl, .ok rfl⟩
    · exact ⟨_, rfl, illegal _⟩
  | ctxSet ctx raw =>
    simp only [exec, execCtxSet]; split
    · exact ⟨_, rfl, .ok rfl⟩
    · exact ⟨_, rfl, illegal _⟩
  | encBin ctx b =>
    simp only [exec, execEncBin]; split
    · exact ⟨_, rfl, encodeBin_keepsFixed _ b⟩
    · exact ⟨_, rfl, illegal _⟩
  | encBinEp b => exact ⟨_, rfl, encodeBinEp_keepsFixed b⟩
  | sliceFinish => exact ⟨_, rfl, sliceFinish_keepsFixed⟩
  | packRbsp append pfx => exact ⟨_, rfl, packRbsp_keepsFixed append _⟩
  | packNalu => exact ⟨_, rfl, runActs_keepsFixed _ _⟩
  | packVps => exact ⟨_, rfl, packListing_keepsFixed _ _⟩
  | packSps => exact ⟨_, rfl, packListing_keepsFixed _ _⟩
  | packPps => exact ⟨_, rfl, packListing_keepsFixed _ _⟩
  | packSsh dyn => exact ⟨_, rfl, packSsh_keepsFixed dyn⟩
  | codingTree a => exact ⟨_, rfl, codingTree_keepsFixed _⟩
  | getSkipSlice append n => exact ⟨_, rfl, getSkipSlice_keepsFixed append _⟩

/-- EVERYTHING a command other than `END` can do to the fixed part: nothing, or taking a fault. -/
theorem exec_fixed {i : Instr} (hi : i ≠ .endCmd) (h : exec i s = .next t) :
    t.fixed = s.fixed ∨
      ∃ (u : State) (code : FaultCode) (info : Word), u.fixed = s.fixed ∧ t = u.takeFault code info := by
  obtain ⟨r, e, k⟩ := exec_keepsFixed i hi s
  rcases finish_next (e ▸ h) with ⟨u, rfl, rfl⟩ | rfl
  · exact .inl k
  · exact .inr k

/-- Settles O56. A faulted state is sound too, with any coder's interval, so nothing is asked of the coder here. -/
theorem commandsNeverWritten : Obligations.CommandsNeverWritten := by
  intro i s t _ h
  by_cases hend : i = .endCmd
  · subst hend; cases h; exact ⟨rfl, rfl, rfl, rfl, rfl, rfl, fun _ => ⟨rfl, rfl⟩⟩
  · rcases exec_fixed hend h with e | ⟨u, code, info, e, rfl⟩
    all_goals
      simp only [State.fixed, Prod.mk.injEq] at e
      obtain ⟨hcfg, hcmd, hparam, -, hcp, hinfo, hpending, hreplies, hfree⟩ := e
      refine ⟨hcmd, hparam, hcfg, hpending, hreplies, hfree, fun hf => ?_⟩
    · exact ⟨hcp, hinfo⟩
    · simp [Status.faulted] at hf

end Sys2Proof.Machine
end

section
/-! PROOFS. The frame of `GET_SKIP_SLICE` (R350): between opening the writer and packing its bytes the command only
writes bits into the buffer, and sets every context on the way. -/

namespace Sys2Proof.Machine

variable {s t u : State}

theorem res_bind_eq_ok {r : Res} {f : State → Res} (h : r >>= f = .ok u) : ∃ t, r = .ok t ∧ f t = .ok u := by
  match r, h with
  | .ok t, h => exact ⟨t, rfl, h⟩

/-! ## Valid bits (R31) -/

/-- Every context holds a value. -/
def AllValid (x : Vector Context 9) : Prop := ∀ i : Fin 9, x[i].valid = true

theorem setContext_valid (s : State) (i k : Fin 9) (v : Byte) :
    (s.setContext i v).ctx[k].valid = (decide (i = k) || s.ctx[k].valid) := by
  by_cases e : i = k
  · subst e; simp
  · have ne : i.val ≠ k.val := fun h => e (Fin.ext h)
    simp [e, Vector.getElem_set_ne _ _ ne]

theorem AllValid.setContext (h : AllValid s.ctx) (i : Fin 9) (v : Byte) : AllValid (s.setContext i v).ctx := fun k => by
  rw [setContext_valid, h k, Bool.or_true]

/-- `SkipCtxSetup` gives all nine contexts a value (R351). -/
theorem skipCtxSetup_allValid (typ : Nat) (qp : Int) (v : Byte) (s : State) :
    AllValid ((initSkipContexts typ qp s).setContext 8 v).ctx := by
  intro k
  simp only [initSkipContexts, initContext, List.range, List.range.loop, List.foldl, setContext_valid]
  fin_cases k <;> rfl

/-! ## The coded part of a slice -/

/-- What the procedures of a slice's body leave of a ready state: bits written, the state ready for the next one, and no
context without a value that had one. -/
structure CodesOn (s t : State) : Prop where
  wrote : Wrote s t
  ready : Ready t
  interval : CabacOk t.cabac
  valid : AllValid s.ctx → AllValid t.ctx

theorem Ready.writable (h : Ready s) : Writable s := ⟨h.1, h.2.1⟩

theorem Effect.ready (e : Effect s t) : Ready t := by
  obtain ⟨-, -, -, -, -, -, -, -, -, -, h⟩ := e
  exact h

theorem CodesOn.refl (h : Ready s) (c : CabacOk s.cabac) : CodesOn s s := ⟨.refl h.writable, h, c, id⟩

theorem CodesOn.trans (h : Ready s) (a : CodesOn s t) (b : CodesOn t u) : CodesOn s u :=
  ⟨a.wrote.trans h.writable b.wrote, b.ready, b.interval, b.valid ∘ a.valid⟩

/-- A procedure that performs, and completes having written. -/
theorem CodesOn.of_performs (p : Performs s (.ok t)) (w : Wrote s t) (v : AllValid s.ctx → AllValid t.ctx) :
    CodesOn s t := by
  obtain ⟨e, c⟩ := p
  exact ⟨w, e.ready, c, v⟩

theorem encodeBin_codesOn {i : Fin 9} {b : Bool} (h : Ready s) (c : CabacOk s.cabac) (e : encodeBin i b s = .ok t) :
    CodesOn s t := by
  by_cases hv : s.ctx[i].valid = true
  · obtain ⟨hf, ht⟩ := (e ▸ encodeBin_codes h.writable c i b hv).ok
    refine .of_performs (e ▸ encodeBin_performs h c i b) (ht ▸ wrote_coded hf) fun hall => ?_
    rw [ht]
    exact hall.setContext i (nextContext s.ctx[i].byte b)
  · rw [encodeBin, if_neg hv] at e; cases e

theorem encodeBinEp_codesOn {b : Bool} (h : Ready s) (c : CabacOk s.cabac) (e : encodeBinEp b s = .ok t) :
    CodesOn s t := by
  obtain ⟨hf, ht⟩ := (e ▸ encodeBinEp_codes h.writable b).ok
  exact .of_performs (e ▸ encodeBinEp_performs h c b) (ht ▸ wrote_coded hf) fun hall => by rw [ht]; exact hall

theorem sliceFinish_codesOn (h : Ready s) (c : CabacOk s.cabac) (e : sliceFinish s = .ok t) : CodesOn s t := by
  obtain ⟨hf, ht⟩ := (e ▸ sliceFinish_codes h.writable c).ok
  exact .of_performs (e ▸ sliceFinish_performs h c) (ht ▸ wrote_coded hf) fun hall => by rw [ht]; exact hall

theorem runBins_codesOn {bins : List Bin} (h : Ready s) (c : CabacOk s.cabac) (e : runBins bins s = .ok t) :
    CodesOn s t := by
  induction bins generalizing s with
  | nil => cases e; exact .refl h c
  | cons b bins ih =>
    obtain ⟨v, hv, hrest⟩ := res_bind_eq_ok e
    have first : CodesOn s v := by
      cases b with
      | ctx i b => exact encodeBin_codesOn h c hv
      | bypass b => exact encodeBinEp_codesOn h c hv
    exact first.trans h (ih first.ready first.interval hrest)

theorem ctuLoop_codesOn {env : WalkEnv} {a n : Nat} (h : Ready s) (c : CabacOk s.cabac)
    (e : ctuLoop env a n s = .ok t) : CodesOn s t := by
  induction n generalizing a s with
  | zero => cases e; exact .refl h c
  | succ n ih =>
    obtain ⟨v, hv, hrest⟩ := res_bind_eq_ok e
    have bins := runBins_codesOn h c hv
    refine bins.trans h ?_
    split at hrest
    · exact sliceFinish_codesOn bins.ready bins.interval hrest
    · obtain ⟨w, hw, hloop⟩ := res_bind_eq_ok hrest
      have terminate := encodeBin_codesOn bins.ready bins.interval hw
      exact terminate.trans bins.ready (ih terminate.ready terminate.interval hloop)

/-! ## The procedures around it -/

theorem packSsh_wrote {dyn : Bool} (h : Writable s) (e : packSsh dyn s = .ok t) : Wrote s t := by
  unfold packSsh at e
  split at e
  · cases e
  · split at e
    · cases e
    · have cleared : Wrote s (s.setReport ⟨0, 0, 0, 0, 0⟩) := (Wrote.refl h).with s.cabac s.ctx _
      have listing := Answers.runActs (cleared.writable h) s.bitpos (sshActs s.params ‹Geometry› dyn)
      rw [← runSsh, e] at listing
      exact cleared.trans h listing

theorem skipCtxSetup_eq_ok (e : skipCtxSetup s = .ok t) : t = { s with ctx := t.ctx } ∧ AllValid t.ctx := by
  unfold skipCtxSetup at e
  split at e
  · cases e
  · cases e
    exact ⟨by rw [initSkipContexts_eq]; rfl, skipCtxSetup_allValid _ _ _ _⟩

theorem writerInit_eq_ok {off : BitVec 3} (e : writerInit off s = .ok t) :
    t = openWriter off s ∧ s.writer.bufStart.toNat + s.writer.bufSize.toNat ≤ s.cfg.dmemSize := by
  unfold writerInit at e
  split at e
  · cases e
  · split at e <;> cases e
    exact ⟨rfl, Nat.le_of_not_lt ‹_›⟩

/-- `PackRBSP` that completes has stored a unit that fits in the output region (R201). -/
theorem packRbsp_eq_ok {append : Bool} {pfx : Nat} (e : packRbsp append pfx s = .ok t) :
    ∃ unit : List Byte, outLenBefore append s + unit.length ≤ s.out.size.toNat ∧ t = storeUnit append unit s := by
  unfold packRbsp at e
  split at e
  · cases e
  · split at e
    · cases e
    · split at e
      · cases e
      · split at e
        · cases e
        · unfold packUnit at e
          split at e <;> cases e
          exact ⟨_, Nat.le_of_not_lt ‹_›, rfl⟩

/-- EVERYTHING a `GET_SKIP_SLICE` that completes has done: opened the writer on the buffer, written bits and set every
context, stored a unit that fits in the output region. -/
theorem getSkipSlice_eq_ok {append : Bool} {n : Nat} (h : Ready s) (e : getSkipSlice append n s = .ok u) :
    ∃ (t : State) (unit : List Byte), s.writer.bufStart.toNat + s.writer.bufSize.toNat ≤ s.cfg.dmemSize ∧
      Writable (openWriter 0 s) ∧ Wrote (openWriter 0 s) t ∧ AllValid t.ctx ∧
      outLenBefore append t + unit.length ≤ t.out.size.toNat ∧ u = storeUnit append unit t := by
  unfold getSkipSlice at e
  split at e
  · cases e
  · split at e
    · cases e
    · obtain ⟨o, ho, e⟩ := res_bind_eq_ok e
      obtain ⟨v, hv, e⟩ := res_bind_eq_ok e
      obtain ⟨x, hx, e⟩ := res_bind_eq_ok e
      obtain ⟨t, ht, hpack⟩ := res_bind_eq_ok e
      obtain ⟨eo, co⟩ : Performs s (.ok o) := ho ▸ writerInit_performs 0 h
      obtain ⟨ev, -⟩ : Performs o (.ok v) := hv ▸ packSsh_performs false eo.ready co
      obtain ⟨ex, cx⟩ : Performs (cabacInit v) (.ok x) := hx ▸ skipCtxSetup_performs ev.ready (cabacInit_ok v)
      obtain ⟨hxe, hall⟩ := skipCtxSetup_eq_ok hx
      obtain ⟨rfl, hbuf⟩ := writerInit_eq_ok ho
      obtain ⟨unit, hfit, rfl⟩ := packRbsp_eq_ok hpack
      have header : Wrote (openWriter 0 s) v := packSsh_wrote eo.ready.writable hv
      have setup : Wrote (openWriter 0 s) x := hxe ▸ header.with (cabacInit v).cabac x.ctx v.report
      have coded := ctuLoop_codesOn ex.ready cx ht
      exact ⟨t, unit, hbuf, eo.ready.writable, setup.trans eo.ready.writable coded.wrote, coded.valid hall, hfit, rfl⟩

/-! ## Memory -/

/-- `W_INIT` touches no byte outside the buffer (R70, R131). -/
theorem openWriter_byteAt (off : BitVec 3) {a : Nat}
    (ha : a < s.writer.bufStart.toNat ∨ s.writer.bufStart.toNat + s.writer.bufSize.toNat ≤ a) :
    (openWriter off s).byteAt a = s.byteAt a := by
  change (maskFirstByte off (s.setWriter (s.writer.opened off))).byteAt a = s.byteAt a
  unfold maskFirstByte
  split
  · rfl
  · rename_i hz
    have size : s.writer.bufSize.toNat ≠ 0 := fun e => hz (BitVec.eq_of_toNat_eq e)
    exact Memory.read_write_ne _ _ _ _ (by simp only [State.setWriter_writer, Writer.opened]; omega)

/-- What is written stays inside the writer's buffer (R70). -/
theorem Wrote.byteAt_of_outside (h : Writable s) (w : Wrote s t) {a : Nat}
    (ha : a < s.writer.bytePos.toNat ∨ s.writer.curEnd.toNat ≤ a) : t.byteAt a = s.byteAt a := by
  have hend : t.writer.curEnd = s.writer.curEnd := by rw [w.frame]
  obtain ⟨-, hcur, -⟩ := (writerOk_iff _ _).1 (w.writable h).2
  exact w.byteAt h a (ha.imp id fun ha => by rw [hend] at hcur; simp only [State.cursor]; omega)

/-- A unit stored in the output region leaves every byte outside the region (R70, R201). -/
theorem storeUnit_byteAt {append : Bool} {unit : List Byte} {a : Nat}
    (hfit : outLenBefore append s + unit.length ≤ s.out.size.toNat)
    (ha : a < s.out.start.toNat ∨ s.out.start.toNat + s.out.size.toNat ≤ a) :
    (storeUnit append unit s).byteAt a = s.byteAt a := by
  change Memory.read (s.dmem.writeList _ unit) a = s.dmem.read a
  rw [Memory.read_writeList, if_neg (by omega)]

/-- Settles O59: the three parts of the command, each with its own frame. -/
theorem skipSliceFrame : Obligations.SkipSliceFrame := by
  intro s t append n hinv _ h hok
  obtain ⟨⟨hlegal, -⟩, -⟩ := id hinv
  rcases finish_next (r := getSkipSlice append n.toNat s) h with ⟨u, e, rfl⟩ | e
  case inr =>
    obtain ⟨u, code, info, -, rfl⟩ : Performs s (.error (.raised t)) :=
      e ▸ getSkipSlice_performs append n.toNat hinv.ready
    simp [Status.faulted] at hok
  case inl =>
    obtain ⟨v, unit, hbuf, hopen, w, hall, hfit, rfl⟩ := getSkipSlice_eq_ok hinv.ready e
    have hout : v.out = s.out := by rw [w.frame, openWriter_eq]
    refine ⟨?_, hall, fun a hb ho => ?_⟩
    · have frame := w.frame
      rw [openWriter_eq] at frame
      generalize v.dmem = m, v.cabac = c, v.ctx = x, v.report = r, v.writer.bytePos = p, v.writer.bitOffset = o at frame
      subst frame
      rfl
    · have hend : (s.writer.bufStart + s.writer.bufSize).toNat = s.writer.bufStart.toNat + s.writer.bufSize.toNat := by
        bv_omega
      calc (storeUnit append unit v).advance.byteAt a = v.byteAt a := storeUnit_byteAt hfit (by rwa [hout])
        _ = (openWriter 0 s).byteAt a := w.byteAt_of_outside hopen (by
            rw [openWriter_eq]; simp only [Writer.opened, hend]; exact hb)
        _ = s.byteAt a := openWriter_byteAt 0 hb

end Sys2Proof.Machine
end

section
/-! PROOFS. Who gets past a step: the engine always, but for the one refusal of R24; a decoded command to its meaning; the
host not during a run. -/

namespace Sys2Proof.Machine

variable {s : State}

/-! ## The engine's turn -/

/-- A procedure that performs ends its command with a next state, or at the refusal of R24. -/
theorem Performs.finish_progress {r : Res} (p : Performs s r) :
    (∃ t, finish r = .next t) ∨ finish r = .refused .bitsOutstandingOverflow := by
  match r, p with
  | .ok u, _ => exact .inl ⟨u.advance, rfl⟩
  | .error (.raised t), _ => exact .inl ⟨t, rfl⟩
  | .error (.refused q), e => exact .inr (congrArg _ e)

/-- The engine's turn goes on from every state ready for it (R62, R167). -/
theorem engineCycle_progress (h : Ready s) (c : CabacOk s.cabac) :
    (∃ t, engineCycle s = .next t) ∨ engineCycle s = .refused .bitsOutstandingOverflow := by
  unfold engineCycle
  split
  case h_1 i _ =>
    by_cases hend : i = .endCmd
    · subst hend; exact .inl ⟨s.endRun, rfl⟩
    · obtain ⟨r, e, p⟩ := exec_performs i hend h c
      rw [e]; exact p.finish_progress
  case h_2 t _ => exact .inl ⟨t, rfl⟩

/-- Settles O19, by the two turns of a step in which no host access is due: the engine's and nobody's. -/
theorem engineNeverStuck : Obligations.EngineNeverStuck := by
  intro s h hdue
  cases hrun : s.status.run with
  | true =>
    rw [step_of_running hdue hrun]
    exact engineCycle_progress h.hostTick.ready (h.hostTick.cabacOk_of_run (by simpa using hrun))
  | false => exact .inl ⟨_, step_of_idle hdue hrun⟩

/-- Settles O4: the engine has its turn, and passing a cycle does not change what it fetches. -/
theorem stepRunsDecoded : Obligations.StepRunsDecoded := by
  rintro s i ⟨hdue, hrun⟩ hcp hdec
  have fetch : fetchCommand (hostTick s) = .ok i := fetchCommand_hostTick.2 (fetchCommand_of_decode hcp hdec)
  have runs : step s = exec i (hostTick s) := by rw [step_of_running hdue hrun, engineCycle, fetch]
  exact ⟨runs, fun hnone => by rw [runs, hostTick_of_nil hnone]⟩

/-! ## The host during a run (R73, R430) -/

theorem memoryPort_of_running (hrun : s.status.run = true) (index size : Nat) (t : State) :
    memoryPort index size s t = .refused .hostAccessWhileRunning := by
  simp [memoryPort, hrun]

theorem readCsr_of_running (hrun : s.status.run = true) {n : BitVec 8} (hn : n ≠ 0x01) :
    readCsr n s = .refused .hostAccessWhileRunning := by
  have forbidden : (s.status.run && n != 0x01) = true := by rw [hrun, Bool.true_and]; exact bne_iff_ne.2 hn
  rw [readCsr, if_pos forbidden]

theorem writeCtrl_of_running (hrun : s.status.run = true) {v : Word} (hv : v.getLsbD 1 = false) :
    ∃ r, writeCtrl v s = .refused r := by
  rcases writeCtrl_cases v s with refused | ⟨-, hreset⟩ | ⟨-, hidle, -⟩ | ⟨-, hidle⟩
  · exact refused
  · rw [hv] at hreset; cases hreset
  · simp [hrun] at hidle
  · simp [hrun] at hidle

theorem writeCsr_of_running (hrun : s.status.run = true) {n : BitVec 8} (v : Word) (hn : n ≠ 0x00) :
    writeCsr n v s = .refused .hostAccessWhileRunning := by
  rw [writeCsr, if_neg hn, if_pos hrun]

/-- Settles O13, access by access. -/
theorem hostKeepsOut : Obligations.HostKeepsOut := by
  intro s a hrun hread hreset
  cases a with
  | readCsr n => exact ⟨_, readCsr_of_running hrun fun hn => hread (hn ▸ rfl)⟩
  | writeCsr n v =>
    by_cases hn : n = 0x00
    · subst hn; exact writeCtrl_of_running hrun (hreset v rfl)
    · exact ⟨_, writeCsr_of_running hrun v hn⟩
  | readCmd | writeCmd | readParam | writeParam | readDmem | writeDmem => exact ⟨_, memoryPort_of_running hrun _ _ _⟩

end Sys2Proof.Machine
end

section
/-! PROOFS. The commands that copy memory or open the writer, check by check: `PUT_BITS_BUFFER` (R135), `W_INIT` (R131),
`PACK_RBSP` (R201). -/

namespace Sys2Proof.Machine

variable {s : State}

/-! ## PUT_BITS_BUFFER -/

/-- The `n` source bits meet the writer's buffer (R67). -/
abbrev sourceMeetsBuffer (n : Nat) (s : State) : Prop :=
  0 < n ∧ s.srcBitAddr.toNat < 8 * s.writer.curEnd.toNat ∧ 8 * s.writer.curStart.toNat < s.srcBitAddr.toNat + n

/-- The `n` bits that `PUT_BITS_BUFFER` copies (R135). -/
def State.sourceBits (s : State) (n : Nat) : List Bool := (List.range n).map fun k => s.bitAt (s.srcBitAddr.toNat + k)

@[simp] theorem State.sourceBits_length (s : State) (n : Nat) : (s.sourceBits n).length = n := by
  simp [State.sourceBits]

/-- A source away from the writer's buffer is not changed while it is copied, so its bits enter as they were (R67, R135). -/
theorem copyBits_source {n : Nat} (h : Writable s) (hf : Fits s n) (apart : ¬sourceMeetsBuffer n s) :
    copyBits s.srcBitAddr.toNat n s = .ok (enter (s.sourceBits n) s) := by
  obtain ⟨bits, hlen, e, hbits⟩ := copyBits_eq s.srcBitAddr.toNat n h hf
  suffices bits = s.sourceBits n by rw [e, this]
  rcases Nat.eq_zero_or_pos n with rfl | hn
  · simpa [State.sourceBits] using hlen
  · have hstart := h.2.1
    have hroom := (fits_iff s n h.2).1 hf
    apply hbits
    simp only [State.limit] at hroom
    omega

/-- EVERYTHING `PutBitsBuffer` can do (R67, R130, R135). -/
theorem putBitsBuffer_eq (h : Writable s) (n : Nat) : putBitsBuffer n s =
    if 8 * s.cfg.dmemSize < s.srcBitAddr.toNat + n then raise .memRange 2 s
    else if sourceMeetsBuffer n s then raise .memRange 5 s
    else if Fits s n then
      .ok ((enter (s.sourceBits n) s).setSrcBitAddr (BitVec.ofNat 32 (s.srcBitAddr.toNat + n)))
    else raise .writerOverrun (BitVec.ofNat 32 s.bitpos) s := by
  unfold putBitsBuffer
  split
  · rfl
  · split
    · rfl
    · rw [needBits_eq]
      split
      · simp only [bind, Except.bind, copyBits_source h ‹_› ‹_›]
      · rfl

/-- Settles O27: the four cases of `PutBitsBuffer`. -/
theorem putBitsBufferCommand : Obligations.PutBitsBufferCommand := by
  intro s n hs hw
  have cases := putBitsBuffer_eq ⟨hs, hw⟩ n.toNat
  simp only [exec, execPutBitsBuffer, faultNext, ← finish_raise]
  refine ⟨fun outside => ?_, fun inside => ⟨fun meets => ?_, fun apart => ⟨fun full => ?_, fun fits => ?_⟩⟩⟩
  · rw [cases, if_pos outside]
  · rw [cases, if_neg (Nat.not_lt.2 inside), if_pos meets]
  · rw [cases, if_neg (Nat.not_lt.2 inside), if_neg apart, if_neg full]
  · have next : BitVec.ofNat 32 (s.srcBitAddr.toNat + n.toNat) = s.srcBitAddr + n := by
      rw [BitVec.ofNat_add, BitVec.ofNat_toNat, BitVec.ofNat_toNat, BitVec.setWidth_eq, BitVec.setWidth_eq]
    rw [cases, if_neg (Nat.not_lt.2 inside), if_neg apart, if_pos fits, finish_ok, next, State.sourceBits]

/-! ## W_INIT -/

/-- The mask of `W_INIT` bit by bit: the top `off` bits (R131). -/
theorem initMask_getLsbD (off : BitVec 3) {k : Nat} (hk : k < 8) :
    (initMask off).getLsbD k = decide (8 - off.toNat ≤ k) := by
  revert off
  interval_cases k <;> decide

/-- The first byte of a buffer that has one is masked (R131). -/
theorem maskFirstByte_byteAt (off : BitVec 3) (s : State) (a : Nat) : (maskFirstByte off s).byteAt a =
    if s.writer.bufSize ≠ 0 ∧ a = s.writer.bufStart.toNat then s.byteAt a &&& initMask off else s.byteAt a := by
  unfold maskFirstByte
  by_cases hz : s.writer.bufSize = 0
  · rw [if_pos hz, if_neg fun h => h.1 hz]
  · rw [if_neg hz]
    refine (Memory.read_write _ _ _ _).trans ?_
    by_cases ha : a = s.writer.bufStart.toNat
    · subst ha; rw [if_pos rfl, if_pos ⟨hz, rfl⟩]
    · rw [if_neg ha, if_neg fun h => ha h.2]; rfl

/-- Opening the writer changes no byte but for the mask (R131). -/
theorem openWriter_byteAt_eq (off : BitVec 3) (s : State) (a : Nat) : (openWriter off s).byteAt a =
    if s.writer.bufSize ≠ 0 ∧ a = s.writer.bufStart.toNat then s.byteAt a &&& initMask off else s.byteAt a :=
  maskFirstByte_byteAt off (s.setWriter (s.writer.opened off)) a

theorem openWriter_bitpos (off : BitVec 3) (s : State) : (openWriter off s).bitpos = off.toNat := by
  rw [openWriter_eq]; simp [State.bitpos, Writer.opened]

/-- Settles O28: the two checks, then the opened writer. -/
theorem wInitCommand : Obligations.WInitCommand := by
  intro s off hs
  simp only [exec, execWInit, writerInit, faultNext, ← finish_raise]
  refine ⟨fun outside => by rw [if_pos outside], fun inside => ?_⟩
  rw [if_neg (Nat.not_lt.2 inside)]
  refine ⟨fun empty hoff => by rw [if_pos ⟨empty, hoff⟩], fun hopen => ?_⟩
  have checked : ¬(s.writer.bufSize = 0 ∧ off ≠ 0) := fun ⟨empty, hoff⟩ => hopen.elim (· empty) hoff
  refine ⟨(openWriter off s).advance, by rw [if_neg checked, finish_ok], ?_, ?_, openWriter_bitpos off s,
    fun a ha => ?_, fun hsize k hk => ?_⟩
  · rw [openWriter_eq]; rfl
  · rw [openWriter_eq]; exact opened_writerOk s.writer off hs inside checked
  · exact (openWriter_byteAt_eq off s a).trans (if_neg fun ⟨hsize, hstart⟩ => ha.elim (· hstart) hsize)
  · have first : (openWriter off s).advance.byteAt s.writer.bufStart.toNat =
        s.byteAt s.writer.bufStart.toNat &&& initMask off :=
      (openWriter_byteAt_eq off s _).trans (if_pos ⟨hsize, rfl⟩)
    rw [first, BitVec.getLsbD_and, initMask_getLsbD off hk]

/-! ## PACK_RBSP -/

/-- What has been written is what is read, cell by cell (R62). -/
theorem Memory.readList_writeList {w : Nat} (m : Memory w) (a : Nat) (vs : List (BitVec w)) :
    Memory.readList (Memory.writeList m a vs) a vs.length = vs := by
  refine List.ext_getElem (by simp) fun k hk hk' => ?_
  have hread := Memory.read_writeList m a (a + k) vs
  rw [if_pos (by omega), Nat.add_sub_cancel_left, List.getD_eq_getElem _ _ hk'] at hread
  simpa [Memory.readList] using hread

/-- EVERYTHING `PackRBSP` can do from a sound writer: its source lies in `DMEM` (R62, R201). -/
theorem packRbsp_eq (h : Writable s) (append : Bool) (pfx : Nat) : packRbsp append pfx s =
    if s.writer.bitOffset ≠ 0 then raise .unaligned (s.writer.bitOffset.setWidth 32) s
    else if s.cfg.dmemSize < s.out.start.toNat + s.out.size.toNat then raise .memRange 3 s
    else if sourceMeetsOutput s then raise .memRange 4 s
    else packUnit append (escape pfx s.writerBytes) s := by
  obtain ⟨-, -, hpos, hend, -⟩ := h
  rw [packRbsp, if_neg (Nat.not_lt.2 (hpos.trans hend))]

/-- The unit stands at its place in the output region (R201). -/
theorem storeUnit_readList (append : Bool) (unit : List Byte) (s : State) :
    (storeUnit append unit s).dmem.readList (s.out.start.toNat + outLenBefore append s) unit.length = unit :=
  Memory.readList_writeList s.dmem _ unit

/-- Every byte outside the unit's place is as it was (R201). -/
theorem storeUnit_byteAt_of_outside {append : Bool} {unit : List Byte} {a : Nat}
    (ha : a < s.out.start.toNat + outLenBefore append s ∨
      s.out.start.toNat + outLenBefore append s + unit.length ≤ a) :
    (storeUnit append unit s).byteAt a = s.byteAt a := by
  change Memory.read (s.dmem.writeList _ unit) a = s.dmem.read a
  rw [Memory.read_writeList, if_neg (by omega)]

/-- Settles O41: the checks of `PackRBSP`, then its size test. -/
theorem packRbspCommand : Obligations.PackRbspCommand := by
  intro s append pfx hs hw source packed before meets
  simp only [exec, execPackRbsp, faultNext, ← finish_raise, packRbsp_eq ⟨hs, hw⟩]
  refine ⟨fun unaligned => by rw [if_pos unaligned], fun aligned outside => ?_, fun aligned inside hmeets => ?_,
    fun aligned inside apart => ?_⟩
  · rw [if_neg (not_not.2 aligned), if_pos outside]
  · rw [if_neg (not_not.2 aligned), if_neg (Nat.not_lt.2 inside), if_pos hmeets]
  · rw [if_neg (not_not.2 aligned), if_neg (Nat.not_lt.2 inside), if_neg apart]
    refine ⟨fun full => congrArg finish (if_pos full), fun fits =>
      ⟨(storeUnit append packed s).advance, congrArg finish (if_neg (Nat.not_lt.2 fits)), rfl,
        storeUnit_readList append packed s, fun a ha => storeUnit_byteAt_of_outside ha⟩⟩

end Sys2Proof.Machine
end

section
/-! PROOFS. Listings without a line that assigns a report register: those of every packer but `PACK_SSH` (R210 to R264). -/

namespace Sys2Proof.Machine

/-- The action assigns a report register. -/
def Act.reports : Act → Bool
  | .mark _ => true
  | .assign _ _ => true
  | .put _ => false
  | .trailing => false
  | .fail _ _ => false

/-- No line of the listing assigns a report register. -/
def NoReport (as : List Act) : Prop := ∀ a ∈ as, a.reports = false

@[simp] theorem noReport_nil : NoReport [] := nofun

@[simp] theorem noReport_cons (a : Act) (as : List Act) : NoReport (a :: as) ↔ a.reports = false ∧ NoReport as :=
  List.forall_mem_cons

@[simp] theorem noReport_append (as bs : List Act) : NoReport (as ++ bs) ↔ NoReport as ∧ NoReport bs :=
  List.forall_mem_append

@[simp] theorem noReport_ite (c : Prop) [Decidable c] (as bs : List Act) :
    NoReport (if c then as else bs) ↔ (c → NoReport as) ∧ (¬c → NoReport bs) := by
  split <;> simp [*]

@[simp] theorem noReport_onlyIf (c : Bool) (as : List Act) : NoReport (onlyIf c as) ↔ (c = true → NoReport as) := by
  simp [onlyIf]

@[simp] theorem noReport_forN (n : Nat) (body : Nat → List Act) :
    NoReport (forN n body) ↔ ∀ i < n, NoReport (body i) := by
  simp only [NoReport, forN, List.mem_flatMap, List.mem_range]
  exact ⟨fun h i hi a ha => h a ⟨i, hi, ha⟩, fun h a ⟨i, hi, ha⟩ => h i hi a ha⟩

@[simp] theorem noReport_u (n x : Nat) : NoReport (u n x) := by simp [u, Act.reports]
@[simp] theorem noReport_flag (x : Bool) : NoReport (flag x) := by simp [flag, Act.reports]
@[simp] theorem noReport_ue (x : Nat) : NoReport (ue x) := by simp [ue, Act.reports]
@[simp] theorem noReport_se (x : Int) : NoReport (se x) := by simp [se, Act.reports]
@[simp] theorem noReport_failWith (code : FaultCode) (info : Nat) : NoReport (failWith code info) := by
  simp [failWith, Act.reports]

@[simp] theorem noReport_naluActs (long : Bool) (type layer tid : Nat) : NoReport (naluActs long type layer tid) := by
  unfold naluActs; simp

@[simp] theorem noReport_ptlActs (p : Params) (b msl : Nat) : NoReport (ptlActs p b msl) := by
  unfold ptlActs ptlCoreActs; simp

@[simp] theorem noReport_sloActs (p : Params) (b msl : Nat) : NoReport (sloActs p b msl) := by
  unfold sloActs sloEntryActs; simp

@[simp] theorem noReport_hrdActs (p : Params) (h : Nat) (common : Bool) (msl : Nat) :
    NoReport (hrdActs p h common msl) := by
  unfold hrdActs hrdCommonActs hrdSubActs cpbActs; simp

@[simp] theorem noReport_vuiActs (p : Params) (v msl : Nat) : NoReport (vuiActs p v msl) := by
  unfold vuiActs; simp

@[simp] theorem noReport_strpsActs (p : Params) (num idx : Nat) : NoReport (strpsActs p num idx) := by
  unfold strpsActs strpsInterActs strpsExplicitActs; simp

theorem noReport_vpsActs (p : Params) : NoReport (vpsActs p) := by
  unfold vpsActs; simp [Act.reports]

theorem noReport_spsActs (p : Params) : NoReport (spsActs p) := by
  unfold spsActs; simp [Act.reports]

theorem noReport_ppsActs (p : Params) : NoReport (ppsActs p) := by
  unfold ppsActs ppsTileActs; simp [Act.reports]

end Sys2Proof.Machine
end


section
/-! PROOFS. The frame of the commands that write bits (R70). A listing that completes leaves bits and report registers
(`Sent`), which is a case of `Wrote`; the frame is read from that. -/

namespace Sys2Proof.Machine

variable {s t u : State}

/-! ## The frame of what is written -/

/-- A sound writer's cursor, in terms of the buffer's first byte before the writing (R12, R130). -/
theorem Wrote.cursor_eq (h : Writable s) (w : Wrote s t) : t.cursor = 8 * s.writer.curStart.toNat + t.bitpos := by
  have hstart : t.writer.curStart = s.writer.curStart := by rw [w.frame]
  rw [Machine.cursor_eq (w.writable h).2, hstart]

/-- A command that completes with bits written keeps the writer sound, never moves back, and changes no byte below the
byte of the old cursor or from the end of the written bits on (R70, R132, R141). -/
theorem Wrote.stream_frame (h : Writable s) (w : Wrote s t) : s.bitpos ≤ t.bitpos ∧ WriterOk t.writer t.cfg.dmemSize ∧
    ∀ a, a < s.writer.bytePos.toNat ∨ 8 * s.writer.curStart.toNat + t.bitpos ≤ 8 * a → t.byteAt a = s.byteAt a := by
  have before := Machine.cursor_eq h.2
  have after := w.cursor_eq h
  have forward := w.cursor_le h
  exact ⟨by omega, (w.writable h).2, fun a ha => w.byteAt h a (after ▸ ha)⟩

/-- The registers a command that completes with bits written leaves as they are (R70). -/
theorem Wrote.advance_eq (w : Wrote s t) : t.advance =
    { s with
      dmem := t.dmem, cp := s.cp + 1, cabac := t.cabac, ctx := t.ctx, report := t.report
      writer := { s.writer with bytePos := t.writer.bytePos, bitOffset := t.writer.bitOffset } } := by
  have frame := w.frame
  generalize t.dmem = m, t.cabac = c, t.ctx = x, t.report = r, t.writer.bytePos = p, t.writer.bitOffset = o at frame ⊢
  subst frame
  rfl

/-! ## Bits and report registers -/

/-- `t` is `s` with bits that fit entered and the report registers at any values. -/
def Sent (s t : State) : Prop :=
  ∃ bits : List Bool, Fits s bits.length ∧ t = (enter bits s).setReport t.report

theorem Sent.wrote (w : Sent s t) : Wrote s t := by
  obtain ⟨bits, hf, e⟩ := w
  refine ⟨bits, s.cabac, s.ctx, t.report, hf, e.trans ?_⟩
  rw [← enter_cabac s bits, ← enter_ctx s bits]; rfl

theorem Sent.cabac (w : Sent s t) : t.cabac = s.cabac := by
  obtain ⟨bits, -, e⟩ := w
  rw [e, State.setReport_cabac, enter_cabac]

theorem Sent.ctx (w : Sent s t) : t.ctx = s.ctx := by
  obtain ⟨bits, -, e⟩ := w
  rw [e, State.setReport_ctx, enter_ctx]

theorem Sent.enter {bits : List Bool} (hf : Fits s bits.length) : Sent s (Machine.enter bits s) := ⟨bits, hf, rfl⟩

theorem Sent.setReport (h : Writable s) (r : Report) : Sent s (s.setReport r) := ⟨[], h.fits_zero, rfl⟩

theorem Sent.refl (h : Writable s) : Sent s s := .setReport h s.report

theorem Sent.trans (h : Writable s) (a : Sent s t) (b : Sent t u) : Sent s u := by
  obtain ⟨bs, hf, e⟩ := a
  obtain ⟨cs, hg, e'⟩ := b
  refine ⟨bs ++ cs, ?_, ?_⟩
  · have hpos : t.bitpos = s.bitpos + bs.length := by rw [e]; exact enter_bitpos s bs h.1 h.2 hf
    have hroom : t.room = s.room := by rw [e]; exact enter_room s bs
    simp only [Fits, List.length_append] at *
    omega
  · rw [e', e, enter_setReport, enter_append]; rfl

/-- A procedure that keeps the fixed part raises a fault or completes; where no fault stands after its command, it has
completed (R26, R381). -/
theorem KeepsFixed.completes {r : Res} (k : KeepsFixed s r) (h : finish r = .next t) (hf : t.status.fault = false) :
    ∃ u, r = .ok u ∧ t = u.advance := by
  rcases finish_next h with completed | rfl
  · exact completed
  · obtain ⟨u, code, info, -, rfl⟩ := k
    simp [Status.faulted] at hf

theorem emit_eq_ok {bits : List Bool} (h : Writable s) (e : emit bits s = .ok t) :
    Fits s bits.length ∧ t = enter bits s := by
  rw [emit_eq s bits h.1 h.2] at e
  split at e <;> cases e
  exact ⟨‹_›, rfl⟩

/-! ## Listings -/

/-- Everything a line that completes has done: bits, or report registers where the line names one. -/
theorem runAct_eq_ok {base : Nat} {a : Act} (h : Writable s) (e : runAct base a s = .ok t) :
    Sent s t ∧ (a.reports = false → t.report = s.report) := by
  cases a with
  | put bits =>
    obtain ⟨hf, rfl⟩ := emit_eq_ok h e
    exact ⟨.enter hf, fun _ => enter_report s bits⟩
  | trailing =>
    simp only [runAct, putTrailing, Bool.false_eq_true, false_and, if_false] at e
    obtain ⟨hf, rfl⟩ := emit_eq_ok h e
    exact ⟨.enter hf, fun _ => enter_report s _⟩
  | mark reg => cases e; exact ⟨.setReport h _, nofun⟩
  | assign reg v => cases e; exact ⟨.setReport h _, nofun⟩
  | fail code info => cases e

/-- EVERYTHING a listing that completes has done (R210, R300). -/
theorem runActs_eq_ok {base : Nat} {as : List Act} (h : Writable s) (e : runActs base as s = .ok t) :
    Sent s t ∧ (NoReport as → t.report = s.report) := by
  induction as generalizing s with
  | nil => cases e; exact ⟨.refl h, fun _ => rfl⟩
  | cons a as ih =>
    obtain ⟨v, hv, hrest⟩ := res_bind_eq_ok e
    obtain ⟨line, lineReport⟩ := runAct_eq_ok h hv
    obtain ⟨rest, restReport⟩ := ih (line.wrote.writable h) hrest
    refine ⟨line.trans h rest, fun hno => ?_⟩
    obtain ⟨ha, has⟩ := (noReport_cons a as).1 hno
    rw [restReport has, lineReport ha]

/-! ## The commands that write bits and nothing else -/

/-- Where the procedure completes, bits have entered and no other register has changed; where it does not, it has raised
a fault or stopped. -/
structure Enters (s : State) (r : Res) : Prop where
  keeps : KeepsFixed s r
  sent : ∀ u, r = .ok u → Sent s u
  report : ∀ u, r = .ok u → u.report = s.report

theorem Enters.raise (code : FaultCode) (info : Word) : Enters s (Machine.raise code info s) :=
  ⟨.raise rfl code info, nofun, nofun⟩

theorem Enters.refl (h : Writable s) : Enters s (.ok s) :=
  ⟨.ok rfl, fun _ e => by cases e; exact .refl h, fun _ e => by cases e; rfl⟩

theorem Enters.emit (h : Writable s) (bits : List Bool) : Enters s (Machine.emit bits s) where
  keeps := emit_keepsFixed bits
  sent _ e := by obtain ⟨hf, rfl⟩ := emit_eq_ok h e; exact .enter hf
  report _ e := by obtain ⟨-, rfl⟩ := emit_eq_ok h e; exact enter_report s bits

theorem Enters.putTrailing (h : Writable s) (c : Bool) : Enters s (Machine.putTrailing c s) := by
  unfold Machine.putTrailing
  split
  · exact .refl h
  · exact .emit h _

theorem Enters.runActs {as : List Act} (h : Writable s) (base : Nat) (hno : NoReport as) :
    Enters s (Machine.runActs base as s) where
  keeps := runActs_keepsFixed base as
  sent _ e := (runActs_eq_ok h e).1
  report _ e := (runActs_eq_ok h e).2 hno

theorem Enters.packListing {acts : Params → List Act} (h : Writable s) (pre : Params → PreCheck)
    (hno : ∀ p, NoReport (acts p)) : Enters s (Machine.packListing pre acts s) := by
  unfold Machine.packListing
  split
  · exact .raise _ _
  · exact .runActs h 0 (hno _)

/-- Everything `PutBitsBuffer` that completes has done (R135). -/
theorem putBitsBuffer_eq_ok {n : Nat} (h : Writable s) (e : putBitsBuffer n s = .ok t) :
    ∃ v, Sent s (enter (s.sourceBits n) s) ∧ t = (enter (s.sourceBits n) s).setSrcBitAddr v := by
  rw [putBitsBuffer_eq h] at e
  split at e
  · cases e
  · split at e
    · cases e
    · split at e <;> cases e
      exact ⟨_, .enter (by rwa [State.sourceBits_length]), rfl⟩

/-- The commands that write bits and no register but the cursor and `CP` (R70). -/
abbrev WritesBitsOnly (i : Instr) : Prop :=
  i ∈ [.packNalu, .packVps, .packSps, .packPps] ∨ (∃ n v, i = .putBits n v) ∨ (∃ b, i = .putBit b) ∨
    (∃ v, i = .putUe v) ∨ (∃ v, i = .putSe v) ∨ (∃ c, i = .putTrailing c)

theorem exec_enters {i : Instr} (h : Writable s) (hi : WritesBitsOnly i) :
    ∃ r, exec i s = finish r ∧ Enters s r := by
  rcases hi with hmem | ⟨n, v, rfl⟩ | ⟨b, rfl⟩ | ⟨v, rfl⟩ | ⟨v, rfl⟩ | ⟨c, rfl⟩
  · simp only [List.mem_cons, List.not_mem_nil, or_false] at hmem
    rcases hmem with rfl | rfl | rfl | rfl
    · exact ⟨_, rfl, .runActs h 0 (noReport_naluActs _ _ _ _)⟩
    · exact ⟨_, rfl, .packListing h vpsChecks noReport_vpsActs⟩
    · exact ⟨_, rfl, .packListing h spsChecks noReport_spsActs⟩
    · exact ⟨_, rfl, .packListing h ppsChecks noReport_ppsActs⟩
  · refine ⟨_, rfl, ?_⟩
    split
    · exact .emit h _
    · exact .raise _ _
  · exact ⟨_, rfl, .emit h _⟩
  · exact ⟨_, rfl, .emit h _⟩
  · exact ⟨_, rfl, .emit h _⟩
  · exact ⟨_, rfl, .putTrailing h c⟩

/-- Bits entered, and `SRC_BIT_ADDR` at any value: the frame of a command that writes bits and nothing else. -/
theorem Sent.advance_eq (w : Sent s u) (hr : u.report = s.report) (v : Word) : (u.setSrcBitAddr v).advance =
    { s with
      dmem := u.dmem, cp := s.cp + 1, srcBitAddr := v
      writer := { s.writer with bytePos := u.writer.bytePos, bitOffset := u.writer.bitOffset } } := by
  have frame := w.wrote.advance_eq
  rw [w.cabac, w.ctx, hr] at frame
  exact congrArg (·.setSrcBitAddr v) frame

/-- Settles O57: `PUT_BITS_BUFFER` by what it does where it completes, the others as procedures that enter bits. -/
theorem writerCommandFrame : Obligations.WriterCommandFrame := by
  intro i s t hi hs hw _ h hok
  have room : Writable s := ⟨hs, hw⟩
  by_cases hcopy : ∃ n, i = .putBitsBuffer n
  · obtain ⟨n, rfl⟩ := hcopy
    obtain ⟨x, e, rfl⟩ := (putBitsBuffer_keepsFixed n.toNat).completes h hok
    obtain ⟨v, w, rfl⟩ := putBitsBuffer_eq_ok room e
    have frame := w.wrote.stream_frame room
    exact ⟨w.advance_eq (enter_report s _) v, fun hne => absurd rfl (hne n), frame⟩
  · have only : WritesBitsOnly i := by
      obtain packer | bits | bit | copy | rest := hi
      · exact .inl packer
      · exact .inr (.inl bits)
      · exact .inr (.inr (.inl bit))
      · exact absurd copy hcopy
      · exact .inr (.inr (.inr rest))
    obtain ⟨r, er, enters⟩ := exec_enters room only
    obtain ⟨x, e, rfl⟩ := enters.keeps.completes (er ▸ h) hok
    have w := enters.sent x e
    have src : x.srcBitAddr = s.srcBitAddr := by rw [w.wrote.frame]
    have frame := w.wrote.stream_frame room
    exact ⟨w.advance_eq (enters.report x e) x.srcBitAddr, fun _ => src, frame⟩

end Sys2Proof.Machine
end

section
/-! PROOFS. The frame of the commands that code bins and of `PACK_SSH` (R70). A procedure of the coder that completes leaves
bits, contexts and the coder's registers (`Coded`), which is a case of `Wrote`. -/

namespace Sys2Proof.Machine

variable {s t u : State}

/-! ## Bits, contexts and the coder's registers -/

/-- `t` is `s` with bits that fit entered and the contexts and the coder's registers at any values. -/
def Coded (s t : State) : Prop := ∃ x : List Bool × Vector Context 9 × Cabac, Fits s x.1.length ∧ t = s.coded x

theorem Coded.wrote (w : Coded s t) : Wrote s t := by
  obtain ⟨x, hf, rfl⟩ := w
  exact wrote_coded hf

theorem Coded.report (w : Coded s t) : t.report = s.report := by
  obtain ⟨x, -, rfl⟩ := w
  exact enter_report s x.1

theorem Coded.refl (h : Writable s) : Coded s s := ⟨([], s.ctx, s.cabac), h.fits_zero, rfl⟩

theorem Coded.trans (h : Writable s) (a : Coded s t) (b : Coded t u) : Coded s u := by
  obtain ⟨x, hf, rfl⟩ := a
  obtain ⟨y, hg, rfl⟩ := b
  exact ⟨_, (fits_coded h x y hf).1 hg, State.coded_coded s x y⟩

/-! ## The procedures of the coder -/

/-- Everything `EncodeBin` that completes has done: of the contexts it has changed its own alone (R165). -/
theorem encodeBin_eq_ok {i : Fin 9} {b : Bool} (h : Writable s) (c : CabacOk s.cabac) (e : encodeBin i b s = .ok t) :
    Coded s t ∧ ∀ k : Fin 9, k.val ≠ i.val → t.ctx[k] = s.ctx[k] := by
  by_cases hv : s.ctx[i].valid = true
  · obtain ⟨hf, rfl⟩ := (e ▸ encodeBin_codes h c i b hv).ok
    exact ⟨⟨_, hf, rfl⟩, fun k hk => Vector.getElem_set_ne i.isLt k.isLt hk.symm⟩
  · rw [encodeBin, if_neg hv] at e; cases e

/-- Everything `EncodeBinEP` that completes has done: no context has changed (R168). -/
theorem encodeBinEp_eq_ok {b : Bool} (h : Writable s) (e : encodeBinEp b s = .ok t) : Coded s t ∧ t.ctx = s.ctx := by
  obtain ⟨hf, rfl⟩ := (e ▸ encodeBinEp_codes h b).ok
  exact ⟨⟨_, hf, rfl⟩, rfl⟩

/-- Everything `SliceFinish` that completes has done: no context has changed (R169). -/
theorem sliceFinish_eq_ok (h : Writable s) (c : CabacOk s.cabac) (e : sliceFinish s = .ok t) :
    Coded s t ∧ t.ctx = s.ctx := by
  obtain ⟨hf, rfl⟩ := (e ▸ sliceFinish_codes h c).ok
  exact ⟨⟨_, hf, rfl⟩, rfl⟩

theorem runBins_coded {bins : List Bin} (h : Ready s) (c : CabacOk s.cabac) (e : runBins bins s = .ok t) :
    Coded s t := by
  induction bins generalizing s with
  | nil => cases e; exact .refl h.writable
  | cons b bins ih =>
    obtain ⟨v, hv, hrest⟩ := res_bind_eq_ok e
    obtain ⟨first, on⟩ : Coded s v ∧ CodesOn s v := by
      cases b with
      | ctx i b => exact ⟨(encodeBin_eq_ok h.writable c hv).1, encodeBin_codesOn h c hv⟩
      | bypass b => exact ⟨(encodeBinEp_eq_ok h.writable hv).1, encodeBinEp_codesOn h c hv⟩
    exact first.trans h.writable (ih on.ready on.interval hrest)

/-! ## The procedures of the two commands around it -/

theorem codingTree_coded {a : Nat} (h : Ready s) (c : CabacOk s.cabac) (e : codingTree a s = .ok t) : Coded s t := by
  unfold codingTree at e
  split at e
  · cases e
  · split at e
    · cases e
    · split at e
      · cases e
      · exact runBins_coded h c e

theorem packSsh_sent {dyn : Bool} (h : Writable s) (e : packSsh dyn s = .ok t) : Sent s t := by
  unfold packSsh at e
  split at e
  · cases e
  · split at e
    · cases e
    · have cleared : Sent s (s.setReport ⟨0, 0, 0, 0, 0⟩) := .setReport h _
      exact cleared.trans h (runActs_eq_ok (cleared.wrote.writable h) e).1

/-! ## The commands -/

/-- EVERYTHING a command that codes bins, or `PACK_SSH`, leaves before `CP` moves where it completes (R165, R168, R169,
R300, R341). -/
inductive CoderLeaves (s : State) : Instr → State → Prop
  | encBin (ctx : BitVec 8) (b : Bool) (u : State) : Coded s u →
      (∀ k : Fin 9, k.val ≠ ctx.toNat → u.ctx[k] = s.ctx[k]) → CoderLeaves s (.encBin ctx b) u
  | encBinEp (b : Bool) (u : State) : Coded s u → u.ctx = s.ctx → CoderLeaves s (.encBinEp b) u
  | sliceFinish (u : State) : Coded s u → u.ctx = s.ctx → CoderLeaves s .sliceFinish u
  | codingTree (a : Word) (u : State) : Coded s u → CoderLeaves s (.codingTree a) u
  | packSsh (dyn : Bool) (u : State) : Sent s u → CoderLeaves s (.packSsh dyn) u

theorem encBin_leaves {ctx : BitVec 8} {b : Bool} (h : Writable s) (c : CabacOk s.cabac)
    (e : exec (.encBin ctx b) s = .next t) (hok : t.status.fault = false) :
    ∃ u, CoderLeaves s (.encBin ctx b) u ∧ t = u.advance := by
  simp only [exec, execEncBin] at e
  by_cases hctx : ctx.toNat < 9
  · rw [ctxOperand_of_lt hctx] at e
    obtain ⟨u, hu, rfl⟩ := (encodeBin_keepsFixed _ b).completes e hok
    obtain ⟨w, others⟩ := encodeBin_eq_ok h c hu
    exact ⟨u, .encBin ctx b u w others, rfl⟩
  · have none : ctxOperand ctx = none := dif_neg hctx
    rw [none] at e
    obtain ⟨u, hu, -⟩ := (KeepsFixed.raise (s := s) rfl .illegalCmd 0x23).completes e hok
    cases hu

/-- Each of these commands does what its procedure does. -/
theorem coderLeaves_of_exec {i : Instr}
    (hi : (∃ c b, i = .encBin c b) ∨ (∃ b, i = .encBinEp b) ∨ i = .sliceFinish ∨ (∃ a, i = .codingTree a) ∨
      (∃ d, i = .packSsh d))
    (h : Ready s) (c : CabacOk s.cabac) (e : exec i s = .next t) (hok : t.status.fault = false) :
    ∃ u, CoderLeaves s i u ∧ t = u.advance := by
  have room := h.writable
  obtain ⟨ctx, b, rfl⟩ | ⟨b, rfl⟩ | rfl | ⟨a, rfl⟩ | ⟨dyn, rfl⟩ := hi
  · exact encBin_leaves room c e hok
  · obtain ⟨u, hu, rfl⟩ := (encodeBinEp_keepsFixed b).completes e hok
    obtain ⟨w, hctx⟩ := encodeBinEp_eq_ok room hu
    exact ⟨u, .encBinEp b u w hctx, rfl⟩
  · obtain ⟨u, hu, rfl⟩ := sliceFinish_keepsFixed.completes e hok
    obtain ⟨w, hctx⟩ := sliceFinish_eq_ok room c hu
    exact ⟨u, .sliceFinish u w hctx, rfl⟩
  · obtain ⟨u, hu, rfl⟩ := (codingTree_keepsFixed a.toNat).completes e hok
    exact ⟨u, .codingTree a u (codingTree_coded h c hu), rfl⟩
  · obtain ⟨u, hu, rfl⟩ := (packSsh_keepsFixed dyn).completes e hok
    exact ⟨u, .packSsh dyn u (packSsh_sent room hu), rfl⟩

theorem CoderLeaves.wrote {i : Instr} (l : CoderLeaves s i u) : Wrote s u := by
  cases l with
  | packSsh dyn u w => exact w.wrote
  | encBin | encBinEp | sliceFinish | codingTree => exact Coded.wrote ‹Coded s u›

/-- Of these commands `PACK_SSH` alone assigns the report registers (R25, R300). -/
theorem CoderLeaves.report {i : Instr} (l : CoderLeaves s i u) (hne : ∀ d, i ≠ .packSsh d) : u.report = s.report := by
  cases l with
  | packSsh dyn => exact absurd rfl (hne dyn)
  | encBin | encBinEp | sliceFinish | codingTree => exact Coded.report ‹Coded s u›

/-- Settles O58: the frame of what is written, and case by case what else the command may touch. -/
theorem coderCommandFrame : Obligations.CoderCommandFrame := by
  intro i s t hi hinv hf e hok
  have coder : CabacOk s.cabac := by obtain ⟨-, -, -, -, -, -, -, hc⟩ := hinv; exact hc hf
  obtain ⟨u, l, rfl⟩ := coderLeaves_of_exec hi hinv.ready coder e hok
  have frame := l.wrote.stream_frame hinv.ready.writable
  refine ⟨l.wrote.advance_eq, ?_, ?_, ?_, l.report, frame⟩
  · rintro ctx b rfl
    cases l with
    | encBin _ _ _ w others => exact others
  · rintro (⟨b, rfl⟩ | rfl)
    · cases l with
      | encBinEp _ _ w hctx => exact hctx
    · cases l with
      | sliceFinish _ w hctx => exact hctx
  · rintro ⟨dyn, rfl⟩
    cases l with
    | packSsh _ _ w => exact ⟨w.ctx, w.cabac⟩

end Sys2Proof.Machine
end

section
/-! PROOFS. The decoder and the encoder (R90 to R99): a word and its four fields are the same thing, `build` and the
encoder's fields undo each other on the words that set no unused bit, and the rows of the opcode table are the masks of
`usedBits`. -/

namespace Sys2Proof

open Laws

/-! ## A word and its fields (R90) -/

@[simp] theorem fieldsOf_wordOf (f : Fields) : fieldsOf (wordOf f) = f := by
  obtain ⟨opc, a, b, imm⟩ := f
  rw [fieldsOf, wordOf, Fields.mk.injEq]
  refine ⟨?_, ?_, ?_, ?_⟩
  all_goals
    ext k hk
    simp
    grind

@[simp] theorem wordOf_fieldsOf (w : CmdWord) : wordOf (fieldsOf w) = w := by
  ext k hk
  simp [wordOf, fieldsOf]
  grind

theorem wordOf_inj {f g : Fields} : wordOf f = wordOf g ↔ f = g :=
  ⟨fun h => by simpa using congrArg fieldsOf h, congrArg wordOf⟩

theorem wordOf_and (f g : Fields) :
    wordOf f &&& wordOf g = wordOf ⟨f.opc &&& g.opc, f.a &&& g.a, f.b &&& g.b, f.imm &&& g.imm⟩ := by
  rw [wordOf, wordOf, wordOf, BitVec.and_append, BitVec.and_append, BitVec.and_append]

/-! ## Encoding, then decoding -/

/-- A word is decoded when its opcode has a mask and a command, the bits outside the mask are clear and the operands are
well formed (R95). -/
theorem decode_eq_ok_iff {w : CmdWord} {i : Instr} :
    decode w = .ok i ↔ (∃ m, usedBits (fieldsOf w).opc = some m ∧ reservedClear (fieldsOf w) m = true) ∧
      build (fieldsOf w) = some i ∧ i.wf = true := by
  unfold decode
  cases usedBits (fieldsOf w).opc <;> cases build (fieldsOf w) <;> grind

/-- What the fields of a command hold, for every command. -/
theorem operandFields (i : Instr) : OperandFields.Statement i := by
  cases i with
  | endCmd => exact OperandFields.endCmd
  | setr csr value => exact OperandFields.setr csr value
  | wInit off => exact OperandFields.wInit off
  | putBits n value => exact OperandFields.putBits n value
  | putBit b => exact OperandFields.putBit b
  | putBitsBuffer n => exact OperandFields.putBitsBuffer n
  | putUe v => exact OperandFields.putUe v
  | putSe v => exact OperandFields.putSe v
  | putTrailing c => exact OperandFields.putTrailing c
  | cabacInit => exact OperandFields.cabacInit
  | ctxInit ctx initVal qp => exact OperandFields.ctxInit ctx initVal qp
  | ctxSet ctx raw => exact OperandFields.ctxSet ctx raw
  | encBin ctx binVal => exact OperandFields.encBin ctx binVal
  | encBinEp binVal => exact OperandFields.encBinEp binVal
  | sliceFinish => exact OperandFields.sliceFinish
  | packRbsp append pfx => exact OperandFields.packRbsp append pfx
  | packNalu => exact OperandFields.packNalu
  | packVps => exact OperandFields.packVps
  | packSps => exact OperandFields.packSps
  | packPps => exact OperandFields.packPps
  | packSsh dyn => exact OperandFields.packSsh dyn
  | codingTree ctu => exact OperandFields.codingTree ctu
  | getSkipSlice append n => exact OperandFields.getSkipSlice append n

/-- Settles O1: the fields of the word are the encoder's, and they give the command back. -/
theorem decodeOfEncode : Obligations.DecodeOfEncode := by
  intro i hwf
  obtain ⟨hopc, hbuild, m, hused, hclear⟩ := operandFields i
  rw [decode_eq_ok_iff, encode, fieldsOf_wordOf, hopc]
  exact ⟨⟨m, hused, hclear⟩, hbuild, hwf⟩

/-- Settles O3: each word is the word of its command. -/
theorem writtenWordsDecode : Obligations.WrittenWordsDecode :=
  ⟨decodeOfEncode (.putBits 8 0x42) rfl, decodeOfEncode (.putSe 0xFFFFFFFD) rfl, decodeOfEncode (.ctxInit 4 197 26) rfl,
    decodeOfEncode .endCmd rfl, decodeOfEncode (.setr 0x09 64) rfl, decodeOfEncode (.packRbsp true 4) rfl,
    decodeOfEncode (.packSsh true) rfl, decodeOfEncode (.getSkipSlice true 510) rfl⟩

/-! ## What `build` answers -/

/-- `build` reads the operands of the command whose opcode the fields hold (R92). -/
theorem opc_of_build {f : Fields} {i : Instr} (h : build f = some i) : f.opc = opcodeOf i := by
  unfold build at h
  split at h <;> cases h <;> exact BitVec.eq_of_toNat_eq ‹_›

/-- The assigned opcodes have a command and the others have none (R94). -/
theorem build_isSome (f : Fields) : (build f).isSome = (usedBits f.opc).isSome := by
  unfold build usedBits
  split <;> rfl

theorem exists_build {f : Fields} {m : BitVec 8 × BitVec 16 × BitVec 32} (h : usedBits f.opc = some m) :
    ∃ i, build f = some i := by
  rw [← Option.isSome_iff_exists, build_isSome, h]; rfl

/-! ## Decoding, then encoding -/

theorem eq_zero_of_unused {w : Nat} {x : BitVec w} (clear : x &&& ~~~0 = 0) : x = 0 := by
  simpa using clear

/-- A field without a bit outside the low `v` is those bits. -/
theorem setWidth_low_bits {w : Nat} (v : Nat) {x m : BitVec w} (clear : x &&& ~~~m = 0) (hm : m.toNat < 2 ^ v) :
    (x.extractLsb' 0 v).setWidth w = x := by
  have inside : x &&& m = x := by
    calc x &&& m = (x &&& m) ||| (x &&& ~~~m) := by rw [clear]; simp
      _ = x := by ext k hk; cases hx : x[k] <;> simp [hx]
  have small : x.toNat < 2 ^ v := by
    rw [← inside, BitVec.toNat_and]
    exact Nat.and_le_right.trans_lt hm
  apply BitVec.eq_of_toNat_eq
  simp [Nat.mod_eq_of_lt small]

theorem bitField_oneBit {w : Nat} {x : BitVec w} (clear : x &&& ~~~1 = 0) : bitField w (oneBit x) = x := by
  have bit : BitVec.ofBool (oneBit x) = x.extractLsb' 0 1 := by
    ext k hk
    obtain rfl : k = 0 := by omega
    simp [oneBit]
  have one : (1 : BitVec w).toNat < 2 ^ 1 := (Nat.mod_le _ _).trans_lt (by decide)
  rw [bitField, bit, setWidth_low_bits 1 clear one]

/-- The encoder's fields for the command that `build` answers are the fields read, where no unused bit is set: a field
with an operand holds nothing else, the others are 0 (R92, R95). -/
theorem fieldsFor_of_build {f : Fields} {i : Instr} {m : BitVec 8 × BitVec 16 × BitVec 32}
    (hused : usedBits f.opc = some m) (hclear : reservedClear f m = true) (hbuild : build f = some i) :
    fieldsFor i = f := by
  obtain ⟨opc, a, b, imm⟩ := f
  obtain rfl : opc = opcodeOf i := opc_of_build hbuild
  obtain ⟨ha, hb, himm⟩ : a &&& ~~~m.1 = 0 ∧ b &&& ~~~m.2.1 = 0 ∧ imm &&& ~~~m.2.2 = 0 := by
    simpa [reservedClear] using hclear
  clear hclear
  cases i with
    (simp only [opcodeOf] at hused hbuild; cases hused; cases hbuild; simp only [fieldsFor, opcodeOf])
  | endCmd | cabacInit | sliceFinish | packNalu | packVps | packSps | packPps =>
    rw [eq_zero_of_unused ha, eq_zero_of_unused hb, eq_zero_of_unused himm]
  | setr | putBits => rw [eq_zero_of_unused hb]
  | putBitsBuffer | putUe | putSe | codingTree => rw [eq_zero_of_unused ha, eq_zero_of_unused hb]
  | wInit => rw [setWidth_low_bits 3 ha (by decide), eq_zero_of_unused hb, eq_zero_of_unused himm]
  | putBit | putTrailing | packSsh => rw [bitField_oneBit ha, eq_zero_of_unused hb, eq_zero_of_unused himm]
  | ctxInit => rw [setWidth_low_bits 8 hb (by decide)]
  | ctxSet => rw [setWidth_low_bits 7 himm (by decide), eq_zero_of_unused hb]
  | encBin => rw [bitField_oneBit himm, eq_zero_of_unused hb]
  | encBinEp => rw [bitField_oneBit himm, eq_zero_of_unused ha, eq_zero_of_unused hb]
  | packRbsp => rw [bitField_oneBit ha, setWidth_low_bits 8 hb (by decide), eq_zero_of_unused himm]
  | getSkipSlice => rw [bitField_oneBit ha, eq_zero_of_unused hb]

/-! ## The opcode table (R99) -/

/-- `match` and `mask` of the row for opcode `opc` with the used bits `m`. -/
def rowOf (opc : BitVec 8) (m : BitVec 8 × BitVec 16 × BitVec 32) : CmdWord × CmdWord :=
  (wordOf ⟨opc, 0, 0, 0⟩, wordOf ⟨0xFF, ~~~m.1, ~~~m.2.1, ~~~m.2.2⟩)

/-- The printed table has one row for each assigned opcode, in their order. -/
theorem opcodeRows_eq :
    opcodeRows = (List.finRange 256).filterMap fun k => (usedBits (.ofFin k)).map (rowOf (.ofFin k)) := by
  decide

theorem mem_opcodeRows {r : CmdWord × CmdWord} :
    r ∈ opcodeRows ↔ ∃ opc m, usedBits opc = some m ∧ rowOf opc m = r := by
  simp only [opcodeRows_eq, List.mem_filterMap, List.mem_finRange, true_and, Option.map_eq_some_iff]
  exact ⟨fun ⟨k, m, h⟩ => ⟨.ofFin k, m, h⟩, fun ⟨opc, m, h⟩ => ⟨opc.toFin, m, h⟩⟩

/-- A word matches a row when it has the row's opcode and no bit set that the row does not use. -/
theorem and_mask_eq_match {w : CmdWord} {opc : BitVec 8} {m : BitVec 8 × BitVec 16 × BitVec 32} :
    w &&& (rowOf opc m).2 = (rowOf opc m).1 ↔ (fieldsOf w).opc = opc ∧ reservedClear (fieldsOf w) m = true := by
  have full : (fieldsOf w).opc &&& 0xFF = (fieldsOf w).opc := BitVec.and_allOnes
  conv_lhs => rw [← wordOf_fieldsOf w]
  simp only [rowOf, wordOf_and, wordOf_inj, Fields.mk.injEq, full, reservedClear, decide_eq_true_eq]

theorem matches_row_iff (w : CmdWord) :
    (opcodeRows.any fun r => w &&& r.2 == r.1) = true ↔
      ∃ m, usedBits (fieldsOf w).opc = some m ∧ reservedClear (fieldsOf w) m = true := by
  simp only [List.any_eq_true, beq_iff_eq, mem_opcodeRows]
  constructor
  · rintro ⟨_, ⟨opc, m, hused, rfl⟩, hmatch⟩
    obtain ⟨rfl, hclear⟩ := and_mask_eq_match.1 hmatch
    exact ⟨m, hused, hclear⟩
  · rintro ⟨m, hused, hclear⟩
    exact ⟨_, ⟨_, m, hused, rfl⟩, and_mask_eq_match.2 ⟨rfl, hclear⟩⟩

/-- The value constraint of the word's row is the well-formedness of the command that its fields hold (R92). -/
theorem constraintOk_eq_wf {w : CmdWord} {i : Instr} (h : build (fieldsOf w) = some i) : constraintOk w = i.wf := by
  have hopc : w.extractLsb' 56 8 = opcodeOf i := opc_of_build h
  rw [fieldsOf, hopc] at h
  rw [constraintOk, hopc]
  cases i <;> simp only [opcodeOf] at h <;> cases h <;> rfl

theorem legalWord_iff {w : CmdWord} :
    legalWord w = true ↔ (∃ m, usedBits (fieldsOf w).opc = some m ∧ reservedClear (fieldsOf w) m = true) ∧
      constraintOk w = true := by
  rw [legalWord, Bool.and_eq_true, matches_row_iff]

/-- Settles O2: the tests of the decoder are those of the table, and the fields of a word it accepts are the encoder's. -/
theorem decodeAcceptsOpcodeTable : Obligations.DecodeAcceptsOpcodeTable := by
  refine ⟨fun w => ?_, fun w i hdec => ?_⟩
  · rw [legalWord_iff]
    constructor
    · rintro ⟨i, hdec⟩
      obtain ⟨hrow, hbuild, hwf⟩ := decode_eq_ok_iff.1 hdec
      exact ⟨hrow, (constraintOk_eq_wf hbuild).trans hwf⟩
    · rintro ⟨⟨m, hused, hclear⟩, hok⟩
      obtain ⟨i, hbuild⟩ := exists_build hused
      exact ⟨i, decode_eq_ok_iff.2 ⟨⟨m, hused, hclear⟩, hbuild, (constraintOk_eq_wf hbuild).symm.trans hok⟩⟩
  · obtain ⟨⟨m, hused, hclear⟩, hbuild, hwf⟩ := decode_eq_ok_iff.1 hdec
    exact ⟨by rw [encode, fieldsFor_of_build hused hclear hbuild, wordOf_fieldsOf], hwf⟩

end Sys2Proof
end

section
/-! PROOFS. What `exec` does with a command the decoder never passes on (R95; log entry 16). -/

namespace Sys2Proof.Machine

/-- `SETR` has a target for the writable CSRs alone (R28, R92). -/
theorem setrOperand_of_not_writable {csr : BitVec 8} (h : writableCsrs.contains csr = false) :
    setrOperand csr = none := by
  have other : csr.toNat ∉ [0x08, 0x09, 0x0C, 0x18, 0x19] := by simpa [writableCsrs, ← BitVec.toNat_inj] using h
  unfold setrOperand
  split <;> simp_all

/-- A context index that fails its constraint is no operand (R92). -/
theorem ctxOperand_of_not_lt {ctx : BitVec 8} (h : decide (ctx.toNat < 9) = false) : ctxOperand ctx = none :=
  dif_neg (of_decide_eq_false h)

/-- Settles O10, by the five commands that have a value constraint. -/
theorem illFormedOperandFaults : Obligations.IllFormedOperandFaults := by
  intro i s hwf
  cases i with
  | setr csr value => simp only [exec, execSetr, setrOperand_of_not_writable hwf, finish_raise]; rfl
  | putBits n value => simp only [exec, execPutBits, if_neg (of_decide_eq_false hwf), finish_raise]; rfl
  | ctxInit ctx initVal qp => simp only [exec, execCtxInit, ctxOperand_of_not_lt hwf, finish_raise]; rfl
  | ctxSet ctx raw => simp only [exec, execCtxSet, ctxOperand_of_not_lt hwf, finish_raise]; rfl
  | encBin ctx binVal => simp only [exec, execEncBin, ctxOperand_of_not_lt hwf, finish_raise]; rfl
  | _ => cases hwf

end Sys2Proof.Machine
end

section
/-! PROOFS. The system commands: `END` (R120) and `SETR` (R121), with the words that miss their encoding by an unused
bit (R95). -/

namespace Sys2Proof

theorem build_of_opc_endCmd {f : Fields} (h : f.opc = 0x00) : build f = some .endCmd := by
  obtain ⟨opc, a, b, imm⟩ := f
  cases h
  rfl

theorem build_of_opc_setr {f : Fields} (h : f.opc = 0x01) : build f = some (.setr f.a f.imm) := by
  obtain ⟨opc, a, b, imm⟩ := f
  cases h
  rfl

/-- A word of an assigned opcode whose fields are not the encoder's has an unused bit set, so it fails R95's test 2. -/
theorem decode_eq_reservedBit {w : CmdWord} {i : Instr} (hbuild : build (fieldsOf w) = some i)
    (hne : fieldsFor i ≠ fieldsOf w) : decode w = .error .reservedBit := by
  obtain ⟨m, hused⟩ : ∃ m, usedBits (fieldsOf w).opc = some m := by
    rw [← Option.isSome_iff_exists, ← build_isSome, hbuild]; rfl
  have hclear : reservedClear (fieldsOf w) m ≠ true := fun hclear => hne (fieldsFor_of_build hused hclear hbuild)
  simp only [decode, hused, hbuild, if_neg hclear]

end Sys2Proof

namespace Sys2Proof.Machine

/-- Settles O21: the one word of opcode 0 without an unused bit set is `END`'s own, and that word is 0. -/
theorem endCommand : Obligations.EndCommand := by
  refine ⟨fun _ => rfl, fun w hopc hw => decode_eq_reservedBit (build_of_opc_endCmd hopc) fun hfields => hw ?_⟩
  calc w = wordOf (fieldsOf w) := (wordOf_fieldsOf w).symm
    _ = encode .endCmd := congrArg wordOf hfields.symm
    _ = 0 := by decide

/-- Settles O22: a writable number selects its register, any other is an ill-formed operand, and the encoder leaves `B`
at 0. -/
theorem setRegister : Obligations.SetRegister := by
  refine ⟨fun s v => ⟨rfl, rfl, rfl, rfl, rfl, fun csr hcsr => ?_⟩, fun w hopc hb => ?_⟩
  · have notWritable : (Instr.setr csr v).wf = false := by
      simpa [Instr.wf, writableCsrs, ← BitVec.toNat_inj] using hcsr
    exact illFormedOperandFaults (.setr csr v) s notWritable
  · exact decode_eq_reservedBit (build_of_opc_setr hopc) fun hfields => hb (congrArg Fields.b hfields).symm

end Sys2Proof.Machine
end

section
/-! PROOFS. The commands of the bit writer that are one writing primitive each: `PUT_BITS`, `PUT_BIT` (R133, R134),
`PUT_UE`, `PUT_SE` (R136, R137), `PUT_TRAILING` (R138). -/

namespace Sys2Proof.Machine

variable {s t : State}

/-- A command that is one writing primitive of `n` bits: all of them enter where they fit, else `WRITER_OVERRUN` with
nothing written (R130, R383). -/
theorem finish_emit (h : Writable s) {bits : List Bool} {n : Nat} (hlen : bits.length = n) :
    (Fits s n → finish (emit bits s) = .next (enter bits s).advance) ∧
      (¬Fits s n → finish (emit bits s) = faultNext .writerOverrun (BitVec.ofNat 32 s.bitpos) s) := by
  subst hlen
  rw [emit_eq s bits h.1 h.2]
  refine ⟨fun fits => ?_, fun full => ?_⟩
  · rw [if_pos fits, finish_ok]
  · rw [if_neg full, finish_raise, faultNext]

@[simp] theorem bitsMsb_length (n v : Nat) : (bitsMsb n v).length = n := by
  simp [bitsMsb_eq_map]

/-- Settles O24: each of the two commands is one primitive. -/
theorem putBitsCommands : Obligations.PutBitsCommands := by
  intro s hs hw
  refine ⟨fun n v hn => ?_, fun b => finish_emit ⟨hs, hw⟩ rfl⟩
  have primitive : exec (.putBits n v) s = finish (emit (bitsMsb n.toNat v.toNat) s) := by
    rw [exec, execPutBits, if_pos hn, putBits]
  have bits : bitsMsb n.toNat v.toNat = (List.range n.toNat).map fun k => v.getLsbD (n.toNat - 1 - k) :=
    bitsMsb_eq_map _ _
  rw [primitive, ← bits]
  exact finish_emit ⟨hs, hw⟩ (bitsMsb_length _ _)

/-! ## The Exp-Golomb codes -/

/-- The number of bits of `x` is the one `n` with `2^(n-1) ≤ x < 2^n` (R13). -/
theorem bitLen_eq {x n : Nat} (hn : 0 < n) (low : 2 ^ (n - 1) ≤ x) (high : x < 2 ^ n) : bitLen x = n := by
  have positive : x ≠ 0 := (Nat.lt_of_lt_of_le (Nat.two_pow_pos _) low).ne'
  have log : x.log2 = n - 1 := (Nat.log2_eq_iff positive).2 ⟨low, by rwa [Nat.sub_add_cancel hn]⟩
  rw [bitLen, log, Nat.sub_add_cancel hn]

/-- The code of `v`, whose successor has `n` bits (R136). -/
theorem ueBits_eq_of_bitLen {v n : Nat} (h : bitLen (v + 1) = n) :
    ueBits v = List.replicate (n - 1) false ++ (List.range n).map fun k => (v + 1).testBit (n - 1 - k) := by
  rw [ueBits, h, bitsMsb_eq_map]

theorem ueBits_length {v n : Nat} (h : bitLen (v + 1) = n) : (ueBits v).length = 2 * n - 1 := by
  rw [ueBits_eq_of_bitLen h]
  simp only [List.length_append, List.length_replicate, List.length_map, List.length_range]
  omega

/-- The mapping of `PUT_SE` over the integers (R137). -/
theorem seCode_cast (v : Int) : (seCode v : Int) = if 0 < v then 2 * v - 1 else -2 * v := by
  unfold seCode
  split <;> omega

/-- Settles O25: both commands send the unsigned code, of `x - 1`. -/
theorem putGolombCommands : Obligations.PutGolombCommands := by
  intro s hs hw v i x n hi hn low high
  obtain ⟨k, rfl⟩ : ∃ k, x = k + 1 := ⟨x - 1, by have := Nat.two_pow_pos (n - 1); omega⟩
  have primitive : exec i s = finish (emit (ueBits k) s) := by
    obtain ⟨rfl, hk⟩ | ⟨rfl, hk⟩ := hi
    · obtain rfl : k = v.toNat := by omega
      rfl
    · obtain rfl : k = seCode v.toInt := by
        rw [← seCode_cast] at hk
        omega
      rfl
  have len := bitLen_eq hn low high
  rw [primitive, ← ueBits_eq_of_bitLen len]
  exact finish_emit ⟨hs, hw⟩ (ueBits_length len)

/-! ## The trailing bits -/

/-- Unless it finds an aligned cursor that it is to check for, `PutTrailingBits` is one primitive (R138). -/
theorem putTrailing_eq_emit {c : Bool} (h : c = false ∨ s.writer.bitOffset ≠ 0) :
    putTrailing c s = emit (trailingBits s.writer.bitOffset) s :=
  if_neg fun ⟨checked, aligned⟩ => h.elim (by simp [checked]) (absurd aligned)

/-- Settles O26: nothing at an aligned cursor that is checked for, else one primitive. -/
theorem putTrailingCommand : Obligations.PutTrailingCommand := by
  intro s hs hw c
  have len := trailingBits_length s.writer.bitOffset
  have primitive (h : c = false ∨ s.writer.bitOffset ≠ 0) :
      exec (.putTrailing c) s = finish (emit (trailingBits s.writer.bitOffset) s) := by
    rw [exec, execPutTrailing, putTrailing_eq_emit h]
  refine ⟨fun checked aligned => ?_, fun h fits => ⟨?_, ?_⟩, fun h full => ?_⟩
  · rw [exec, execPutTrailing, putTrailing, if_pos ⟨checked, aligned⟩, finish_ok]
  · rw [primitive h]
    exact (finish_emit ⟨hs, hw⟩ len).1 fits
  · exact enter_trailing_bitOffset s hs hw (len ▸ fits)
  · rw [primitive h]
    exact (finish_emit ⟨hs, hw⟩ len).2 full

end Sys2Proof.Machine
end

section
/-! PROOFS. The reference reader on what the writer wrote (R140): the bits that entered are the bits the reader gets,
one by one, and from the bits of an Exp-Golomb code it gets the number back. -/

namespace Sys2Proof.Machine

variable {s t : State} {r r' : Reader}

/-! ## A reader that gets given bits -/

/-- `GetBit` after `GetBit` gives the bits in order and leaves the reader `r'` (R371). -/
inductive Delivers : Reader → List Bool → Reader → Prop
  | nil (r : Reader) : Delivers r [] r
  | cons {b : Bool} {bits : List Bool} {r m r' : Reader} :
      getBit r = some (b, m) → Delivers m bits r' → Delivers r (b :: bits) r'

/-- `GetBits` reads a number below the bits read so far (R374). -/
theorem getBitsFrom_bitsMsb {n x : Nat} (v : Nat) (h : Delivers r (bitsMsb n x) r') :
    getBitsFrom v n r = some (v * 2 ^ n + x % 2 ^ n, r') := by
  induction n generalizing v r with
  | zero =>
    cases h
    simp [getBitsFrom, Nat.mod_one]
  | succ n ih =>
    cases h with
    | cons first rest =>
      have value : (2 * v + (x.testBit n).toNat) * 2 ^ n + x % 2 ^ n = v * 2 ^ (n + 1) + x % 2 ^ (n + 1) := by
        rw [Nat.mod_pow_succ, Nat.toNat_testBit]
        ring
      simp only [getBitsFrom, first]
      rw [ih _ rest, value]

/-- The zeros before a 1 are counted (R372). -/
theorem leadingZeros_of_delivers {n fuel : Nat} {bits : List Bool} (lz : Nat) (hfuel : n < fuel)
    (h : Delivers r (List.replicate n false ++ true :: bits) r') :
    ∃ m, leadingZeros fuel lz r = some (lz + n, m) ∧ Delivers m bits r' := by
  induction n generalizing fuel lz r with
  | zero =>
    obtain ⟨fuel, rfl⟩ : ∃ k, fuel = k + 1 := ⟨fuel - 1, by omega⟩
    cases h with
    | cons one rest => exact ⟨_, by simp only [leadingZeros, one, Nat.add_zero], rest⟩
  | succ n ih =>
    obtain ⟨fuel, rfl⟩ : ∃ k, fuel = k + 1 := ⟨fuel - 1, by omega⟩
    cases h with
    | cons zero rest =>
      obtain ⟨m, counted, rest⟩ := ih (lz + 1) (Nat.lt_of_succ_lt_succ hfuel) rest
      refine ⟨m, ?_, rest⟩
      simp only [leadingZeros, zero]
      rw [counted, Nat.add_right_comm, Nat.add_assoc]

/-- The code of `v` is as many zeros as bits follow its first 1 (R136). -/
theorem ueBits_eq_zeros_one (v : Nat) : ueBits v =
    List.replicate (v + 1).log2 false ++ true :: bitsMsb (v + 1).log2 (v + 1) := by
  have top : (v + 1).testBit (v + 1).log2 = true := Nat.testBit_log2 (Nat.succ_ne_zero v)
  rw [ueBits, bitLen, Nat.add_sub_cancel, bitsMsb, top]

/-- `GetUE` on the code of `v` gives `v` (R136, R372). -/
theorem getUe_of_delivers {v : Nat} (h : Delivers r (ueBits v) r') (hlen : (ueBits v).length ≤ 8 * r.buf.length) :
    getUe r = some (v, r') := by
  rw [ueBits_eq_zeros_one] at h hlen
  simp only [List.length_append, List.length_replicate, List.length_cons] at hlen
  obtain ⟨m, zeros, rest⟩ := leadingZeros_of_delivers 0 (fuel := 8 * r.buf.length + 1) (by omega) h
  have low : 2 ^ (v + 1).log2 ≤ v + 1 := Nat.log2_self_le (Nat.succ_ne_zero v)
  have high : v + 1 < 2 * 2 ^ (v + 1).log2 := by rw [← pow_succ']; exact Nat.lt_log2_self
  have value : 2 ^ (v + 1).log2 + (v + 1) % 2 ^ (v + 1).log2 - 1 = v := by
    rw [Nat.mod_eq_sub_mod low, Nat.mod_eq_of_lt (by omega)]
    omega
  simp only [getUe, zeros, getBits, Nat.zero_add, getBitsFrom_bitsMsb 0 rest, Nat.zero_mul, Option.map_some, value]

/-- The two mappings of R137 and R373 are inverse. -/
theorem seValue_seCode (v : Int) : seValue (seCode v) = v := by
  have code := seCode_cast v
  unfold seValue
  split at code <;> split <;> omega

/-- `GetSE` on the signed code of `v` gives `v` (R137, R373). -/
theorem getSe_of_delivers {v : Int} (h : Delivers r (seBits v) r') (hlen : (seBits v).length ≤ 8 * r.buf.length) :
    getSe r = some (v, r') := by
  rw [getSe, getUe_of_delivers h hlen, Option.map_some, seValue_seCode]

/-! ## A reader at a bit position -/

/-- The reader at bit `p` of its bytes, without emulation prevention. -/
def readerAt (buf : List Byte) (p : Nat) : Reader := ⟨buf, p / 8, p % 8, false⟩

/-- One bit is read, and the reader moves to the next (R371). -/
theorem getBit_readerAt {buf : List Byte} {p : Nat} (h : p < 8 * buf.length) :
    getBit (readerAt buf p) = some ((buf.getD (p / 8) 0).getLsbD (7 - p % 8), readerAt buf (p + 1)) := by
  have inside : ¬buf.length ≤ p / 8 := by omega
  have moved : (if p % 8 = 7 then (readerAt buf p).nextByte else { readerAt buf p with off := p % 8 + 1 }) =
      readerAt buf (p + 1) := by
    split
    · simp only [Reader.nextByte, Reader.atEscape, readerAt, Bool.false_and, Bool.false_eq_true, if_false,
        Reader.mk.injEq, true_and, and_true]
      omega
    · simp only [readerAt, Reader.mk.injEq, true_and, and_true]
      omega
  rw [← moved]
  exact if_neg inside

/-- The bits that stand from bit `p` on are the bits the reader gets there. -/
theorem delivers_readerAt {buf : List Byte} {bits : List Bool} {p : Nat} (inside : p + bits.length ≤ 8 * buf.length)
    (stand : ∀ k < bits.length, (buf.getD ((p + k) / 8) 0).getLsbD (7 - (p + k) % 8) = bits.getD k false) :
    Delivers (readerAt buf p) bits (readerAt buf (p + bits.length)) := by
  induction bits generalizing p with
  | nil => exact .nil _
  | cons b bits ih =>
    rw [List.length_cons] at inside
    have head := stand 0 (Nat.succ_pos _)
    rw [Nat.add_zero, List.getD_cons_zero] at head
    have first := getBit_readerAt (buf := buf) (p := p) (by omega)
    rw [head] at first
    have rest := ih (p := p + 1) (by omega) fun k hk => by
      have next := stand (k + 1) (Nat.succ_lt_succ hk)
      rwa [List.getD_cons_succ, ← Nat.add_assoc, Nat.add_right_comm] at next
    rw [List.length_cons, ← Nat.add_assoc, Nat.add_right_comm]
    exact .cons first rest

/-! ## The writer's buffer -/

/-- The bytes of the writer's buffer. -/
def State.buffer (s : State) : List Byte :=
  s.dmem.readList s.writer.curStart.toNat (s.writer.curEnd.toNat - s.writer.curStart.toNat)

theorem State.buffer_room (s : State) : 8 * s.buffer.length = s.room := by
  rw [State.buffer, Memory.readList_length, State.room]

/-- The bits of the buffer are those of the writer's stream (R12, R130). -/
theorem State.buffer_bit {k : Nat} (h : k < s.room) :
    (s.buffer.getD (k / 8) 0).getLsbD (7 - k % 8) = s.streamBit k := by
  have inside : k / 8 < s.writer.curEnd.toNat - s.writer.curStart.toNat := by rw [State.room] at h; omega
  rw [State.buffer, Memory.readList_getD _ _ _ _ inside, State.streamBit, State.bitAt, State.byteAt,
    show (8 * s.writer.curStart.toNat + k) / 8 = s.writer.curStart.toNat + k / 8 by omega,
    show (8 * s.writer.curStart.toNat + k) % 8 = k % 8 by omega]

/-- The reader at the writer's bit position stands at its cursor (R130). -/
theorem readerAt_bitpos (buf : List Byte) (s : State) : readerAt buf s.bitpos =
    ⟨buf, s.writer.bytePos.toNat - s.writer.curStart.toNat, s.writer.bitOffset.toNat, false⟩ := by
  have offset := bitpos_mod s
  have hoff := s.writer.bitOffset.isLt
  rw [readerAt, offset, show s.bitpos / 8 = s.writer.bytePos.toNat - s.writer.curStart.toNat by
    simp only [State.bitpos]; omega]

/-- THE READER READS WHAT THE WRITER WROTE (R140): from the old cursor on it gets the bits that entered, and it ends
at the new cursor. -/
theorem delivers_enter {bits : List Bool} (h : RoomFor s bits.length) :
    Delivers (readerAt (enter bits s).buffer s.bitpos) bits (readerAt (enter bits s).buffer (enter bits s).bitpos) := by
  obtain ⟨⟨hs, hw⟩, clear, fits⟩ := h
  obtain ⟨moved, stand, -⟩ := enteringBits s bits hs hw clear fits
  have room : (enter bits s).room = s.room := enter_room s bits
  rw [moved]
  refine delivers_readerAt ?_ fun k hk => ?_
  · rw [State.buffer_room, room]
    exact fits
  · rw [State.buffer_bit (by rw [room]; omega), stand k hk]

/-- After a command that is one primitive, the reader from the old cursor gets the primitive's bits. -/
theorem delivers_of_emit {bits : List Bool} (h : RoomFor s bits.length) (e : finish (emit bits s) = .next t) :
    let buffer := t.dmem.readList s.writer.curStart.toNat (s.writer.curEnd.toNat - s.writer.curStart.toNat)
    bits.length ≤ 8 * buffer.length ∧
      Delivers ⟨buffer, s.writer.bytePos.toNat - s.writer.curStart.toNat, s.writer.bitOffset.toNat, false⟩ bits
        ⟨buffer, t.writer.bytePos.toNat - t.writer.curStart.toNat, t.writer.bitOffset.toNat, false⟩ := by
  obtain rfl : (enter bits s).advance = t := by
    rw [(finish_emit h.writable rfl).1 h.fits] at e
    exact Host.Outcome.next.inj e
  have same : (enter bits s).advance.dmem.readList s.writer.curStart.toNat
      (s.writer.curEnd.toNat - s.writer.curStart.toNat) = (enter bits s).buffer := by
    simp [State.buffer]
  intro buffer
  rw [show buffer = (enter bits s).buffer from same, ← readerAt_bitpos _ s, State.buffer_room, enter_room]
  refine ⟨(Nat.le_add_left _ _).trans h.fits, ?_⟩
  have delivered := delivers_enter h
  rwa [readerAt_bitpos _ (enter bits s)] at delivered

/-- Settles O29: the reader gets the bits of the code, and from them the value. -/
theorem golombRoundTrip : Obligations.GolombRoundTrip := by
  intro s t v hs hw clear
  refine ⟨fun fits e => ?_, fun fits e => ?_⟩
  · obtain ⟨inside, delivered⟩ := delivers_of_emit ⟨⟨hs, hw⟩, clear, fits⟩ e
    exact getUe_of_delivers delivered inside
  · obtain ⟨inside, delivered⟩ := delivers_of_emit ⟨⟨hs, hw⟩, clear, fits⟩ e
    exact getSe_of_delivers delivered inside

end Sys2Proof.Machine
end

section
/-! PROOFS. `SLICE_FINISH` (R169): the end values of the renormalisation of range 2. -/

namespace Sys2Proof.Machine

variable {s : State}

/-- Twice a word below 2^31, as a shift (R167). -/
theorem toNat_shiftLeft_one {x : Word} (h : x.toNat < 2 ^ 31) : (x <<< 1).toNat = 2 * x.toNat := by
  rw [BitVec.toNat_shiftLeft, Nat.shiftLeft_eq]
  omega

/-- One band decision takes 0, 256 or 512 from `low` (R167). -/
theorem codeBand_low (c : Cabac) :
    ∃ d ∈ [0, 256, 512], (codeBand c).2.low.toNat = c.low.toNat - d := by
  simp only [codeBand, codeBitC]
  split
  · exact ⟨0, by simp, rfl⟩
  · split
    · exact ⟨512, by simp, by simp only; bv_omega⟩
    · exact ⟨256, by simp, by simp only; bv_omega⟩

theorem codeBand_binCount (c : Cabac) : (codeBand c).2.binCount = c.binCount := by
  simp only [codeBand, codeBitC]
  split
  · rfl
  · split <;> rfl

/-- Renormalisation counts no bin (R167, R173). -/
theorem codeRenorm_binCount (n : Nat) (c : Cabac) : (codeRenorm n c).2.binCount = c.binCount := by
  induction n generalizing c with
  | zero => rfl
  | succ n ih =>
    simp only [codeRenorm]
    split
    · rw [ih]
      exact codeBand_binCount c
    · rfl

/-- Zeros at the bottom of `low` stay through a band decision (R167). -/
theorem dvd_codeBand_low {j : Nat} (hj : j ≤ 8) {c : Cabac} (h : 2 ^ j ∣ c.low.toNat) :
    2 ^ j ∣ (codeBand c).2.low.toNat := by
  obtain ⟨d, hd, low⟩ := codeBand_low c
  have unit : 2 ^ j ∣ 256 := pow_dvd_pow 2 hj
  have band : 2 ^ j ∣ d := by
    simp only [List.mem_cons, List.not_mem_nil, or_false] at hd
    obtain rfl | rfl | rfl := hd
    · exact dvd_zero _
    · exact unit
    · exact unit.trans (by decide)
  exact low ▸ Nat.dvd_sub h band

/-- Each turn of `RenormE` doubles the range and gives `low` one more 0 at the bottom: from a range `2^(j+1)` on, with
`j` zeros, it ends at range 256 with 7 zeros (R167, R169). -/
theorem codeRenorm_of_two_pow (n j : Nat) {c : Cabac} (hi : Interval c) (hr : c.range.toNat = 2 ^ (j + 1))
    (hl : 2 ^ j ∣ c.low.toNat) (hj : j ≤ 7) (hn : 7 ≤ n + j) :
    (codeRenorm n c).2.range.toNat = 256 ∧ 2 ^ 7 ∣ (codeRenorm n c).2.low.toNat := by
  induction n generalizing j c with
  | zero =>
    obtain rfl : j = 7 := by omega
    exact ⟨hr, hl⟩
  | succ n ih =>
    simp only [codeRenorm]
    split
    case isTrue small =>
      obtain ⟨range, bound⟩ := codeBand_interval hi small
      have turn : j + 1 < 8 := (Nat.pow_lt_pow_iff_right (by decide)).1 (hr ▸ small)
      have range' : ((codeBand c).2.range <<< 1).toNat = 2 * c.range.toNat := by
        rw [range, toNat_shiftLeft_one (by omega)]
      have low' : ((codeBand c).2.low <<< 1).toNat = 2 * (codeBand c).2.low.toNat :=
        toNat_shiftLeft_one (by omega)
      have zeros := dvd_codeBand_low (c := c) (by omega) hl
      have nonempty : 2 ≤ c.range.toNat := hi.1
      refine ih (j + 1) (c := { (codeBand c).2 with
          range := (codeBand c).2.range <<< 1, low := (codeBand c).2.low <<< 1 }) ?_ ?_ ?_ (by omega) (by omega)
      · simp only [Interval, range', low']
        omega
      · rw [range', hr, pow_succ' 2 (j + 1)]
      · rw [low', pow_succ']
        exact Nat.mul_dvd_mul_left 2 zeros
    case isFalse large =>
      have last : 8 ≤ j + 1 := (Nat.pow_le_pow_iff_right (a := 2) (by decide)).1 (hr ▸ Nat.not_lt.1 large)
      obtain rfl : j = 7 := by omega
      exact ⟨hr, hl⟩

/-- The registers `SliceFinish` leaves (R169). -/
theorem codeFinish_values {c : Cabac} (h : CabacOk c) :
    (codeFinish c).2.range = 256 ∧ (codeFinish c).2.outstanding = 0 ∧ (codeFinish c).2.firstBit = false ∧
      (codeFinish c).2.low.toNat % 128 = 0 ∧ (codeFinish c).2.low.toNat < 1024 ∧
      (codeFinish c).2.binCount = c.binCount := by
  obtain ⟨range, zeros⟩ := codeRenorm_of_two_pow 8 0 (terminateInterval_interval h) rfl (one_dvd _) (by decide)
    (by decide)
  have binCount := codeRenorm_binCount 8 (terminateInterval c)
  obtain ⟨-, -, low, -⟩ := codeFinish_ok h
  simp only [codeFinish, codeBitC, true_and] at low ⊢
  generalize codeRenorm 8 (terminateInterval c) = r at *
  exact ⟨BitVec.eq_of_toNat_eq range, Nat.mod_eq_zero_of_dvd zeros, low, binCount⟩

theorem trailing_length (pos : Nat) : (Act.bits pos .trailing).length = 8 - pos % 8 := by
  rw [Act.bits, List.length_cons, List.length_replicate]
  omega

/-- Trailing bits after bits that fit beside them end on a byte boundary (R138). -/
theorem enter_append_trailing_bitOffset (h : Writable s) (bits : List Bool)
    (hf : Fits s (bits ++ Act.bits (s.bitpos + bits.length) .trailing).length) :
    (enter (bits ++ Act.bits (s.bitpos + bits.length) .trailing) s).writer.bitOffset = 0 := by
  have offset := bitpos_mod (enter (bits ++ Act.bits (s.bitpos + bits.length) .trailing) s)
  rw [enter_bitpos s _ h.1 h.2 hf, List.length_append, trailing_length] at offset
  exact BitVec.eq_of_toNat_eq (show _ = 0 by omega)

/-- All the bits `SLICE_FINISH` sends: those of `SliceFinish`, then the trailing bits of the place where they
end (R169). -/
def State.finishBits (s : State) : List Bool :=
  (codeFinish s.cabac).1 ++ Act.bits (s.bitpos + (codeFinish s.cabac).1.length) .trailing

/-- `SLICE_FINISH` where its bits fit and the count of outstanding bits stays clear of R24's limit. -/
theorem exec_sliceFinish_of_fits (h : Writable s) (hc : CabacOk s.cabac) (ho : s.cabac.outstanding.toNat + 8 < 2 ^ 32)
    (fits : Fits s s.finishBits.length) : exec .sliceFinish s =
      .next { enter s.finishBits s with cabac := (codeFinish s.cabac).2, cp := s.cp + 1 } := by
  have completed : sliceFinish s = .ok (s.coded (s.finishBits, s.ctx, (codeFinish s.cabac).2)) :=
    (sliceFinish_codes h hc).completes fits ho
  rw [exec, execSliceFinish, completed, finish_ok]
  generalize s.finishBits = bits, (codeFinish s.cabac).2 = c
  rw [State.coded, ← enter_ctx s bits, ← enter_cp s bits]
  rfl

/-- Settles O36: the bits and registers of the pure coder, whose end values are those of the renormalisation of range
2. -/
theorem sliceFinishCommand : Obligations.SliceFinishCommand := by
  intro s hs hw hc ho r p bits all fits
  have sent : bits = (codeFinish s.cabac).1 := rfl
  have left : p.2 = (codeFinish s.cabac).2 := rfl
  clear_value p bits
  subst sent
  rw [left]
  obtain ⟨range, outstanding, firstBit, low, low', binCount⟩ := codeFinish_values hc
  exact ⟨exec_sliceFinish_of_fits ⟨hs, hw⟩ hc ho fits, range, outstanding, firstBit,
    enter_append_trailing_bitOffset ⟨hs, hw⟩ _ fits, low, low', binCount⟩

end Sys2Proof.Machine
end

section
/-! PROOFS. A listing that stops in the middle (R383, R392; log entry 18): what the lines before the stop
wrote stays. -/

namespace Sys2Proof.Machine

variable {s : State}

/-- A listing without a line that assigns a report register leaves them (R330). -/
theorem listingReport_of_noReport (base pos : Nat) {as : List Act} (h : NoReport as) (r : Report) :
    listingReport base pos as r = r := by
  induction as generalizing pos with
  | nil => rfl
  | cons a as ih =>
    obtain ⟨line, rest⟩ := (noReport_cons a as).1 h
    have same : a.report base pos r = r := by
      cases a with
      | mark | assign => cases line
      | put | trailing | fail => rfl
    rw [listingReport, same, ih _ rest]

/-- Lines that raise nothing, assign nothing and fit enter their bits, and the listing goes on from there (R210). -/
theorem runActs_append_eq (h : Writable s) (base : Nat) {done : List Act} (rest : List Act)
    (go : ∀ a ∈ done, a.stops = false) (hno : NoReport done) (fits : Fits s (listingBits s.bitpos done).length) :
    runActs base (done ++ rest) s = runActs base rest (enter (listingBits s.bitpos done) s) := by
  have entered : runActs base done s = .ok (enter (listingBits s.bitpos done) s) := by
    rw [runActs_eq h base done go fits, listingReport_of_noReport _ _ hno,
      ← enter_report s (listingBits s.bitpos done)]
    rfl
  rw [runActs_append, entered]
  rfl

/-- Settles O48: the lines before the stop have entered their bits, and the next line raises. -/
theorem midListingFault : Obligations.MidListingFault := by
  intro s done rest hs hw pass go fits _ _
  have room : Writable s := ⟨hs, hw⟩
  have reach {a : Act} (hacts : spsActs s.params = done ++ a :: rest) : exec .packSps s =
      finish (runActs 0 (a :: rest) (enter (listingBits s.bitpos done) s)) := by
    have hno : NoReport done := ((noReport_append _ _).1 (hacts ▸ noReport_spsActs s.params)).1
    rw [exec, execPackSps, packSps, packListing, pass, hacts]
    exact congrArg finish (runActs_append_eq room 0 _ go hno fits)
  refine ⟨fun code info hacts => ?_, fun bits hacts full => ?_⟩
  · rw [reach hacts]
    rfl
  · have position := enter_bitpos s _ hs hw fits
    have size : (enter (listingBits s.bitpos done) s).room = s.room := enter_room s _
    have noRoom : ¬Fits (enter (listingBits s.bitpos done) s) bits.length := by
      simp only [Fits, position, size] at full ⊢
      omega
    have after : Writable (enter (listingBits s.bitpos done) s) := (Sent.enter fits).wrote.writable room
    rw [reach hacts, ← position]
    simp only [runActs, runAct, emit_eq _ bits after.1 after.2, if_neg noRoom]
    rfl

end Sys2Proof.Machine
end

section
/-! PROOFS. The arithmetic decoder on the coder's bits (R174). What the decoder holds is read off the coder's registers
and the bits still to come (`Follows`), so the proof runs backwards through the stream: a decoder that follows the coder
after a step is one step on from a decoder that follows it before, whatever the step sent. -/

namespace Sys2Proof.Machine

variable {c c' : Cabac} {x off : Nat} {stream unread : List Bool} {d d' : Decoder}

/-! ## The value of leading bits -/

/-- The first `n` bits of a stream as a number, with 0 beyond its end. -/
def leadingValue (n : Nat) (l : List Bool) : Nat :=
  (List.range n).foldl (fun v k => 2 * v + (l.getD k false).toNat) 0

theorem leadingValue_succ (n : Nat) (l : List Bool) :
    leadingValue (n + 1) l = 2 * leadingValue n l + (l.getD n false).toNat := by
  simp [leadingValue, List.range_succ]

theorem leadingValue_cons (n : Nat) (b : Bool) (l : List Bool) :
    leadingValue (n + 1) (b :: l) = b.toNat * 2 ^ n + leadingValue n l := by
  induction n with
  | zero => simp [leadingValue]
  | succ n ih =>
    rw [leadingValue_succ, ih, leadingValue_succ, List.getD_cons_succ, pow_succ]
    ring

theorem leadingValue_lt (n : Nat) (l : List Bool) : leadingValue n l < 2 ^ n := by
  induction n with
  | zero => simp [leadingValue]
  | succ n ih =>
    have := Bool.toNat_le (l.getD n false)
    rw [leadingValue_succ, pow_succ]
    omega

theorem leadingValue_replicate_false (o n : Nat) (l : List Bool) :
    leadingValue (n + o) (List.replicate o false ++ l) = leadingValue n l := by
  induction o with
  | zero => rfl
  | succ o ih => rw [List.replicate_succ, List.cons_append, ← Nat.add_assoc, leadingValue_cons, ih]; simp

theorem leadingValue_replicate_true (o n : Nat) (l : List Bool) :
    leadingValue (n + o) (List.replicate o true ++ l) + 2 ^ n = 2 ^ (n + o) + leadingValue n l := by
  induction o with
  | zero => exact Nat.add_comm _ _
  | succ o ih =>
    rw [List.replicate_succ, List.cons_append, ← Nat.add_assoc, leadingValue_cons, pow_succ, Bool.toNat_true]
    omega

/-- A bit and the outstanding bits behind it, as `PutBitC` sends them (R166): a carry of weight `2^n`, or none. -/
theorem leadingValue_carry (b : Bool) (o n : Nat) (l : List Bool) :
    leadingValue (n + o + 1) (b :: List.replicate o (!b) ++ l) + 2 ^ n =
      2 ^ (n + o) + b.toNat * 2 ^ n + leadingValue n l := by
  rw [List.cons_append, leadingValue_cons]
  cases b with
  | false => simpa using leadingValue_replicate_true o n l
  | true =>
    rw [Bool.not_true, leadingValue_replicate_false, Bool.toNat_true]
    omega

/-! ## Where the decoder stands -/

/-- The bits still to come, with the 0 that the first `PutBitC` leaves out (R166). -/
def Cabac.pending (c : Cabac) (stream : List Bool) : List Bool := if c.firstBit then false :: stream else stream

/-- As long as no bit has been sent, none that is a 1 can be due: the interval lies in the lower half. -/
abbrev FirstLow (c : Cabac) : Prop := c.firstBit = true → c.low.toNat + c.range.toNat ≤ 512

/-- Against a coder whose `low` has `w + 1` bits and the stream it still sends, a decoder has read as many bits as the
coder has in `low` and outstanding. They exceed the least value that the coder can still send by `off`; the others are
`unread`. -/
structure Sees (w : Nat) (c : Cabac) (stream : List Bool) (off : Nat) (unread : List Bool) : Prop where
  value : leadingValue (w + c.outstanding.toNat + 1) (c.pending stream) + 2 ^ w =
    2 ^ (w + c.outstanding.toNat) + c.low.toNat + off
  unread : unread = (c.pending stream).drop (w + c.outstanding.toNat + 1)

/-- The decoder that has decoded what the coder has coded: same range, and its offset inside it. -/
structure Follows (c : Cabac) (stream : List Bool) (d : Decoder) : Prop where
  range : d.range = c.range.toNat
  inside : d.off < d.range
  sees : Sees 9 c stream d.off d.bits

theorem Decoder.eq_of_fields (range : d.range = d'.range) (off : d.off = d'.off) (bits : d.bits = d'.bits) :
    d = d' := by
  cases d
  cases d'
  cases range
  cases off
  cases bits
  rfl

theorem pending_congr (hf : c'.firstBit = c.firstBit) : c'.pending stream = c.pending stream := by
  rw [Cabac.pending, hf, Cabac.pending]

theorem pending_codeBitC {b : Bool} (hb : c.firstBit = true → b = false) :
    c.pending ((codeBitC b c).1 ++ stream) = b :: List.replicate c.outstanding.toNat (!b) ++ stream := by
  simp only [Cabac.pending, codeBitC]
  split
  case isTrue first => simp [hb first]
  case isFalse sent => simp

/-! ## One bit settled -/

/-- `PutBitC(b)` takes the weight of `b` out of `low` (R166). -/
theorem Sees.of_codeBitC {b : Bool} {v : Word} (hb : c.firstBit = true → b = false)
    (hv : c.low.toNat = b.toNat * 2 ^ 10 + v.toNat)
    (h : Sees 9 (codeBitC b { c with low := v }).2 stream off unread) :
    Sees 10 c ((codeBitC b { c with low := v }).1 ++ stream) off unread := by
  have sent : c.pending ((codeBitC b { c with low := v }).1 ++ stream) = _ := pending_codeBitC hb
  obtain ⟨value, rest⟩ := h
  change leadingValue 10 stream + 2 ^ 9 = 2 ^ 9 + v.toNat + off at value
  refine ⟨?_, ?_⟩
  · rw [sent, leadingValue_carry]
    omega
  · have len : 10 + c.outstanding.toNat + 1 = (b :: List.replicate c.outstanding.toNat (!b)).length + 10 := by
      simp only [List.length_cons, List.length_replicate]
      omega
    rw [rest, sent, len, List.drop_append]
    simp [codeBitC, Cabac.pending]

/-- The band decision (R168): the same bits stand before it as after it, `low` one bit longer. -/
theorem Sees.of_codeBypassBand (bound : c.low.toNat < 2048) (first : c.firstBit = true → c.low.toNat < 1024)
    (count : c.outstanding.toNat + 1 < 2 ^ 32) (h : Sees 9 (codeBypassBand c).2 stream off unread) :
    Sees 10 c ((codeBypassBand c).1 ++ stream) off unread := by
  unfold codeBypassBand at h ⊢
  split at h
  case isTrue high =>
    rw [if_pos high]
    exact h.of_codeBitC (fun f => absurd (first f) (Nat.not_lt.2 high)) (by simp only [Bool.toNat_true]; bv_omega)
  case isFalse below =>
    rw [if_neg below]
    split at h
    case isTrue low =>
      rw [if_pos low]
      exact h.of_codeBitC (fun _ => rfl) (by simp)
    case isFalse middle =>
      rw [if_neg middle]
      obtain ⟨value, rest⟩ := h
      have outstanding : (c.outstanding + 1).toNat = c.outstanding.toNat + 1 := by bv_omega
      have low : (c.low - 512).toNat + 512 = c.low.toNat := by bv_omega
      have width : 9 + (c.outstanding.toNat + 1) = 10 + c.outstanding.toNat := by omega
      have pending : ({ c with low := c.low - 512, outstanding := c.outstanding + 1 } : Cabac).pending stream =
          c.pending stream := rfl
      simp only [outstanding, width, pending] at value rest
      exact ⟨by simp only [List.nil_append]; omega, rest⟩

/-- A bit more of `low` is a bit more read. -/
theorem Sees.of_shift (h : Sees 10 c' stream off unread) (range : Nat) (ho : c'.outstanding = c.outstanding)
    (hf : c'.firstBit = c.firstBit) (hl : c'.low.toNat = 2 * c.low.toNat + x) :
    ∃ d : Decoder, Sees 9 c stream d.off d.bits ∧ d.range = range ∧ d.shift.off = x + off ∧
      d.shift.bits = unread := by
  obtain ⟨value, rest⟩ := h
  have width : 10 + c.outstanding.toNat + 1 = 9 + c.outstanding.toNat + 1 + 1 := by omega
  have power : 2 ^ (10 + c.outstanding.toNat) = 2 * 2 ^ (9 + c.outstanding.toNat) := by
    rw [← pow_succ']
    congr 1
    omega
  rw [ho, pending_congr hf, width] at rest
  rw [ho, pending_congr hf, width, power, leadingValue_succ, hl] at value
  have bit := Bool.toNat_le ((c.pending stream).getD (9 + c.outstanding.toNat + 1) false)
  obtain ⟨e, he⟩ : ∃ e, leadingValue (9 + c.outstanding.toNat + 1) (c.pending stream) + 2 ^ 9 =
      2 ^ (9 + c.outstanding.toNat) + c.low.toNat + e := Nat.exists_eq_add_of_le (by omega)
  refine ⟨⟨range, e, (c.pending stream).drop (9 + c.outstanding.toNat + 1)⟩, ⟨he, rfl⟩, rfl, ?_, ?_⟩
  · simp only [Decoder.shift, List.headD_eq_head?_getD, List.head?_drop, ← List.getD_eq_getElem?_getD]
    omega
  · rw [rest, Decoder.shift, List.tail_drop]

/-! ## Renormalisation (R167) -/

/-- Range and `low` doubled, as a turn of `RenormE` ends (R167). -/
def Cabac.doubled (c : Cabac) : Cabac := { c with range := c.range <<< 1, low := c.low <<< 1 }

theorem Interval.toNat_doubled (h : Interval c) (small : c.range.toNat < 256) :
    c.doubled.range.toNat = 2 * c.range.toNat ∧ c.doubled.low.toNat = 2 * c.low.toNat := by
  obtain ⟨-, -, bound⟩ := h
  exact ⟨toNat_shiftLeft_one (by omega), toNat_shiftLeft_one (by omega)⟩

/-- To decide and then double is to double and then decide as for a bypass bin (R167, R168). -/
theorem codeBypassBand_doubled (h : Interval c) (small : c.range.toNat < 256) :
    codeBypassBand c.doubled = ((codeBand c).1, (codeBand c).2.doubled) := by
  obtain ⟨-, low⟩ := h.toNat_doubled small
  obtain ⟨-, -, bound⟩ := h
  have shifted (k : Word) : (c.low - k) <<< 1 = c.low <<< 1 - k <<< 1 := by
    apply BitVec.eq_of_toNat_eq
    simp only [BitVec.toNat_shiftLeft, BitVec.toNat_sub, Nat.shiftLeft_eq]
    omega
  unfold codeBypassBand codeBand
  by_cases lower : c.low.toNat < 256
  · rw [if_neg (by omega), if_pos (by omega), if_pos lower]
    rfl
  · by_cases upper : 512 ≤ c.low.toNat
    · rw [if_pos (by omega), if_neg lower, if_pos upper]
      simp [codeBitC, Cabac.doubled, shifted]
      rfl
    · rw [if_neg (by omega), if_neg (by omega), if_neg lower, if_neg upper]
      simp [Cabac.doubled, shifted]

theorem codeBypassBand_firstLow (h : c.firstBit = true → c.low.toNat + c.range.toNat ≤ 1024) :
    FirstLow (codeBypassBand c).2 := by
  unfold codeBypassBand FirstLow
  split
  · exact nofun
  · split
    · exact nofun
    · intro first
      have := h first
      simp only
      bv_omega

/-- A turn of the loop doubles the range (R167). -/
theorem toNat_codeBand_doubled_range (hi : Interval c) (small : c.range.toNat < 256) :
    (codeBand c).2.doubled.range.toNat = 2 * c.range.toNat := by
  rw [Cabac.doubled, (codeBand_interval hi small).1]
  exact toNat_shiftLeft_one (by omega)

/-- One turn of the loop (R167). -/
theorem Follows.of_codeBand (hi : Interval c) (small : c.range.toNat < 256) (first : FirstLow c)
    (count : c.outstanding.toNat + 1 < 2 ^ 32) (h : Follows (codeBand c).2.doubled stream d') :
    ∃ d, Follows c ((codeBand c).1 ++ stream) d ∧ { d.shift with range := 2 * d.range } = d' := by
  obtain ⟨range, low⟩ := hi.toNat_doubled small
  have band := codeBypassBand_doubled hi small
  obtain ⟨erange, inside, sees⟩ := h
  rw [toNat_codeBand_doubled_range hi small] at erange
  have before : Sees 10 c.doubled ((codeBand c).1 ++ stream) d'.off d'.bits := by
    have := Sees.of_codeBypassBand (c := c.doubled) (stream := stream) (off := d'.off) (unread := d'.bits)
    rw [band] at this
    refine this (by have := hi.2.2; omega) (fun f => ?_) count sees
    have := first f
    have := hi.1
    omega
  obtain ⟨d, hd, drange, off, bits⟩ := before.of_shift (c := c) (x := 0) c.range.toNat rfl rfl low
  refine ⟨d, ⟨drange, ?_, hd⟩, ?_⟩
  · simp only [Decoder.shift] at off
    omega
  · rw [Nat.zero_add] at off
    exact Decoder.eq_of_fields (by rw [erange, drange]) off bits

/-- What a turn of the loop finds, the next turn finds again (R172). -/
theorem Interval.codeBand_doubled (hi : Interval c) (small : c.range.toNat < 256) (first : FirstLow c) :
    Interval (codeBand c).2.doubled ∧ FirstLow (codeBand c).2.doubled ∧
      (codeBand c).2.doubled.range.toNat = 2 * c.range.toNat := by
  have range := toNat_codeBand_doubled_range hi small
  obtain ⟨-, bound⟩ := codeBand_interval hi small
  have low' : (codeBand c).2.doubled.low.toNat = 2 * (codeBand c).2.low.toNat := toNat_shiftLeft_one (by omega)
  have first' : FirstLow (codeBypassBand c.doubled).2 := codeBypassBand_firstLow fun f => by
    have := first f
    obtain ⟨r, l⟩ := hi.toNat_doubled small
    omega
  rw [codeBypassBand_doubled hi small] at first'
  have := hi.1
  exact ⟨⟨by omega, by omega, by omega⟩, first', range⟩

theorem codeRenorm_of_lt (n : Nat) (small : c.range.toNat < 256) : codeRenorm (n + 1) c =
    ((codeBand c).1 ++ (codeRenorm n (codeBand c).2.doubled).1, (codeRenorm n (codeBand c).2.doubled).2) := by
  rw [codeRenorm, if_pos small]
  rfl

theorem codeRenorm_of_le (n : Nat) (large : 256 ≤ c.range.toNat) : codeRenorm n c = ([], c) := by
  cases n with
  | zero => rfl
  | succ n => rw [codeRenorm, if_neg (Nat.not_lt.2 large)]

/-- The loop (R167): what it sends, the decoder's loop reads. -/
theorem Follows.of_codeRenorm (n : Nat) (hi : Interval c) (hn : 256 ≤ c.range.toNat * 2 ^ n) (first : FirstLow c)
    (count : c.outstanding.toNat + n < 2 ^ 32) (h : Follows (codeRenorm n c).2 stream d') :
    ∃ d, Follows c ((codeRenorm n c).1 ++ stream) d ∧ decodeRenorm n d = d' := by
  induction n generalizing c with
  | zero => exact ⟨d', h, rfl⟩
  | succ n ih =>
    by_cases small : c.range.toNat < 256
    · rw [codeRenorm_of_lt n small] at h ⊢
      obtain ⟨hi', first', range'⟩ := hi.codeBand_doubled small first
      have hn' : 256 ≤ (codeBand c).2.doubled.range.toNat * 2 ^ n := by
        rwa [range', Nat.mul_comm 2, Nat.mul_assoc, ← pow_succ']
      have count' : (codeBand c).2.doubled.outstanding.toNat ≤ c.outstanding.toNat + 1 :=
        codeBand_outstanding c
      obtain ⟨d₁, follows₁, loop⟩ := ih hi' hn' first' (by omega) h
      obtain ⟨d, follows, turn⟩ := follows₁.of_codeBand hi small first (by omega)
      refine ⟨d, by rwa [List.append_assoc], ?_⟩
      rw [decodeRenorm, if_pos (follows.range ▸ small), turn, loop]
    · rw [codeRenorm_of_le _ (Nat.not_lt.1 small)] at h ⊢
      exact ⟨d', h, by rw [decodeRenorm, if_neg (h.range ▸ small)]⟩

theorem codeRenorm_firstLow (n : Nat) (hi : Interval c) (first : FirstLow c) : FirstLow (codeRenorm n c).2 := by
  induction n generalizing c with
  | zero => exact first
  | succ n ih =>
    by_cases small : c.range.toNat < 256
    · rw [codeRenorm_of_lt n small]
      obtain ⟨hi', first', -⟩ := hi.codeBand_doubled small first
      exact ih hi' first'
    · rwa [codeRenorm_of_le _ (Nat.not_lt.1 small)]

/-! ## Bins -/

/-- What the coder keeps between bins: a sound interval (R172), in the lower half before the first bit, and room for `k`
more outstanding bits (R24). -/
structure Coding (k : Nat) (c : Cabac) : Prop where
  ok : CabacOk c
  first : FirstLow c
  count : c.outstanding.toNat + k < 2 ^ 32

theorem Coding.mono {k l : Nat} (h : Coding l c) (hk : k ≤ l) : Coding k c :=
  ⟨h.ok, h.first, by have := h.count; omega⟩

/-- A part of the interval, `k` above its bottom: the decoder was in the whole, `k` above where it is in the part. -/
theorem Follows.of_part {k : Nat} (h : Follows c' stream d) (ho : c'.outstanding = c.outstanding)
    (hf : c'.firstBit = c.firstBit) (hl : c'.low.toNat = c.low.toNat + k)
    (hr : k + c'.range.toNat ≤ c.range.toNat) :
    Follows c stream ⟨c.range.toNat, k + d.off, d.bits⟩ := by
  obtain ⟨range, inside, value, rest⟩ := h
  rw [ho, pending_congr hf] at value rest
  exact ⟨rfl, show k + d.off < c.range.toNat by omega, show _ = _ + (k + d.off) by omega, rest⟩

theorem FirstLow.of_part {k : Nat} (first : FirstLow c) (hf : c'.firstBit = c.firstBit)
    (hl : c'.low.toNat = c.low.toNat + k) (hr : k + c'.range.toNat ≤ c.range.toNat) : FirstLow c' := fun f => by
  have := first (hf ▸ f)
  omega

/-- The two parts of the interval (R165): the MPS has the bottom, the LPS `lpsWidth` at the top. -/
theorem nextInterval_part (byte : Byte) (b : Bool) (hok : CabacOk c) :
    (nextInterval byte b c).low.toNat =
        c.low.toNat + (if b ≠ ctxMps byte then c.range.toNat - (lpsWidth byte c.range).toNat else 0) ∧
      (nextInterval byte b c).range.toNat = if b ≠ ctxMps byte then (lpsWidth byte c.range).toNat
        else c.range.toNat - (lpsWidth byte c.range).toNat := by
  obtain ⟨least, most, -, bound⟩ := hok
  have bounds := lpsWidth_bounds byte c.range ⟨least, most⟩
  by_cases lps : b ≠ ctxMps byte
  · rw [nextInterval, if_pos lps, if_pos lps, if_pos lps]
    exact ⟨by simp only; bv_omega, rfl⟩
  · rw [nextInterval, if_neg lps, if_neg lps, if_neg lps]
    exact ⟨rfl, by simp only; bv_omega⟩

theorem nextInterval_same (byte : Byte) (b : Bool) (c : Cabac) :
    (nextInterval byte b c).outstanding = c.outstanding ∧ (nextInterval byte b c).firstBit = c.firstBit := by
  unfold nextInterval
  split <;> exact ⟨rfl, rfl⟩

theorem nextInterval_firstLow (byte : Byte) (b : Bool) (hok : CabacOk c) (first : FirstLow c) :
    FirstLow (nextInterval byte b c) := by
  obtain ⟨low, range⟩ := nextInterval_part byte b hok
  have bounds := lpsWidth_bounds byte c.range ⟨hok.1, hok.2.1⟩
  refine first.of_part (nextInterval_same byte b c).2 low ?_
  rw [range]
  split <;> omega

/-- The decoder before renormalisation lands in the part of the interval that the coder took (R165). -/
theorem Follows.of_nextInterval (byte : Byte) (b : Bool) (hok : CabacOk c)
    (h : Follows (nextInterval byte b c) stream d') :
    ∃ d, Follows c stream d ∧ decodeBin byte d = (b, decodeRenorm 8 d') := by
  have bounds := lpsWidth_bounds byte c.range ⟨hok.1, hok.2.1⟩
  have width : (rangeTabLps (ctxState byte) (rangeQuarter (BitVec.ofNat 32 c.range.toNat))).toNat =
      (lpsWidth byte c.range).toNat := by
    have := (rangeTabLps (ctxState byte) (rangeQuarter c.range)).isLt
    rw [lpsWidth, BitVec.ofNat_toNat, BitVec.setWidth_eq, BitVec.toNat_setWidth, Nat.mod_eq_of_lt (by omega)]
  obtain ⟨low, range⟩ := nextInterval_part byte b hok
  obtain ⟨outstanding, firstBit⟩ := nextInterval_same byte b c
  have drange := h.range.trans range
  have inside := h.inside
  by_cases lps : b ≠ ctxMps byte
  · simp only [if_pos lps] at low range drange
    refine ⟨_, h.of_part outstanding firstBit low (by omega), ?_⟩
    rw [decodeBin]
    simp only [width]
    rw [if_pos (by omega), Nat.add_sub_cancel_left, ← drange, Bool.eq_not.2 lps]
  · simp only [if_neg lps] at low range drange
    refine ⟨_, h.of_part outstanding firstBit low (by omega), ?_⟩
    rw [decodeBin]
    simp only [width]
    rw [if_neg (by omega), Nat.zero_add, ← drange, not_not.1 lps]

theorem codeBin_coding {k : Nat} (byte : Byte) (b : Bool) (h : Coding (8 + k) c) : Coding k (codeBin byte b c).2 :=
  ⟨codeBin_ok byte b h.ok,
    codeRenorm_firstLow 8 (nextInterval_interval byte b h.ok) (nextInterval_firstLow byte b h.ok h.first),
    by have := codeBin_outstanding byte b c; have := h.count; omega⟩

/-- Counting a bin sends nothing (R173). -/
theorem Follows.of_counted (h : Follows c.counted stream d) : Follows c stream d :=
  ⟨h.range, h.inside, ⟨h.sees.value, h.sees.unread⟩⟩

theorem Follows.of_codeBin (byte : Byte) (b : Bool) (hc : Coding 8 c) (h : Follows (codeBin byte b c).2 stream d') :
    ∃ d, Follows c ((codeBin byte b c).1 ++ stream) d ∧ decodeBin byte d = (b, d') := by
  have hi := nextInterval_interval byte b hc.ok
  obtain ⟨d₁, follows₁, loop⟩ := h.of_counted.of_codeRenorm 8 hi (by have := hi.1; omega)
    (nextInterval_firstLow byte b hc.ok hc.first) ((nextInterval_same byte b c).1 ▸ hc.count)
  obtain ⟨d, follows, bin⟩ := follows₁.of_nextInterval byte b hc.ok
  exact ⟨d, follows, by rw [bin, loop]⟩

theorem toNat_bypassLow (b : Bool) (hok : CabacOk c) :
    (bypassLow c b).toNat = 2 * c.low.toNat + if b then c.range.toNat else 0 := by
  obtain ⟨-, -, -, bound⟩ := hok
  unfold bypassLow
  split <;> bv_omega

theorem codeBypassBand_range (c : Cabac) : (codeBypassBand c).2.range = c.range := by
  unfold codeBypassBand
  split
  · rfl
  · split <;> rfl

theorem codeBypass_coding {k : Nat} (b : Bool) (h : Coding (1 + k) c) : Coding k (codeBypass b c).2 := by
  refine ⟨codeBypass_ok b h.ok, codeBypassBand_firstLow fun f => ?_, ?_⟩
  · have := h.first f
    have : (if b then c.range.toNat else 0) ≤ c.range.toNat := by split <;> omega
    simp only [toNat_bypassLow b h.ok]
    omega
  · have := codeBypass_outstanding b c
    have := h.count
    omega

theorem Follows.of_codeBypass (b : Bool) (hc : Coding 1 c) (h : Follows (codeBypass b c).2 stream d') :
    ∃ d, Follows c ((codeBypass b c).1 ++ stream) d ∧ decodeBypass d = (b, d') := by
  have low := toNat_bypassLow b hc.ok
  obtain ⟨wide, -, bottom, bound⟩ := hc.ok
  have upper : (if b then c.range.toNat else 0) ≤ c.range.toNat := by split <;> omega
  obtain ⟨range, inside, sees⟩ := h.of_counted
  rw [codeBypassBand_range] at range
  change d'.range = c.range.toNat at range
  have before : Sees 10 { c with low := bypassLow c b } ((codeBypass b c).1 ++ stream) d'.off d'.bits := by
    refine sees.of_codeBypassBand (by simp only; omega) (fun f => ?_) hc.count
    have := hc.first f
    rw [low]
    omega
  obtain ⟨d, hd, drange, off, bits⟩ := before.of_shift (c := c) c.range.toNat rfl rfl low
  have inside' : d.off < d.range := by
    simp only [Decoder.shift] at off
    omega
  refine ⟨d, ⟨drange, inside', hd⟩, ?_⟩
  cases b with
  | false =>
    rw [if_neg Bool.false_ne_true, Nat.zero_add] at off
    rw [decodeBypass, if_neg (by omega)]
    exact congrArg (Prod.mk false) (Decoder.eq_of_fields (drange.trans range.symm) off bits)
  | true =>
    rw [if_pos rfl] at off
    rw [decodeBypass, if_pos (by omega)]
    exact congrArg (Prod.mk true)
      (Decoder.eq_of_fields (drange.trans range.symm) (show d.shift.off - d.range = d'.off by omega) bits)

theorem Follows.of_codeBins (bins : List Bin) (ctx : Vector Context 9) (hc : Coding (8 * bins.length) c)
    (h : Follows (codeBins bins ctx c).2.2 stream d') :
    ∃ d, Follows c ((codeBins bins ctx c).1 ++ stream) d ∧ decodeBins bins ctx d = (bins.map Bin.value, d') := by
  induction bins generalizing ctx c with
  | nil => exact ⟨d', h, rfl⟩
  | cons b bins ih =>
    have room : Coding (8 + 8 * bins.length) c := hc.mono (by rw [List.length_cons]; omega)
    cases b with
    | ctx i b =>
      obtain ⟨d₁, follows₁, tail⟩ := ih _ (codeBin_coding _ _ room) h
      obtain ⟨d, follows, head⟩ := follows₁.of_codeBin _ b (room.mono (by omega))
      refine ⟨d, by simpa [codeBins] using follows, ?_⟩
      simp only [decodeBins, head, tail]
      rfl
    | bypass b =>
      obtain ⟨d₁, follows₁, tail⟩ := ih _ (codeBypass_coding b (room.mono (by omega))) h
      obtain ⟨d, follows, head⟩ := follows₁.of_codeBypass b (room.mono (by omega))
      refine ⟨d, by simpa [codeBins] using follows, ?_⟩
      simp only [decodeBins, head, tail]
      rfl

theorem codeBins_coding {k : Nat} (bins : List Bin) (ctx : Vector Context 9) (hc : Coding (8 * bins.length + k) c) :
    Coding k (codeBins bins ctx c).2.2 := by
  induction bins generalizing ctx c with
  | nil => exact hc.mono (by simp)
  | cons b bins ih =>
    have room : Coding (8 + (8 * bins.length + k)) c := hc.mono (by rw [List.length_cons]; omega)
    cases b with
    | ctx i b => exact ih _ (codeBin_coding _ _ room)
    | bypass b => exact ih _ (codeBypass_coding b (room.mono (by omega)))

/-! ## The ends of the stream -/

/-- The coder starts where the decoder does (R161): 10 bits of `low` are the 0 left out and the first 9 of the
stream. -/
theorem Follows.eq_decoderInit (h : Follows Cabac.reset stream d) : d = decoderInit stream := by
  obtain ⟨range, -, value, rest⟩ := h
  have pending : Cabac.reset.pending stream = false :: stream := rfl
  have off : d.off = leadingValue 9 stream := by
    change leadingValue 10 _ + 2 ^ 9 = 2 ^ 9 + 0 + d.off at value
    rw [pending, leadingValue_cons, Bool.toNat_false] at value
    omega
  exact Decoder.eq_of_fields range off rest

/-- Bit 9 and bit 8 of `low`, the outstanding bits and the stop bit (R169): with the 7 bits after them they lie inside
an interval of 256 whose bottom is a multiple of 128. -/
theorem follows_flush (rest : List Bool) (range : c.range.toNat = 256) (low : c.low.toNat < 1024)
    (zeros : 2 ^ 7 ∣ c.low.toNat) (first : FirstLow c) :
    ∃ d, Follows c ((codeBitC (c.low.getLsbD 9) c).1 ++ [c.low.getLsbD 8] ++ true :: rest) d := by
  have bit9 : (c.low.getLsbD 9).toNat = c.low.toNat / 2 ^ 9 % 2 := Nat.toNat_testBit _ _
  have bit8 : (c.low.getLsbD 8).toNat = c.low.toNat / 2 ^ 8 % 2 := Nat.toNat_testBit _ _
  have hb : c.firstBit = true → c.low.getLsbD 9 = false := fun f => by
    have := first f
    rw [← Bool.toNat_eq_zero]
    omega
  have last := leadingValue_lt 7 rest
  have value : leadingValue (9 + c.outstanding.toNat + 1)
      (c.pending ((codeBitC (c.low.getLsbD 9) c).1 ++ [c.low.getLsbD 8] ++ true :: rest)) + 2 ^ 9 =
        2 ^ (9 + c.outstanding.toNat) + c.low.toNat + (128 + leadingValue 7 rest - c.low.toNat % 256) := by
    rw [List.append_assoc, pending_codeBitC hb, leadingValue_carry, List.singleton_append, leadingValue_cons,
      leadingValue_cons, Bool.toNat_true]
    omega
  exact ⟨⟨256, _, _⟩, range.symm, by simp only; omega, value, rfl⟩

/-- The flush and the stop bit (R169) put the decoder into the terminating interval, whatever comes after. -/
theorem follows_codeFinish (rest : List Bool) (hc : Coding 8 c) :
    ∃ d, Follows c ((codeFinish c).1 ++ true :: rest) d ∧ (decodeTerm d).1 = true := by
  have hi := terminateInterval_interval hc.ok
  have width : (terminateInterval c).range.toNat = 2 := rfl
  have turns : 256 ≤ (terminateInterval c).range.toNat * 2 ^ 8 := by omega
  have place : (terminateInterval c).low.toNat = c.low.toNat + (c.range.toNat - 2) := by
    obtain ⟨lower, -, -, bound⟩ := hc.ok
    simp only [terminateInterval]
    bv_omega
  have inside : c.range.toNat - 2 + (terminateInterval c).range.toNat ≤ c.range.toNat := by
    have := hc.ok.1
    omega
  have first : FirstLow (terminateInterval c) := hc.first.of_part rfl place inside
  obtain ⟨range, zeros⟩ := codeRenorm_of_two_pow 8 0 hi rfl (one_dvd _) (by decide) (by decide)
  obtain ⟨-, -, low, -⟩ := codeRenorm_ok 8 hi turns
  obtain ⟨d₂, follows₂⟩ := follows_flush rest range low zeros (codeRenorm_firstLow 8 hi first)
  obtain ⟨d₁, follows₁, -⟩ := follows₂.of_codeRenorm 8 hi turns first hc.count
  rw [← List.append_assoc, ← List.append_assoc] at follows₁
  refine ⟨_, follows₁.of_part rfl rfl place inside, ?_⟩
  rw [decodeTerm, if_pos (Nat.le_add_right _ _)]

/-- Settles O40: from the decoder at the end of the bins back to the one at their start. -/
theorem coderIsDecodable : Obligations.CoderIsDecodable := by
  intro bins ctx rest bound x d
  have hc : Coding (8 * bins.length + 8) Cabac.reset := ⟨by decide, by decide, by simpa [Cabac.reset] using bound⟩
  obtain ⟨dEnd, followsEnd, term⟩ := follows_codeFinish rest (codeBins_coding bins ctx hc)
  obtain ⟨dStart, followsStart, values⟩ := followsEnd.of_codeBins bins ctx (hc.mono (by omega))
  rw [← List.append_assoc] at followsStart
  have run : d = (bins.map Bin.value, dEnd) := by rw [← values, followsStart.eq_decoderInit]
  rw [run]
  exact ⟨rfl, term⟩

end Sys2Proof.Machine
end

section
/-! PROOFS. The commands that set the coder up: `CABAC_INIT` (R161), `CTX_INIT` (R162), `CTX_SET` (R171), with the words
that miss their encodings (R95). -/

namespace Sys2Proof

theorem build_of_opc_cabacInit {f : Fields} (h : f.opc = 0x20) : build f = some .cabacInit := by
  obtain ⟨opc, a, b, imm⟩ := f
  cases h
  rfl

theorem build_of_opc_ctxInit {f : Fields} (h : f.opc = 0x21) :
    build f = some (.ctxInit f.a (f.b.extractLsb' 0 8) f.imm) := by
  obtain ⟨opc, a, b, imm⟩ := f
  cases h
  rfl

theorem build_of_opc_ctxSet {f : Fields} (h : f.opc = 0x22) :
    build f = some (.ctxSet f.a (f.imm.extractLsb' 0 7)) := by
  obtain ⟨opc, a, b, imm⟩ := f
  cases h
  rfl

/-- A word is illegal whose operands are ill formed, or whose fields are not those of its command (R95). -/
theorem decode_eq_error {w : CmdWord} {i : Instr} (hbuild : build (fieldsOf w) = some i)
    (h : i.wf = false ∨ fieldsFor i ≠ fieldsOf w) : ∃ e, decode w = .error e := by
  cases hdec : decode w with
  | error e => exact ⟨e, rfl⟩
  | ok j =>
    obtain ⟨⟨m, hused, hclear⟩, hbuild', hwf⟩ := decode_eq_ok_iff.1 hdec
    obtain rfl : i = j := Option.some.inj (hbuild.symm.trans hbuild')
    rcases h with ill | other
    · exact absurd hwf (by simp [ill])
    · exact absurd (fieldsFor_of_build hused hclear hbuild) other

/-- A widened field has nothing above the bits it came from. -/
theorem extractLsb'_setWidth_above {v w : Nat} (n : Nat) (x : BitVec v) : (x.setWidth w).extractLsb' v n = 0 := by
  ext k hk
  simp

end Sys2Proof

namespace Sys2Proof.Machine

/-- Settles O30: the one word of opcode 0x20 without an unused bit set is `CABAC_INIT`'s own. -/
theorem cabacInitCommand : Obligations.CabacInitCommand := by
  refine ⟨fun _ => rfl, fun w hopc hw => decode_eq_reservedBit (build_of_opc_cabacInit hopc) fun hfields => hw ?_⟩
  calc w = wordOf (fieldsOf w) := (wordOf_fieldsOf w).symm
    _ = encode .cabacInit := congrArg wordOf hfields.symm
    _ = 0x2000000000000000 := by decide

/-- An index from 9 on is an ill-formed operand (R92). -/
theorem decide_lt_nine {x : BitVec 8} (h : 9 ≤ x.toNat) : decide (x.toNat < 9) = false :=
  decide_eq_false (Nat.not_lt.2 h)

/-- Settles O32: the encoder leaves `B` and the bits of `IMM` from 7 on at 0. -/
theorem ctxSetCommand : Obligations.CtxSetCommand := by
  refine ⟨fun s ctx raw h => ?_, fun w hopc bad => decode_eq_error (build_of_opc_ctxSet hopc) ?_⟩
  · simp only [exec, execCtxSet, ctxOperand_of_lt h, finish_ok]
    rfl
  · obtain hctx | hb | himm := bad
    · exact .inl (decide_lt_nine hctx)
    · exact .inr fun hfields => hb (congrArg Fields.b hfields).symm
    · refine .inr fun hfields => himm ?_
      have imm : ((fieldsOf w).imm.extractLsb' 0 7).setWidth 32 = (fieldsOf w).imm := congrArg Fields.imm hfields
      calc w.extractLsb' 7 25 = (fieldsOf w).imm.extractLsb' 7 25 := by
            rw [fieldsOf, BitVec.extractLsb'_extractLsb'_of_le (by decide)]
        _ = 0 := by rw [← imm, extractLsb'_setWidth_above]

/-- `clip3` by `max` and `min` (R13). -/
theorem clip3_eq {lo hi : Int} (h : lo ≤ hi) (v : Int) : clip3 lo hi v = max lo (min hi v) := by
  unfold clip3
  split
  · omega
  · split <;> omega

/-- A context byte as a number (R29). -/
theorem ctxByte_ofInt {n : Int} (mps : Bool) (h : 0 ≤ n) (h' : n < 64) :
    ctxByte (BitVec.ofInt 6 n) mps = BitVec.ofInt 8 (n + 64 * mps.toNat) := by
  have all : ∀ (k : Fin 64) (m : Bool),
      ctxByte (BitVec.ofInt 6 (k.val : Int)) m = BitVec.ofInt 8 ((k.val : Int) + 64 * m.toNat) := by decide
  obtain ⟨k, rfl⟩ := Int.eq_ofNat_of_zero_le h
  exact all ⟨k, by omega⟩ mps

/-- `initState` in the terms of R162: the shift is floor division. -/
theorem initState_eq (initVal : Nat) (qp : Int) : initState initVal qp =
    max 1 (min 126 (Int.fdiv (((initVal / 16 : Nat) * 5 - 45) * max 0 (min 51 qp)) 16 +
      ((initVal % 16 * 8 : Nat) - 16))) := by
  rw [initState, clip3_eq (by decide), clip3_eq (by decide), Int.fdiv_eq_ediv_of_nonneg _ (by decide)]

/-- Settles O31: `InitializeContext` over the integers, its byte as a number. -/
theorem ctxInitCommand : Obligations.CtxInitCommand := by
  refine ⟨fun s ctx initVal qp h => ?_, fun w hopc bad => decode_eq_error (build_of_opc_ctxInit hopc) ?_⟩
  · intro q slope offset init value
    have state : initState initVal.toNat qp.toInt = init := initState_eq _ _
    have byte : initContextByte initVal.toNat qp.toInt = BitVec.ofInt 8 value := by
      have range : 1 ≤ init ∧ init ≤ 126 := by omega
      clear_value init
      rw [initContextByte, state]
      by_cases mps : 64 ≤ init
      · simp only [value, if_pos mps]
        exact ctxByte_ofInt true (by omega) (by omega)
      · simp only [value, if_neg mps]
        rw [ctxByte_ofInt false (by omega) (by omega)]
        simp
    rw [← byte]
    simp only [exec, execCtxInit, ctxOperand_of_lt h, finish_ok]
    rfl
  · obtain hctx | hb := bad
    · exact .inl (decide_lt_nine hctx)
    · refine .inr fun hfields => hb ?_
      have b : ((fieldsOf w).b.extractLsb' 0 8).setWidth 16 = (fieldsOf w).b := congrArg Fields.b hfields
      calc w.extractLsb' 40 8 = (fieldsOf w).b.extractLsb' 8 8 := by
            ext k hk
            simp [fieldsOf, ← Nat.add_assoc]
            omega
        _ = 0 := by rw [← b, extractLsb'_setWidth_above]

end Sys2Proof.Machine
end

section
/-! PROOFS. The commands that code bins: `ENC_BIN` (R165, R170) and `ENC_BIN_EP` (R168) in full, and what a command of
the coder that completes leaves in the coder's registers (R172, R173). -/

namespace Sys2Proof.Machine

variable {s t u : State} {c : Cabac}

/-! ## Where the bits fit -/

/-- `CP` moves past a command that coded (R26). -/
theorem State.coded_advance (s : State) (bits : List Bool) (ctx : Vector Context 9) (c : Cabac) :
    (s.coded (bits, ctx, c)).advance = { enter bits s with ctx := ctx, cabac := c, cp := s.cp + 1 } := by
  rw [State.coded, ← enter_cp s bits]
  rfl

/-- What `ENC_BIN` through context `i` computes: bits, contexts, registers (R165). -/
def State.binCoded (s : State) (i : Fin 9) (b : Bool) : List Bool × Vector Context 9 × Cabac :=
  ((codeBin s.ctx[i].byte b s.cabac).1, s.ctx.set i ⟨nextContext s.ctx[i].byte b, true⟩,
    (codeBin s.ctx[i].byte b s.cabac).2)

theorem exec_encBin_of_fits (h : Writable s) (hc : CabacOk s.cabac) {ctx : BitVec 8} (hctx : ctx.toNat < 9) (b : Bool)
    (hv : s.ctx[ctx.toNat].valid = true) (ho : s.cabac.outstanding.toNat + 8 < 2 ^ 32)
    (fits : Fits s (codeBin s.ctx[ctx.toNat].byte b s.cabac).1.length) :
    exec (.encBin ctx b) s = .next (s.coded (s.binCoded ⟨ctx.toNat, hctx⟩ b)).advance := by
  have completed : encodeBin ⟨ctx.toNat, hctx⟩ b s = .ok (s.coded (s.binCoded ⟨ctx.toNat, hctx⟩ b)) :=
    (encodeBin_codes h hc ⟨ctx.toNat, hctx⟩ b hv).completes fits ho
  simp only [exec, execEncBin, ctxOperand_of_lt hctx, completed, finish_ok]

theorem exec_encBinEp_of_fits (h : Writable s) (b : Bool) (ho : s.cabac.outstanding.toNat + 1 < 2 ^ 32)
    (fits : Fits s (codeBypass b s.cabac).1.length) :
    exec (.encBinEp b) s =
      .next (s.coded ((codeBypass b s.cabac).1, s.ctx, (codeBypass b s.cabac).2)).advance := by
  rw [exec, execEncBinEp, (encodeBinEp_codes h b).completes fits ho, finish_ok]

/-! ## ENC_BIN -/

/-- The two bits above 256 of a range (R165). -/
theorem rangeQuarter_eq (range : Word) : rangeQuarter range = (range >>> 6).setWidth 2 := by
  ext k hk
  simp [rangeQuarter]

/-- A context byte is its state below its `valMPS` (R29). -/
theorem ctxByte_eq (state : BitVec 6) (mps : Bool) :
    ctxByte state mps = state.setWidth 8 ||| (BitVec.ofBool mps).setWidth 8 <<< 6 := by
  revert state mps
  decide

/-- The transition of R165 in one formula. -/
theorem nextContext_eq (byte : Byte) (b : Bool) : nextContext byte b =
    ctxByte (if b = ctxMps byte then transMps (ctxState byte) else transLps (ctxState byte))
      (if b ≠ ctxMps byte ∧ ctxState byte = 0 then !ctxMps byte else ctxMps byte) := by
  by_cases mps : b = ctxMps byte
  · simp [nextContext, mps]
  · simp [nextContext, mps]

theorem nextInterval_eq (byte : Byte) (b : Bool) (c : Cabac) : nextInterval byte b c =
    if b = ctxMps byte then { c with range := c.range - lpsWidth byte c.range }
    else { c with low := c.low + (c.range - lpsWidth byte c.range), range := lpsWidth byte c.range } := by
  rw [nextInterval, ite_not]

/-- Counting a bin is the one thing `ENC_BIN` does to `BIN_COUNT` (R173). -/
theorem codeBin_eq (byte : Byte) (b : Bool) (c : Cabac) : codeBin byte b c =
    ((codeRenorm 8 (nextInterval byte b c)).1,
      { (codeRenorm 8 (nextInterval byte b c)).2 with binCount := c.binCount + 1 }) := by
  have same : (nextInterval byte b c).binCount = c.binCount := by
    rw [nextInterval_eq]
    split <;> rfl
  rw [codeBin, Cabac.counted, codeRenorm_binCount, same]

/-- Settles O34: the interval, the bits and the transition it spells out are those of the pure coder. -/
theorem encBinCommand : Obligations.EncBinCommand := by
  intro s ctx b h hs hw hc hv ho byte state mps lps interval state' mps' r fits
  have width : lps = lpsWidth byte s.cabac.range := by rw [lpsWidth, rangeQuarter_eq]; rfl
  have before : interval = nextInterval byte b s.cabac := by rw [nextInterval_eq, ← width]; rfl
  have code : codeBin byte b s.cabac = (r.1, { r.2 with binCount := s.cabac.binCount + 1 }) := by
    rw [codeBin_eq, ← before]
  have after : nextContext byte b = state'.setWidth 8 ||| (BitVec.ofBool mps').setWidth 8 <<< 6 := by
    rw [nextContext_eq, ctxByte_eq]
    rfl
  have run := exec_encBin_of_fits ⟨hs, hw⟩ hc h b hv ho (by rw [code]; exact fits)
  rw [run, State.binCoded, State.coded_advance, ← after]
  simp only [Fin.getElem_fin]
  rw [code]

/-! ## ENC_BIN_EP -/

/-- The band of the doubled `low` from 1024 on sends a 1 (R168). -/
theorem codeBypass_of_high {b : Bool} (h : 1024 ≤ (bypassLow c b).toNat) : codeBypass b c =
    ((codeBitC true c).1, ⟨bypassLow c b - 1024, c.range, 0, false, c.binCount + 1⟩) := by
  rw [codeBypass, codeBypassBand, if_pos h]
  rfl

/-- The band of the doubled `low` below 512 sends a 0 (R168). -/
theorem codeBypass_of_low {b : Bool} (h : (bypassLow c b).toNat < 512) : codeBypass b c =
    ((codeBitC false c).1, ⟨bypassLow c b, c.range, 0, false, c.binCount + 1⟩) := by
  rw [codeBypass, codeBypassBand, if_neg (by simp only; omega), if_pos h]
  rfl

/-- The band of the doubled `low` between them leaves one more bit outstanding (R168). -/
theorem codeBypass_of_middle {b : Bool} (h : 512 ≤ (bypassLow c b).toNat) (h' : (bypassLow c b).toNat < 1024) :
    codeBypass b c =
      ([], ⟨bypassLow c b - 512, c.range, c.outstanding + 1, c.firstBit, c.binCount + 1⟩) := by
  rw [codeBypass, codeBypassBand, if_neg (Nat.not_le.2 h'), if_neg (Nat.not_lt.2 h)]
  rfl

/-- `ENC_BIN_EP` where its bits fit leaves the contexts (R168). -/
theorem exec_encBinEp_of_eq (h : Writable s) {b : Bool} (ho : s.cabac.outstanding.toNat + 1 < 2 ^ 32)
    {bits : List Bool} (code : codeBypass b s.cabac = (bits, c)) (fits : Fits s bits.length) :
    exec (.encBinEp b) s = .next { enter bits s with cabac := c, cp := s.cp + 1 } := by
  rw [exec_encBinEp_of_fits h b ho (by rwa [code]), code, State.coded_advance, ← enter_ctx s bits]

/-- Settles O35, band by band. -/
theorem encBinEpCommand : Obligations.EncBinEpCommand := by
  intro s b hs hw hc ho low carries
  have doubled : (bypassLow s.cabac b).toNat = low := toNat_bypassLow b hc
  have number : bypassLow s.cabac b = BitVec.ofNat 32 low := by rw [← doubled, BitVec.ofNat_toNat, BitVec.setWidth_eq]
  have less (k : Nat) (hk : k ≤ low) : bypassLow s.cabac b - BitVec.ofNat 32 k = BitVec.ofNat 32 (low - k) := by
    have bound : low < 2 ^ 32 := doubled ▸ (bypassLow s.cabac b).isLt
    rw [number, BitVec.ofNat_sub_ofNat_of_le _ _ (by omega) hk]
  refine ⟨fun high fits => ?_, fun below fits => ?_, fun above below => ?_⟩
  · rw [← less 1024 high]
    exact exec_encBinEp_of_eq ⟨hs, hw⟩ ho (codeBypass_of_high (doubled ▸ high)) fits
  · rw [← number]
    exact exec_encBinEp_of_eq ⟨hs, hw⟩ ho (codeBypass_of_low (doubled ▸ below)) fits
  · rw [← less 512 above]
    exact exec_encBinEp_of_eq ⟨hs, hw⟩ ho (codeBypass_of_middle (doubled ▸ above) (doubled ▸ below))
      (Writable.fits_zero ⟨hs, hw⟩)

/-! ## Commands that complete -/

theorem encBin_completed (h : Writable s) (hc : CabacOk s.cabac) {ctx : BitVec 8} {b : Bool}
    (e : exec (.encBin ctx b) s = .next t) (hok : t.status.fault = false) :
    ∃ i : Fin 9, i.val = ctx.toNat ∧ t = (s.coded (s.binCoded i b)).advance := by
  simp only [exec, execEncBin] at e
  by_cases hctx : ctx.toNat < 9
  · rw [ctxOperand_of_lt hctx] at e
    obtain ⟨u, hu, rfl⟩ := (encodeBin_keepsFixed _ b).completes e hok
    by_cases hv : s.ctx[ctx.toNat].valid = true
    · obtain ⟨-, rfl⟩ := (hu ▸ encodeBin_codes h hc ⟨ctx.toNat, hctx⟩ b hv).ok
      exact ⟨⟨ctx.toNat, hctx⟩, rfl, rfl⟩
    · rw [encodeBin_of_not_valid (Bool.eq_false_iff.2 hv)] at hu
      cases hu
  · have none : ctxOperand ctx = none := dif_neg hctx
    rw [none] at e
    obtain ⟨u, hu, -⟩ := (KeepsFixed.raise (s := s) rfl .illegalCmd 0x23).completes e hok
    cases hu

theorem encBinEp_completed (h : Writable s) {b : Bool} (e : exec (.encBinEp b) s = .next t)
    (hok : t.status.fault = false) : t.cabac = (codeBypass b s.cabac).2 := by
  obtain ⟨u, hu, rfl⟩ := (encodeBinEp_keepsFixed b).completes e hok
  obtain ⟨-, rfl⟩ := (hu ▸ encodeBinEp_codes h b).ok
  rfl

theorem sliceFinish_completed (h : Writable s) (hc : CabacOk s.cabac) (e : exec .sliceFinish s = .next t)
    (hok : t.status.fault = false) : t.cabac = (codeFinish s.cabac).2 := by
  obtain ⟨u, hu, rfl⟩ := sliceFinish_keepsFixed.completes e hok
  obtain ⟨-, rfl⟩ := (hu ▸ sliceFinish_codes h hc).ok
  rfl

/-- Settles O37, by the sound intervals of the pure coder. -/
theorem intervalInvariant : Obligations.IntervalInvariant := by
  refine ⟨fun s t e => ?_, fun s t i hi hs hw hc _ e hok => ?_⟩
  · cases e
    exact cabacInit_ok s
  · obtain ⟨ctx, b, rfl⟩ | ⟨b, rfl⟩ | rfl := hi
    · obtain ⟨i, -, rfl⟩ := encBin_completed ⟨hs, hw⟩ hc e hok
      exact codeBin_ok _ b hc
    · rw [encBinEp_completed ⟨hs, hw⟩ e hok]
      exact codeBypass_ok b hc
    · rw [sliceFinish_completed ⟨hs, hw⟩ hc e hok]
      exact codeFinish_ok hc

theorem codeBypass_binCount (b : Bool) (c : Cabac) : (codeBypass b c).2.binCount = c.binCount + 1 := by
  have same : (codeBypassBand { c with low := bypassLow c b }).2.binCount = c.binCount := by
    unfold codeBypassBand
    split
    · rfl
    · split <;> rfl
  rw [codeBypass, Cabac.counted, same]

theorem wInit_completed {off : BitVec 3} (e : exec (.wInit off) s = .next t) (hok : t.status.fault = false) :
    t.cabac = Cabac.reset := by
  obtain ⟨u, hu, rfl⟩ := (writerInit_keepsFixed off).completes e hok
  obtain ⟨rfl, -⟩ := writerInit_eq_ok hu
  exact openWriter_cabac off s

/-- Settles O38, command by command. -/
theorem binCount : Obligations.BinCount := by
  refine ⟨fun s t i hinv hf e hok => ⟨?_, ?_, ?_⟩, fun s t e => ?_⟩
  · have hc : CabacOk s.cabac := by obtain ⟨-, -, -, -, -, -, -, hc⟩ := hinv; exact hc hf
    rintro (⟨ctx, b, rfl⟩ | ⟨b, rfl⟩)
    · obtain ⟨i, -, rfl⟩ := encBin_completed hinv.ready.writable hc e hok
      exact congrArg (fun x => x.2.binCount) (codeBin_eq _ b s.cabac)
    · rw [encBinEp_completed hinv.ready.writable e hok, codeBypass_binCount]
  · have hc : CabacOk s.cabac := by obtain ⟨-, -, -, -, -, -, -, hc⟩ := hinv; exact hc hf
    rintro (rfl | rfl)
    · obtain ⟨-, -, -, -, -, count⟩ := codeFinish_values hc
      rw [sliceFinish_completed hinv.ready.writable hc e hok, count]
    · cases e
      rfl
  · rintro ⟨off, rfl⟩
    rw [wInit_completed e hok]
    rfl
  · obtain ⟨-, -, -, -, -, -, hcabac, -⟩ := afterReset_ctrlReset s
    have reset : t = ctrlReset s := by
      simpa [writeCsr, writeCtrl, eq_comm] using e
    rw [reset, hcabac]

/-! ## The terminating bin of value 0 -/

/-- The context byte 63 stands for state 63 with `valMPS` 0: a bin 0 takes all of the range but 2 (R163, R170). -/
theorem nextInterval_terminating (c : Cabac) : nextInterval 63 false c = { c with range := c.range - 2 } := by
  have width : lpsWidth 63 c.range = 2 := by
    have all : ∀ q : BitVec 2, (rangeTabLps (ctxState 63) q).setWidth 32 = (2 : Word) := by decide
    exact all _
  rw [nextInterval, if_neg (by decide), width]

/-- State 63 stays (R164, R170). -/
theorem nextContext_terminating : nextContext 63 false = 63 := by decide

/-- A range from 256 on is left alone (R167). -/
theorem renormE_of_le (large : 256 ≤ s.cabac.range.toNat) : renormE s = .ok s := by
  rw [renormE, renormLoop, if_neg (Nat.not_lt.2 large)]

/-- A range from 128 on takes one turn (R167). -/
theorem codeRenorm_range_of_lt (n : Nat) (hi : Interval c) (small : c.range.toNat < 256)
    (one : 128 ≤ c.range.toNat) : (codeRenorm (n + 1) c).2.range.toNat = 2 * c.range.toNat := by
  have range := toNat_codeBand_doubled_range hi small
  rw [codeRenorm_of_lt n small, codeRenorm_of_le n (by omega), range]

/-- Settles O39: the range is 2 less, so one turn of the renormalisation at most is left to do. -/
theorem terminateBinZero : Obligations.TerminateBinZero := by
  intro s hs hw hc hctx
  have valid : s.ctx[(8 : Fin 9)].valid = true := congrArg Context.valid hctx
  have byte : s.ctx[(8 : Fin 9)].byte = 63 := congrArg Context.byte hctx
  have kept : s.ctx.set (8 : Fin 9) ⟨63, true⟩ = s.ctx := by
    rw [← hctx]
    exact Vector.set_getElem_self _
  have less : (s.cabac.range - 2).toNat = s.cabac.range.toNat - 2 := by
    have := hc.1
    bv_omega
  refine ⟨fun wide => ?_, fun narrow t _ e hok => ?_⟩
  · have operand : ctxOperand 8 = some 8 := rfl
    have stays (c : Cabac) : (s.setCabac c).setContext 8 63 = s.setCabac c := by
      rw [State.setContext, State.setCabac_ctx, kept]
      rfl
    have coded : encodeBin 8 false s = .ok (s.setCabac { s.cabac with range := s.cabac.range - 2 }).countBin := by
      rw [encodeBin, if_pos valid, byte, nextInterval_terminating, nextContext_terminating, stays,
        renormE_of_le (by rw [State.setCabac_cabac, less]; omega)]
      rfl
    rw [exec, execEncBin, operand]
    simp only [coded, finish_ok]
    rfl
  · obtain ⟨i, hi, rfl⟩ := encBin_completed ⟨hs, hw⟩ hc e hok
    obtain rfl : i = 8 := Fin.ext hi
    have interval := nextInterval_interval 63 false hc
    rw [nextInterval_terminating] at interval
    rw [State.binCoded, byte, nextContext_terminating, kept, codeBin_eq, nextInterval_terminating]
    refine ⟨?_, rfl⟩
    have wide := hc.1
    calc (codeRenorm 8 { s.cabac with range := s.cabac.range - 2 }).2.range.toNat = 2 * (s.cabac.range - 2).toNat :=
          codeRenorm_range_of_lt 7 interval (by rw [less]; omega) (by rw [less]; omega)
      _ = 2 * (s.cabac.range.toNat - 2) := by rw [less]

end Sys2Proof.Machine
end

section
/-! PROOFS. Emulation prevention (R201, R203): the size of a protected unit, and both halves of the protection property.
The inserter counts zero bytes; the count is the run of zeros that ends the output so far, so the inserter and the reader
look at the same two bytes. -/

namespace Sys2Proof.Machine

variable {zeros : Nat} {b c : Byte} {bs seen out source : List Byte}

/-! ## One byte of the source (R201) -/

/-- A byte that triggers the inserter. -/
theorem escapeFrom_inserted (h : 2 ≤ zeros ∧ b.toNat ≤ 3) :
    escapeFrom zeros (b :: bs) = 3 :: b :: escapeFrom (zerosAfter 0 b) bs := if_pos h

/-- A byte that does not. -/
theorem escapeFrom_kept (h : ¬(2 ≤ zeros ∧ b.toNat ≤ 3)) :
    escapeFrom zeros (b :: bs) = b :: escapeFrom (zerosAfter zeros b) bs := if_neg h

/-- Only a zero byte is counted. -/
theorem lt_zerosAfter_iff (n zeros : Nat) (b : Byte) : n < zerosAfter zeros b ↔ b = 0 ∧ n ≤ zeros := by
  by_cases zero : b = 0
  · rw [zerosAfter, if_pos zero, Nat.lt_succ_iff]
    exact (and_iff_right zero).symm
  · rw [zerosAfter, if_neg zero]
    exact iff_of_false (Nat.not_lt_zero _) fun ⟨hb, _⟩ => zero hb

theorem zerosAfter_le (zeros : Nat) (b : Byte) : zerosAfter zeros b ≤ zeros + 1 :=
  Nat.le_of_not_lt fun more => absurd ((lt_zerosAfter_iff _ _ _).1 more).2 (Nat.not_succ_le_self _)

/-- What follows the first `pfx` bytes of the output is the scanned part, also where the source has fewer bytes. -/
theorem escape_drop (pfx : Nat) (source : List Byte) :
    (escape pfx source).drop pfx = escapeFrom 0 (source.drop pfx) := by
  rcases le_total pfx source.length with inside | beyond
  · exact List.drop_left' (List.length_take_of_le inside)
  · simp [escape, List.drop_of_length_le beyond, List.take_of_length_le beyond, escapeFrom]

theorem escape_length (pfx : Nat) (source : List Byte) :
    (escape pfx source).length = min pfx source.length + (escapeFrom 0 (source.drop pfx)).length := by
  rw [escape, List.length_append, List.length_take]

/-! ## The size -/

theorem length_le_escapeFrom (zeros : Nat) (bs : List Byte) : bs.length ≤ (escapeFrom zeros bs).length := by
  induction bs generalizing zeros with
  | nil => exact Nat.zero_le _
  | cons b bs ih =>
    by_cases trigger : 2 ≤ zeros ∧ b.toNat ≤ 3
    · rw [escapeFrom_inserted trigger]
      exact Nat.succ_le_succ ((ih _).trans (Nat.le_succ _))
    · rw [escapeFrom_kept trigger]
      exact Nat.succ_le_succ (ih _)

/-- Every insertion uses up two zeros, of which the count holds at most two at the start; the triggering byte
brings at most one back (R201, corner case g). -/
theorem two_mul_escapeFrom_length_le (zeros : Nat) (bs : List Byte) :
    2 * (escapeFrom zeros bs).length ≤ 3 * bs.length + min zeros 2 := by
  induction bs generalizing zeros with
  | nil => exact Nat.zero_le _
  | cons b bs ih =>
    by_cases trigger : 2 ≤ zeros ∧ b.toNat ≤ 3
    · have rest := ih (zerosAfter 0 b)
      have count := zerosAfter_le 0 b
      rw [escapeFrom_inserted trigger, List.length_cons, List.length_cons, List.length_cons]
      omega
    · have rest := ih (zerosAfter zeros b)
      have count := zerosAfter_le zeros b
      rw [escapeFrom_kept trigger, List.length_cons, List.length_cons]
      omega

/-- Settles O43: the verbatim bytes stay, the scanned part grows by at most half of its own. -/
theorem protectionBound : Obligations.ProtectionBound := by
  intro pfx source
  have low := length_le_escapeFrom 0 (source.drop pfx)
  have high := two_mul_escapeFrom_length_le 0 (source.drop pfx)
  rw [List.length_drop] at low high
  rw [escape_length]
  omega

/-! ## What the inserter writes, in terms of the output so far

`seen` is the output so far, its last byte first. -/

/-- The output so far ends in two zero bytes. -/
def AfterTwoZeros (seen : List Byte) : Prop := seen[1]? = some 0 ∧ seen[0]? = some 0

/-- The number of zero bytes that end the output so far. -/
def zerosEnding : List Byte → Nat
  | [] => 0
  | c :: seen => zerosAfter (zerosEnding seen) c

/-- The inserter's test on its count is a test of the last two bytes. -/
theorem two_le_zerosEnding_iff (seen : List Byte) : 2 ≤ zerosEnding seen ↔ AfterTwoZeros seen := by
  rcases seen with _ | ⟨y, _ | ⟨x, seen⟩⟩
  · simp [AfterTwoZeros, zerosEnding]
  · simp [AfterTwoZeros, zerosEnding, Nat.succ_le_iff, lt_zerosAfter_iff]
  · simp [AfterTwoZeros, zerosEnding, Nat.succ_le_iff, lt_zerosAfter_iff, and_comm]

/-- An inserted `03` ends every run of zeros. -/
theorem not_afterTwoZeros_three (seen : List Byte) : ¬AfterTwoZeros (3 :: seen) := by
  simp [AfterTwoZeros]

/-- After the output `seen`, `out` is `source` with a `03` before every byte of value 0 to 3 that would stand behind two
zero bytes of the output, and nowhere else (R203). -/
inductive Escaped : List Byte → List Byte → List Byte → Prop
  | nil (seen : List Byte) : Escaped seen [] []
  | kept {seen out source : List Byte} {c : Byte} :
      ¬(AfterTwoZeros seen ∧ c.toNat ≤ 3) → Escaped (c :: seen) out source →
        Escaped seen (c :: out) (c :: source)
  | inserted {seen out source : List Byte} {c : Byte} :
      AfterTwoZeros seen → c.toNat ≤ 3 → Escaped (c :: 3 :: seen) out source →
        Escaped seen (3 :: c :: out) (c :: source)

/-- The inserter's count is the run of zeros that ends its output. -/
theorem escaped_escapeFrom (seen source : List Byte) : Escaped seen (escapeFrom (zerosEnding seen) source) source := by
  induction source generalizing seen with
  | nil => exact .nil seen
  | cons c source ih =>
    by_cases trigger : 2 ≤ zerosEnding seen ∧ c.toNat ≤ 3
    · have restart : zerosAfter 0 c = zerosEnding (c :: 3 :: seen) := rfl
      rw [escapeFrom_inserted trigger, restart]
      exact .inserted ((two_le_zerosEnding_iff seen).1 trigger.1) trigger.2 (ih _)
    · rw [escapeFrom_kept trigger]
      exact .kept (by rwa [← two_le_zerosEnding_iff]) (ih _)

/-! ## No start code, and no escape but the inserted ones -/

/-- Behind two zero bytes of the output stands no byte below 3, and a 3 only before a byte of value 0 to 3. -/
theorem Escaped.byte_afterTwoZeros {l r : List Byte} {b : Byte} (h : Escaped seen out source)
    (parts : out = l ++ b :: r) (zeros : AfterTwoZeros (l.reverse ++ seen)) :
    3 ≤ b.toNat ∧ (b = 3 → ∃ c r', r = c :: r' ∧ c.toNat ≤ 3) := by
  induction h generalizing l with
  | nil => simp at parts
  | kept keep _ ih =>
    cases l with
    | nil =>
      obtain ⟨rfl, rfl⟩ := List.cons.inj parts
      have large : 3 < _ := Nat.lt_of_not_le fun small => keep ⟨zeros, small⟩
      refine ⟨large.le, ?_⟩
      rintro rfl
      exact absurd large (by decide)
    | cons x l =>
      obtain ⟨rfl, rest⟩ := List.cons.inj parts
      exact ih rest (by simpa using zeros)
  | inserted _ small _ ih =>
    rcases l with _ | ⟨x, _ | ⟨y, l⟩⟩
    · obtain ⟨rfl, rfl⟩ := List.cons.inj parts
      exact ⟨le_rfl, fun _ => ⟨_, _, rfl, small⟩⟩
    · obtain ⟨rfl, -⟩ := List.cons.inj parts
      exact absurd zeros (not_afterTwoZeros_three _)
    · obtain ⟨rfl, tail⟩ := List.cons.inj parts
      obtain ⟨rfl, rest⟩ := List.cons.inj tail
      exact ih rest (by simpa using zeros)

/-! ## Dropping the escapes -/

/-- A byte that is no escape is kept (R203). -/
theorem unescapeFrom_kept {x y : Option Byte} (bs : List Byte) (h : ¬(x = some 0 ∧ y = some 0 ∧ c.toNat ≤ 3)) :
    unescapeFrom x y (c :: bs) = c :: unescapeFrom y (some c) bs := by
  cases bs with
  | nil => rfl
  | cons d bs =>
    refine if_neg fun ⟨hx, hy, three, _⟩ => h ⟨hx, hy, ?_⟩
    rw [three]
    rfl

/-- The reader's rule on whole bytes gives the source back (R203). -/
theorem Escaped.unescapeFrom_eq (h : Escaped seen out source) : unescapeFrom seen[1]? seen[0]? out = source := by
  induction h with
  | nil => rfl
  | kept keep _ ih =>
    rw [unescapeFrom_kept _ fun ⟨hx, hy, small⟩ => keep ⟨⟨hx, hy⟩, small⟩]
    exact congrArg _ ih
  | @inserted seen out source c zeros small _ ih =>
    calc unescapeFrom seen[1]? seen[0]? (3 :: c :: out)
        = unescapeFrom seen[0]? (some 3) (c :: out) := if_pos ⟨zeros.1, zeros.2, rfl, small⟩
      _ = c :: unescapeFrom (some 3) (some c) out := unescapeFrom_kept _ (by simp)
      _ = c :: source := congrArg _ ih

/-! ## The reference reader with its escape rule (R371) -/

/-- The reader that has just arrived at byte `p`: past an escape that stands there. -/
def arriveAt (buf : List Byte) (p : Nat) : Reader :=
  if (⟨buf, p, 0, true⟩ : Reader).atEscape then ⟨buf, p + 1, 0, true⟩ else ⟨buf, p, 0, true⟩

theorem nextByte_eq_arriveAt (buf : List Byte) (p off : Nat) :
    (⟨buf, p, off, true⟩ : Reader).nextByte = arriveAt buf (p + 1) := rfl

/-- No escape stands at the first byte. -/
theorem arriveAt_zero (buf : List Byte) : arriveAt buf 0 = freshReader buf true := rfl

/-- The reader's mask test is a test of the value. -/
theorem top_six_bits_zero_iff (d : Byte) : d &&& 0xFC = 0 ↔ d.toNat ≤ 3 := by
  revert d
  decide

/-- The reader's window is the end of the output so far and the two bytes after it. -/
theorem atEscape_iff (seen out : List Byte) :
    (⟨seen.reverse ++ out, seen.length, 0, true⟩ : Reader).atEscape = true ↔
      AfterTwoZeros seen ∧ ∃ d rest, out = 3 :: d :: rest ∧ d.toNat ≤ 3 := by
  rcases seen with _ | ⟨y, _ | ⟨x, seen⟩⟩
  · simp [Reader.atEscape, AfterTwoZeros]
  · simp [Reader.atEscape, AfterTwoZeros]
  · rcases out with _ | ⟨c, _ | ⟨d, rest⟩⟩
    · simp [Reader.atEscape]
    · simp [Reader.atEscape]
    · have inside : seen.length + 3 < seen.length + (rest.length + 4) := by omega
      simp [Reader.atEscape, Reader.byte, AfterTwoZeros, ← top_six_bits_zero_iff, Nat.add_assoc, inside, and_assoc]

/-- From bit `n` of a byte down to bit 0, and on to the next byte (R371). -/
theorem delivers_byte_from {buf : List Byte} {p n : Nat} (emu : Bool) (inside : p < buf.length) (hn : n ≤ 7) :
    Delivers ⟨buf, p, 7 - n, emu⟩ (bitsMsb (n + 1) (buf.getD p 0).toNat) (⟨buf, p, 0, emu⟩ : Reader).nextByte := by
  have bit (off : Nat) : getBit ⟨buf, p, off, emu⟩ = some ((buf.getD p 0).getLsbD (7 - off),
      if off = 7 then (⟨buf, p, 0, emu⟩ : Reader).nextByte else ⟨buf, p, off + 1, emu⟩) :=
    if_neg (Nat.not_le.2 inside)
  induction n with
  | zero => exact .cons (bit 7) (.nil _)
  | succ n ih =>
    have next : 7 - (n + 1) + 1 = 7 - n := by omega
    have first := bit (7 - (n + 1))
    rw [if_neg (by omega), Nat.sub_sub_self hn, next] at first
    exact .cons first (ih (by omega))

/-- Eight bits of a reader at the start of a byte are the byte. -/
theorem getBitsFrom_byte {buf : List Byte} {p : Nat} (v : Nat) (inside : p < buf.length) :
    getBitsFrom v 8 ⟨buf, p, 0, true⟩ = some (256 * v + (buf.getD p 0).toNat, arriveAt buf (p + 1)) := by
  have byte := (buf.getD p 0).isLt
  have eight : v * 2 ^ (7 + 1) = 256 * v := Nat.mul_comm _ _
  rw [getBitsFrom_bitsMsb v (delivers_byte_from true inside le_rfl), nextByte_eq_arriveAt, Nat.mod_eq_of_lt byte, eight]

/-- Reading `m + n` bits is reading `m`, then `n` (R374). -/
theorem getBitsFrom_add {r r' : Reader} {v v' m : Nat} (n : Nat) (h : getBitsFrom v m r = some (v', r')) :
    getBitsFrom v (m + n) r = getBitsFrom v' n r' := by
  induction m generalizing v r with
  | zero =>
    obtain ⟨rfl, rfl⟩ := Prod.mk.inj (Option.some.inj h)
    rw [Nat.zero_add]
  | succ m ih =>
    rw [Nat.succ_add, getBitsFrom]
    rw [getBitsFrom] at h
    split at h
    · cases h
    · exact ih h

/-- At the byte `c` behind the output so far, the reader reads it and arrives at the byte behind it. -/
theorem getBitsFrom_kept (v n : Nat) (c : Byte) (seen out : List Byte) :
    getBitsFrom v (8 + n) ⟨seen.reverse ++ c :: out, seen.length, 0, true⟩ =
      getBitsFrom (256 * v + c.toNat) n (arriveAt ((c :: seen).reverse ++ out) (c :: seen).length) := by
  have first := getBitsFrom_byte (buf := seen.reverse ++ c :: out) (p := seen.length) v (by simp)
  rw [getBitsFrom_add n first]
  simp

/-- The reference reader reads the bits of the source (R203); `v` is what it has read before. -/
theorem Escaped.getBitsFrom_eq (h : Escaped seen out source) (v : Nat) :
    ∃ r, getBitsFrom v (8 * source.length) (arriveAt (seen.reverse ++ out) seen.length) =
      some (source.foldl (fun v b => 256 * v + b.toNat) v, r) := by
  induction h generalizing v with
  | nil => exact ⟨_, rfl⟩
  | @kept seen out source c keep _ ih =>
    have stays : arriveAt (seen.reverse ++ c :: out) seen.length =
        ⟨seen.reverse ++ c :: out, seen.length, 0, true⟩ := by
      refine if_neg fun escape => ?_
      obtain ⟨zeros, d, rest, parts, -⟩ := (atEscape_iff _ _).1 escape
      obtain ⟨rfl, -⟩ := List.cons.inj parts
      exact keep ⟨zeros, le_rfl⟩
    rw [stays, List.length_cons, Nat.mul_succ, Nat.add_comm, getBitsFrom_kept]
    exact ih _
  | @inserted seen out source c zeros small _ ih =>
    have skips : arriveAt (seen.reverse ++ 3 :: c :: out) seen.length =
        ⟨(3 :: seen).reverse ++ c :: out, (3 :: seen).length, 0, true⟩ := by
      rw [arriveAt, if_pos ((atEscape_iff _ _).2 ⟨zeros, c, out, rfl, small⟩), List.reverse_cons, List.append_assoc]
      rfl
    rw [skips, List.length_cons, Nat.mul_succ, Nat.add_comm, getBitsFrom_kept]
    exact ih _

/-- Settles O42: the scanned part is escaped after no output, which gives all three. -/
theorem protectionProperty : Obligations.ProtectionProperty := by
  intro pfx source payload out
  have escaped : Escaped [] out payload := by
    rw [show out = _ from escape_drop pfx source]
    exact escaped_escapeFrom [] payload
  refine ⟨fun l r b parts => ?_, escaped.unescapeFrom_eq, ?_⟩
  · have zeros : AfterTwoZeros ((l ++ [0, 0]).reverse ++ []) := by simp [AfterTwoZeros]
    exact escaped.byte_afterTwoZeros (by simpa using parts) zeros
  · rw [← arriveAt_zero]
    exact escaped.getBitsFrom_eq 0

end Sys2Proof.Machine
end

section
/-! PROOFS. The first bytes of a parameter set (R212): the six bytes that a listing's unit header sends from a byte
boundary on, which the lines after them leave alone, and the trailing bits it ends with (R138). -/

namespace Sys2Proof.Machine

variable {s t u : State}

/-! ## Whole bytes at an aligned cursor -/

/-- In a byte not begun nothing has to be clear (R132). -/
theorem tailClear_of_aligned (aligned : s.writer.bitOffset = 0) : TailClear s := absurd aligned

/-- `n` bytes' worth of bits that fit move an aligned cursor `n` bytes on. -/
theorem enter_aligned (h : Writable s) (aligned : s.writer.bitOffset = 0) {bits : List Bool} {n : Nat}
    (hf : Fits s bits.length) (whole : bits.length = 8 * n) : (enter bits s).writer.bitOffset = 0 ∧
      (enter bits s).writer.bytePos.toNat = s.writer.bytePos.toNat + n := by
  have moved := enter_cursor s bits h.1 h.2 hf
  have hoff := (enter bits s).writer.bitOffset.isLt
  have zero : s.writer.bitOffset.toNat = 0 := by rw [aligned]; rfl
  simp only [State.cursor] at moved
  exact ⟨BitVec.eq_of_toNat_eq (show _ = 0 by omega), by omega⟩

/-- The bits of bytes, most significant first (R12). -/
def bytesBits (bytes : List Byte) : List Bool := bytes.flatMap fun x => bitsMsb 8 x.toNat

@[simp] theorem bytesBits_cons (x : Byte) (bytes : List Byte) :
    bytesBits (x :: bytes) = bitsMsb 8 x.toNat ++ bytesBits bytes := rfl

@[simp] theorem bytesBits_length (bytes : List Byte) : (bytesBits bytes).length = 8 * bytes.length := by
  induction bytes with
  | nil => rfl
  | cons x bytes ih =>
    rw [bytesBits_cons, List.length_append, bitsMsb_length, ih, List.length_cons]
    omega

/-- The bits of a byte, entered at an aligned cursor, are that byte (R132). -/
theorem enter_byte_byteAt (h : Writable s) (aligned : s.writer.bitOffset = 0) (x : Byte) (hf : Fits s 8) :
    (enter (bitsMsb 8 x.toNat) s).byteAt s.writer.bytePos.toNat = x := by
  have zero : s.writer.bitOffset.toNat = 0 := by rw [aligned]; rfl
  have room : RoomFor s (bitsMsb 8 x.toNat).length := ⟨h, tailClear_of_aligned aligned, by rwa [bitsMsb_length]⟩
  refine BitVec.eq_of_getLsbD_eq fun j hj => ?_
  have stands := enter_bitAt_cursor_add _ room (k := 7 - j) (by rw [bitsMsb_length]; omega)
  have sent : (bitsMsb 8 x.toNat).getD (7 - j) false = x.getLsbD j := by
    rw [bitsMsb_eq_map, List.getD_eq_getElem _ _ (by simp; omega), List.getElem_map, List.getElem_range,
      show 8 - 1 - (7 - j) = j by omega, BitVec.getLsbD]
  rw [sent, State.bitAt, State.cursor, zero] at stands
  rwa [show (8 * s.writer.bytePos.toNat + 0 + (7 - j)) / 8 = s.writer.bytePos.toNat by omega,
    show 7 - (8 * s.writer.bytePos.toNat + 0 + (7 - j)) % 8 = j by omega] at stands

theorem Memory.readList_succ {w : Nat} (m : Memory w) (a n : Nat) :
    Memory.readList m a (n + 1) = Memory.read m a :: Memory.readList m (a + 1) n := by
  simp only [Memory.readList, List.range_succ_eq_map, List.map_cons, List.map_map, Nat.add_zero, List.cons.injEq,
    true_and]
  refine List.map_congr_left fun k _ => ?_
  rw [Function.comp, Nat.succ_eq_add_one, Nat.add_right_comm, Nat.add_assoc]

/-- Bytes entered at an aligned cursor stand in memory from there on (R132, R141). -/
theorem enter_bytesBits_readList (h : Writable s) (aligned : s.writer.bitOffset = 0) (bytes : List Byte)
    (hf : Fits s (bytesBits bytes).length) :
    (enter (bytesBits bytes) s).dmem.readList s.writer.bytePos.toNat bytes.length = bytes := by
  induction bytes generalizing s with
  | nil => rfl
  | cons x bytes ih =>
    rw [bytesBits_cons, List.length_append] at hf
    have one : Fits s (bitsMsb 8 x.toNat).length := by unfold Fits at *; omega
    have rest := enter_fits s _ _ h.1 h.2 hf
    have writable : Writable (enter (bitsMsb 8 x.toNat) s) := (Sent.enter one).wrote.writable h
    obtain ⟨boundary, next⟩ := enter_aligned h aligned (n := 1) one (bitsMsb_length 8 _)
    have later := ih writable boundary rest
    have first := enter_byteAt_of_outside _ (bytesBits bytes) s.writer.bytePos.toNat writable.1 writable.2 rest
      (.inl (by omega))
    rw [enter_byte_byteAt h aligned x (bitsMsb_length 8 _ ▸ one)] at first
    rw [next] at later
    rw [bytesBits_cons, enter_append, List.length_cons, Memory.readList_succ, later]
    exact congrArg (· :: bytes) first

/-- What is written later changes none of the bytes below the byte position (R70). -/
theorem Wrote.readList (h : Writable s) (w : Wrote s t) {a n : Nat} (below : a + n ≤ s.writer.bytePos.toNat) :
    t.dmem.readList a n = s.dmem.readList a n := by
  refine List.map_congr_left fun k hk => w.byteAt h _ (.inl ?_)
  have := List.mem_range.1 hk
  omega

/-! ## How a listing begins and ends -/

/-- A listing of writes alone that completes has entered their bits, and they fitted (R210). -/
theorem runActs_put_eq_ok {base : Nat} {l : List (List Bool)} (h : Writable s)
    (e : runActs base (l.map .put) s = .ok t) : Fits s l.flatten.length ∧ t = enter l.flatten s := by
  induction l generalizing s with
  | nil => cases e; exact ⟨h.fits_zero, rfl⟩
  | cons bits l ih =>
    obtain ⟨v, line, rest⟩ := res_bind_eq_ok e
    obtain ⟨hf, rfl⟩ := emit_eq_ok h line
    obtain ⟨hg, rfl⟩ := ih ((Sent.enter hf).wrote.writable h) rest
    have position := enter_bitpos s bits h.1 h.2 hf
    have size := enter_room s bits
    rw [List.flatten_cons, enter_append]
    exact ⟨by simp only [Fits, List.length_append] at *; omega, rfl⟩

/-- A listing that completes, and that begins at an aligned cursor with the writes of whole bytes, leaves those bytes
there. -/
theorem runActs_readList_of_start {base : Nat} {as : List Act} {l : List (List Bool)} {bytes : List Byte}
    (h : Writable s) (aligned : s.writer.bitOffset = 0) (start : l.map .put <+: as) (bits : l.flatten = bytesBits bytes)
    (e : runActs base as s = .ok t) : t.dmem.readList s.writer.bytePos.toNat bytes.length = bytes := by
  obtain ⟨rest, rfl⟩ := start
  rw [runActs_append] at e
  obtain ⟨v, head, tail⟩ := res_bind_eq_ok e
  obtain ⟨hf, rfl⟩ := runActs_put_eq_ok h head
  rw [bits] at hf tail
  have writable := (Sent.enter hf).wrote.writable h
  obtain ⟨-, after⟩ := enter_aligned h aligned hf (bytesBits_length bytes)
  rw [(runActs_eq_ok writable tail).1.wrote.readList writable after.ge]
  exact enter_bytesBits_readList h aligned bytes hf

/-- A listing that completes and ends with `PutTrailingBits(0)` ends on a byte boundary (R138). -/
theorem runActs_aligned_of_trailing {base : Nat} {as : List Act} (h : Writable s) (last : [.trailing] <:+ as)
    (e : runActs base as s = .ok t) : t.writer.bitOffset = 0 := by
  obtain ⟨lines, rfl⟩ := last
  rw [runActs_append] at e
  obtain ⟨v, before, tail⟩ := res_bind_eq_ok e
  obtain ⟨w, line, stop⟩ := res_bind_eq_ok tail
  cases stop
  have writable := (runActs_eq_ok h before).1.wrote.writable h
  rw [runAct, putTrailing_eq_emit (.inl rfl)] at line
  obtain ⟨hf, rfl⟩ := emit_eq_ok writable line
  exact enter_trailing_bitOffset v writable.1 writable.2 hf

/-! ## The three parameter sets -/

/-- A packer that completes has passed its pre-checks and completed its listing. -/
theorem packListing_eq_ok {pre : Params → PreCheck} {acts : Params → List Act} (e : packListing pre acts s = .ok t) :
    runActs 0 (acts s.params) s = .ok t := by
  unfold packListing at e
  split at e
  · cases e
  · exact e

/-- The listing of a parameter set of NAL unit type `type`: `PackNALU(1, type, 0, 1)` first, `PutTrailingBits(0)` last
(R212). -/
def FramesUnit (type : Nat) (as : List Act) : Prop := naluActs true type 0 1 <+: as ∧ [.trailing] <:+ as

theorem framesUnit_vpsActs (p : Params) : FramesUnit 32 (vpsActs p) := by
  unfold vpsActs
  refine ⟨?_, List.suffix_append _ _⟩
  simp only [List.append_assoc]
  exact ⟨_, rfl⟩

theorem framesUnit_spsActs (p : Params) : FramesUnit 33 (spsActs p) := by
  unfold spsActs
  refine ⟨?_, List.suffix_append _ _⟩
  simp only [List.append_assoc]
  exact ⟨_, rfl⟩

theorem framesUnit_ppsActs (p : Params) : FramesUnit 34 (ppsActs p) := by
  unfold ppsActs
  refine ⟨?_, List.suffix_append _ _⟩
  simp only [List.append_assoc]
  exact ⟨_, rfl⟩

/-- The bits of the unit header of type `type` in layer 0 are the long start code and the two header bytes (R211). -/
def StartsUnit (type : Nat) (b : Byte) : Prop := (naluWrites true type 0 1).flatten = bytesBits [0, 0, 0, 1, b, 1]

/-- A packer with such a listing that completes from an aligned cursor. -/
theorem packListing_frames_unit {pre : Params → PreCheck} {acts : Params → List Act} {type : Nat} {b : Byte}
    (h : Writable s) (aligned : s.writer.bitOffset = 0) (unit : FramesUnit type (acts s.params))
    (bits : StartsUnit type b) (e : packListing pre acts s = .ok t) :
    t.dmem.readList s.writer.bytePos.toNat 6 = [0, 0, 0, 1, b, 1] ∧ t.writer.bitOffset = 0 := by
  obtain ⟨start, last⟩ := unit
  have run := packListing_eq_ok e
  rw [naluActs_eq] at start
  exact ⟨runActs_readList_of_start h aligned start bits run, runActs_aligned_of_trailing h last run⟩

/-- The three commands are packers of such listings; their types 32, 33 and 34 give the header bytes 40, 42 and 44. -/
theorem exec_parameterSet {i : Instr} {b : Byte}
    (hi : (i = .packVps ∧ b = 0x40) ∨ (i = .packSps ∧ b = 0x42) ∨ (i = .packPps ∧ b = 0x44)) (s : State) :
    ∃ pre acts type, exec i s = finish (packListing pre acts s) ∧ FramesUnit type (acts s.params) ∧
      StartsUnit type b := by
  obtain ⟨rfl, rfl⟩ | ⟨rfl, rfl⟩ | ⟨rfl, rfl⟩ := hi
  · exact ⟨_, _, _, rfl, framesUnit_vpsActs _, rfl⟩
  · exact ⟨_, _, _, rfl, framesUnit_spsActs _, rfl⟩
  · exact ⟨_, _, _, rfl, framesUnit_ppsActs _, rfl⟩

/-- Settles O46: where no fault is raised the listing has completed; its first lines are the six bytes, its last line
the trailing bits. -/
theorem parameterSetHeaders : Obligations.ParameterSetHeaders := by
  intro s t i b hi hs hw aligned _ h hok
  obtain ⟨pre, acts, type, packer, unit, bits⟩ := exec_parameterSet hi s
  obtain ⟨u, completed, rfl⟩ := (packListing_keepsFixed pre acts).completes (packer ▸ h) hok
  have left := packListing_frames_unit ⟨hs, hw⟩ aligned unit bits completed
  rwa [State.advance_dmem, State.advance_writer]

end Sys2Proof.Machine
end

section
/-! PROOFS. The parameter-set packers (R260, R262, R264): the pre-checks in their order, and the listing where they
pass. -/

namespace Sys2Proof.Machine

variable {s : State} {pre : Params → PreCheck} {acts : Params → List Act}

/-! ## The pre-checks in their order -/

/-- The checks of `PACK_VPS`, first to last (R260). -/
theorem vpsChecks_eq (p : Params) : vpsChecks p =
    if Rec.VPS.num_layer_sets_minus1 p ≠ 0 ∨ Rec.VPS.num_hrd_parameters p ≠ 0 ∨ Rec.VPS.extension_flag p = true then
      some (.unsupported, 10)
    else if 6 < Rec.VPS.max_sub_layers_minus1 p then some (.badParam, 11) else none := by
  simp only [vpsChecks, check, Bool.or_eq_true, bne_iff_ne, decide_eq_true_eq, or_assoc]

/-- The checks of `PACK_SPS`, first to last (R262). -/
theorem spsChecks_eq (p : Params) : spsChecks p =
    if Rec.SPS.scaling_list_enabled_flag p = true then some (.unsupported, 1)
    else if Rec.SPS.pcm_enabled_flag p = true then some (.unsupported, 2)
    else if Rec.SPS.extension_flag p = true then some (.unsupported, 4)
    else if 6 < Rec.SPS.max_sub_layers_minus1 p then some (.badParam, 11)
    else if 64 < Rec.SPS.num_short_term_ref_pic_sets p then some (.badParam, 12)
    else if 32 < Rec.SPS.num_long_term_ref_pics_sps p then some (.badParam, 13)
    else if 12 < Rec.SPS.log2_max_pic_order_cnt_lsb_minus4 p then some (.badParam, 14) else none := by
  simp only [spsChecks, spsBoundChecks, check, decide_eq_true_eq]

/-- The checks of `PACK_PPS`, first to last (R264). -/
theorem ppsChecks_eq (p : Params) : ppsChecks p =
    if Rec.PPS.scaling_list_data_present_flag p = true then some (.unsupported, 5)
    else if Rec.PPS.extension_flag p = true then some (.unsupported, 6)
    else if 19 < Rec.PPS.num_tile_columns_minus1 p ∨ 21 < Rec.PPS.num_tile_rows_minus1 p then some (.badParam, 15)
    else none := by
  simp only [ppsChecks, check, Bool.or_eq_true, decide_eq_true_eq]

/-- A packer whose pre-checks find a fault raises it and changes nothing else (R384, R385, R391). -/
theorem finish_packListing_of_some {code : FaultCode} {info : Nat} (found : pre s.params = some (code, info)) :
    finish (packListing pre acts s) = faultNext code (BitVec.ofNat 32 info) s := by
  rw [packListing, found]
  rfl

/-- Settles O47: each command is a packer, and the first check that applies decides. -/
theorem parameterSetChecks : Obligations.ParameterSetChecks := by
  intro s p vps10 sps1 sps2 sps4 sps11 sps12 sps13 sps14 pps5 pps6 pps15
  refine ⟨?vps10, ?vps11, ?sps1, ?sps2, ?sps4, ?sps11, ?sps12, ?sps13, ?sps14, ?pps5, ?pps6, ?pps15⟩
  case vps10 => intro h; exact finish_packListing_of_some (by rw [vpsChecks_eq, if_pos h])
  case vps11 => intro h10 h; exact finish_packListing_of_some (by rw [vpsChecks_eq, if_neg h10, if_pos h])
  case sps1 => intro h; exact finish_packListing_of_some (by rw [spsChecks_eq, if_pos h])
  case sps2 => intro h1 h; exact finish_packListing_of_some (by rw [spsChecks_eq, if_neg h1, if_pos h])
  case sps4 => intro h1 h2 h; exact finish_packListing_of_some (by rw [spsChecks_eq, if_neg h1, if_neg h2, if_pos h])
  case sps11 =>
    intro h1 h2 h4 h
    exact finish_packListing_of_some (by rw [spsChecks_eq, if_neg h1, if_neg h2, if_neg h4, if_pos h])
  case sps12 =>
    intro h1 h2 h4 h11 h
    exact finish_packListing_of_some (by rw [spsChecks_eq, if_neg h1, if_neg h2, if_neg h4, if_neg h11, if_pos h])
  case sps13 =>
    intro h1 h2 h4 h11 h12 h
    refine finish_packListing_of_some ?_
    rw [spsChecks_eq, if_neg h1, if_neg h2, if_neg h4, if_neg h11, if_neg h12, if_pos h]
  case sps14 =>
    intro h1 h2 h4 h11 h12 h13 h
    refine finish_packListing_of_some ?_
    rw [spsChecks_eq, if_neg h1, if_neg h2, if_neg h4, if_neg h11, if_neg h12, if_neg h13, if_pos h]
  case pps5 => intro h; exact finish_packListing_of_some (by rw [ppsChecks_eq, if_pos h])
  case pps6 => intro h5 h; exact finish_packListing_of_some (by rw [ppsChecks_eq, if_neg h5, if_pos h])
  case pps15 => intro h5 h6 h; exact finish_packListing_of_some (by rw [ppsChecks_eq, if_neg h5, if_neg h6, if_pos h])

/-! ## Listings without a line that raises -/

/-- No line of the listing raises a fault. -/
def NoStop (as : List Act) : Prop := ∀ a ∈ as, a.stops = false

@[simp] theorem noStop_append (as bs : List Act) : NoStop (as ++ bs) ↔ NoStop as ∧ NoStop bs :=
  List.forall_mem_append

@[simp] theorem noStop_onlyIf (c : Bool) (as : List Act) : NoStop (onlyIf c as) ↔ (c = true → NoStop as) := by
  cases c <;> simp [onlyIf, NoStop]

@[simp] theorem noStop_forN (n : Nat) (body : Nat → List Act) : NoStop (forN n body) ↔ ∀ i < n, NoStop (body i) := by
  simp only [NoStop, forN, List.forall_mem_flatMap, List.mem_range]

@[simp] theorem noStop_singleton (a : Act) : NoStop [a] ↔ a.stops = false := List.forall_mem_singleton

@[simp] theorem noStop_u (n x : Nat) : NoStop (u n x) := (noStop_singleton _).2 rfl
@[simp] theorem noStop_flag (x : Bool) : NoStop (flag x) := (noStop_singleton _).2 rfl
@[simp] theorem noStop_ue (x : Nat) : NoStop (ue x) := (noStop_singleton _).2 rfl
@[simp] theorem noStop_se (x : Int) : NoStop (se x) := (noStop_singleton _).2 rfl

@[simp] theorem noStop_naluActs (long : Bool) (type layer tid : Nat) : NoStop (naluActs long type layer tid) := by
  unfold naluActs; simp

@[simp] theorem noStop_ptlActs (p : Params) (b msl : Nat) : NoStop (ptlActs p b msl) := by
  unfold ptlActs ptlCoreActs; simp

@[simp] theorem noStop_sloActs (p : Params) (b msl : Nat) : NoStop (sloActs p b msl) := by
  unfold sloActs sloEntryActs; split <;> simp

/-- The listing of `PACK_VPS` has no line that raises: its checks all come before it (R260). -/
theorem noStop_vpsActs (p : Params) : NoStop (vpsActs p) := by
  unfold vpsActs; simp [Act.stops]

/-- The listing of `PACK_PPS` has no line that raises: its checks all come before it (R264). -/
theorem noStop_ppsActs (p : Params) : NoStop (ppsActs p) := by
  unfold ppsActs ppsTileActs; simp [Act.stops]

/-! ## The listing where the checks pass -/

/-- A packer whose pre-checks pass, whose lines raise nothing and assign nothing and whose bits fit enters them. -/
theorem finish_packListing_of_none (h : Writable s) (pass : pre s.params = none) (go : NoStop (acts s.params))
    (hno : NoReport (acts s.params)) (fits : Fits s (listingBits s.bitpos (acts s.params)).length) :
    finish (packListing pre acts s) = .next (enter (listingBits s.bitpos (acts s.params)) s).advance := by
  have entered := runActs_append_eq h 0 [] go hno fits
  rw [List.append_nil] at entered
  rw [packListing, pass]
  exact congrArg finish entered

/-- Settles O45: where the checks pass the listing runs; those of `PACK_VPS` and `PACK_PPS` have no line that raises. -/
theorem parameterSetCommands : Obligations.ParameterSetCommands := by
  intro s hs hw
  have writable : Writable s := ⟨hs, hw⟩
  refine ⟨fun sets hrds ext sub fits => ?vps, fun scaling pcm ext sub short long poc go fits => ?sps,
    fun scaling ext columns rows fits => ?pps⟩
  case vps =>
    have pass : vpsChecks s.params = none := by
      rw [vpsChecks_eq, if_neg (by simp [sets, hrds, ext]), if_neg sub.not_gt]
    exact finish_packListing_of_none writable pass (noStop_vpsActs _) (noReport_vpsActs _) fits
  case sps =>
    have pass : spsChecks s.params = none := by
      rw [spsChecks_eq, if_neg (by simp [scaling]), if_neg (by simp [pcm]), if_neg (by simp [ext]), if_neg sub.not_gt,
        if_neg short.not_gt, if_neg long.not_gt, if_neg poc.not_gt]
    exact finish_packListing_of_none writable pass go (noReport_spsActs _) fits
  case pps =>
    have pass : ppsChecks s.params = none := by
      rw [ppsChecks_eq, if_neg (by simp [scaling]), if_neg (by simp [ext]),
        if_neg (not_or.2 ⟨columns.not_gt, rows.not_gt⟩)]
    exact finish_packListing_of_none writable pass (noStop_ppsActs _) (noReport_ppsActs _) fits

end Sys2Proof.Machine
end

section
/-! PROOFS. `PACK_SSH` (R300): its pre-checks in their order, the listing where they pass, and the report registers it
leaves (R330), which are read from the lines that assign each of them. -/

namespace Sys2Proof.Machine

variable {s t : State} {r : ReportReg} {as : List Act}

/-! ## The pre-checks in their order -/

/-- The report registers as a listing of `PACK_SSH` begins (R330). -/
def State.clearReport (s : State) : State := s.setReport ⟨0, 0, 0, 0, 0⟩

theorem Writable.clearReport (h : Writable s) : Writable s.clearReport :=
  (Sent.setReport h ⟨0, 0, 0, 0, 0⟩).wrote.writable h

/-- A picture without a geometry (R340). -/
theorem packSsh_of_none (dyn : Bool) (bad : geometry s.params = none) : packSsh dyn s = raise .badParam 40 s := by
  rw [packSsh, bad]

/-- EVERYTHING `PackSSH` does for a picture with a geometry: the bounds, first to last, then the listing (R300). -/
theorem packSsh_of_some (dyn : Bool) {g : Geometry} (picture : geometry s.params = some g) : packSsh dyn s =
    if 64 < Rec.SPS.num_short_term_ref_pic_sets s.params then raise .badParam 12 s
    else if 32 < Rec.SPS.num_long_term_ref_pics_sps s.params then raise .badParam 13 s
    else if 12 < Rec.SPS.log2_max_pic_order_cnt_lsb_minus4 s.params then raise .badParam 14 s
    else runActs s.bitpos (sshActs s.params g dyn) s.clearReport := by
  simp only [packSsh, picture, spsBoundChecks, check, decide_eq_true_eq]
  split_ifs <;> rfl

/-- The listing where no line raises and the bits fit: its bits and the report registers it assigns (R210, R330). -/
theorem runActs_clearReport_eq (h : Writable s) (base : Nat) (go : NoStop as)
    (fits : Fits s (listingBits s.bitpos as).length) : runActs base as s.clearReport =
      .ok ((enter (listingBits s.bitpos as) s).setReport (listingReport base s.bitpos as ⟨0, 0, 0, 0, 0⟩)) := by
  refine (runActs_eq h.clearReport base as go fits).trans ?_
  rw [State.clearReport, enter_setReport]
  rfl

/-- Settles O49: the first bound that is exceeded decides; where none is, the listing runs. -/
theorem packSshCommand : Obligations.PackSshCommand := by
  intro s dyn hs hw
  simp only [exec, execPackSsh, faultNext, ← finish_raise]
  refine ⟨fun bad => by rw [packSsh_of_none dyn bad], fun g picture => ?_⟩
  rw [packSsh_of_some dyn picture]
  refine ⟨fun short => ?_, fun short => ⟨fun long => ?_, fun long => ⟨fun poc => ?_, fun poc go fits => ?_⟩⟩⟩
  · rw [if_pos short]
  · rw [if_neg short.not_gt, if_pos long]
  · rw [if_neg short.not_gt, if_neg long.not_gt, if_pos poc]
  · rw [if_neg short.not_gt, if_neg long.not_gt, if_neg poc.not_gt,
      runActs_clearReport_eq ⟨hs, hw⟩ s.bitpos go fits, finish_ok]

/-! ## The registers a listing assigns -/

/-- One report register's value (R330). -/
def Report.read (r : Report) : ReportReg → Word
  | .qpd => r.qpd
  | .sao => r.sao
  | .pwt => r.pwt
  | .sshStartLen => r.sshStartLen
  | .sshOffset => r.sshOffset

/-- A register read after a write to the same and to another one. -/
theorem Report.read_write (rep : Report) (x r : ReportReg) (v : Word) :
    (rep.write x v).read r = if x = r then v else rep.read r := by
  cases x <;> cases r <;> rfl

/-- The report register the action assigns, if any. -/
def Act.target : Act → Option ReportReg
  | .mark r => some r
  | .assign r _ => some r
  | .put _ => none
  | .trailing => none
  | .fail _ _ => none

/-- No line of the listing assigns the register `r`. -/
def Spares (r : ReportReg) (as : List Act) : Prop := ∀ a ∈ as, a.target ≠ some r

theorem NoReport.spares (h : NoReport as) : Spares r as := by
  intro a ha
  have quiet := h a ha
  cases a with
  | mark | assign => cases quiet
  | put | trailing | fail => nofun

@[simp] theorem spares_cons (a : Act) (as : List Act) : Spares r (a :: as) ↔ a.target ≠ some r ∧ Spares r as :=
  List.forall_mem_cons

@[simp] theorem spares_append (as bs : List Act) : Spares r (as ++ bs) ↔ Spares r as ∧ Spares r bs :=
  List.forall_mem_append

@[simp] theorem spares_ite (c : Prop) [Decidable c] (as bs : List Act) :
    Spares r (if c then as else bs) ↔ (c → Spares r as) ∧ (¬c → Spares r bs) := by
  split <;> simp [*]

@[simp] theorem spares_nil : Spares r [] := noReport_nil.spares
@[simp] theorem spares_flag (x : Bool) : Spares r (flag x) := (noReport_flag x).spares
@[simp] theorem spares_ue (x : Nat) : Spares r (ue x) := (noReport_ue x).spares
@[simp] theorem spares_failWith (code : FaultCode) (info : Nat) : Spares r (failWith code info) :=
  (noReport_failWith code info).spares

@[simp] theorem spares_onlyIf (c : Bool) (as : List Act) : Spares r (onlyIf c as) ↔ (c = true → Spares r as) := by
  simp [onlyIf]

/-- A line that completes leaves every register but the one it names. -/
theorem runAct_read_eq {base : Nat} {a : Act} (h : Writable s) (spared : a.target ≠ some r)
    (e : runAct base a s = .ok t) : t.report.read r = s.report.read r := by
  cases a with
  | mark x | assign x =>
    cases e
    exact (Report.read_write _ x r _).trans (if_neg fun same => spared (congrArg some same))
  | put | trailing | fail => exact congrArg (·.read r) ((runAct_eq_ok h e).2 rfl)

/-- A listing that completes leaves every register that none of its lines names (R330). -/
theorem runActs_read_eq {base : Nat} (h : Writable s) (spared : Spares r as) (e : runActs base as s = .ok t) :
    t.report.read r = s.report.read r := by
  induction as generalizing s with
  | nil => cases e; rfl
  | cons a as ih =>
    obtain ⟨first, rest⟩ := (spares_cons a as).1 spared
    obtain ⟨v, line, lines⟩ := res_bind_eq_ok e
    rw [ih ((runAct_eq_ok h line).1.wrote.writable h) rest lines, runAct_read_eq h first line]

/-! ## The parts of the listing -/

theorem noReport_sliceStartActs (p : Params) (g : Geometry) : NoReport (sliceStartActs p g) := by
  unfold sliceStartActs naluRecordActs; simp

theorem noReport_pwtActs (p : Params) (isB hasChroma : Bool) : NoReport (pwtActs p isB hasChroma) := by
  unfold pwtActs pwtListActs pwtEntryActs; simp

theorem noReport_slicePocActs (p : Params) : NoReport (slicePocActs p) := by
  unfold slicePocActs longTermActs longTermEntryActs; simp

theorem noReport_listModificationActs (p : Params) : NoReport (listModificationActs p) := by
  unfold listModificationActs; simp

/-- The lines of the SAO flags assign `SAO_OFFSET` alone, and only with SAO in the SPS (R300). -/
theorem spares_sliceSaoActs (p : Params)
    (h : r = .sao → Rec.SPS.sample_adaptive_offset_enabled_flag p = false) : Spares r (sliceSaoActs p) := by
  unfold sliceSaoActs
  by_cases named : r = .sao
  · rw [h named, onlyIf, if_neg Bool.false_ne_true]
    exact spares_nil
  · simp [Act.target, Ne.symm named]

/-- The block of the P and B slices assigns the position of the weight tables alone (R300, R310). -/
theorem spares_slicePBActs (p : Params) (h : r ≠ .pwt) : Spares r (slicePBActs p) := by
  unfold slicePBActs sliceInterActs
  simp [Act.target, h.symm, (noReport_pwtActs _ _ _).spares, (noReport_listModificationActs _).spares]

/-- From the QP delta on the position of the QP delta alone is assigned (R300). -/
theorem spares_sliceQpActs (p : Params) (h : r ≠ .qpd) : Spares r (sliceQpActs p) := by
  unfold sliceQpActs
  simp [Act.target, h.symm, (noReport_se _).spares]

/-- The block of an independent segment assigns the three positions, that of the SAO flags only with SAO in the SPS
(R300, R330). -/
theorem spares_sliceIndependentActs (p : Params) (hq : r ≠ .qpd) (hw : r ≠ .pwt)
    (hs : r = .sao → Rec.SPS.sample_adaptive_offset_enabled_flag p = false) : Spares r (sliceIndependentActs p) := by
  unfold sliceIndependentActs
  simp [(noReport_u _ _).spares, (noReport_slicePocActs p).spares, spares_sliceSaoActs p hs, spares_slicePBActs p hw,
    spares_sliceQpActs p hq]

/-- The last lines of `PackSSH`: with `dyn` the two assignments, else the trailing bits (R300). -/
def sshLastActs (p : Params) (dyn : Bool) : List Act :=
  if dyn then [.assign .sshStartLen (sliceStartCode p), .mark .sshOffset] else [.trailing]

theorem sshLastActs_suffix (p : Params) (g : Geometry) (dyn : Bool) : sshLastActs p dyn <:+ sshActs p g dyn := by
  unfold sshActs sliceEndActs
  rw [← List.append_assoc]
  exact List.suffix_append _ _

/-- What `PackSSH` assigns: the two registers of its last lines with `dyn`, and what the block of an independent segment
does where there is one (R300). -/
theorem spares_sshActs (p : Params) (g : Geometry) {dyn : Bool}
    (last : dyn = true → .sshStartLen ≠ r ∧ .sshOffset ≠ r)
    (block : sliceDependent p = false → Spares r (sliceIndependentActs p)) : Spares r (sshActs p g dyn) := by
  have ends : Spares r (sliceEndActs p dyn) := by
    unfold sliceEndActs
    simpa [Act.target] using last
  have middle : Spares r (if sliceDependent p then []
      else if 2 < Rec.SLICE.type p then failWith .badParam 50 else sliceIndependentActs p) := by
    simpa using fun independent _ => block independent
  exact (spares_append _ _).2 ⟨(spares_append _ _).2 ⟨(noReport_sliceStartActs p g).spares, middle⟩, ends⟩

/-! ## What a header that completes leaves -/

theorem startCodeLength_eq (long : Bool) (type : Nat) :
    startCodeLength long type = 3 ∨ startCodeLength long type = 4 := by
  unfold startCodeLength
  split
  · exact .inr rfl
  · exact .inl rfl

/-- A `PackSSH` that completes has run its listing from cleared report registers. -/
theorem packSsh_eq_ok {dyn : Bool} (e : packSsh dyn s = .ok t) :
    ∃ g, runActs s.bitpos (sshActs s.params g dyn) s.clearReport = .ok t := by
  cases picture : geometry s.params with
  | none =>
    rw [packSsh_of_none dyn picture] at e
    cases e
  | some g =>
    rw [packSsh_of_some dyn picture] at e
    split at e
    · cases e
    · split at e
      · cases e
      · split at e
        · cases e
        · exact ⟨g, e⟩

/-- A register that no line of the header names is 0 after it (R330). -/
theorem packSsh_read_eq_zero {dyn : Bool} (h : Writable s) (e : packSsh dyn s = .ok t)
    (last : dyn = true → .sshStartLen ≠ r ∧ .sshOffset ≠ r)
    (block : sliceDependent s.params = false → Spares r (sliceIndependentActs s.params)) : t.report.read r = 0 := by
  obtain ⟨g, run⟩ := packSsh_eq_ok e
  rw [runActs_read_eq h.clearReport (spares_sshActs _ g last block) run]
  cases r <;> rfl

/-- With `dyn` the start code length and the length of the header stand in their registers at the end (R300, R330). -/
theorem packSsh_dynamic (e : packSsh true s = .ok t) :
    t.report.sshStartLen = BitVec.ofNat 32 (sliceStartCode s.params) ∧
      t.report.sshOffset = BitVec.ofNat 32 (t.bitpos - s.bitpos) := by
  obtain ⟨g, run⟩ := packSsh_eq_ok e
  obtain ⟨body, split⟩ := sshLastActs_suffix s.params g true
  rw [← split, runActs_append] at run
  obtain ⟨v, -, last⟩ := res_bind_eq_ok run
  cases last
  exact ⟨rfl, rfl⟩

/-- Without `dyn` the header ends on a byte boundary (R138, R300). -/
theorem packSsh_aligned (h : Writable s) (e : packSsh false s = .ok t) : t.writer.bitOffset = 0 := by
  obtain ⟨g, run⟩ := packSsh_eq_ok e
  exact runActs_aligned_of_trailing h.clearReport (sshLastActs_suffix s.params g false) run

/-- Settles O50: the last lines of the listing are those of `dyn`; a register that no line names is 0. -/
theorem reportRegisters : Obligations.ReportRegisters := by
  intro s t dyn hs hw _ h hok
  have room : Writable s := ⟨hs, hw⟩
  obtain ⟨u, completed, rfl⟩ := (packSsh_keepsFixed dyn).completes h hok
  refine ⟨?dynamic, ?whole, fun dependent => ?dependent, fun off => ?noSao⟩
  case dynamic =>
    rintro rfl
    obtain ⟨start, offset⟩ := packSsh_dynamic completed
    exact ⟨start, startCodeLength_eq _ _, offset⟩
  case whole =>
    rintro rfl
    have zero {r : ReportReg} (hq : r ≠ .qpd) (hp : r ≠ .pwt) (ha : r ≠ .sao) : u.report.read r = 0 :=
      packSsh_read_eq_zero room completed nofun fun _ => spares_sliceIndependentActs _ hq hp fun same => absurd same ha
    have aligned : u.writer.bitOffset = 0 := packSsh_aligned room completed
    exact ⟨zero (r := .sshStartLen) nofun nofun nofun, zero (r := .sshOffset) nofun nofun nofun, aligned⟩
  case dependent =>
    have zero {r : ReportReg} (hl : .sshStartLen ≠ r) (ho : .sshOffset ≠ r) : u.report.read r = 0 :=
      packSsh_read_eq_zero room completed (fun _ => ⟨hl, ho⟩) fun independent =>
        absurd dependent (Bool.eq_false_iff.1 independent)
    exact ⟨zero (r := .qpd) nofun nofun, zero (r := .sao) nofun nofun, zero (r := .pwt) nofun nofun⟩
  case noSao =>
    have zero : u.report.read .sao = 0 := packSsh_read_eq_zero room completed (fun _ => ⟨nofun, nofun⟩) fun _ =>
      spares_sliceIndependentActs _ nofun nofun fun _ => off
    exact zero

end Sys2Proof.Machine
end

section
/-! PROOFS. A run on its own: the fetch that raises a fault (R382, R386), what taking a fault leaves (R381), the idle
engine (R405), the end of every run (R441), and what a reset leaves (R420, R421). -/

namespace Sys2Proof.Machine

variable {s t : State}

/-! ## The end of a run (R26, R441) -/

/-- A machine's run after one step that has a next state. -/
theorem run_succ_of_next {M : Host.Core} {s t : M.State} (k : Nat) (h : M.step s = .next t) :
    M.run (k + 1) s = M.run k t := by
  rw [Host.Core.run, h]

/-- A machine's run whose first step is refused. -/
theorem run_succ_of_refused {M : Host.Core} {s : M.State} {r : M.Refusal} (k : Nat) (h : M.step s = .refused r) :
    M.run (k + 1) s = .refused r := by
  rw [Host.Core.run, h]

/-- The run of the command memory `cmd` has ended in `t`: at an `END`, or in a fault of the command at `CP` (R26,
R441). -/
def RunEnded (cmd : Memory 64) (t : State) : Prop :=
  t.status.run = false ∧
    ((t.status.done = true ∧ t.status.fault = false ∧ decode (cmd.read t.cp.toNat) = .ok .endCmd) ∨
      (t.status.fault = true ∧ t.status.done = false ∧ t.faultCp = indexWord t.cp))

/-- The state after `END` (R120). -/
theorem runEnded_endRun (h : Inv s) (hrun : s.status.run = true) (hend : decode (s.cmd.read s.cp.toNat) = .ok .endCmd) :
    RunEnded s.cmd s.endRun :=
  ⟨rfl, .inl ⟨rfl, h.fault_of_run hrun, hend⟩⟩

/-- The state after a fault of a run (R381). -/
theorem runEnded_takeFault {u : State} (h : Inv s) (hrun : s.status.run = true) (e : Effect s u) (code : FaultCode)
    (info : Word) : RunEnded s.cmd (u.takeFault code info) := by
  obtain ⟨-, -, -, -, hstatus, -⟩ := e
  obtain ⟨-, -, -, -, ⟨hrd, -⟩, -⟩ := h
  have hdone : u.status.done = false := by rw [hstatus]; simpa [hrun] using hrd
  exact ⟨rfl, .inr ⟨rfl, hdone, rfl⟩⟩

/-- Settles O20, by induction on the commands from `CP` to the end of `CMD`: a command that completes moves `CP` past
itself, and nothing else goes on. -/
theorem runEnds : Obligations.RunEnds := by
  intro s h hrun hnone
  induction hleft : s.cfg.cmdWords - s.cp.toNat using Nat.strong_induction_on generalizing s with
  | _ left ih =>
    subst hleft
    have turn : step s = engineCycle s := by
      rw [step_of_running (hostDue_of_nil hnone) hrun, hostTick_of_nil hnone]
    rcases engineCycle_progress h.ready (h.cabacOk_of_run hrun) with ⟨t, next⟩ | refused
    case inr => exact ⟨1, by omega, .inl (run_succ_of_refused (M := core) 0 (turn.trans refused))⟩
    case inl =>
      have hstep : step s = .next t := turn.trans next
      have last (ended : RunEnded s.cmd t) : ∃ k ≤ s.cfg.cmdWords - s.cp.toNat + 1,
          Host.Core.run core k s = .refused .bitsOutstandingOverflow ∨
            ∃ t, Host.Core.run core k s = .next t ∧ RunEnded s.cmd t :=
        ⟨1, by omega, .inr ⟨t, run_succ_of_next (M := core) 0 hstep, ended⟩⟩
      cases h.engineLeaves hrun next with
      | ends fetched => exact last (runEnded_endRun h hrun (fetchCommand_eq_ok fetched).2)
      | faults u code info e => exact last (runEnded_takeFault h hrun e code info)
      | completes i u fetched _ e _ =>
        obtain ⟨inside, -⟩ := fetchCommand_eq_ok fetched
        obtain ⟨hcfg, hcmd, -, hcp, hstatus, -, -, hpending, -⟩ := e
        have moved : u.advance.cp.toNat = s.cp.toNat + 1 := by
          have legal : s.cfg.cmdWords ≤ 2 ^ 32 := h.1.2
          rw [State.advance_cp, hcp]
          bv_omega
        have fewer : u.advance.cfg.cmdWords - u.advance.cp.toNat < s.cfg.cmdWords - s.cp.toNat := by
          rw [State.advance_cfg, hcfg, moved]
          omega
        obtain ⟨k, hk, rest⟩ := ih _ fewer u.advance (stepKeepsSound s u.advance h hstep)
          (by rwa [State.advance_status, hstatus]) (by rwa [State.advance_hostPending, hpending]) rfl
        rw [State.advance_cmd, hcmd, ← run_succ_of_next (M := core) k hstep] at rest
        exact ⟨k + 1, by omega, rest⟩

/-! ## The idle engine -/

/-- An idle engine that no host disturbs stays as it is (R405). -/
theorem step_of_idle_nil (hrun : s.status.run = false) (hnone : s.hostPending = []) : step s = .next s := by
  rw [step_of_idle (hostDue_of_nil hnone) hrun, hostTick_of_nil hnone]

/-- Settles O16, by induction on the number of steps. -/
theorem idleKeepsState : Obligations.IdleKeepsState := by
  intro s k hrun hnone
  induction k with
  | zero => rfl
  | succ k ih => rw [run_succ_of_next (M := core) k (step_of_idle_nil hrun hnone), ih]

/-! ## Faults -/

/-- A turn of the engine whose fetch raises a fault (R381). -/
theorem step_of_fetch_error (turn : EngineTurn s) (h : fetchCommand (hostTick s) = .error t) : step s = .next t := by
  obtain ⟨hdue, hrun⟩ := turn
  rw [step_of_running hdue hrun, engineCycle, h]

/-- Settles O5: the decoder accepts legal words alone, so the fetch raises the fault. -/
theorem illegalWordFaults : Obligations.IllegalWordFaults := by
  intro s turn inside illegal
  cases hdec : decode (s.cmd.read s.cp.toNat) with
  | ok i =>
    have legal := (decodeAcceptsOpcodeTable.1 (s.cmd.read s.cp.toNat)).1 ⟨i, hdec⟩
    rw [illegal] at legal
    cases legal
  | error e =>
    have fetch := fetchCommand_of_illegal (s := hostTick s) (e := e) (by simpa using inside) (by simpa using hdec)
    rw [step_of_fetch_error turn fetch, hostTick_cmd, hostTick_cp]
    rfl

/-- Every index of a command shows as itself (R26; log entry 5). -/
theorem indexWord_toNat {i : CmdIndex} (h : i.toNat < 2 ^ 32) : (indexWord i).toNat = i.toNat := by
  rw [indexWord, if_pos h, BitVec.toNat_setWidth, Nat.mod_eq_of_lt h]

/-- Settles O6: the fetch raises the fault; `CP` never passes `CMD_WORDS` in a sound state. -/
theorem fetchPastEndFaults : Obligations.FetchPastEndFaults := by
  intro s turn past
  have fetch := fetchCommand_past_end (s := hostTick s) (by simpa using past)
  refine ⟨by rw [step_of_fetch_error turn fetch, hostTick_cp], fun h => ?_⟩
  obtain ⟨-, -, -, -, -, -, bound, -⟩ := h
  have counted : s.cp.toNat = s.cfg.cmdWords := Nat.le_antisymm bound past
  exact ⟨counted, fun small => by rw [indexWord_toNat (counted ▸ small), counted]⟩

/-- Settles O7: a run has `DONE = 0`, so the status is known field by field. -/
theorem faultIsTaken : Obligations.FaultIsTaken := by
  refine ⟨fun s code info hrun hst => ?_, fun i => indexWord_toNat, fun s _ => step_of_idle_nil⟩
  obtain ⟨hrd, -⟩ := hst
  have hdone : s.status.done = false := by simpa [hrun] using hrd
  rw [finish_raise, State.takeFault, Status.faulted, hdone]

/-! ## Reset -/

/-- Settles O17: the registers of R420 over empty memories. -/
theorem resetIsSound : Obligations.ResetIsSound :=
  inv_resetRegisters (s := State.reset) (by decide) (by decide)

/-- The address lies outside the region. -/
def Outside (a : Nat) (r : Region) : Prop := a < r.1 ∨ r.1 + r.2 ≤ a

/-- The free bytes of a region are bytes of the region (R421). -/
theorem freeRegion_byteAt {a : Nat} {r : Region} (h : Outside a r) : (freeRegion s r).byteAt a = s.byteAt a := by
  refine (Memory.read_writeList _ _ _ _).trans (if_neg ?_)
  rw [List.length_map, List.length_range]
  unfold Outside at h
  omega

/-- The free bytes of regions, one after another: bytes of them alone, and no register. -/
theorem foldl_freeRegion (l : List Region) (s : State) : ∃ m, l.foldl freeRegion s = { s with dmem := m } ∧
    ∀ a, (∀ r ∈ l, Outside a r) → m.read a = s.byteAt a := by
  induction l generalizing s with
  | nil => exact ⟨s.dmem, rfl, fun _ _ => rfl⟩
  | cons r l ih =>
    obtain ⟨m, e, same⟩ := ih (freeRegion s r)
    refine ⟨m, e, fun a h => ?_⟩
    obtain ⟨first, rest⟩ := List.forall_mem_cons.1 h
    rw [same a rest, freeRegion_byteAt first]

/-- A command writes in the writer's region, the buffer and the output region alone (R70). -/
theorem outside_writableRegions {a : Nat} (i : Instr) (hw : Outside a (writerRegion s))
    (hb : Outside a (bufferRegion s)) (ho : Outside a (outputRegion s)) : ∀ r ∈ writableRegions i s, Outside a r := by
  cases i with
  | endCmd | setr | cabacInit | ctxInit | ctxSet => exact fun _ none => absurd none List.not_mem_nil
  | wInit =>
    refine List.forall_mem_singleton.2 ?_
    simp only [Outside] at hb ⊢
    omega
  | packRbsp => exact List.forall_mem_singleton.2 ho
  | getSkipSlice => exact List.forall_mem_cons.2 ⟨hb, List.forall_mem_singleton.2 ho⟩
  | _ => exact List.forall_mem_singleton.2 hw

/-- EVERYTHING an interrupted command can leave behind: bytes of the regions it could write (R421). -/
theorem interruptCommand_frame (s : State) : ∃ m n, interruptCommand s = { s with dmem := m, freeCount := n } ∧
    ∀ a, Outside a (writerRegion s) → Outside a (bufferRegion s) → Outside a (outputRegion s) →
      m.read a = s.byteAt a := by
  unfold interruptCommand
  split
  case h_1 => exact ⟨s.dmem, s.freeCount, rfl, fun _ _ _ _ => rfl⟩
  case h_2 i _ =>
    obtain ⟨m, e, same⟩ := foldl_freeRegion (writableRegions i s) s
    exact ⟨m, s.freeCount + 1, by rw [e], fun a hw hb ho => same a (outside_writableRegions i hw hb ho)⟩

/-- A write of `CTRL` with `RESET = 1` is the reset, whatever `START` is (R34). -/
theorem writeCsr_reset {v : Word} (small : v.toNat < 4) (hv : v.getLsbD 1 = true) :
    writeCsr 0x00 v s = .next (ctrlReset s) := by
  rw [writeCsr, if_pos rfl, writeCtrl, if_neg (Nat.not_le.2 small), if_pos hv]

/-- Settles O11: the registers of R420, over the memories an interrupted command leaves. -/
theorem reset : Obligations.Reset := by
  refine ⟨⟨rfl, rfl, rfl, rfl, rfl, rfl, rfl, rfl, rfl, fun i => by simp [State.reset, Context.reset]⟩,
    fun s v small hv => ⟨ctrlReset s, writeCsr_reset small hv, afterReset_ctrlReset s, ?_⟩⟩
  unfold ctrlReset
  cases hrun : s.status.run with
  | false => exact ⟨rfl, rfl, rfl, fun _ => rfl, fun _ _ _ _ => rfl⟩
  | true =>
    obtain ⟨m, n, e, same⟩ := interruptCommand_frame s
    rw [if_pos rfl, e]
    refine ⟨rfl, rfl, rfl, nofun, fun a hw hb ho => same a ?_ hb ho⟩
    simp only [Outside, writerRegion]
    omega

end Sys2Proof.Machine
end

section
/-! PROOFS. The bins of a coding tree and `CODING_TREE` (R341 to R346), and the refusals of `GET_SKIP_SLICE` before
anything changes (R350). -/

namespace Sys2Proof.Machine

variable {s t : State} {e : WalkEnv}

/-! ## The bins -/

theorem avail_le_one (e : WalkEnv) (xn yn : Int) : avail e xn yn ≤ 1 := by
  unfold avail
  split
  · exact Nat.zero_le 1
  · split
    · exact le_rfl
    · exact Nat.zero_le 1

/-- With `MERGE_IDX` 0 the code is one bin, where there is a choice at all (R344). -/
theorem mergeBins_zero (n : Nat) : mergeBins 0 0 n = if 0 < n then [.ctx 7 false] else [] := by
  cases n with
  | zero => rfl
  | succ n => rfl

/-- A coding block that can be split and lies inside the picture is not split (R343). -/
theorem codingTreeBins_inside (e : WalkEnv) (d : Nat) {x y : Nat}
    (hx : x + 2 ^ (e.geom.minCbLog2 + d + 1) ≤ e.geom.width)
    (hy : y + 2 ^ (e.geom.minCbLog2 + d + 1) ≤ e.geom.height) : codingTreeBins e (d + 1) x y =
      .ctx (ctxIndex .splitCodingUnitFlag (splitCtxInc e x y)) false :: codingUnitBins e x y := by
  have inside : ¬crosses e x y (2 ^ (e.geom.minCbLog2 + d + 1)) = true := by
    simp only [crosses, Bool.or_eq_true, decide_eq_true_eq]
    omega
  rw [codingTreeBins]
  exact if_neg inside

/-- Settles O52: the root of the tree is not split, and its coding unit is coded. -/
theorem wholeCtuBins : Obligations.WholeCtuBins := by
  intro e a merge larger x y hx hy inc
  have one (xn yn : Int) := avail_le_one e xn yn
  refine ⟨Nat.add_le_add (one _ _) (one _ _), ?_⟩
  obtain ⟨d, hd⟩ : ∃ d, e.geom.ctbLog2 = e.geom.minCbLog2 + d + 1 :=
    ⟨e.geom.ctbLog2 - e.geom.minCbLog2 - 1, by omega⟩
  have split : splitCtxInc e x y = if e.mode = .availabilityCount then inc else 0 := by
    unfold splitCtxInc
    cases e.mode <;> rfl
  have choice : 0 < 4 - e.fiveMinus ↔ e.fiveMinus < 4 := by omega
  have depth : e.geom.ctbLog2 - e.geom.minCbLog2 = d + 1 := by omega
  rw [hd] at hx hy
  rw [ctuBins, depth, codingTreeBins_inside e d hx hy, split, codingUnitBins, merge, mergeBins_zero]
  simp only [choice]
  rfl

/-! ## CODING_TREE -/

/-- EVERYTHING `CODING_TREE` does for a picture with a geometry: the two checks, then the bins (R341). -/
theorem codingTree_of_some {g : Geometry} (picture : geometry s.params = some g) (a : Nat) : codingTree a s =
    if picSizeInCtbs g ≤ a then raise .badParam 41 s
    else if 4 < Rec.SLICE.five_minus_max_num_merge_cand s.params then raise .badParam 53 s
    else runBins (ctuBins (walkEnv g s) a) s := by
  rw [codingTree, picture]

/-- Settles O51: the first check that fails decides; where none does, the bins are coded. -/
theorem codingTreeCommand : Obligations.CodingTreeCommand := by
  intro s a hs hw hc
  simp only [exec, execCodingTree, faultNext, ← finish_raise]
  refine ⟨fun bad => by rw [codingTree, bad], fun g picture => ?_⟩
  rw [codingTree_of_some picture]
  refine ⟨fun outside => by rw [picSizeInCtbs, if_pos outside], fun inside => ?_⟩
  rw [picSizeInCtbs, if_neg (Nat.not_le.2 inside)]
  refine ⟨fun merge => by rw [if_pos merge], fun merge readable count fits => ?_⟩
  rw [if_neg (Nat.not_lt.2 merge), (runBins_codes _ ⟨hs, hw⟩ hc readable).completes fits count, finish_ok]
  exact congrArg _ (State.coded_advance s _ _ _)

/-! ## The refusals of GET_SKIP_SLICE -/

/-- EVERYTHING `GET_SKIP_SLICE` does for a picture with a geometry: the check of the CTU range, then the body (R350). -/
theorem getSkipSlice_of_some {g : Geometry} (picture : geometry s.params = some g) (append : Bool) (n : Nat) :
    getSkipSlice append n s =
      if n = 0 ∨ picSizeInCtbs g < sliceAddress s.params + n then raise .badParam 41 s
      else skipSliceBody g append n s := by
  rw [getSkipSlice, picture]

/-- A buffer outside `DMEM` (R131). -/
theorem writerInit_outside (off : BitVec 3)
    (outside : s.cfg.dmemSize < s.writer.bufStart.toNat + s.writer.bufSize.toNat) :
    writerInit off s = raise .memRange 1 s := if_pos outside

/-- Settles O54: the geometry, the CTU range, the buffer, in this order. -/
theorem getSkipSliceChecks : Obligations.GetSkipSliceChecks := by
  intro s append n
  have none : n = 0 ↔ n.toNat = 0 := by rw [← BitVec.toNat_inj]; rfl
  simp only [exec, execGetSkipSlice, faultNext, ← finish_raise, Ne, none]
  refine ⟨fun bad => by rw [getSkipSlice, bad], fun g picture => ?_⟩
  rw [getSkipSlice_of_some picture, picSizeInCtbs]
  refine ⟨fun range => by rw [if_pos range], fun some range outside => ?_⟩
  rw [if_neg (not_or.2 ⟨some, Nat.not_lt.2 range⟩), skipSliceBody, writerInit_outside 0 outside]
  rfl

end Sys2Proof.Machine
end

section
/-! PROOFS. The parts of a skip slice: bits as whole bytes (R12), the contexts that are set up (R351), the loop over the
CTUs (R350). -/

namespace Sys2Proof.Machine

variable {s t : State}

/-! ## Bits as whole bytes (R12) -/

/-- The bits of a byte put together from bits. -/
theorem bitsMsb_byte (b7 b6 b5 b4 b3 b2 b1 b0 : Bool) :
    bitsMsb 8 (BitVec.ofNat 8 (128 * b7.toNat + 64 * b6.toNat + 32 * b5.toNat + 16 * b4.toNat + 8 * b3.toNat +
      4 * b2.toNat + 2 * b1.toNat + b0.toNat)).toNat = [b7, b6, b5, b4, b3, b2, b1, b0] := by
  revert b7 b6 b5 b4 b3 b2 b1 b0
  decide

/-- Whole bytes of bits have the bits they are packed from. -/
theorem bytesBits_packBits (bits : List Bool) (whole : bits.length % 8 = 0) : bytesBits (packBits bits) = bits := by
  induction bits using packBits.induct with
  | case1 b7 b6 b5 b4 b3 b2 b1 b0 bits ih =>
    have rest : bits.length % 8 = 0 := by simp only [List.length_cons] at whole; omega
    rw [packBits, bytesBits_cons, bitsMsb_byte, ih rest]
    rfl
  | case2 bits few =>
    match bits, few with
    | [], _ => rfl
    | [_], _ | [_, _], _ | [_, _, _], _ | [_, _, _, _], _ | [_, _, _, _, _], _ | [_, _, _, _, _, _], _
    | [_, _, _, _, _, _, _], _ => simp at whole
    | _ :: _ :: _ :: _ :: _ :: _ :: _ :: _ :: _, few => exact (few _ _ _ _ _ _ _ _ _ rfl).elim

theorem packBits_length {bits : List Bool} (whole : bits.length % 8 = 0) :
    (packBits bits).length = bits.length / 8 := by
  have length := bytesBits_length (packBits bits)
  rw [bytesBits_packBits bits whole] at length
  omega

/-! ## The contexts (R351) -/

/-- A context read after a write to the same and to another one. -/
theorem setContext_getElem (s : State) (i k : Fin 9) (v : Byte) :
    (s.setContext i v).ctx[k] = if i = k then ⟨v, true⟩ else s.ctx[k] := by
  by_cases e : i = k
  · subst e
    simp
  · have ne : i.val ≠ k.val := fun h => e (Fin.ext h)
    simp [e, Vector.getElem_set_ne _ _ ne]

/-- The contexts `SkipCtxSetup` leaves, whatever was there (R351, R352). -/
theorem skipCtxSetup_ctx (typ : Nat) (qp : Int) (s : State) :
    ((initSkipContexts typ qp s).setContext 8 63).ctx = skipContexts typ qp := by
  refine Vector.ext fun k hk => ?_
  change ((initSkipContexts typ qp s).setContext 8 63).ctx[(⟨k, hk⟩ : Fin 9)] = _
  simp only [initSkipContexts, initContext, List.range, List.range.loop, List.foldl, setContext_getElem, skipContexts,
    Vector.getElem_ofFn]
  interval_cases k <;> rfl

/-- `SkipCtxSetup` where its checks pass (R351). -/
theorem skipCtxSetup_eq (pass : skipChecks s.params = none) :
    skipCtxSetup s = .ok { s with ctx := skipContexts (Rec.SLICE.type s.params) (sliceQp s.params) } := by
  rw [skipCtxSetup, pass]
  simp only
  rw [← skipCtxSetup_ctx (Rec.SLICE.type s.params) (sliceQp s.params) s, initSkipContexts_eq]
  rfl

theorem skipContexts_valid (typ : Nat) (qp : Int) : AllValid (skipContexts typ qp) := by
  rw [← skipCtxSetup_ctx typ qp State.reset]
  exact skipCtxSetup_allValid typ qp 63 State.reset

theorem AllValid.readable {x : Vector Context 9} (h : AllValid x) (b : Bin) : b.readable x = true := by
  cases b with
  | ctx i v => exact h i
  | bypass v => rfl

/-! ## The loop over the CTUs (R350) -/

theorem runBins_append (as bs : List Bin) (s : State) : runBins (as ++ bs) s = runBins as s >>= runBins bs := by
  induction as generalizing s with
  | nil => rfl
  | cons a as ih =>
    rw [List.cons_append, runBins, runBins, bind_assoc]
    exact congrArg _ (funext ih)

/-- The loop is the bins of the slice, then `SliceFinish`. -/
theorem ctuLoop_eq (e : WalkEnv) (a n : Nat) (s : State) :
    ctuLoop e a (n + 1) s = runBins (skipSliceBins e a (n + 1)) s >>= sliceFinish := by
  induction n generalizing a s with
  | zero => rfl
  | succ n ih =>
    have later : (fun t => encodeBin (ctxIndex .endOfSliceFlag 0) false t >>= ctuLoop e (a + 1) (n + 1)) =
        fun t => runBins (.ctx (ctxIndex .endOfSliceFlag 0) false :: skipSliceBins e (a + 1) (n + 1)) t >>= sliceFinish :=
      funext fun t => by
        rw [funext (ih (a + 1)), runBins, bind_assoc]
        rfl
    rw [skipSliceBins, runBins_append, bind_assoc, ← later]
    rfl

/-- The bits the loop sends, with the contexts and the registers it leaves: those of the slice's bins, of `SliceFinish`
and of the trailing bits where they end (R169, R350). -/
def State.sliceCoded (s : State) (bins : List Bin) : List Bool × Vector Context 9 × Cabac :=
  let x := codeBins bins s.ctx s.cabac
  (x.1 ++ (s.coded x).finishBits, x.2.1, (codeFinish x.2.2).2)

/-- The loop from the coder's first state, where its bits fit and the count of outstanding bits stays clear of R24's
limit. -/
theorem ctuLoop_completes (h : Writable s) (hall : AllValid s.ctx) (hc : s.cabac = Cabac.reset) (e : WalkEnv)
    (a : Nat) {n : Nat} (hn : 0 < n) (count : 8 * (skipSliceBins e a n).length + 8 < 2 ^ 32)
    (fits : Fits s (s.sliceCoded (skipSliceBins e a n)).1.length) :
    ctuLoop e a n s = .ok (s.coded (s.sliceCoded (skipSliceBins e a n))) := by
  obtain ⟨m, rfl⟩ : ∃ m, n = m + 1 := ⟨n - 1, by omega⟩
  generalize hbins : skipSliceBins e a (m + 1) = bins at count fits
  have coding : Coding (8 * bins.length + 8) s.cabac := by
    rw [hc]
    exact ⟨by decide, by decide, by simpa [Cabac.reset] using count⟩
  obtain ⟨ok, -, left⟩ := codeBins_coding bins s.ctx coding
  have binsFit : Fits s (codeBins bins s.ctx s.cabac).1.length := by
    simp only [State.sliceCoded, List.length_append, Fits] at fits ⊢
    omega
  have coded := (runBins_codes bins h coding.ok fun b _ => hall.readable b).completes binsFit
    (by have := coding.count; omega)
  have room : Writable (s.coded (codeBins bins s.ctx s.cabac)) := (wrote_coded binsFit).writable h
  have finished := (sliceFinish_codes room ok).completes
    ((fits_coded h _ ((s.coded (codeBins bins s.ctx s.cabac)).finishBits, s.ctx, s.cabac) binsFit).2 fits) left
  rw [ctuLoop_eq, hbins, coded]
  exact finished.trans (congrArg _ (State.coded_coded s _ _))

end Sys2Proof.Machine
end

section
/-! PROOFS. `GET_SKIP_SLICE` where nothing stops it (R350): the procedures one after another leave the bits of the pure
unit in the buffer, and `PackRBSP` stores their protected form. -/

namespace Sys2Proof.Machine

variable {s t : State} {g : Geometry} {n : Nat}

/-! ## The inputs and the unit -/

/-- The pure unit of the command (R350). -/
abbrev State.skipUnit (s : State) (g : Geometry) (n : Nat) : List Bool × Vector Context 9 × Cabac :=
  skipSliceUnit s.params (walkEnv g s) n

/-- What the statement about `GET_SKIP_SLICE` asks of the inputs, but for the output region (R350): the geometry, the CTU
range, the buffer and the unit in it, the checks of the header and of the contexts, R24's limit. -/
structure SkipInputs (s : State) (g : Geometry) (n : Nat) : Prop where
  size : s.cfg.dmemSize ≤ 2 ^ 29
  picture : geometry s.params = some g
  some : 0 < n
  range : sliceAddress s.params + n ≤ picSizeInCtbs g
  buffer : s.writer.bufStart.toNat + s.writer.bufSize.toNat ≤ s.cfg.dmemSize
  bounds : spsBoundChecks s.params = none
  go : NoStop (sshActs s.params g false)
  checks : skipChecks s.params = none
  count : 8 * (skipSliceBins (walkEnv g s) (sliceAddress s.params) n).length + 8 < 2 ^ 32
  fits : (s.skipUnit g n).1.length ≤ 8 * s.writer.bufSize.toNat

/-- The report registers after the header of the slice (R330). -/
abbrev State.skipReport (s : State) (g : Geometry) : Report :=
  listingReport 0 0 (sshActs s.params g false) ⟨0, 0, 0, 0, 0⟩

@[simp] theorem enter_params (bits : List Bool) (s : State) : (enter bits s).params = s.params := by
  unfold State.params
  rw [enter_param]

/-- Bits entered, the contexts, the coder's and the report registers set: what the procedures of the command leave of the
opened writer (R350). -/
def State.written (s : State) (bits : List Bool) (x : Vector Context 9) (c : Cabac) (r : Report) : State :=
  { enter bits s with ctx := x, cabac := c, report := r }

section

variable (s) (bits : List Bool) (x : Vector Context 9) (c : Cabac) (r : Report)

theorem wrote_written (fits : Fits s bits.length) : Wrote s (s.written bits x c r) := ⟨bits, c, x, r, fits, rfl⟩

theorem written_bitpos (h : Writable s) (fits : Fits s bits.length) :
    (s.written bits x c r).bitpos = s.bitpos + bits.length := enter_bitpos s bits h.1 h.2 fits

theorem written_room : (s.written bits x c r).room = s.room := enter_room s bits

theorem written_params : (s.written bits x c r).params = s.params := enter_params bits s

theorem written_cfg : (s.written bits x c r).cfg = s.cfg := enter_cfg s bits

theorem written_frame : s.written bits x c r =
    { s with
      dmem := (enter bits s).dmem, writer := (enter bits s).writer, ctx := x, cabac := c, report := r } := by
  obtain ⟨m, w, e⟩ : ∃ m w, enter bits s = { s with dmem := m, writer := w } := ⟨_, _, enter_frame bits s⟩
  rw [State.written, e]

theorem written_writer : (s.written bits x c r).writer = (enter bits s).writer := rfl

theorem written_dmem : (s.written bits x c r).dmem = (enter bits s).dmem := rfl

/-- What is coded next stands after the bits before it. -/
theorem written_coded (y : List Bool × Vector Context 9 × Cabac) :
    (s.written bits x c r).coded y = s.written (bits ++ y.1) y.2.1 y.2.2 r := by
  rw [State.coded, State.written, enter_with, ← enter_append]
  rfl

end

/-- The state between coding the unit and packing its bytes (R350). -/
def State.unitCoded (s : State) (g : Geometry) (n : Nat) : State :=
  (openWriter 0 s).written (s.skipUnit g n).1 (s.skipUnit g n).2.1 (s.skipUnit g n).2.2 (s.skipReport g)

/-- The bits of the header (R300). -/
abbrev State.headerBits (s : State) (g : Geometry) : List Bool := listingBits 0 (sshActs s.params g false)

/-- The state in which the loop over the CTUs starts: the header sent, the contexts and the coder set up (R350). -/
def State.headerCoded (s : State) (g : Geometry) : State :=
  (openWriter 0 s).written (s.headerBits g) (skipContexts (Rec.SLICE.type s.params) (sliceQp s.params)) Cabac.reset
    (s.skipReport g)

/-- The unit is whole bytes: its trailing bits end it on a byte boundary (R138). -/
theorem skipSliceUnit_whole (p : Params) (e : WalkEnv) (n : Nat) : (skipSliceUnit p e n).1.length % 8 = 0 := by
  simp only [skipSliceUnit, List.length_append, trailing_length]
  omega

theorem skipSliceUnit_pos (p : Params) (e : WalkEnv) (n : Nat) : 0 < (skipSliceUnit p e n).1.length := by
  simp only [skipSliceUnit, List.length_append, trailing_length]
  omega

theorem SkipInputs.opened (h : SkipInputs s g n) : Writable (openWriter 0 s) := by
  rw [openWriter_eq]
  exact ⟨h.size, opened_writerOk s.writer 0 h.size h.buffer fun ⟨_, ne⟩ => ne rfl⟩

theorem openWriter_zero_bitpos (s : State) : (openWriter 0 s).bitpos = 0 := openWriter_bitpos 0 s

theorem openWriter_zero_aligned (s : State) : (openWriter 0 s).writer.bitOffset = 0 := by
  rw [openWriter_eq]; rfl

theorem openWriter_bytePos (off : BitVec 3) (s : State) : (openWriter off s).writer.bytePos = s.writer.bufStart := by
  rw [openWriter_eq]; rfl

theorem openWriter_params (off : BitVec 3) (s : State) : (openWriter off s).params = s.params := by
  rw [openWriter_eq]; rfl

/-- The opened buffer has room for the bits of its bytes (R130, R131). -/
theorem SkipInputs.fits_iff (h : SkipInputs s g n) (k : Nat) :
    Fits (openWriter 0 s) k ↔ k ≤ 8 * s.writer.bufSize.toNat := by
  have start := openWriter_zero_bitpos s
  have room : (openWriter 0 s).room = 8 * s.writer.bufSize.toNat := by
    have size := h.size
    have buffer := h.buffer
    rw [openWriter_eq]
    simp only [State.room, Writer.opened]
    bv_omega
  rw [Fits, start, room, Nat.zero_add]

/-- The bits of the unit but for those that end the slice, with the contexts and registers after its bins. -/
abbrev State.binsCoded (s : State) (g : Geometry) (n : Nat) : List Bool × Vector Context 9 × Cabac :=
  codeBins (skipSliceBins (walkEnv g s) (sliceAddress s.params) n)
    (skipContexts (Rec.SLICE.type s.params) (sliceQp s.params)) Cabac.reset

/-- The unit: header, bins, the bits of `SliceFinish`, trailing bits (R350). -/
theorem skipUnit_eq (s : State) (g : Geometry) (n : Nat) : s.skipUnit g n =
    (s.headerBits g ++ (s.binsCoded g n).1 ++ (codeFinish (s.binsCoded g n).2.2).1 ++
      Act.bits (s.headerBits g ++ (s.binsCoded g n).1 ++ (codeFinish (s.binsCoded g n).2.2).1).length .trailing,
      (s.binsCoded g n).2.1, (codeFinish (s.binsCoded g n).2.2).2) := rfl

/-- Header and bins fit in the buffer. -/
theorem SkipInputs.parts_le (h : SkipInputs s g n) :
    (s.headerBits g).length + (s.binsCoded g n).1.length ≤ 8 * s.writer.bufSize.toNat := by
  have fits := h.fits
  rw [skipUnit_eq] at fits
  simp only [List.length_append] at fits
  omega

theorem SkipInputs.headerFits (h : SkipInputs s g n) : Fits (openWriter 0 s) (s.headerBits g).length :=
  (h.fits_iff _).2 (by have := h.parts_le; omega)

/-! ## The header -/

/-- The header of the slice, packed into the buffer just opened (R300, R350). -/
theorem SkipInputs.header (h : SkipInputs s g n) : packSsh false (openWriter 0 s) =
    .ok ((enter (s.headerBits g) (openWriter 0 s)).setReport (s.skipReport g)) := by
  have start := openWriter_zero_bitpos s
  rw [packSsh, openWriter_params, h.picture]
  simp only [h.bounds]
  have listing := runActs_clearReport_eq h.opened 0 h.go (by rw [start]; exact h.headerFits)
  rw [start] at listing
  rw [runSsh, start, openWriter_params]
  exact listing

/-- The contexts and the coder set up after bits and report registers (R161, R351). -/
theorem skipCtxSetup_cabacInit_enter (bits : List Bool) (r : Report) (pass : skipChecks s.params = none)
    (hc : s.cabac = Cabac.reset) : skipCtxSetup (cabacInit ((enter bits s).setReport r)) =
      .ok (s.written bits (skipContexts (Rec.SLICE.type s.params) (sliceQp s.params)) Cabac.reset r) := by
  have params : (cabacInit ((enter bits s).setReport r)).params = s.params := enter_params bits s
  have same : (enter bits s).cabac = Cabac.reset := (enter_cabac s bits).trans hc
  rw [skipCtxSetup_eq (by rw [params]; exact pass), params, cabacInit, State.setReport_cabac, same]
  rfl

/-- The contexts and the coder, set up after the header (R351). -/
theorem SkipInputs.setup (h : SkipInputs s g n) :
    skipCtxSetup (cabacInit ((enter (s.headerBits g) (openWriter 0 s)).setReport (s.skipReport g))) =
      .ok (s.headerCoded g) := by
  have params := openWriter_params 0 s
  rw [skipCtxSetup_cabacInit_enter _ _ (by rw [params]; exact h.checks) (openWriter_cabac 0 s), params,
    State.headerCoded]

/-- After `header`, the bits of the loop make the whole unit: the trailing bits are those of the place where the
unit's bits end (R169, R350). -/
theorem append_sliceCoded (h : Writable s) {header : List Bool} (pos : s.bitpos = header.length) {bins : List Bin}
    {x : List Bool × Vector Context 9 × Cabac} (code : codeBins bins s.ctx s.cabac = x) (fits : Fits s x.1.length) :
    header ++ (s.sliceCoded bins).1 = header ++ x.1 ++ (codeFinish x.2.2).1 ++
      Act.bits (header ++ x.1 ++ (codeFinish x.2.2).1).length .trailing := by
  have after : (s.coded x).bitpos = s.bitpos + x.1.length := enter_bitpos s x.1 h.1 h.2 fits
  have last : (s.coded x).cabac = x.2.2 := rfl
  simp only [State.sliceCoded, code, State.finishBits, last, after, pos, List.length_append, List.append_assoc,
    Nat.add_assoc]

theorem sliceCoded_registers {bins : List Bin} {x : List Bool × Vector Context 9 × Cabac}
    (code : codeBins bins s.ctx s.cabac = x) : (s.sliceCoded bins).2 = (x.2.1, (codeFinish x.2.2).2) := by
  rw [State.sliceCoded, code]

theorem SkipInputs.headerCoded_writable (h : SkipInputs s g n) : Writable (s.headerCoded g) :=
  (wrote_written _ _ _ _ _ h.headerFits).writable h.opened

theorem SkipInputs.headerCoded_bitpos (h : SkipInputs s g n) : (s.headerCoded g).bitpos = (s.headerBits g).length := by
  rw [State.headerCoded, written_bitpos _ _ _ _ _ h.opened h.headerFits, openWriter_zero_bitpos, Nat.zero_add]

/-- What fits in the buffer beside the header fits after it. -/
theorem SkipInputs.headerCoded_fits (h : SkipInputs s g n) {k : Nat}
    (both : (s.headerBits g).length + k ≤ 8 * s.writer.bufSize.toNat) : Fits (s.headerCoded g) k := by
  have room : (s.headerCoded g).room = (openWriter 0 s).room := written_room _ _ _ _ _
  have fits := (h.fits_iff _).2 both
  rw [Fits, openWriter_zero_bitpos] at fits
  rw [Fits, h.headerCoded_bitpos, room]
  omega

/-- After the header, the loop's bits make the unit (R350). -/
theorem SkipInputs.append_sliceCoded (h : SkipInputs s g n) : s.headerBits g ++
    ((s.headerCoded g).sliceCoded (skipSliceBins (walkEnv g s) (sliceAddress s.params) n)).1 = (s.skipUnit g n).1 :=
  Machine.append_sliceCoded h.headerCoded_writable h.headerCoded_bitpos (x := s.binsCoded g n) rfl
    (h.headerCoded_fits h.parts_le)

/-- The loop and what follows it read the parameter words and the configuration, which stay as they were (R64, R353). -/
theorem headerCoded_params (s : State) (g : Geometry) : (s.headerCoded g).params = s.params := by
  rw [State.headerCoded, written_params, openWriter_params]

theorem unitCoded_params (s : State) (g : Geometry) (n : Nat) : (s.unitCoded g n).params = s.params := by
  rw [State.unitCoded, written_params, openWriter_params]

theorem headerCoded_walkEnv (s : State) (g : Geometry) : walkEnv g (s.headerCoded g) = walkEnv g s := by
  have cfg : (s.headerCoded g).cfg = s.cfg := by rw [State.headerCoded, written_cfg, openWriter_eq]
  rw [walkEnv, headerCoded_params, cfg, walkEnv]

/-- The loop over the CTUs, from the header on (R350). -/
theorem SkipInputs.loop (h : SkipInputs s g n) :
    ctuLoop (walkEnv g s) (sliceAddress s.params) n (s.headerCoded g) = .ok (s.unitCoded g n) := by
  have bits := h.append_sliceCoded
  have registers : ((s.headerCoded g).sliceCoded (skipSliceBins (walkEnv g s) (sliceAddress s.params) n)).2 =
      (s.skipUnit g n).2 := sliceCoded_registers (x := s.binsCoded g n) rfl
  have fits := h.fits
  rw [← bits, List.length_append] at fits
  rw [ctuLoop_completes h.headerCoded_writable (skipContexts_valid _ _) rfl _ _ h.some h.count
    (h.headerCoded_fits fits), State.unitCoded, ← bits, ← registers, State.headerCoded, written_coded]

/-- `GET_SKIP_SLICE` from inputs that pass every check codes the unit, then packs its bytes (R350). -/
theorem SkipInputs.getSkipSlice_eq (h : SkipInputs s g n) (append : Bool) : getSkipSlice append n s =
    packRbsp append (sliceStartCode s.params) (s.unitCoded g n) := by
  have opens : writerInit 0 s = .ok (openWriter 0 s) := by
    rw [writerInit, if_neg (Nat.not_lt.2 h.buffer), if_neg fun ⟨_, ne⟩ => ne rfl]
  have inside : ¬(n = 0 ∨ picSizeInCtbs g < sliceAddress s.params + n) :=
    not_or.2 ⟨Nat.ne_of_gt h.some, Nat.not_lt.2 h.range⟩
  rw [getSkipSlice_of_some h.picture, if_neg inside, skipSliceBody, opens]
  simp only [bind, Except.bind, h.header, h.setup, headerCoded_walkEnv, headerCoded_params, h.loop, unitCoded_params]

/-! ## Packing it -/

/-- Whole bytes of bits that fit move an aligned cursor past them. -/
theorem enter_aligned_writer (h : Writable s) (aligned : s.writer.bitOffset = 0) {bits : List Bool}
    (fits : Fits s bits.length) (whole : bits.length % 8 = 0) : (enter bits s).writer =
      { s.writer with bytePos := s.writer.bytePos + BitVec.ofNat 32 (bits.length / 8), bitOffset := 0 } := by
  obtain ⟨boundary, next⟩ := enter_aligned h aligned (n := bits.length / 8) fits (by omega)
  have pos : (enter bits s).writer.bytePos = s.writer.bytePos + BitVec.ofNat 32 (bits.length / 8) := by
    have inside := (enter bits s).writer.bytePos.isLt
    apply BitVec.eq_of_toNat_eq
    rw [BitVec.toNat_add, BitVec.toNat_ofNat]
    omega
  rw [enter_frame]
  simp only [boundary, pos]

/-- Whole bytes of bits entered at an aligned cursor stand in memory from there on (R132, R141). -/
theorem enter_aligned_readList (h : Writable s) (aligned : s.writer.bitOffset = 0) {bits : List Bool}
    (fits : Fits s bits.length) (whole : bits.length % 8 = 0) :
    (enter bits s).dmem.readList s.writer.bytePos.toNat (bits.length / 8) = packBits bits := by
  have bytes := bytesBits_packBits bits whole
  have stand := enter_bytesBits_readList h aligned (packBits bits) (by rwa [bytes])
  rwa [bytes, packBits_length whole] at stand

/-- The writer after the unit: at the end of its bytes, on a byte boundary (R21). -/
theorem SkipInputs.unitCoded_writer (h : SkipInputs s g n) : (s.unitCoded g n).writer =
      { s.writer with
        curStart := s.writer.bufStart, curEnd := s.writer.bufStart + s.writer.bufSize
        bytePos := s.writer.bufStart + BitVec.ofNat 32 ((s.skipUnit g n).1.length / 8), bitOffset := 0 } := by
  have whole := skipSliceUnit_whole s.params (walkEnv g s) n
  rw [State.unitCoded, written_writer,
    enter_aligned_writer h.opened (openWriter_zero_aligned s) ((h.fits_iff _).2 h.fits) whole, openWriter_eq]
  rfl

/-- The unit's bytes stand in the buffer (R350). -/
theorem SkipInputs.unitCoded_readList (h : SkipInputs s g n) :
    (s.unitCoded g n).dmem.readList s.writer.bufStart.toNat ((s.skipUnit g n).1.length / 8) =
      packBits (s.skipUnit g n).1 := by
  have whole := skipSliceUnit_whole s.params (walkEnv g s) n
  rw [State.unitCoded, written_dmem, ← openWriter_bytePos 0 s]
  exact enter_aligned_readList h.opened (openWriter_zero_aligned s) ((h.fits_iff _).2 h.fits) whole

/-- The end of the unit's bytes is an address of `DMEM`. -/
theorem SkipInputs.unit_end (h : SkipInputs s g n) :
    (s.writer.bufStart + BitVec.ofNat 32 ((s.skipUnit g n).1.length / 8)).toNat =
      s.writer.bufStart.toNat + (s.skipUnit g n).1.length / 8 := by
  have size := h.size
  have buffer := h.buffer
  have fits := h.fits
  rw [BitVec.toNat_add, BitVec.toNat_ofNat]
  omega

/-- They are what `PackRBSP` protects (R201, R350). -/
theorem SkipInputs.unitCoded_writerBytes (h : SkipInputs s g n) :
    (s.unitCoded g n).writerBytes = packBits (s.skipUnit g n).1 := by
  rw [State.writerBytes, h.unitCoded_writer]
  simp only [h.unit_end, Nat.add_sub_cancel_left]
  exact h.unitCoded_readList

/-- No byte outside the unit's changes while it is coded (R70, R350). -/
theorem SkipInputs.unitCoded_byteAt (h : SkipInputs s g n) {a : Nat}
    (ha : a < s.writer.bufStart.toNat ∨ s.writer.bufStart.toNat + (s.skipUnit g n).1.length / 8 ≤ a) :
    (s.unitCoded g n).byteAt a = s.byteAt a := by
  have cursor : (openWriter 0 s).cursor = 8 * s.writer.bufStart.toNat := by rw [openWriter_eq]; rfl
  have whole : (s.skipUnit g n).1.length % 8 = 0 := skipSliceUnit_whole s.params (walkEnv g s) n
  have some : 0 < (s.skipUnit g n).1.length := skipSliceUnit_pos s.params (walkEnv g s) n
  calc (s.unitCoded g n).byteAt a = (enter (s.skipUnit g n).1 (openWriter 0 s)).byteAt a := by
        rw [State.byteAt, State.unitCoded, written_dmem, State.byteAt]
    _ = (openWriter 0 s).byteAt a :=
        enter_byteAt_of_outside _ _ a h.opened.1 h.opened.2 ((h.fits_iff _).2 h.fits)
          (by rw [cursor, openWriter_bytePos]; omega)
    _ = s.byteAt a := (openWriter_byteAt_eq 0 s a).trans (if_neg fun ⟨_, first⟩ => by omega)

/-- The registers after the unit (R350). -/
theorem SkipInputs.unitCoded_frame (h : SkipInputs s g n) : s.unitCoded g n =
      { s with
        dmem := (s.unitCoded g n).dmem, ctx := (s.skipUnit g n).2.1, cabac := (s.skipUnit g n).2.2
        report := s.skipReport g
        writer := { s.writer with
          curStart := s.writer.bufStart, curEnd := s.writer.bufStart + s.writer.bufSize
          bytePos := s.writer.bufStart + BitVec.ofNat 32 ((s.skipUnit g n).1.length / 8), bitOffset := 0 } } := by
  have writer := h.unitCoded_writer
  rw [State.unitCoded, written_writer] at writer
  rw [State.unitCoded, written_dmem, written_frame, writer]
  generalize (enter (s.skipUnit g n).1 (openWriter 0 s)).dmem = m
  rw [openWriter_eq]

/-- The output region the command needs (R68, R201): inside `DMEM`, away from the unit, large enough for its protected
form after what is there. -/
structure OutputFits (s : State) (append : Bool) (unit : List Bool) (packed : List Byte) : Prop where
  inside : s.out.start.toNat + s.out.size.toNat ≤ s.cfg.dmemSize
  apart : s.out.start.toNat + s.out.size.toNat ≤ s.writer.bufStart.toNat ∨
    s.writer.bufStart.toNat + unit.length / 8 ≤ s.out.start.toNat
  room : outLenBefore append s + packed.length ≤ s.out.size.toNat

/-- The protected unit of the command (R350). -/
abbrev State.skipPacked (s : State) (g : Geometry) (n : Nat) : List Byte :=
  escape (sliceStartCode s.params) (packBits (s.skipUnit g n).1)

/-- `PackRBSP` where every check passes (R201). -/
theorem packRbsp_completes (h : Writable s) (aligned : s.writer.bitOffset = 0)
    (inside : s.out.start.toNat + s.out.size.toNat ≤ s.cfg.dmemSize) (apart : ¬sourceMeetsOutput s) {append : Bool}
    {pfx : Nat} (room : outLenBefore append s + (escape pfx s.writerBytes).length ≤ s.out.size.toNat) :
    packRbsp append pfx s = .ok (storeUnit append (escape pfx s.writerBytes) s) := by
  rw [packRbsp_eq h, if_neg (not_not.2 aligned), if_neg (Nat.not_lt.2 inside), if_neg apart, packUnit,
    if_neg (Nat.not_lt.2 room)]

theorem SkipInputs.unitCoded_out (h : SkipInputs s g n) : (s.unitCoded g n).out = s.out := by
  rw [h.unitCoded_frame]

theorem outLenBefore_congr {append : Bool} (same : t.out = s.out) : outLenBefore append t = outLenBefore append s := by
  rw [outLenBefore, same, outLenBefore]

/-- `GET_SKIP_SLICE` where the unit and its protected form fit (R350). -/
theorem SkipInputs.getSkipSlice_completes (h : SkipInputs s g n) {append : Bool}
    (out : OutputFits s append (s.skipUnit g n).1 (s.skipPacked g n)) :
    getSkipSlice append n s = .ok (storeUnit append (s.skipPacked g n) (s.unitCoded g n)) := by
  have writable : Writable (s.unitCoded g n) := (wrote_written _ _ _ _ _ ((h.fits_iff _).2 h.fits)).writable h.opened
  have writer := h.unitCoded_writer
  have hout := h.unitCoded_out
  have hcfg : (s.unitCoded g n).cfg = s.cfg := by rw [h.unitCoded_frame]
  have bytes : escape (sliceStartCode s.params) (s.unitCoded g n).writerBytes = s.skipPacked g n := by
    rw [h.unitCoded_writerBytes]
  rw [h.getSkipSlice_eq append, ← bytes]
  obtain ⟨inside, apart, room⟩ := out
  have unitEnd := h.unit_end
  rw [← bytes, ← outLenBefore_congr hout] at room
  generalize s.unitCoded g n = u, (s.skipUnit g n).1.length = len at *
  refine packRbsp_completes writable (by rw [writer]) (by rwa [hout, hcfg]) ?_ (by rwa [hout])
  simp only [sourceMeetsOutput, writer, hout, unitEnd]
  omega

/-- The checks of `SkipCtxSetup` where the slice type, the initialisation and the number of candidates allow it
(R351). -/
theorem skipChecks_eq_none {p : Params} (type : Rec.SLICE.type p ≤ 1)
    (init : ¬(Rec.PPS.cabac_init_present_flag p = true ∧ Rec.SLICE.cabac_init_flag p = true))
    (merge : Rec.SLICE.five_minus_max_num_merge_cand p ≤ 4) : skipChecks p = none := by
  have intra : ¬(Rec.SLICE.type p == 2) = true := by rw [beq_iff_eq]; omega
  have kind : ¬decide (2 < Rec.SLICE.type p) = true := by rw [decide_eq_true_eq]; omega
  have table : ¬(Rec.PPS.cabac_init_present_flag p && Rec.SLICE.cabac_init_flag p) = true := by
    rwa [Bool.and_eq_true]
  have candidates : ¬decide (4 < Rec.SLICE.five_minus_max_num_merge_cand p) = true := by rw [decide_eq_true_eq]; omega
  rw [skipChecks, check, if_neg intra, check, if_neg kind, check, if_neg table, check, if_neg candidates]

/-- The registers after a unit is stored and the command completed (R201). -/
theorem storeUnit_advance (append : Bool) (unit : List Byte) (s : State) : (storeUnit append unit s).advance =
    { s with
      dmem := (storeUnit append unit s).dmem, cp := s.cp + 1
      out := { s.out with len := BitVec.ofNat 32 (outLenBefore append s + unit.length) } } := rfl

/-- A unit stored leaves the bytes that do not meet it (R201). -/
theorem storeUnit_readList_of_apart {append : Bool} {unit : List Byte} {a n : Nat}
    (apart : s.out.start.toNat + outLenBefore append s + unit.length ≤ a ∨
      a + n ≤ s.out.start.toNat + outLenBefore append s) :
    (storeUnit append unit s).dmem.readList a n = s.dmem.readList a n := by
  refine List.map_congr_left fun k hk => ?_
  have below := List.mem_range.1 hk
  exact storeUnit_byteAt_of_outside (by omega)

/-- Settles O53: the unit is coded into the buffer, then its protected form is stored in the output region, which does
not meet it. -/
theorem getSkipSliceCommand : Obligations.GetSkipSliceCommand := by
  intro s append n g size picture some range buffer bounds go type init merge count x packed before fits inside apart room
  have h : SkipInputs s g n.toNat :=
    ⟨size, picture, some, range, buffer, bounds, go, skipChecks_eq_none type init merge, count, fits⟩
  have completed := h.getSkipSlice_completes ⟨inside, apart, room⟩
  have hout := h.unitCoded_out
  have frame := h.unitCoded_frame
  have stands := h.unitCoded_readList
  have others (a : Nat) := h.unitCoded_byteAt (a := a)
  have hbefore : outLenBefore append (s.unitCoded g n.toNat) = before := outLenBefore_congr hout
  rw [exec, execGetSkipSlice, completed, finish_ok]
  change ∃ t, Host.Outcome.next (storeUnit append packed _).advance = _ ∧ _
  have hx : s.skipUnit g n.toNat = x := rfl
  rw [hx] at frame stands others
  clear_value x packed before
  generalize s.unitCoded g n.toNat = u at *
  refine ⟨_, rfl, ?_, ?_, ?_, fun a hbuf hunit => ?_⟩
  · rw [storeUnit_advance, hbefore, hout, frame]
  · refine Eq.trans (storeUnit_readList_of_apart ?_) stands
    rw [hout, hbefore]
    omega
  · have stored := storeUnit_readList append packed u
    rwa [hout, hbefore] at stored
  · refine Eq.trans (storeUnit_byteAt_of_outside ?_) (others a hbuf)
    rwa [hout, hbefore]

end Sys2Proof.Machine
end

section
/-! PROOFS. No engine state from before `GET_SKIP_SLICE` enters its result (R353): two states that agree on what a procedure
of the command reads (`Twin`) agree after it, so the run in the second follows the run in the first. -/

namespace Sys2Proof.Machine

variable {s t : State} {c : Prop}

/-! ## Agreement -/

/-- The two states agree on what the procedures of the command read: parameters, records, the writer, the coder, the
report registers, the output region, the bytes written since the writer was opened, and, where `c` says so, the
contexts. -/
structure Twin (c : Prop) (s t : State) : Prop where
  cfg : t.cfg = s.cfg
  param : t.param = s.param
  writer : t.writer = s.writer
  cabac : t.cabac = s.cabac
  report : t.report = s.report
  start : t.out.start = s.out.start
  size : t.out.size = s.out.size
  ctx : c → t.ctx = s.ctx
  bytes : ∀ a, s.writer.curStart.toNat ≤ a → a < s.writer.bytePos.toNat → t.byteAt a = s.byteAt a
  begun : s.writer.bitOffset ≠ 0 → t.byteAt s.writer.bytePos.toNat = s.byteAt s.writer.bytePos.toNat

theorem Twin.params (h : Twin c s t) : t.params = s.params := by
  unfold State.params
  rw [h.param]

theorem Twin.bitpos (h : Twin c s t) : t.bitpos = s.bitpos := by rw [State.bitpos, h.writer, State.bitpos]

theorem Twin.room (h : Twin c s t) : t.room = s.room := by rw [State.room, h.writer, State.room]

theorem Twin.setCabac (h : Twin c s t) (x : Cabac) : Twin c (s.setCabac x) (t.setCabac x) := { h with cabac := rfl }

theorem Twin.setReport (h : Twin c s t) (r : Report) : Twin c (s.setReport r) (t.setReport r) := { h with report := rfl }

theorem Twin.setContext (h : Twin c s t) (i : Fin 9) (v : Byte) : Twin c (s.setContext i v) (t.setContext i v) :=
  { h with ctx := fun hc => congrArg (fun x : Vector Context 9 => x.set i ⟨v, true⟩) (h.ctx hc) }

theorem Twin.countBin (h : Twin c s t) : Twin c s.countBin t.countBin := by
  rw [State.countBin, State.countBin, h.cabac]
  exact h.setCabac _

/-- A byte overwritten or continued from equal bytes (R132). -/
theorem Twin.rawByte_eq (h : Twin c s t) (b : Bool) :
    rawByte (t.byteAt s.writer.bytePos.toNat) s.writer.bitOffset b =
      rawByte (s.byteAt s.writer.bytePos.toNat) s.writer.bitOffset b := by
  by_cases fresh : s.writer.bitOffset = 0
  · rw [rawByte, if_pos fresh, rawByte, if_pos fresh]
  · rw [h.begun fresh]

/-- The cursor moves one byte at most (R132). -/
theorem nextBytePos_toNat_le (pos : Word) (off : BitVec 3) : (nextBytePos pos off).toNat ≤ pos.toNat + 1 := by
  unfold nextBytePos
  split
  · bv_omega
  · omega

theorem Twin.enterBit (h : Twin c s t) (b : Bool) : Twin c (enterBit b s) (enterBit b t) := by
  have entered (a : Nat)
      (ha : s.writer.curStart.toNat ≤ a ∧ a < s.writer.bytePos.toNat ∨ a = s.writer.bytePos.toNat) :
      (Machine.enterBit b t).byteAt a = (Machine.enterBit b s).byteAt a := by
    rw [enterBit_byteAt, enterBit_byteAt, h.writer]
    split
    · exact h.rawByte_eq b
    · obtain ⟨low, high⟩ | same := ha
      · exact h.bytes a low high
      · contradiction
  refine { h with writer := ?_, bytes := fun a low high => entered a ?_, begun := fun next => entered _ (.inr ?_) }
  · exact congrArg (fun w : Writer =>
      { w with bytePos := nextBytePos w.bytePos w.bitOffset, bitOffset := w.bitOffset + 1 }) h.writer
  · have step := nextBytePos_toNat_le s.writer.bytePos s.writer.bitOffset
    rw [enterBit_writer_curStart] at low
    rw [enterBit_bytePos] at high
    omega
  · have middle : s.writer.bitOffset ≠ 7 := fun last => next (by rw [enterBit_bitOffset, last]; rfl)
    rw [enterBit_bytePos, nextBytePos, if_neg middle]

/-! ## Runs that agree -/

/-- Where the first procedure completes, the second does, in a state related to its state. -/
def Alike (R : State → State → Prop) (r r' : Res) : Prop := ∀ u, r = .ok u → ∃ v, r' = .ok v ∧ R u v

section

variable {R Q : State → State → Prop} {r r' : Res}

theorem Alike.ok {u v : State} (h : R u v) : Alike R (.ok u) (.ok v) := fun _ e => by
  cases e
  exact ⟨v, rfl, h⟩

theorem Alike.error (e : Halt) : Alike R (.error e) r' := nofun

/-- One procedure after another. -/
theorem Alike.bind {f f' : State → Res} (a : Alike R r r') (b : ∀ u v, R u v → Alike Q (f u) (f' v)) :
    Alike Q (r >>= f) (r' >>= f') := by
  intro u e
  obtain ⟨m, first, rest⟩ := res_bind_eq_ok e
  obtain ⟨m', first', same⟩ := a m first
  rw [first']
  exact b m m' same u rest

end

/-! ## The bit writer -/

theorem Twin.needBits (h : Twin c s t) (k : Nat) : Alike (Twin c) (needBits k s) (needBits k t) := by
  rw [Machine.needBits, Machine.needBits, h.bitpos, h.room]
  split
  · exact .error _
  · exact .ok h

theorem Twin.putBitRaw (h : Twin c s t) (b : Bool) : Alike (Twin c) (putBitRaw b s) (putBitRaw b t) := by
  rw [Machine.putBitRaw, Machine.putBitRaw, h.writer, h.cfg]
  split
  · exact .ok (h.enterBit b)
  · exact .error _

theorem Twin.putRaw (h : Twin c s t) (bits : List Bool) : Alike (Twin c) (putRaw bits s) (putRaw bits t) := by
  induction bits generalizing s t with
  | nil => exact .ok h
  | cons b bits ih => exact (h.putBitRaw b).bind fun _ _ h => ih h

theorem Twin.emit (h : Twin c s t) (bits : List Bool) : Alike (Twin c) (emit bits s) (emit bits t) :=
  (h.needBits _).bind fun _ _ h => h.putRaw bits

theorem Twin.putTrailing (h : Twin c s t) (checked : Bool) :
    Alike (Twin c) (putTrailing checked s) (putTrailing checked t) := by
  rw [Machine.putTrailing, Machine.putTrailing, h.writer]
  split
  · exact .ok h
  · exact h.emit _

theorem Twin.runAct (h : Twin c s t) (base : Nat) (a : Act) : Alike (Twin c) (runAct base a s) (runAct base a t) := by
  cases a with
  | put bits => exact h.emit bits
  | trailing => exact h.putTrailing false
  | mark r =>
    rw [Machine.runAct, Machine.runAct, h.report, h.bitpos]
    exact .ok (h.setReport _)
  | assign r v =>
    rw [Machine.runAct, Machine.runAct, h.report]
    exact .ok (h.setReport _)
  | fail code info => exact .error _

theorem Twin.runActs (h : Twin c s t) (base : Nat) (as : List Act) :
    Alike (Twin c) (runActs base as s) (runActs base as t) := by
  induction as generalizing s t with
  | nil => exact .ok h
  | cons a as ih => exact (h.runAct base a).bind fun _ _ h => ih h

/-! ## The coder -/

theorem Twin.putOutstanding (h : Twin c s t) (b : Bool) (n : Nat) :
    Alike (Twin c) (putOutstanding b n s) (putOutstanding b n t) := by
  induction n generalizing s t with
  | zero => exact .ok h
  | succ n ih =>
    refine (h.emit [b]).bind fun u v h => ?_
    rw [h.cabac]
    exact ih (h.setCabac _)

theorem Twin.putBitC (h : Twin c s t) (b : Bool) : Alike (Twin c) (putBitC b s) (putBitC b t) := by
  rw [Machine.putBitC, Machine.putBitC, h.cabac]
  have carry (u v : State) (h : Twin c u v) : Alike (Twin c)
      (Machine.putOutstanding (!b) u.cabac.outstanding.toNat u)
      (Machine.putOutstanding (!b) v.cabac.outstanding.toNat v) := by
    rw [h.cabac]
    exact h.putOutstanding _ _
  split
  · exact (Alike.ok (h.setCabac _)).bind carry
  · exact (h.emit [b]).bind carry

theorem Twin.setLow (h : Twin c s t) (v : Word) : Twin c (s.setLow v) (t.setLow v) := by
  rw [State.setLow, State.setLow, h.cabac]
  exact h.setCabac _

theorem Twin.incOutstanding (h : Twin c s t) : Alike (Twin c) (incOutstanding s) (incOutstanding t) := by
  rw [Machine.incOutstanding, Machine.incOutstanding, h.cabac]
  split
  · exact .ok (h.setCabac _)
  · exact .error _

theorem Twin.renormBand (h : Twin c s t) : Alike (Twin c) (renormBand s) (renormBand t) := by
  rw [Machine.renormBand, Machine.renormBand, h.cabac]
  split
  · exact h.putBitC false
  · split
    · exact (h.setLow _).putBitC true
    · exact (h.setLow _).incOutstanding

theorem Twin.renormLoop (h : Twin c s t) (n : Nat) : Alike (Twin c) (renormLoop n s) (renormLoop n t) := by
  induction n generalizing s t with
  | zero =>
    rw [Machine.renormLoop, Machine.renormLoop, h.cabac]
    split
    · exact .error _
    · exact .ok h
  | succ n ih =>
    rw [Machine.renormLoop, Machine.renormLoop, h.cabac]
    split
    · refine h.renormBand.bind fun u v h => ?_
      rw [doubleInterval, doubleInterval, h.cabac]
      exact ih (h.setCabac _)
    · exact .ok h

/-- `EncodeBin` reads a context, so it needs states that agree on the contexts. -/
theorem Twin.encodeBin (h : Twin True s t) (i : Fin 9) (b : Bool) :
    Alike (Twin True) (encodeBin i b s) (encodeBin i b t) := by
  rw [Machine.encodeBin, Machine.encodeBin, h.ctx trivial, h.cabac]
  split
  · exact (((h.setCabac _).setContext i _).renormLoop 8).bind fun _ _ h => .ok h.countBin
  · exact .error _

theorem Twin.bypassBand (h : Twin c s t) : Alike (Twin c) (bypassBand s) (bypassBand t) := by
  rw [Machine.bypassBand, Machine.bypassBand, h.cabac]
  split
  · exact (h.setLow _).putBitC true
  · split
    · exact h.putBitC false
    · exact (h.setLow _).incOutstanding

theorem Twin.encodeBinEp (h : Twin c s t) (b : Bool) : Alike (Twin c) (encodeBinEp b s) (encodeBinEp b t) := by
  rw [Machine.encodeBinEp, Machine.encodeBinEp, h.cabac]
  exact (h.setLow _).bypassBand.bind fun _ _ h => .ok h.countBin

theorem Twin.sliceFinish (h : Twin c s t) : Alike (Twin c) (sliceFinish s) (sliceFinish t) := by
  rw [Machine.sliceFinish, Machine.sliceFinish, h.cabac]
  refine ((h.setCabac _).renormLoop 8).bind fun u v h => ?_
  rw [h.cabac]
  exact (h.putBitC _).bind fun _ _ h => (h.emit _).bind fun _ _ h => h.putTrailing false

theorem Twin.runBins (h : Twin True s t) (bins : List Bin) : Alike (Twin True) (runBins bins s) (runBins bins t) := by
  induction bins generalizing s t with
  | nil => exact .ok h
  | cons b bins ih =>
    refine Alike.bind (R := Twin True) ?_ fun _ _ h => ih h
    cases b with
    | ctx i v => exact h.encodeBin i v
    | bypass v => exact h.encodeBinEp v

theorem Twin.ctuLoop (h : Twin True s t) (e : WalkEnv) (a n : Nat) :
    Alike (Twin True) (ctuLoop e a n s) (ctuLoop e a n t) := by
  induction n generalizing a s t with
  | zero => exact .ok h
  | succ n ih =>
    refine (h.runBins _).bind fun u v h => ?_
    split
    · exact h.sliceFinish
    · exact (h.encodeBin _ _).bind fun _ _ h => ih h _

/-! ## The command -/

/-- `PackSSH` clears the report registers, so it asks nothing of them. -/
theorem Twin.packSsh (h : Twin c s.clearReport t.clearReport) (dyn : Bool) :
    Alike (Twin c) (packSsh dyn s) (packSsh dyn t) := by
  have params : t.params = s.params := h.params
  have bitpos : t.bitpos = s.bitpos := h.bitpos
  rw [Machine.packSsh, Machine.packSsh, params]
  split
  · exact .error _
  · split
    · exact .error _
    · rw [runSsh, runSsh, params, bitpos]
      exact h.runActs _ _

theorem Twin.cabacInit (h : Twin c s t) : Twin c (cabacInit s) (cabacInit t) := by
  rw [Machine.cabacInit, Machine.cabacInit, h.cabac]
  exact h.setCabac _

/-- `SkipCtxSetup` sets every context, so it asks nothing of them (R351). -/
theorem Twin.skipCtxSetup (h : Twin c s t) : Alike (Twin True) (skipCtxSetup s) (skipCtxSetup t) := by
  cases checks : skipChecks s.params with
  | none =>
    rw [skipCtxSetup_eq checks, skipCtxSetup_eq (h.params ▸ checks), h.params]
    exact .ok { h with ctx := fun _ => rfl }
  | some fault =>
    rw [Machine.skipCtxSetup, checks]
    exact .error _

theorem Twin.writerBytes (h : Twin c s t) : t.writerBytes = s.writerBytes := by
  rw [State.writerBytes, State.writerBytes, h.writer]
  refine List.map_congr_left fun k hk => ?_
  have below := List.mem_range.1 hk
  exact h.bytes _ (by omega) (by omega)

/-- The results of the command agree: the registers, and the bytes of the output up to `OUT_LEN`. -/
structure SameResult (s t : State) : Prop where
  out : t.out = s.out
  report : t.report = s.report
  cabac : t.cabac = s.cabac
  ctx : t.ctx = s.ctx
  writer : t.writer = s.writer
  bytes : t.dmem.readList t.out.start.toNat t.out.len.toNat = s.dmem.readList s.out.start.toNat s.out.len.toNat

/-- The output of a unit stored from the start of the region (R201). -/
theorem storeUnit_output {unit : List Byte} (fits : unit.length ≤ s.out.size.toNat) :
    (storeUnit false unit s).dmem.readList s.out.start.toNat (BitVec.ofNat 32 (0 + unit.length)).toNat = unit := by
  have small := s.out.size.isLt
  rw [BitVec.toNat_ofNat, Nat.zero_add, Nat.mod_eq_of_lt (by omega)]
  exact storeUnit_readList false unit s

theorem Twin.storeUnit (h : Twin True s t) {unit : List Byte} (fits : unit.length ≤ s.out.size.toNat) :
    SameResult (storeUnit false unit s) (storeUnit false unit t) where
  out := by
    show (⟨t.out.start, t.out.size, _⟩ : Output) = ⟨s.out.start, s.out.size, _⟩
    rw [h.start, h.size]
    rfl
  report := h.report
  cabac := h.cabac
  ctx := h.ctx trivial
  writer := h.writer
  bytes := (storeUnit_output (h.size ▸ fits)).trans (storeUnit_output fits).symm

theorem outLenBefore_false (s : State) : outLenBefore false s = 0 := rfl

theorem Twin.packRbsp (h : Twin True s t) (pfx : Nat) :
    Alike SameResult (packRbsp false pfx s) (packRbsp false pfx t) := by
  simp only [Machine.packRbsp, sourceMeetsOutput, h.writer, h.cfg, h.start, h.size, h.writerBytes]
  split
  · exact .error _
  · split
    · exact .error _
    · split
      · exact .error _
      · split
        · exact .error _
        · rw [packUnit, packUnit, outLenBefore_false, outLenBefore_false, h.size, Nat.zero_add]
          split
          case isTrue => exact .error _
          case isFalse full => exact .ok (h.storeUnit (Nat.le_of_not_lt full))

/-- The states agree on the inputs of the command: parameters, records and regions (R353). -/
structure SameInputs (s t : State) : Prop where
  cfg : t.cfg = s.cfg
  param : t.param = s.param
  bufStart : t.writer.bufStart = s.writer.bufStart
  bufSize : t.writer.bufSize = s.writer.bufSize
  start : t.out.start = s.out.start
  size : t.out.size = s.out.size

theorem SameInputs.params (h : SameInputs s t) : t.params = s.params := by
  unfold State.params
  rw [h.param]

/-- The writer opened on the same buffer: no byte is written yet, so no memory is compared (R131). -/
theorem SameInputs.opened (h : SameInputs s t) :
    Twin False (openWriter 0 s).clearReport (openWriter 0 t).clearReport := by
  have writer : t.writer.opened 0 = s.writer.opened 0 := by
    simp only [Writer.opened, h.bufStart, h.bufSize]
  rw [openWriter_eq 0 s, openWriter_eq 0 t, writer]
  exact
    { cfg := h.cfg, param := h.param, writer := rfl, cabac := rfl, report := rfl, start := h.start, size := h.size
      ctx := False.elim, bytes := fun a low high => absurd high (Nat.not_lt.2 low)
      begun := fun begun => absurd rfl begun }

theorem SameInputs.writerInit (h : SameInputs s t) : Alike (fun u v => Twin False u.clearReport v.clearReport)
    (writerInit 0 s) (writerInit 0 t) := by
  rw [Machine.writerInit, Machine.writerInit, h.bufStart, h.bufSize, h.cfg]
  split
  · exact .error _
  · split
    · exact .error _
    · exact .ok h.opened

/-- The command from states that agree on its inputs (R350, R353). -/
theorem SameInputs.getSkipSlice (h : SameInputs s t) (n : Nat) :
    Alike SameResult (getSkipSlice false n s) (getSkipSlice false n t) := by
  rw [Machine.getSkipSlice, Machine.getSkipSlice, h.params]
  split
  · exact .error _
  · split
    · exact .error _
    · refine h.writerInit.bind fun _ _ h => (h.packSsh false).bind fun _ _ h => h.cabacInit.skipCtxSetup.bind
        fun u v h => ?_
      have env (g : Geometry) : walkEnv g v = walkEnv g u := by
        rw [walkEnv, h.params, h.cfg, walkEnv]
      rw [env, h.params]
      refine (h.ctuLoop _ _ _).bind fun u v h => ?_
      rw [h.params]
      exact h.packRbsp _

/-- Settles O55: the first run completes, so the second does, with the same result. -/
theorem skipSliceDeterminism : Obligations.SkipSliceDeterminism := by
  intro s₁ s₂ t₁ n _ cfg param bufStart bufSize start size _ run hok
  obtain ⟨u, completed, rfl⟩ := (getSkipSlice_keepsFixed false n.toNat).completes run hok
  have inputs : SameInputs s₁ s₂ := ⟨cfg, param, bufStart, bufSize, start, size⟩
  obtain ⟨v, completed', same⟩ := inputs.getSkipSlice n.toNat u completed
  refine ⟨v.advance, ?_, same.out, same.report, same.cabac, same.ctx, same.writer, same.bytes⟩
  rw [exec, execGetSkipSlice, completed', finish_ok]

end Sys2Proof.Machine
end
